-- ==== Sys2Proof/Word.lean ====
section
/-! DEFINITION. The word types of the TRC-410 and the four-fold record every "one per drive, unit or context" uses. -/

namespace Sys2Proof

/-- A byte of the medium, of the image store or of a link frame. -/
abbrev Byte := BitVec 8

/-- A word of the system side (spec/00, Conventions: a word is 16 bits). -/
abbrev Word16 := BitVec 16

/-- Four like things, numbered 0 to 3: drive positions, units, contexts, lock table entries. -/
structure Four (α : Type) where
  n0 : α
  n1 : α
  n2 : α
  n3 : α
  deriving DecidableEq, Repr

namespace Four

variable {α : Type}

/-- The same thing four times. -/
def all (x : α) : Four α := ⟨x, x, x, x⟩

/-- Thing number `i`. -/
def get (f : Four α) (i : Fin 4) : α :=
  match i with
  | 0 => f.n0
  | 1 => f.n1
  | 2 => f.n2
  | 3 => f.n3

/-- Thing number `i` replaced. -/
def set (f : Four α) (i : Fin 4) (x : α) : Four α :=
  match i with
  | 0 => { f with n0 := x }
  | 1 => { f with n1 := x }
  | 2 => { f with n2 := x }
  | 3 => { f with n3 := x }

/-- Thing number `i` changed by `g`. -/
def modify (f : Four α) (i : Fin 4) (g : α → α) : Four α := f.set i (g (f.get i))

/-- Every thing changed by `g`. -/
def map {β : Type} (f : Four α) (g : α → β) : Four β := ⟨g f.n0, g f.n1, g f.n2, g f.n3⟩

/-- The four things built from their numbers. -/
def ofFn (g : Fin 4 → α) : Four α := ⟨g 0, g 1, g 2, g 3⟩

/-- The four things in ascending order. -/
def toList (f : Four α) : List α := [f.n0, f.n1, f.n2, f.n3]

end Four

/-- The numbers 0 to 3 in ascending order. -/
def fourNumbers : List (Fin 4) := [0, 1, 2, 3]

end Sys2Proof
end

