-- ==== Sys2Proof/Syntax.lean ====
section
/-! DEFINITION. The commands of the TRC-410: one constructor per row of spec/opcode_table.json, with the operands the rules give the command. -/

namespace Sys2Proof

/-- The STORE_SIZE strap: 8, 16 or 32 MiB (R173). -/
inductive StoreSize
  | mib8
  | mib16
  | mib32
  deriving DecidableEq, Repr

/-- The strap positions sampled at power-on (R173): STORE_SIZE, PROFILE 0-7, DRIVES 1-4, IOBASE 0-63. -/
structure Straps where
  storeSize : StoreSize
  profile : Fin 8
  drives : Nat
  ioBase : Fin 64
  deriving DecidableEq, Repr

/-- The seven bytes of a header field in recorded order (R5). -/
structure HeaderBytes where
  cylHigh : Byte
  cylLow : Byte
  head : Byte
  sector : Byte
  flag : Byte
  checkHigh : Byte
  checkLow : Byte
  deriving DecidableEq, Repr

/-- The outcomes of a burst that the memory itself signals with its advance (R141). -/
inductive MemoryOutcome
  | done
  | addressInvalid
  | keyViolation
  | parity
  deriving DecidableEq, Repr

/-- What is wrong with a store word (R121, R122): a single-bit error, or one that cannot be corrected. -/
inductive FlipKind
  | single
  | uncorrectable
  deriving DecidableEq, Repr

/-- Window words whose writes are ignored (R133): ANSWER, UNIT_SUMMARY, CONTROLLER_STATE, words 6 and 7. -/
inductive IgnoredWord
  | answer
  | unitSummary
  | controllerState
  | word6
  | word7
  deriving DecidableEq, Repr

/-- The commands, one per row of the opcode table, in the table's order. Drive positions, units and
contexts are numbered 0 to 3. An archive request carries its TAG and its payload bytes as sent. -/
inductive Instr
  /-- POWER_ON: power or the reset pin; the straps it samples (R173). -/
  | powerOn (straps : Straps)
  /-- STORE_CHECK_END: the store check patterns finish; whether a word of the lower half failed, and whether one of the upper half did (R173). -/
  | storeCheckEnd (lowerFails upperFails : Bool)
  /-- FORMAT_END (R173). -/
  | formatEnd
  /-- DISCOVERY_PHASE_END (R173). -/
  | discoveryPhaseEnd
  /-- RESCAN_END: the slots whose record check fails its test (R174). -/
  | rescanEnd (failedChecks : List Nat)
  /-- HOLD_ENTRY (R175). -/
  | holdEntry
  /-- RESUMING_END (R176). -/
  | resumingEnd
  /-- SYSTEM_CLEAR: the line is asserted (R146). -/
  | systemClear
  /-- SYSTEM_CLEAR_RELEASE (R146). -/
  | systemClearRelease
  /-- ADDRESS_HI: a write of window word 0 (R133). -/
  | addressHi (value : Word16)
  /-- ADDRESS_LO: a write of window word 1 (R133). -/
  | addressLo (value : Word16)
  /-- REGISTER_WRITE_IGNORED: a write of a window word that takes none (R133). -/
  | registerWriteIgnored (word : IgnoredWord) (value : Word16)
  /-- START of a unit (R135). -/
  | start (unit : Fin 4)
  /-- PROBE of a unit (R135). -/
  | probe (unit : Fin 4)
  /-- HALT of a unit (R136). -/
  | halt (unit : Fin 4)
  /-- ACKNOWLEDGE of a unit (R136). -/
  | acknowledge (unit : Fin 4)
  /-- ACK_CONTROLLER (R145). -/
  | ackController
  /-- SETUP (R139). -/
  | setup
  /-- ILLEGAL_COMMAND: a COMMAND write with an undefined code; the word written (R134). -/
  | illegalCommand (value : Word16)
  /-- BUS_GRANT (R141). -/
  | busGrant
  /-- BUS_ACCEPT (R141). -/
  | busAccept
  /-- BUS_ADVANCE: the outcome of the burst and, for a LOAD that ends DONE, the words moved (R141). -/
  | busAdvance (outcome : MemoryOutcome) (words : List Word16)
  /-- GRANT_TIMEOUT (R142). -/
  | grantTimeout
  /-- ADVANCE_TIMEOUT (R142). -/
  | advanceTimeout
  /-- PATIENCE_TIMER_EXPIRY of a unit (R155). -/
  | patienceTimerExpiry (unit : Fin 4)
  /-- READ_WINDOW: a chip-select window whose first byte is 0x00; the bytes clocked in it (R165). -/
  | readWindow (bytes : Nat)
  /-- UNKNOWN_REQUEST: the bytes of a request window (R166). -/
  | unknownRequest (window : List Byte)
  /-- LINK_RST: the line is asserted (R172). -/
  | linkRst
  /-- LINK_RST_RELEASE (R172). -/
  | linkRstRelease
  /-- IDENTIFY (R170). -/
  | identify (tag : Byte) (payload : List Byte)
  /-- ATTENTION (R169). -/
  | attention (tag : Byte) (payload : List Byte)
  /-- SET_LIMITS (R171). -/
  | setLimits (tag : Byte) (payload : List Byte)
  /-- STORE_STATE (R132). -/
  | storeState (tag : Byte) (payload : List Byte)
  /-- DEFINE_DRIVE (R14, R15). -/
  | defineDrive (tag : Byte) (payload : List Byte)
  /-- WITHDRAW_DRIVE (R34). -/
  | withdrawDrive (tag : Byte) (payload : List Byte)
  /-- RESTORE_DRIVE (R35). -/
  | restoreDrive (tag : Byte) (payload : List Byte)
  /-- CLEAR_DRIVE_FAULT (R36). -/
  | clearDriveFault (tag : Byte) (payload : List Byte)
  /-- DRIVE_STATE (R37). -/
  | driveState (tag : Byte) (payload : List Byte)
  /-- TRACK_RECORD (R58). -/
  | trackRecord (tag : Byte) (payload : List Byte)
  /-- LIST_TRACKS (R59). -/
  | listTracks (tag : Byte) (payload : List Byte)
  /-- PULL (R60). -/
  | pull (tag : Byte) (payload : List Byte)
  /-- PUSH_SECTOR (R61). -/
  | pushSector (tag : Byte) (payload : List Byte)
  /-- LOCK_TRACK (R55). -/
  | lockTrack (tag : Byte) (payload : List Byte)
  /-- UNLOCK_TRACK (R56). -/
  | unlockTrack (tag : Byte) (payload : List Byte)
  /-- MARK_EXPORTED (R62). -/
  | markExported (tag : Byte) (payload : List Byte)
  /-- RELEASE_TRACK (R63). -/
  | releaseTrack (tag : Byte) (payload : List Byte)
  /-- QUEUE_TRACK (R77). -/
  | queueTrack (tag : Byte) (payload : List Byte)
  /-- RETRY_TRACK (R78). -/
  | retryTrack (tag : Byte) (payload : List Byte)
  /-- SWEEP_START (R79). -/
  | sweepStart (tag : Byte) (payload : List Byte)
  /-- SWEEP_STOP (R79). -/
  | sweepStop (tag : Byte) (payload : List Byte)
  /-- SET_LADDER (R81). -/
  | setLadder (tag : Byte) (payload : List Byte)
  /-- HOLD_ENTER (R175). -/
  | holdEnter (tag : Byte) (payload : List Byte)
  /-- HOLD_EXIT (R176). -/
  | holdExit (tag : Byte) (payload : List Byte)
  /-- RESET_CONTROLLER (R174). -/
  | resetController (tag : Byte) (payload : List Byte)
  /-- READY_LINE_FALL of a drive (R21). -/
  | readyLineFall (drive : Fin 4)
  /-- READY_LINE_RISE of a drive (R21). -/
  | readyLineRise (drive : Fin 4)
  /-- FAULT_LINE_RISE of a drive (R22). -/
  | faultLineRise (drive : Fin 4)
  /-- INDEX of a drive (R4). -/
  | index (drive : Fin 4)
  /-- INDEX_LOST on a drive (R22). -/
  | indexLost (drive : Fin 4)
  /-- DRIVE_ANSWER of a selected drive (R19). -/
  | driveAnswer (drive : Fin 4)
  /-- ANSWER_TIMEOUT of a selected drive (R19). -/
  | answerTimeout (drive : Fin 4)
  /-- MARK_PULSE on a drive's mark line (R19). -/
  | markPulse (drive : Fin 4)
  /-- SEEK_DONE of a drive (R24). -/
  | seekDone (drive : Fin 4)
  /-- SEEK_TIMEOUT on a drive (R24). -/
  | seekTimeout (drive : Fin 4)
  /-- RECALIBRATION_TIMEOUT on a drive (R24). -/
  | recalibrationTimeout (drive : Fin 4)
  /-- SETTLE_END on a drive (R25). -/
  | settleEnd (drive : Fin 4)
  /-- HEADER_FIELD: the bytes taken after a header mark in the current slot's window (R8). -/
  | headerField (bytes : HeaderBytes)
  /-- DATA_FIELD: whether the data mark began inside the blind window, and the bytes that follow the mark (R9, R10). -/
  | dataField (inBlindWindow : Bool) (bytes : List Byte)
  /-- PITCH_WINDOW_CLOSE: whether a data field that began in the window is still being taken (R9). -/
  | pitchWindowClose (taking : Bool)
  /-- BLIND_WINDOW_CLOSE: the current slot's blind window closes with no data mark (R10). -/
  | blindWindowClose
  /-- REFRESH_TIMER: the timer expires (R123); the bit errors that have arisen in store words since the last expiry. -/
  | refreshTimer (flips : List (Nat × FlipKind))
  /-- STORE_BURST_END: the running burst ends (R125); the numbers of the words it read. -/
  | storeBurstEnd (words : List Nat)
  /-- SCRUB_GROUP (R130). -/
  | scrubGroup
  /-- VOTE_SECTOR (R108). -/
  | voteSector
  deriving DecidableEq, Repr

end Sys2Proof
end

