-- ==== Sys2Proof/Config.lean ====
section
/-! DEFINITION. What the implementation of the part fixes and the spec leaves open, as constants without a body, and the codes the part carries. -/

namespace Sys2Proof.Config

/-- How many store words the span of one track record takes, less one (R119 says the span is fixed
and placed by slot number, and gives no length). Free; log entry 5. -/
opaque trackSpanLessOne : Nat → Nat

/-- What a word of the table region above the last track record's span belongs to, by its number
counted from there: `some (false, d)` the geometry record of drive d, `some (true, d)` the sweep
record of drive d, `none` no record (R119). Free; log entry 5. -/
opaque upperTableWord : Nat → Option (Bool × Fin 4)

/-- The number, within a track record's span, of the word that holds DIVERGED (R50, R53). Free; log entry 7. -/
opaque divergedWord : Nat → Nat

/-- VENDOR_CODE of IDENTIFY (R170). -/
def vendorCode : Nat := 0x3A17

/-- PART_CODE of IDENTIFY (R170). -/
def partCode : Nat := 0x0410

/-- PART_REVISION of IDENTIFY (R170). -/
def partRevision : Nat := 2

end Sys2Proof.Config
end

