-- ==== Sys2Proof/Machine/Check.lean ====
section
/-! DEFINITION. The check of R7: CRC-16 with generator x^16 + x^12 + x^5 + 1, most significant bit first, no inversion. -/

namespace Sys2Proof.Machine

/-- One bit shifted through the check register (R7). -/
def crcShift (crc : Word16) : Word16 :=
  if crc.getLsbD 15 then (crc <<< 1) ^^^ 0x1021#16 else crc <<< 1

/-- One byte fed into the check register (R7). -/
def crcByte (crc : Word16) (b : Byte) : Word16 :=
  crcShift (crcShift (crcShift (crcShift (crcShift (crcShift (crcShift (crcShift
    (crc ^^^ (b.zeroExtend 16 <<< 8)))))))))

/-- The check register after the bytes of a field, preset to the seed (R7). -/
def crc : Word16 → List Byte → Word16
  | reg, [] => reg
  | reg, b :: rest => crc (crcByte reg b) rest

/-- A field with its two recorded check bytes verifies when the register ends at zero (R7). -/
def verifies (seed : Word16) (field : List Byte) : Bool := crc seed field = 0#16

/-- The high byte of a word. -/
def highByte (w : Word16) : Byte := (w >>> 8).setWidth 8

/-- The low byte of a word. -/
def lowByte (w : Word16) : Byte := w.setWidth 8

/-- A field followed by its check, high byte first (R7). -/
def withCheck (seed : Word16) (field : List Byte) : List Byte :=
  field ++ [highByte (crc seed field), lowByte (crc seed field)]

/-- The seed of the check on the archive link (R7, R164). -/
def linkSeed : Word16 := 0xFFFF#16

end Sys2Proof.Machine
end

