-- ==== Sys2Proof/Machine/Memory.lean ====
section
/-! DEFINITION. Lists of key and value pairs in one canonical form, and the image store's bytes held in one. -/

namespace Sys2Proof.Machine

/-- The value held under a key. -/
def assocFind {α : Type} (k : Nat) : List (Nat × α) → Option α
  | [] => none
  | (j, v) :: rest => if j = k then some v else assocFind k rest

/-- A value put under a key, the keys kept strictly rising. -/
def assocPut {α : Type} (k : Nat) (v : α) : List (Nat × α) → List (Nat × α)
  | [] => [(k, v)]
  | (j, w) :: rest =>
    if k < j then (k, v) :: (j, w) :: rest
    else if k = j then (k, v) :: rest
    else (j, w) :: assocPut k v rest

/-- A key removed. -/
def assocDel {α : Type} (k : Nat) : List (Nat × α) → List (Nat × α)
  | [] => []
  | (j, w) :: rest => if j = k then rest else (j, w) :: assocDel k rest

/-- The keys are strictly rising, and all at or above a bound. -/
def keysRiseFrom {α : Type} : Nat → List (Nat × α) → Bool
  | _, [] => true
  | bound, (j, _) :: rest => bound ≤ j && keysRiseFrom (j + 1) rest

/-- What a store byte that is not listed reads as (log entry 4). -/
def blankByte : Byte := 0

/-- The canonical form of the store's bytes: addresses strictly rising, no byte equal to what an
unlisted address reads as. -/
def Memory.wf (m : List Host.Cell) : Bool := keysRiseFrom 0 m && m.all (fun c => c.2 ≠ blankByte)

/-- One byte read. -/
def readByte (m : List Host.Cell) (a : Nat) : Byte := (assocFind a m).getD blankByte

/-- One byte written; writing what an unlisted address reads as removes the entry. -/
def writeByte (m : List Host.Cell) (a : Nat) (b : Byte) : List Host.Cell :=
  if b = blankByte then assocDel a m else assocPut a b m

/-- The bytes from an address on, in ascending order. -/
def readBytes (m : List Host.Cell) : Nat → Nat → List Byte
  | _, 0 => []
  | a, n + 1 => readByte m a :: readBytes m (a + 1) n

/-- Bytes written from an address on, in ascending order. -/
def writeBytes (m : List Host.Cell) : Nat → List Byte → List Host.Cell
  | _, [] => m
  | a, b :: rest => writeBytes (writeByte m a b) (a + 1) rest

end Sys2Proof.Machine
end

