-- ==== Sys2Proof/Machine/State.lean ====
section
/-! DEFINITION. The state of the TRC-410 as plain data: every record, list, counter, mode and pin the spec names, and the machine right after reset. -/

namespace Sys2Proof.Machine

/-! ## Names the blocks share -/

/-- Values of a drive record's STATE (R16). -/
inductive DriveState
  | absent
  | notReady
  | ready
  | faulted
  | withdrawn
  deriving DecidableEq, Repr

/-- Values of FAULT_KIND (R16). -/
inductive FaultKind
  | seekFail
  | driveSignalled
  | indexLost
  | readyDrop
  deriving DecidableEq, Repr

/-- Head offsets (R16, R80): NONE, IN, OUT. -/
inductive Offset
  | centre
  | inward
  | outward
  deriving DecidableEq, Repr

/-- Read strobes (R80). -/
inductive Strobe
  | early
  | nominal
  | late
  deriving DecidableEq, Repr

/-- A holder of a drive or of the read path: a recovery context or the Direct Read Slot (R16, R30). -/
inductive Holder
  | ctx (c : Fin 4)
  | drs
  deriving DecidableEq, Repr

/-- Priority classes (R40): DEMAND is the highest, SWEEP the lowest. -/
inductive TrackClass
  | demand
  | archive
  | sweep
  deriving DecidableEq, Repr

/-- The address of a track (spec/00, Conventions). -/
structure TrackAddr where
  drive : Fin 4
  cyl : Nat
  head : Nat
  deriving DecidableEq, Repr

/-- A geometry record that holds fields (R1). -/
structure Geometry where
  cylinders : Nat
  heads : Nat
  sectors : Nat
  sectorBytes : Nat
  interleave : Nat
  period : Nat
  checkSeed : Word16
  deriving DecidableEq, Repr

/-- Values of the controller STATE (R173). -/
inductive CtlState
  | starting
  | ready
  | draining
  | hold
  | resuming
  | storeFailed
  deriving DecidableEq, Repr

/-! ## Drive Supervisor -/

/-- Where a discovery stands (R19). -/
inductive DiscoveryStage
  /-- Selected; waiting for the answer line. -/
  | awaitAnswer
  /-- Recalibrating; whether the recalibration has been sent a second time. -/
  | recalibrating (second : Bool)
  /-- Waiting for the index that opens the header count. -/
  | awaitIndex
  /-- Counting mark pulses; the count so far. -/
  | counting (pulses : Nat)
  deriving DecidableEq, Repr

/-- A discovery in progress: whether its recalibration is skipped (R18), and its stage. -/
structure Discovery where
  skipRecalibration : Bool
  stage : DiscoveryStage
  deriving DecidableEq, Repr

/-- Where a positioning stands (R24, R25). -/
inductive PositioningStage
  | seeking
  /-- Recalibrating; whether the recalibration follows a seek that timed out, and the seek is made again
  whatever its cylinder. -/
  | recalibrating (again : Bool)
  | settling
  deriving DecidableEq, Repr

/-- A positioning in progress for the drive's CLAIM holder (R24). -/
structure Positioning where
  cyl : Nat
  offset : Offset
  stage : PositioningStage
  deriving DecidableEq, Repr

/-- The drive record (R16). DISCOVERING is yes exactly while `discovery` is present. `cylAt` and
`offsetAt` are absent when UNKNOWN. `readyLine` is the level of the drive's ready line, and `faultHeld` tells
that the fault line has risen while the lines were not watched and no discovery has found it yet (R21, log entry
13). -/
structure DriveRec where
  fitted : Bool
  state : DriveState
  faultKind : Option FaultKind
  discovery : Option Discovery
  cylAt : Option Nat
  offsetAt : Option Offset
  claim : Option Holder
  displacedContext : Option (Fin 4)
  drsWaiting : Bool
  observedSectors : Nat
  seekRetried : Bool
  positioning : Option Positioning
  readyLine : Bool
  faultHeld : Bool := false
  deriving DecidableEq, Repr

/-! ## Track Table -/

/-- Values of a track record's STATE (R40). -/
inductive TrackState
  | free
  | pending
  | queued
  | active
  | settled
  | broken
  deriving DecidableEq, Repr

/-- ORIGINS: the kinds of party that have asked for a track (R40). -/
structure Origins where
  system : Bool
  archive : Bool
  sweep : Bool
  deriving DecidableEq, Repr

/-- Values of a sector's STATUS (R41). -/
inductive SectorStatus
  | pending
  | clean
  | voted
  | failed
  | marked
  | written
  | replaced
  | damaged
  | lost
  deriving DecidableEq, Repr

/-- Values of GUESS (R41). -/
inductive Guess
  | none
  | present
  | damaged
  deriving DecidableEq, Repr

/-- A sector record (R41). CANDIDATES is not stored: it is the length of the bound context's list (R84). -/
structure SectorRec where
  status : SectorStatus
  attempts : Nat
  checkFails : Nat
  syncMisses : Nat
  headerFaults : Nat
  resolvedStep : Option Nat
  blind : Bool
  uncertain : Option Nat
  guess : Guess
  headerFlag : Option Byte
  deriving DecidableEq, Repr

/-- A track record (R40). Its SLOT is the key it is held under. `sectorBytes` is the size of a sector
in its frame, from the geometry at allocation (R14, R39; log entry 16). -/
structure TrackRec where
  state : TrackState
  addr : Option TrackAddr
  cls : Option TrackClass
  origins : Origins
  nextStep : Nat
  stepRevs : Nat
  totalRevs : Nat
  context : Option (Fin 4)
  lock : Option (Fin 4)
  waiters : Nat
  diverged : Bool
  exported : Bool
  revision : Word16
  sectorBytes : Nat
  sectors : List SectorRec
  deriving DecidableEq, Repr

/-! ## Recovery Queue and sweeps -/

/-- The Recovery Queue's three class groups, each from its head to its tail (R64). -/
structure RecoveryQueue where
  demand : List Nat
  archive : List Nat
  sweep : List Nat
  deriving DecidableEq, Repr

/-- Values of SWEEP_STATE (R74). -/
inductive SweepState
  | off
  | running
  | stalled
  | done
  deriving DecidableEq, Repr

/-- A sweep record (R74): SWEEP_STATE, CURSOR and DEPTH. -/
structure SweepRec where
  state : SweepState
  cyl : Nat
  head : Nat
  depth : Nat
  deriving DecidableEq, Repr

/-! ## Recovery contexts, Path Arbiter and Vote Unit -/

/-- One step of the margin ladder (R80). -/
structure LadderStep where
  strobe : Strobe
  offset : Offset
  revs : Nat
  blind : Bool
  deriving DecidableEq, Repr

/-- STEP_IN_FORCE: the index of the step and a copy of its values (R83). -/
structure StepInForce where
  index : Nat
  step : LadderStep
  deriving DecidableEq, Repr

/-- Values of a context's STATE (R83). -/
inductive CtxState
  | free
  | positioning
  | waitPath
  | reading
  | evaluating
  | faultHold
  | displaced
  deriving DecidableEq, Repr

/-- Values of EVALUATION (R83). -/
inductive Evaluation
  | none
  | inLadder
  | final
  deriving DecidableEq, Repr

/-- A recovery context's record (R83). `candidates` and `lastFlags` have one entry per logical sector
of the bound track; a candidate list names entry positions 1 to 7, oldest first (R84). -/
structure CtxRec where
  state : CtxState
  track : Option Nat
  step : Option StepInForce
  evaluation : Evaluation
  wanted : List Nat
  candidates : List (List Nat)
  lastFlags : List (Option Byte)
  deriving DecidableEq, Repr

/-- Outcomes of an attempt (R9, R10). -/
inductive AttemptOutcome
  | good
  | checkFail
  | noSync
  | noHeader
  | headerCheck
  | wrongAddress
  deriving DecidableEq, Repr

/-- An attempt report (R12). HEADER_RESULT is present for a blind attempt. -/
structure Report where
  sector : Nat
  outcome : AttemptOutcome
  blind : Bool
  headerResult : Option AttemptOutcome
  flag : Option Byte
  deriving DecidableEq, Repr

/-- A slot's header result (R8); an addressed header brings its FLAG byte. -/
inductive HeaderResult
  | noHeader
  | headerCheck
  | wrongAddress
  | addressed (flag : Byte)
  deriving DecidableEq, Repr

/-- A data field that is still being taken after its slot's pitch window has closed (R5, R9): the slot
and its header result. -/
structure TakenField where
  slot : Nat
  header : HeaderResult
  deriving DecidableEq, Repr

/-- The Read Path's record of the revolution in progress (R8 to R13): the slot whose window is open,
that slot's header result, the outcome of its data field if one has been decided, the field being
taken past its window, whether any header of the revolution verified, whether any was addressed,
and the blind reports held to its end. -/
structure Revolution where
  slot : Nat
  header : HeaderResult
  data : Option AttemptOutcome
  taking : Option TakenField
  anyVerified : Bool
  anyAddressed : Bool
  held : List Report
  deriving DecidableEq, Repr

/-- A grant of the read path (R30): its holder, what the holder named, whether the opening index has come,
and whether the store read of the record that WANTED was taken from has been made (R87, R121, log entry 24). -/
structure Grant where
  holder : Holder
  addr : TrackAddr
  strobe : Strobe
  blind : Bool
  opened : Bool
  recordRead : Bool := false
  deriving DecidableEq, Repr

/-- The Path Arbiter's state and the revolution in progress (R30). -/
structure PathRec where
  grant : Option Grant
  lastGranted : Fin 4
  passedOver : Four Nat
  rev : Revolution
  deriving DecidableEq, Repr

/-- The kinds of evaluation request (R106). -/
inductive VoteKind
  | inLadder
  | final
  deriving DecidableEq, Repr

/-- An evaluation request (R106). -/
structure VoteRequest where
  context : Fin 4
  track : Nat
  kind : VoteKind
  step : Option Nat
  flags : List (Option Byte)
  deriving DecidableEq, Repr

/-- The request in service (R108): the limit read when service began, the final set (R114), the
sector being worked, the positions named at its beginning that have not yet been read, the bytes of the
candidates read so far, oldest first (R109), and how many of the Vote Unit's bursts end before the next
candidate has been read (log entry 55). -/
structure VoteService where
  limit : Nat
  finalSet : List Nat
  sector : Nat
  left : List Nat
  got : List (List Byte)
  bursts : Nat
  deriving DecidableEq, Repr

/-- The Vote Unit (R106): the request list, oldest first, and the service of its head, absent when IDLE. -/
structure VoteRec where
  requests : List VoteRequest
  serving : Option VoteService
  deriving DecidableEq, Repr

/-- The limits that stand with their owners: the uncertainty limit (R118) and the starvation guard (R32). -/
structure Limits where
  uncertainty : Nat
  starvation : Nat
  deriving DecidableEq, Repr

/-! ## Image Store Controller -/

/-- Claimants of the store (R125). -/
inductive StoreClaimant
  | capture
  | unit (u : Fin 4)
  | link
  | vote
  | ctx (c : Fin 4)
  | table
  | scrub
  deriving DecidableEq, Repr

/-- FOUND_BY codes (R131). -/
inductive FoundBy
  | unit
  | link
  | vote
  | recovery
  | table
  | scrub
  deriving DecidableEq, Repr

/-- REGION codes (R131). -/
inductive Region
  | frame
  | candidate
  | table
  deriving DecidableEq, Repr

/-- What a store word belongs to (R131, OWNER). -/
inductive WordOwner
  | nobody
  | trackSector (slot sector : Nat)
  | candidate (context : Fin 4) (position sector : Nat)
  | capture (context : Fin 4) (sector : Nat)
  | trackRecord (slot : Nat)
  | geometry (drive : Fin 4)
  | sweepRecord (drive : Fin 4)
  deriving DecidableEq, Repr

/-- LAST_UNCORRECTED (R131). -/
structure LastUncorrected where
  region : Region
  frame : Nat
  offset : Nat
  owner : WordOwner
  foundBy : FoundBy
  deriving DecidableEq, Repr

/-- The Image Store Controller (R119 to R131). `mem` holds the bytes of the frame and candidate
regions in canonical form; `flips` the words with a bit error, by word number. -/
structure StoreRec where
  mem : List Host.Cell
  flips : List (Nat × FlipKind)
  burst : Option StoreClaimant
  asks : List StoreClaimant
  refreshDue : Bool
  timerRunning : Bool
  selfRefresh : Bool
  lastUnit : Fin 4
  lastRecovery : Fin 5
  scrubCursor : Nat
  passes : Word16
  scrubPeriod : Nat
  corrected : Nat
  uncorrected : Nat
  lastUncorrected : Option LastUncorrected
  deriving DecidableEq, Repr

/-! ## System Port -/

/-- Answer codes (R134). -/
inductive Answer
  | accepted
  | statusPending
  | busy
  | unavailable
  | nothing
  | illegal
  deriving DecidableEq, Repr

/-- The setup settings (R138). A ROUTE is a level 0 to 3, or absent for NONE. -/
structure Settings where
  statusBase : Nat
  key : Four Nat
  unitRoute : Four (Option (Fin 4))
  controllerRoute : Option (Fin 4)
  patience : Nat
  burst : Nat
  deriving DecidableEq, Repr

/-- A setup fetch in progress (R139): where it began and the words that have arrived. -/
structure SetupFetch where
  addr : Nat
  got : List Word16
  deriving DecidableEq, Repr

/-- The System Port's window, settings and attention (R133, R138, R139, R145). `clearLine` is the
level of the system clear line, and `heldCtl` the controller STATE that the status words show while it
stays asserted (R146, log entry 45). -/
structure SysPort where
  address : BitVec 24
  answer : Answer
  settings : Settings
  setupFetch : Option SetupFetch
  storeError : Bool
  setupFailed : Bool
  stateChange : Bool
  statusLost : Bool
  clearLine : Bool
  heldCtl : CtlState
  deriving DecidableEq, Repr

/-- Directions of a burst (R141). -/
inductive Direction
  | load
  | store
  deriving DecidableEq, Repr

/-- A word of a STORE with its two byte marks (R141, R143). -/
structure BusWord where
  data : Word16
  lowMark : Bool
  highMark : Bool
  deriving DecidableEq, Repr

/-- Claimants of the memory-bus requester (R140): a unit, or the setup fetch. -/
inductive BusClaimant
  | unit (u : Fin 4)
  | setup
  deriving DecidableEq, Repr

/-- A burst (R140, R141): its claimant, direction, address, word count, key, and a STORE's words. -/
structure Burst where
  claimant : BusClaimant
  direction : Direction
  addr : Nat
  count : Nat
  key : Nat
  words : List BusWord
  deriving DecidableEq, Repr

/-- Values of REQ_STATE (R140). -/
inductive ReqState
  | free
  | requesting
  | presenting
  | inCycle
  | finishing
  deriving DecidableEq, Repr

/-- The memory-bus requester (R140): `unitWaiting` and `setupWaiting` are the claimants' waiting bursts. -/
structure Requester where
  state : ReqState
  current : Option Burst
  lastServed : BusClaimant
  unitWaiting : Four (Option Burst)
  setupWaiting : Option Burst
  deriving DecidableEq, Repr

/-! ## Unit sequencers and Direct Read Slot -/

/-- Values of a unit's STATE (R147). -/
inductive UnitState
  | idle
  | fetch
  | run
  | wait
  | ending
  | pending
  deriving DecidableEq, Repr

/-- The five orders (R147). -/
inductive OrderOp
  | position
  | read
  | write
  | sense
  | state
  deriving DecidableEq, Repr

/-- An order as fetched (R147). -/
structure Order where
  op : OrderOp
  chained : Bool
  suppressLength : Bool
  acceptGuess : Bool
  count : Nat
  dataAddress : Nat
  cyl : Nat
  head : Nat
  sector : Nat
  deriving DecidableEq, Repr

/-- A burst's outcomes other than DONE, as port conditions (R141, R159). -/
inductive PortOutcome
  | addressInvalid
  | keyViolation
  | parity
  | noResponse
  deriving DecidableEq, Repr

/-- Unit and port conditions (R159). -/
inductive Condition
  | dataCheck
  | recovering
  | notReady
  | tableFault
  | poolFull
  | marked
  | endOfMedium
  | incorrectLength
  | orderFault
  | port (outcome : PortOutcome)
  deriving DecidableEq, Repr

/-- Values of the sense REASON (R161), in its order. -/
inductive SenseReason
  | none
  | failed
  | marked
  | lost
  | directFailed
  | recovering
  | locked
  | notReady
  | tableFault
  | poolFull
  | endOfMedium
  | length
  | unknownOp
  | listTooLong
  | oddAddress
  | badPosition
  | port
  deriving DecidableEq, Repr

/-- Values of COMPLETION (R159, R163). -/
inductive Completion
  | normal
  | check
  | halted
  | unsolicited
  deriving DecidableEq, Repr

/-- POSITION: the next sector to transfer (R147). -/
structure Position where
  cyl : Nat
  head : Nat
  sector : Nat
  deriving DecidableEq, Repr

/-- The sense record (R161). -/
structure SenseRec where
  reason : SenseReason
  position : Position
  slot : Option Nat
  sectorStatus : Option SectorStatus
  guess : Option Guess
  attempts : Nat
  checkFails : Nat
  portOutcome : Option PortOutcome
  driveStatus : DriveState
  faultKind : Option FaultKind
  deriving DecidableEq, Repr

/-- What a unit in WAIT waits for (R147). -/
inductive WaitOn
  | sector (slot sector : Nat)
  | lock (slot : Nat)
  | drs
  deriving DecidableEq, Repr

/-- PREFETCHED: absent, the words of the next block, or a held failure (R149). -/
inductive Prefetched
  | absent
  | block (words : List Word16)
  | failed (outcome : PortOutcome)
  deriving DecidableEq, Repr

/-- The transfers a unit makes through the requester (R138, R143). -/
inductive TransferKind
  | orderFetch
  | prefetch
  | deliver
  | gather
  | senseStore
  | summaryStore
  | statusStore
  deriving DecidableEq, Repr

/-- A unit's transfer in progress: its kind, the key it took when it began, the address of its next
burst, the bytes not yet moved, a STORE's bytes not yet moved, and a LOAD's words so far. -/
structure Transfer where
  kind : TransferKind
  key : Nat
  addr : Nat
  left : Nat
  out : List Byte
  got : List Word16
  deriving DecidableEq, Repr

/-- A unit's record (R147). PATIENCE_TIMER is the patience it was started with, or absent when stopped
(log entry 12). `dataAt` is the order's data address as it moves on (R152), `buffer` the sector
buffer (R153) and `guess` whether it holds a guess (R153), `transfer` the transfer in progress,
`writeTrack` the track that the WRITE order in progress has made claims on (R158), and `notified` a
notification of the Track Table that the unit has not yet acted on (R47, R56). -/
structure UnitRec where
  state : UnitState
  orderAddress : Nat
  order : Option Order
  prefetched : Prefetched
  ordersDone : Nat
  position : Position
  residual : Nat
  conditions : List Condition
  guessed : Nat
  sense : SenseRec
  haltTold : Bool
  stacked : Bool
  waitOn : Option WaitOn
  patience : Option Nat
  dataAt : Nat
  buffer : List Byte
  guess : Bool
  transfer : Option Transfer
  writeTrack : Option TrackAddr
  notified : Bool
  deriving DecidableEq, Repr

/-- Values of DRS_STATE (R156). -/
inductive DrsState
  | free
  | claiming
  | positioning
  | waitPath
  | reading
  deriving DecidableEq, Repr

/-- TARGET of the Direct Read Slot (R156). -/
structure DrsTarget where
  addr : TrackAddr
  sector : Nat
  deriving DecidableEq, Repr

/-- The Direct Read Slot's record (R156); `attempts` and `checkFails` are the read's own counts (R157).
`geometryRead`: the geometry record that the granted claim was decided by has been read from the store (R28,
R121, log entry 24). -/
structure DrsRec where
  state : DrsState
  serving : Option (Fin 4)
  target : Option DrsTarget
  revsTried : Nat
  waitingUnits : List (Fin 4)
  capture : List Byte
  attempts : Nat
  checkFails : Nat
  geometryRead : Bool := false
  deriving DecidableEq, Repr

/-! ## Archive Link -/

/-- RESULT codes (R166), in their order. -/
inductive Result
  | ok
  | accepted
  | frameCheck
  | unknownRequest
  | badLength
  | range
  | noSuchTrack
  | poolFull
  | settled
  | nothingFailed
  | trackActive
  | trackBroken
  | trackInUse
  | locked
  | notLocked
  | locksExhausted
  | notExported
  | stale
  | marked
  | driveCondition
  | driveInUse
  | unitsBusy
  | starting
  | holding
  | storeError
  deriving DecidableEq, Repr

/-- The response frame held in the response slot (R165), without its LENGTH and CHECK, which follow
from the rest. -/
structure Response where
  kind : Byte
  tag : Byte
  result : Result
  previousLost : Bool
  attentionSet : Bool
  payload : List Byte
  deriving DecidableEq, Repr

/-- The attention set (R168). -/
structure Attention where
  driveChange : Four Bool
  settled : Bool
  sweep : Bool
  store : Bool
  sysclear : Bool
  started : Bool
  deriving DecidableEq, Repr

/-- The Archive Link: response slot, attention set, level of the LINK_RST line, and the bytes driven
out of the part in the last chip-select window (R164, R165, R168, R172). -/
structure LinkRec where
  slot : Option Response
  attention : Attention
  rstLine : Bool
  out : List Byte
  deriving DecidableEq, Repr

/-! ## Controller State -/

/-- Values of PHASE (R173). -/
inductive Phase
  | storeCheck
  | format
  | rescan
  | discovery
  deriving DecidableEq, Repr

/-- Values of STORE_CHECK (R173). -/
inductive StoreCheck
  | inProgress
  | passed
  | upperFailed
  | lowerFailed
  deriving DecidableEq, Repr

/-- The Controller State record (R173). SIZE_IN_USE is in MiB. -/
structure CtlRec where
  state : CtlState
  phase : Option Phase
  straps : Straps
  storeCheck : StoreCheck
  sizeInUse : Nat
  deriving DecidableEq, Repr

/-! ## The machine -/

/-- The TRC-410. Track records are held for every slot that is not FREE, by slot in ascending order
(log entry 33). `pending` is the queue of the commands that wait, first in first out. -/
structure State where
  ctl : CtlRec
  drives : Four DriveRec
  geometry : Four (Option Geometry)
  sweeps : Four SweepRec
  tracks : List (Nat × TrackRec)
  freeList : List Nat
  locks : Four (Option Nat)
  queue : RecoveryQueue
  ladder : List LadderStep
  ctxs : Four CtxRec
  path : PathRec
  vote : VoteRec
  limits : Limits
  store : StoreRec
  port : SysPort
  req : Requester
  units : Four UnitRec
  drs : DrsRec
  link : LinkRec
  pending : List Instr
  deriving DecidableEq, Repr

/-- Faults of the machine: none. No rule of the spec stops the part; every command answers a next state. -/
inductive Fault
  deriving DecidableEq, Repr

/-- Refusals of the machine. -/
inductive Refusal
  /-- Raised by an arm of `exec` whose command has no meaning yet; safe. No arm raises it now. -/
  | notModelled (mnemonic : String)
  deriving DecidableEq, Repr

/-! ## Power-on values -/

/-- A drive record at power-on (R17); the levels of the ready and fault lines are the drive's own. -/
def DriveRec.powerOn (fitted readyLine faultHeld : Bool) : DriveRec :=
  { fitted := fitted
    state := if fitted then .notReady else .absent
    faultKind := none
    discovery := none
    cylAt := none
    offsetAt := none
    claim := none
    displacedContext := none
    drsWaiting := false
    observedSectors := 0
    seekRetried := false
    positioning := none
    readyLine := readyLine
    faultHeld := faultHeld }

/-- A sweep record at power-on (R74). -/
def SweepRec.powerOn : SweepRec := { state := .off, cyl := 0, head := 0, depth := 2 }

/-- A context that is FREE (R83). -/
def CtxRec.free : CtxRec :=
  { state := .free, track := none, step := none, evaluation := .none, wanted := [], candidates := [],
    lastFlags := [] }

/-- No revolution in progress, or one whose first window has just opened (R8). -/
def Revolution.start : Revolution :=
  { slot := 0, header := .noHeader, data := none, taking := none, anyVerified := false,
    anyAddressed := false, held := [] }

/-- The Path Arbiter after power-on and RESET_CONTROLLER (R30). -/
def PathRec.reset : PathRec :=
  { grant := none, lastGranted := 3, passedOver := Four.all 0, rev := Revolution.start }

/-- The default ladder (R80). -/
def defaultLadder : List LadderStep :=
  [ { strobe := .nominal, offset := .centre, revs := 2, blind := false },
    { strobe := .early, offset := .centre, revs := 2, blind := false },
    { strobe := .late, offset := .centre, revs := 2, blind := false },
    { strobe := .nominal, offset := .inward, revs := 3, blind := false },
    { strobe := .nominal, offset := .outward, revs := 3, blind := false },
    { strobe := .early, offset := .inward, revs := 2, blind := false },
    { strobe := .late, offset := .outward, revs := 2, blind := false },
    { strobe := .nominal, offset := .centre, revs := 4, blind := true } ]

/-- The limits after power-on and RESET_CONTROLLER (R118, R32). -/
def Limits.reset : Limits := { uncertainty := 4, starvation := 4 }

/-- The Image Store Controller at power-on (R123, R125, R130, R131). -/
def StoreRec.powerOn : StoreRec :=
  { mem := [], flips := [], burst := none, asks := [], refreshDue := false, timerRunning := true,
    selfRefresh := false, lastUnit := 3, lastRecovery := 4, scrubCursor := 0, passes := 0,
    scrubPeriod := 20, corrected := 0, uncorrected := 0, lastUncorrected := none }

/-- The setup settings' defaults (R138). -/
def Settings.defaults : Settings :=
  { statusBase := 0x200, key := Four.all 0, unitRoute := Four.all (some 1), controllerRoute := some 1,
    patience := 3000, burst := 4 }

/-- The System Port at power-on (R133, R138, R145); the level of the system clear line is its driver's. At a
power-on with that line asserted CONTROLLER_STATE reads STARTING until the line is released, also when the
start-up has ended by then (log entry 45). -/
def SysPort.powerOn (clearLine : Bool) : SysPort :=
  { address := 0, answer := .nothing, settings := Settings.defaults, setupFetch := none,
    storeError := false, setupFailed := false, stateChange := false, statusLost := false,
    clearLine := clearLine, heldCtl := .starting }

/-- The requester at power-on (R140). -/
def Requester.powerOn : Requester :=
  { state := .free, current := none, lastServed := .setup, unitWaiting := Four.all none,
    setupWaiting := none }

/-- A sense record with REASON NONE (R161). That its other fields are then 0, absent and DRIVE_STATUS ABSENT,
whatever the drive's STATE is, is the model's choice (log entry 66). -/
def SenseRec.empty : SenseRec :=
  { reason := .none, position := ⟨0, 0, 0⟩, slot := none, sectorStatus := none, guess := none,
    attempts := 0, checkFails := 0, portOutcome := none, driveStatus := .absent, faultKind := none }

/-- A unit record at power-on, RESET_CONTROLLER and system clear (R147). -/
def UnitRec.reset : UnitRec :=
  { state := .idle, orderAddress := 0, order := none, prefetched := .absent, ordersDone := 0,
    position := ⟨0, 0, 0⟩, residual := 0, conditions := [], guessed := 0, sense := SenseRec.empty,
    haltTold := false, stacked := false, waitOn := none, patience := none, dataAt := 0, buffer := [],
    guess := false, transfer := none, writeTrack := none, notified := false }

/-- The Direct Read Slot when FREE with nobody waiting (R156). CAPTURE, to which the spec gives no content
here, is empty (log entry 52). -/
def DrsRec.reset : DrsRec :=
  { state := .free, serving := none, target := none, revsTried := 0, waitingUnits := [], capture := [],
    attempts := 0, checkFails := 0 }

/-- The empty attention set (R168). -/
def Attention.empty : Attention :=
  { driveChange := Four.all false, settled := false, sweep := false, store := false,
    sysclear := false, started := false }

/-- The whole part at power-on with the given straps (R173 and each block's power-on values). The
levels of the input pins are what drives them, and the queue is the sender's. -/
def State.powerOn (straps : Straps) (readyLines faultsHeld : Four Bool) (clearLine rstLine : Bool)
    (pending : List Instr) : State :=
  { ctl := { state := .starting, phase := some .storeCheck, straps := straps,
             storeCheck := .inProgress, sizeInUse := 0 }
    drives := Four.ofFn fun d => DriveRec.powerOn (decide (d.val < straps.drives)) (readyLines.get d)
      (faultsHeld.get d)
    geometry := Four.all none
    sweeps := Four.all SweepRec.powerOn
    tracks := []
    freeList := []
    locks := Four.all none
    queue := { demand := [], archive := [], sweep := [] }
    ladder := defaultLadder
    ctxs := Four.all CtxRec.free
    path := PathRec.reset
    vote := { requests := [], serving := none }
    limits := Limits.reset
    store := StoreRec.powerOn
    port := SysPort.powerOn clearLine
    req := Requester.powerOn
    units := Four.all UnitRec.reset
    drs := DrsRec.reset
    link := { slot := none, attention := Attention.empty, rstLine := rstLine, out := [] }
    pending := pending }

/-- The machine right after reset: power-on (R173) with the straps of log entry 3, every input pin
released, and no command waiting. -/
def State.reset : State :=
  State.powerOn { storeSize := .mib8, profile := 0, drives := 1, ioBase := 0 } (Four.all false)
    (Four.all false) false false []

end Sys2Proof.Machine
end

