-- ==== Sys2Proof/Machine/Ops.lean ====
section
/-! DEFINITION. The named operations over the state's records: one home for every read and write, the geometry and store layout, the track table, the queue, the attention set. -/

namespace Sys2Proof.Machine

/-! ## One writer per record -/

/-- The drive record of a position changed. -/
def State.modDrive (s : State) (d : Fin 4) (f : DriveRec → DriveRec) : State :=
  { s with drives := s.drives.modify d f }

/-- A context's record changed. -/
def State.modCtx (s : State) (c : Fin 4) (f : CtxRec → CtxRec) : State :=
  { s with ctxs := s.ctxs.modify c f }

/-- A unit's record changed. -/
def State.modUnit (s : State) (u : Fin 4) (f : UnitRec → UnitRec) : State :=
  { s with units := s.units.modify u f }

/-- A sweep record changed. -/
def State.modSweep (s : State) (d : Fin 4) (f : SweepRec → SweepRec) : State :=
  { s with sweeps := s.sweeps.modify d f }

/-- A geometry record replaced. -/
def State.setGeometry (s : State) (d : Fin 4) (g : Option Geometry) : State :=
  { s with geometry := s.geometry.set d g }

/-! ## Track records -/

/-- ORIGINS empty (R40). -/
def Origins.empty : Origins := { system := false, archive := false, sweep := false }

/-- A FREE track record: every field absent, empty, zero or no (R40). -/
def TrackRec.free : TrackRec :=
  { state := .free, addr := none, cls := none, origins := Origins.empty, nextStep := 0, stepRevs := 0,
    totalRevs := 0, context := none, lock := none, waiters := 0, diverged := false, exported := false,
    revision := 0, sectorBytes := 0, sectors := [] }

/-- A BROKEN track record, with DIVERGED as given (R53 step 4). -/
def TrackRec.broken (diverged : Bool) : TrackRec :=
  { TrackRec.free with state := .broken, diverged := diverged }

/-- A sector record on allocation (R41). -/
def SectorRec.fresh : SectorRec :=
  { status := .pending, attempts := 0, checkFails := 0, syncMisses := 0, headerFaults := 0,
    resolvedStep := none, blind := false, uncertain := none, guess := .none, headerFlag := none }

/-- A track record on allocation (R40, R52). -/
def TrackRec.allocated (addr : TrackAddr) (g : Geometry) : TrackRec :=
  { TrackRec.free with
    state := .pending
    addr := some addr
    sectorBytes := g.sectorBytes
    sectors := List.replicate g.sectors SectorRec.fresh }

/-- The track record of a slot. -/
def State.track (s : State) (n : Nat) : TrackRec := (assocFind n s.tracks).getD TrackRec.free

/-- A slot's track record replaced; a FREE record is not listed (log entry 33). -/
def State.setTrack (s : State) (n : Nat) (r : TrackRec) : State :=
  { s with tracks := if r.state = .free then assocDel n s.tracks else assocPut n r s.tracks }

/-- A slot's track record changed. -/
def State.modTrack (s : State) (n : Nat) (f : TrackRec → TrackRec) : State :=
  s.setTrack n (f (s.track n))

/-- A record holds a track address when its STATE is neither FREE nor BROKEN (R52, R57). -/
def TrackRec.holds (r : TrackRec) (a : TrackAddr) : Bool :=
  r.state ≠ .free && r.state ≠ .broken && r.addr = some a

/-- The slot of the record that holds a track address (R52 step 2, R57). -/
def State.findTrack (s : State) (a : TrackAddr) : Option Nat :=
  (s.tracks.find? (fun e => e.2.holds a)).map (·.1)

/-- STATUS says the sector is unresolved: PENDING or DAMAGED (R41). -/
def SectorStatus.unresolved (st : SectorStatus) : Bool := st = .pending || st = .damaged

/-- The sector record of a logical sector. -/
def TrackRec.sector (r : TrackRec) (k : Nat) : SectorRec := r.sectors.getD k SectorRec.fresh

/-- A sector record replaced. -/
def TrackRec.setSector (r : TrackRec) (k : Nat) (x : SectorRec) : TrackRec :=
  { r with sectors := r.sectors.set k x }

/-- The unresolved sectors of a track, ascending (R41, R87). -/
def TrackRec.unresolvedSectors (r : TrackRec) : List Nat :=
  (List.range r.sectors.length).filter (fun k => (r.sector k).status.unresolved)

/-- Some sector of the track is unresolved. -/
def TrackRec.anyUnresolved (r : TrackRec) : Bool := r.sectors.any (fun x => x.status.unresolved)

/-- A change of the image: REVISION up by one, wrapping, and EXPORTED cleared (R48, R49). -/
def TrackRec.imageChanged (r : TrackRec) : TrackRec :=
  { r with revision := r.revision + 1, exported := false }

/-- The resolution fields started afresh (R44). -/
def SectorRec.restart (x : SectorRec) : SectorRec :=
  { x with resolvedStep := none, blind := false, uncertain := none, guess := .none }

/-- A counter that saturates at a largest value. -/
def satAdd (most n k : Nat) : Nat := min most (n + k)

/-! ## Geometry and store layout -/

/-- A geometry record satisfies every range and both joint constraints (R1). -/
def Geometry.valid (g : Geometry) : Bool :=
  1 ≤ g.cylinders && g.cylinders ≤ 1024 && 1 ≤ g.heads && g.heads ≤ 8
    && 8 ≤ g.sectors && g.sectors ≤ 32
    && (g.sectorBytes = 128 || g.sectorBytes = 256 || g.sectorBytes = 512)
    && 1 ≤ g.interleave && g.interleave ≤ 4 && 10 ≤ g.period && g.period ≤ 60
    && (g.checkSeed = 0x0000#16 || g.checkSeed = 0xFFFF#16)
    && g.sectors * g.sectorBytes ≤ 12288
    && Nat.gcd g.interleave g.sectors = 1

/-- The built-in profiles (R3). -/
def profileGeometry (p : Fin 8) : Option Geometry :=
  match p.val with
  | 0 => some ⟨256, 2, 16, 256, 1, 25, 0xFFFF⟩
  | 1 => some ⟨406, 2, 12, 512, 1, 25, 0xFFFF⟩
  | 2 => some ⟨411, 4, 20, 256, 3, 20, 0xFFFF⟩
  | 3 => some ⟨200, 1, 32, 128, 1, 40, 0x0000⟩
  | 4 => some ⟨823, 5, 22, 512, 1, 17, 0xFFFF⟩
  | 5 => some ⟨400, 8, 24, 256, 1, 17, 0xFFFF⟩
  | 6 => some ⟨160, 2, 8, 512, 1, 30, 0x0000⟩
  | _ => none

/-- The slot of a logical sector: s × INTERLEAVE modulo SECTORS (R6). -/
def Geometry.slotOf (g : Geometry) (k : Nat) : Nat := (k * g.interleave) % g.sectors

/-- The logical sector that a slot holds (R6). -/
def Geometry.sectorAt (g : Geometry) (slot : Nat) : Nat :=
  ((List.range g.sectors).find? (fun k => g.slotOf k = slot)).getD 0

/-- The cylinder and head lie within the geometry. -/
def Geometry.contains (g : Geometry) (cyl head : Nat) : Bool := cyl < g.cylinders && head < g.heads

/-- STORE_SIZE in MiB. -/
def storeSizeMib : StoreSize → Nat
  | .mib8 => 8
  | .mib16 => 16
  | .mib32 => 32

/-- The number of usable frames for a store size in use: all but the top 64 (R38). -/
def usableFrames (mib : Nat) : Nat := mib * 64 - 64

/-- The number of usable frames of the store in use. -/
def State.usable (s : State) : Nat := usableFrames s.ctl.sizeInUse

/-- Bytes of a frame (R38). -/
def frameBytes : Nat := 16384

/-- Store words of a frame. -/
def frameWords : Nat := 2048

/-- E: the size of a capture slot or candidate entry, SECTOR_BYTES + 2 rounded up to a multiple of 8 (R38). -/
def entryBytes (sectorBytes : Nat) : Nat := (sectorBytes + 2 + 7) / 8 * 8

/-- The store address of a sector in its track's frame (R39). -/
def sectorAddr (slot sectorBytes k : Nat) : Nat := slot * frameBytes + k * sectorBytes

/-- The store address of the entry of sector k in frame p of a context's eight; p = 0 is the capture
frame (R38, R84). -/
def State.entryAddr (s : State) (c : Fin 4) (p sectorBytes k : Nat) : Nat :=
  (s.usable + 32 + 8 * c.val + p) * frameBytes + k * entryBytes sectorBytes

/-- What a word of the table region belongs to, by its number within the region (R119, log entry 5). -/
def tableWordOwner (usable w : Nat) : WordOwner :=
  let span := Config.trackSpanLessOne usable + 1
  if w < usable * span then .trackRecord (w / span)
  else
    match Config.upperTableWord (w - usable * span) with
    | some (false, d) => .geometry d
    | some (true, d) => .sweepRecord d
    | none => .nobody

/-- The region of a frame (R119). -/
def regionOf (usable frame : Nat) : Region :=
  if frame < usable then .frame else if frame < usable + 32 then .table else .candidate

/-- What a word of the frame region belongs to (R126). -/
def State.frameWordOwner (s : State) (frame offset : Nat) : WordOwner :=
  let r := s.track frame
  if r.state = .free || r.state = .broken || r.sectorBytes = 0 then .nobody
  else if offset < r.sectors.length * r.sectorBytes then .trackSector frame (offset / r.sectorBytes)
  else .nobody

/-- What a word of the candidate region belongs to (R127); nothing while the context is FREE. A word at a
position that no list names is the candidate position's all the same (log entry 25). -/
def State.candidateWordOwner (s : State) (n offset : Nat) : WordOwner :=
  let c : Fin 4 := Fin.ofNat 4 (n / 8)
  match (s.ctxs.get c).track with
  | none => .nobody
  | some t =>
    let r := s.track t
    let k := offset / entryBytes r.sectorBytes
    if r.sectors.length ≤ k then .nobody
    else if n % 8 = 0 then .capture c k
    else .candidate c (n % 8) k

/-- What a store word belongs to, by its number (R119, R126 to R129). -/
def State.wordOwner (s : State) (w : Nat) : WordOwner :=
  let frame := w / frameWords
  let offset := w % frameWords * 8
  match regionOf s.usable frame with
  | .frame => s.frameWordOwner frame offset
  | .table => tableWordOwner s.usable (w - s.usable * frameWords)
  | .candidate => s.candidateWordOwner (frame - s.usable - 32) offset

/-! ## Drives -/

/-- The drive position is fitted. -/
def State.fitted (s : State) (d : Fin 4) : Bool := (s.drives.get d).fitted

/-- DISCOVERING (R16). -/
def DriveRec.discovering (r : DriveRec) : Bool := r.discovery.isSome

/-- The drive is open for work (R16). -/
def State.openForWork (s : State) (d : Fin 4) : Bool :=
  (s.drives.get d).state = .ready && !(s.drives.get d).discovering && (s.geometry.get d).isSome

/-- The track a context is bound to is a track of the drive. -/
def State.boundOn (s : State) (c : Fin 4) (d : Fin 4) : Bool :=
  match (s.ctxs.get c).track with
  | none => false
  | some n => ((s.track n).addr.map (·.drive)) = some d

/-- The context bound to a track of the drive (R73: at most one). -/
def State.ctxOn (s : State) (d : Fin 4) : Option (Fin 4) :=
  fourNumbers.find? (fun c => s.boundOn c d)

/-! ## Attention -/

/-- The attention set of the Archive Link changed (R168). -/
def State.modAttention (s : State) (f : Attention → Attention) : State :=
  { s with link := { s.link with attention := f s.link.attention } }

/-- DRIVE_CHANGE set for a drive position (R23). -/
def State.attnDrive (s : State) (d : Fin 4) : State :=
  s.modAttention fun a => { a with driveChange := a.driveChange.set d true }

/-- Archive attention SETTLED set (R43). -/
def State.attnSettled (s : State) : State := s.modAttention fun a => { a with settled := true }

/-- Archive attention SWEEP set (R76). -/
def State.attnSweep (s : State) : State := s.modAttention fun a => { a with sweep := true }

/-- Archive attention STORE and controller attention STORE_ERROR set (R122 step 3). -/
def State.attnStore (s : State) : State :=
  let s := s.modAttention fun a => { a with store := true }
  { s with port := { s.port with storeError := true } }

/-- Controller attention STATE_CHANGE set (R145). -/
def State.stateChange (s : State) : State := { s with port := { s.port with stateChange := true } }

/-! ## Recovery Queue -/

/-- The rank of a class: DEMAND before ARCHIVE before SWEEP (R64). -/
def TrackClass.rank : TrackClass → Nat
  | .demand => 0
  | .archive => 1
  | .sweep => 2

/-- The queue from its head to its tail (R64). -/
def RecoveryQueue.order (q : RecoveryQueue) : List Nat := q.demand ++ q.archive ++ q.sweep

/-- An entry joins the tail of its class's group (R66). -/
def RecoveryQueue.joinTail (q : RecoveryQueue) (cls : TrackClass) (n : Nat) : RecoveryQueue :=
  match cls with
  | .demand => { q with demand := q.demand ++ [n] }
  | .archive => { q with archive := q.archive ++ [n] }
  | .sweep => { q with sweep := q.sweep ++ [n] }

/-- An entry joins the head of its class's group (R69). -/
def RecoveryQueue.joinHead (q : RecoveryQueue) (cls : TrackClass) (n : Nat) : RecoveryQueue :=
  match cls with
  | .demand => { q with demand := n :: q.demand }
  | .archive => { q with archive := n :: q.archive }
  | .sweep => { q with sweep := n :: q.sweep }

/-- An entry leaves the queue (R69). -/
def RecoveryQueue.leave (q : RecoveryQueue) (n : Nat) : RecoveryQueue :=
  { demand := q.demand.filter (· ≠ n), archive := q.archive.filter (· ≠ n),
    sweep := q.sweep.filter (· ≠ n) }

/-- A slot leaves the queue (R69). -/
def State.leaveQueue (s : State) (n : Nat) : State := { s with queue := s.queue.leave n }

/-- A record made QUEUED with a class joins the tail of that class's group (R66, R70, R78, R96). -/
def State.queueTail (s : State) (n : Nat) (cls : TrackClass) : State :=
  let s := s.modTrack n fun r => { r with state := .queued, cls := some cls }
  { s with queue := s.queue.joinTail cls n }

/-- Enqueue: a PENDING record joins the queue; another record is unchanged (R66). -/
def State.enqueue (s : State) (n : Nat) (cls : TrackClass) : State :=
  if (s.track n).state = .pending then s.queueTail n cls else s

/-- The class given is higher than the record's CLASS (R67). -/
def TrackRec.raisedBy (r : TrackRec) (cls : TrackClass) : Bool :=
  match r.cls with
  | none => false
  | some old => cls.rank < old.rank

/-- Promotion (R67). -/
def State.promote (s : State) (n : Nat) (cls : TrackClass) : State :=
  let r := s.track n
  match r.state with
  | .pending => s.enqueue n cls
  | .queued => if r.raisedBy cls then (s.leaveQueue n).queueTail n cls else s
  | .active => if r.raisedBy cls then s.modTrack n fun r => { r with cls := some cls } else s
  | .settled => s
  | .broken => s
  | .free => s

/-- A record returned from a context joins the head of its class's group, CLASS kept (R69, R104, R129). -/
def State.queueHead (s : State) (n : Nat) : State :=
  let cls := (s.track n).cls.getD .sweep
  let s := s.modTrack n fun r => { r with state := .queued, cls := some cls }
  { s with queue := s.queue.joinHead cls n }

/-- A record that no context holds settles: SETTLED attention with ARCHIVE in its ORIGINS (R43). -/
def State.settle (s : State) (n : Nat) : State :=
  let s := s.modTrack n fun r => { r with state := .settled }
  if (s.track n).origins.archive then s.attnSettled else s

/-- Every track record changed in the same way. -/
def State.mapTracks (s : State) (f : TrackRec → TrackRec) : State :=
  { s with tracks := s.tracks.map fun e => (e.1, f e.2) }

/-- CLASS DEMAND lowered to ARCHIVE (R68). -/
def TrackRec.demoted (r : TrackRec) : TrackRec :=
  { r with cls := if r.cls = some .demand then some .archive else r.cls }

/-- DEMAND demotion (R68). -/
def State.demoteDemand (s : State) : State :=
  let s := s.mapTracks TrackRec.demoted
  { s with queue := { s.queue with demand := [], archive := s.queue.demand ++ s.queue.archive } }

/-! ## Locks -/

/-- The slot of the track that a unit waits on, by a sector or the lock of it (R47). -/
def UnitRec.waitSlot (r : UnitRec) : Option Nat :=
  match r.waitOn with
  | some (.sector n _) => some n
  | some (.lock n) => some n
  | some .drs => none
  | none => none

/-- The unit waits on a sector or the lock of some track. -/
def UnitRec.waitsOnTrack (r : UnitRec) : Bool := r.waitSlot.isSome

/-- The unit waits on a sector or the lock of the track in a slot. -/
def UnitRec.waitsOnSlot (r : UnitRec) (n : Nat) : Bool := r.waitSlot = some n

/-- A unit is notified when it waits on a track of those named (R47). -/
def UnitRec.notify (r : UnitRec) (on : Nat → Bool) : UnitRec :=
  { r with notified := r.notified || r.waitSlot.any on }

/-- Every unit that waits on a track of those named is notified (R47). -/
def State.notifyWaiters (s : State) (on : Nat → Bool) : State :=
  { s with units := s.units.map fun r => r.notify on }

/-- A record's lock released: its entry empty, LOCK absent, and the units that wait on the track, by a
sector or the lock, notified (R47, R56). -/
def State.releaseLock (s : State) (n : Nat) : State :=
  match (s.track n).lock with
  | none => s
  | some e =>
    let s := s.modTrack n fun r => { r with lock := none }
    { s with locks := s.locks.set e none }.notifyWaiters fun m => m = n

/-! ## Candidates -/

/-- The candidate list of a sector in its bound context (R84). -/
def CtxRec.list (c : CtxRec) (k : Nat) : List Nat := c.candidates.getD k []

/-- CANDIDATES of a sector: the length of the bound context's list, 0 when not bound (R41, R84). -/
def State.candidateCount (s : State) (n k : Nat) : Nat :=
  match (s.track n).context with
  | none => 0
  | some c => ((s.ctxs.get c).list k).length

/-- A sector of a bound track is resolved: its candidates are discarded and it leaves WANTED (R97). -/
def State.discardCandidates (s : State) (n k : Nat) : State :=
  match (s.track n).context with
  | none => s
  | some c =>
    s.modCtx c fun x =>
      { x with candidates := x.candidates.set k [], wanted := x.wanted.filter (· ≠ k) }

/-! ## Store arbitration (R125) -/

/-- A claimant asks for `n` bursts. In HOLD the store leaves self-refresh for it (R124). -/
def State.askStore (s : State) (cl : StoreClaimant) (n : Nat) : State :=
  { s with store := { s.store with
      asks := s.store.asks ++ List.replicate n cl
      selfRefresh := if n = 0 then s.store.selfRefresh else false
      timerRunning := if n = 0 then s.store.timerRunning else true } }

/-- Bursts for a run of words: at most 64 words each (R119). -/
def burstsFor (bytes : Nat) : Nat := (bytes / 8 + 63) / 64

/-- The rank of a claimant below refresh (R125). -/
def StoreClaimant.rank : StoreClaimant → Nat
  | .capture => 2
  | .unit _ => 3
  | .link => 4
  | .vote => 5
  | .ctx _ => 5
  | .table => 5
  | .scrub => 6

/-- The place of a rank 5 claimant in its turn: contexts 0 to 3, then the Vote Unit, whose turn the
rescan and the FORMAT phase take (R125). -/
def recoveryTurn : StoreClaimant → Option (Fin 5)
  | .ctx c => some ⟨c.val, by omega⟩
  | .vote => some 4
  | .table => some 4
  | _ => none

/-- The first waiting unit after the one last served (R125, rank 3). -/
def StoreRec.nextUnit (t : StoreRec) : Option StoreClaimant :=
  ([t.lastUnit + 1, t.lastUnit + 2, t.lastUnit + 3, t.lastUnit + 4].map StoreClaimant.unit).find?
    (fun cl => t.asks.contains cl)

/-- The first waiting claimant of rank 5 after the one last served (R125). -/
def StoreRec.nextRecovery (t : StoreRec) : Option StoreClaimant :=
  ([t.lastRecovery + 1, t.lastRecovery + 2, t.lastRecovery + 3, t.lastRecovery + 4,
    t.lastRecovery + 5].filterMap
      (fun turn => t.asks.find? (fun cl => recoveryTurn cl = some turn))).head?

/-- The highest-ranked waiting claimant (R125). -/
def StoreRec.nextClaimant (t : StoreRec) : Option StoreClaimant :=
  if t.asks.contains .capture then some .capture
  else
    match t.nextUnit with
    | some cl => some cl
    | none =>
      if t.asks.contains .link then some .link
      else
        match t.nextRecovery with
        | some cl => some cl
        | none => if t.asks.contains .scrub then some .scrub else none

/-- A walk over the store runs: the FORMAT phase or the rescan of a start-up (R125). -/
def State.walks (s : State) : Bool :=
  s.ctl.state = .starting && (s.ctl.phase = some .format || s.ctl.phase = some .rescan)

/-- The claimants that wait: a walk asks again for as long as its phase runs (R125, log entry 57). -/
def State.waitingAsks (s : State) : List StoreClaimant :=
  if s.walks then s.store.asks ++ [.table] else s.store.asks

/-- The store, if free, grants the next burst (R125). With none waiting in HOLD it returns to
self-refresh and the timer stops (R124). -/
def State.grantStore (s : State) : State :=
  if s.store.burst.isSome then s
  else
    match { s.store with asks := s.waitingAsks : StoreRec }.nextClaimant with
    | some cl =>
      { s with store := { s.store with
          burst := some cl
          asks := s.store.asks.erase cl
          lastUnit := match cl with
            | .unit u => u
            | _ => s.store.lastUnit
          lastRecovery := (recoveryTurn cl).getD s.store.lastRecovery } }
    | none =>
      if s.ctl.state = .hold then
        { s with store := { s.store with selfRefresh := true, timerRunning := false } }
      else s

end Sys2Proof.Machine
end

