-- ==== Sys2Proof/Machine/Operands.lean ====
section
/-! DEFINITION. The layouts and codes of spec/12: the operands of requests, the blocks in system memory, and the payloads of responses. -/

namespace Sys2Proof.Machine

/-! ## Codes (spec/12, 12.4) -/

/-- Unit STATE codes. -/
def UnitState.code : UnitState → Nat
  | .idle => 0
  | .fetch => 1
  | .run => 2
  | .wait => 3
  | .ending => 4
  | .pending => 5

/-- Controller STATE codes. -/
def CtlState.code : CtlState → Nat
  | .starting => 0
  | .ready => 1
  | .draining => 2
  | .hold => 3
  | .resuming => 4
  | .storeFailed => 5

/-- Drive STATE codes. -/
def DriveState.code : DriveState → Nat
  | .absent => 0
  | .notReady => 1
  | .ready => 2
  | .faulted => 3
  | .withdrawn => 4

/-- FAULT_KIND codes. -/
def FaultKind.code : FaultKind → Nat
  | .seekFail => 0
  | .driveSignalled => 1
  | .indexLost => 2
  | .readyDrop => 3

/-- Track STATE codes. -/
def TrackState.code : TrackState → Nat
  | .free => 0
  | .pending => 1
  | .queued => 2
  | .active => 3
  | .settled => 4
  | .broken => 5

/-- CLASS codes. -/
def TrackClass.code : TrackClass → Nat
  | .demand => 0
  | .archive => 1
  | .sweep => 2

/-- Sector STATUS codes. -/
def SectorStatus.code : SectorStatus → Nat
  | .pending => 0
  | .clean => 1
  | .voted => 2
  | .failed => 3
  | .marked => 4
  | .written => 5
  | .replaced => 6
  | .damaged => 7
  | .lost => 8

/-- GUESS codes. -/
def Guess.code : Guess → Nat
  | .none => 0
  | .present => 1
  | .damaged => 2

/-- PORT_OUTCOME codes. -/
def PortOutcome.code : PortOutcome → Nat
  | .addressInvalid => 1
  | .keyViolation => 2
  | .parity => 3
  | .noResponse => 4

/-- OFFSET codes. -/
def Offset.code : Offset → Nat
  | .centre => 0
  | .inward => 1
  | .outward => 2

/-- OFFSET of a code. -/
def offsetOfCode : Nat → Option Offset
  | 0 => some .centre
  | 1 => some .inward
  | 2 => some .outward
  | _ => none

/-- STROBE of a code. -/
def strobeOfCode : Nat → Option Strobe
  | 0 => some .early
  | 1 => some .nominal
  | 2 => some .late
  | _ => none

/-- A yes or no field of a code. -/
def boolOfCode : Nat → Option Bool
  | 0 => some false
  | 1 => some true
  | _ => none

/-- STORE_CHECK codes. -/
def StoreCheck.code : StoreCheck → Nat
  | .inProgress => 0
  | .passed => 1
  | .upperFailed => 2
  | .lowerFailed => 3

/-- PHASE codes. -/
def Phase.code : Phase → Nat
  | .storeCheck => 0
  | .format => 1
  | .rescan => 2
  | .discovery => 3

/-- SWEEP_STATE codes. -/
def SweepState.code : SweepState → Nat
  | .off => 0
  | .running => 1
  | .stalled => 2
  | .done => 3

/-- REGION codes. -/
def Region.code : Region → Nat
  | .frame => 0
  | .candidate => 1
  | .table => 2

/-- FOUND_BY codes. -/
def FoundBy.code : FoundBy → Nat
  | .unit => 0
  | .link => 1
  | .vote => 2
  | .recovery => 3
  | .table => 4
  | .scrub => 5

/-- RESULT codes (R166). -/
def Result.code : Result → Nat
  | .ok => 0
  | .accepted => 1
  | .frameCheck => 2
  | .unknownRequest => 3
  | .badLength => 4
  | .range => 5
  | .noSuchTrack => 6
  | .poolFull => 7
  | .settled => 8
  | .nothingFailed => 9
  | .trackActive => 10
  | .trackBroken => 11
  | .trackInUse => 12
  | .locked => 13
  | .notLocked => 14
  | .locksExhausted => 15
  | .notExported => 16
  | .stale => 17
  | .marked => 18
  | .driveCondition => 19
  | .driveInUse => 20
  | .unitsBusy => 21
  | .starting => 22
  | .holding => 23
  | .storeError => 24

/-- Answer codes (R134). -/
def Answer.code : Answer → Nat
  | .accepted => 0
  | .statusPending => 1
  | .busy => 2
  | .unavailable => 3
  | .nothing => 4
  | .illegal => 5

/-- Sense REASON codes, in the order of R161. -/
def SenseReason.code : SenseReason → Nat
  | .none => 0
  | .failed => 1
  | .marked => 2
  | .lost => 3
  | .directFailed => 4
  | .recovering => 5
  | .locked => 6
  | .notReady => 7
  | .tableFault => 8
  | .poolFull => 9
  | .endOfMedium => 10
  | .length => 11
  | .unknownOp => 12
  | .listTooLong => 13
  | .oddAddress => 14
  | .badPosition => 15
  | .port => 16

/-- COMPLETION codes (spec/12, status record). -/
def Completion.code : Completion → Nat
  | .normal => 0
  | .check => 1
  | .halted => 2
  | .unsolicited => 3

/-! ## Bytes and words -/

/-- A one-byte field. -/
def byteOf (n : Nat) : Byte := BitVec.ofNat 8 n

/-- A two-byte field, high byte first (R178). -/
def be2 (n : Nat) : List Byte := [byteOf (n / 256), byteOf n]

/-- A four-byte field, high byte first (R178). -/
def be4 (n : Nat) : List Byte :=
  [byteOf (n / 16777216), byteOf (n / 65536), byteOf (n / 256), byteOf n]

/-- A one-byte field, 0xFF when absent (R178). -/
def byteOrAbsent (n : Option Nat) : Byte := byteOf (n.getD 0xFF)

/-- A two-byte field, 0xFFFF when absent (R178). -/
def be2OrAbsent (n : Option Nat) : List Byte := be2 (n.getD 0xFFFF)

/-- A yes or no field: 1 or 0. -/
def bitOf (b : Bool) : Nat := if b then 1 else 0

/-- Byte `i` of a payload as a number. -/
def at1 (p : List Byte) (i : Nat) : Nat := (p.getD i 0).toNat

/-- The two-byte field at byte `i` of a payload, high byte first (R178). -/
def at2 (p : List Byte) (i : Nat) : Nat := at1 p i * 256 + at1 p (i + 1)

/-- A word of a system memory record as a number. -/
def wordAt (ws : List Word16) (i : Nat) : Nat := (ws.getD i 0).toNat

/-- A word from its high and low bytes. -/
def wordOf (hi lo : Byte) : Word16 := hi ++ lo

/-- Words as bytes in the order in which they lie in system memory: the low half first (R177). -/
def wordsToBytes : List Word16 → List Byte
  | [] => []
  | w :: rest => lowByte w :: highByte w :: wordsToBytes rest

/-- A drive position, unit or context number, when it is one. -/
def fin4? (n : Nat) : Option (Fin 4) := if h : n < 4 then some ⟨n, h⟩ else none

/-! ## Track operands (R57, spec/12) -/

/-- What a track operand comes to: a slot, or the refusal of R57. -/
inductive OperandResult
  | slot (n : Nat)
  | refused (r : Result)
  deriving DecidableEq, Repr

/-- The address form of a track operand (R57). -/
def State.operandAddress (s : State) (drive cyl head : Nat) : OperandResult :=
  match fin4? drive with
  | none => .refused .range
  | some d =>
    let inside := match s.geometry.get d with
      | some g => g.contains cyl head
      | none => true
    if !inside then .refused .range
    else
      match s.findTrack ⟨d, cyl, head⟩ with
      | some n => .slot n
      | none => .refused .noSuchTrack

/-- The slot form of a track operand (R57). -/
def State.operandSlot (s : State) (n : Nat) : OperandResult :=
  if s.usable ≤ n then .refused .range
  else if (s.track n).state = .free then .refused .noSuchTrack
  else .slot n

/-- The track operand in the first six bytes of a payload (R57, R178, spec/12). -/
def State.trackOperand (s : State) (p : List Byte) : OperandResult :=
  if at1 p 0 = 0 then s.operandAddress (at1 p 1) (at2 p 2) (at1 p 4)
  else if at1 p 0 = 1 then s.operandSlot (at2 p 1)
  else .refused .range

/-! ## Blocks in system memory (spec/12, 12.2) -/

/-- A ROUTE code: 0 to 3 a level, 4 NONE, the rest out of range. -/
def routeOfCode (n : Nat) : Option (Option (Fin 4)) :=
  if n = 4 then some none
  else
    match fin4? n with
    | some l => some (some l)
    | none => none

/-- The settings of a setup block, when every field is in its range (R138, R139, spec/12). -/
def parseSetup (ws : List Word16) : Option Settings :=
  let statusBase := wordAt ws 0 % 256 * 65536 + wordAt ws 1
  let keys := wordAt ws 2
  let routes := wordAt ws 3
  let patience := wordAt ws 4
  let burst := wordAt ws 5
  if statusBase % 2 = 0 && statusBase ≤ 0xFFFFC0 && 50 ≤ patience && patience ≤ 10000
      && 1 ≤ burst && burst ≤ 8 then
    match routeOfCode (routes % 8), routeOfCode (routes / 8 % 8), routeOfCode (routes / 64 % 8),
        routeOfCode (routes / 512 % 8), routeOfCode (routes / 4096 % 8) with
    | some r0, some r1, some r2, some r3, some rc =>
      some { statusBase := statusBase
             key := ⟨keys % 16, keys / 16 % 16, keys / 256 % 16, keys / 4096 % 16⟩
             unitRoute := ⟨r0, r1, r2, r3⟩
             controllerRoute := rc
             patience := patience
             burst := burst }
    | _, _, _, _, _ => none
  else none

/-- OP of a code (spec/12). -/
def opOfCode : Nat → Option OrderOp
  | 1 => some .position
  | 2 => some .read
  | 3 => some .write
  | 4 => some .sense
  | 5 => some .state
  | _ => none

/-- An order block's fields, or nothing when OP is not one of the five orders (R148, spec/12). -/
def parseOrder (ws : List Word16) : Option Order :=
  match opOfCode (wordAt ws 0 % 16) with
  | none => none
  | some op =>
    some { op := op
           chained := (wordAt ws 0).testBit 8
           suppressLength := (wordAt ws 0).testBit 9
           acceptGuess := (wordAt ws 0).testBit 10
           count := wordAt ws 1
           dataAddress := wordAt ws 2 % 256 * 65536 + wordAt ws 3
           cyl := wordAt ws 4
           head := wordAt ws 5 / 256
           sector := wordAt ws 5 % 256 }

/-- The bit of a unit condition in word 1 of the status record, in the order of R159. -/
def Condition.unitBit : Condition → Nat
  | .dataCheck => 1
  | .recovering => 2
  | .notReady => 4
  | .tableFault => 8
  | .poolFull => 16
  | .marked => 32
  | .endOfMedium => 64
  | .incorrectLength => 128
  | .orderFault => 256
  | .port _ => 0

/-- The bit of a port condition in word 2 of the status record. -/
def Condition.portBit : Condition → Nat
  | .port .addressInvalid => 1
  | .port .keyViolation => 2
  | .port .parity => 4
  | .port .noResponse => 8
  | _ => 0

/-- The 8-word status record (R160, spec/12). -/
def statusWords (completion : Completion) (conditions : List Condition) (driveStatus : DriveState)
    (residual orderAddress guessed : Nat) : List Word16 :=
  [ BitVec.ofNat 16 (completion.code + driveStatus.code * 16),
    BitVec.ofNat 16 (conditions.map Condition.unitBit).sum,
    BitVec.ofNat 16 (conditions.map Condition.portBit).sum,
    BitVec.ofNat 16 residual,
    BitVec.ofNat 16 (orderAddress / 65536 % 256),
    BitVec.ofNat 16 orderAddress,
    BitVec.ofNat 16 guessed,
    0 ]

/-- The 8-word sense record (R161, spec/12). -/
def senseWords (x : SenseRec) : List Word16 :=
  [ wordOf (byteOrAbsent (x.sectorStatus.map SectorStatus.code)) (byteOf x.reason.code),
    BitVec.ofNat 16 x.position.cyl,
    wordOf (byteOf x.position.head) (byteOf x.position.sector),
    BitVec.ofNat 16 (x.slot.getD 0xFFFF),
    wordOf (byteOrAbsent (x.guess.map Guess.code)) (byteOrAbsent (x.portOutcome.map PortOutcome.code)),
    wordOf (byteOf x.attempts) (byteOf x.checkFails),
    wordOf (byteOf x.driveStatus.code) (byteOrAbsent (x.faultKind.map FaultKind.code)),
    0 ]

/-- The number of sectors of a track that hold a STATUS (R151). -/
def TrackRec.countStatus (r : TrackRec) (st : SectorStatus) : Nat :=
  (r.sectors.filter (fun x => x.status = st)).length

/-- The 8-word state summary (R151, spec/12). -/
def summaryWords (r : TrackRec) : List Word16 :=
  [ wordOf (byteOrAbsent (r.cls.map TrackClass.code)) (byteOf r.state.code),
    wordOf (byteOf (r.countStatus .clean)) (byteOf (r.countStatus .pending)),
    wordOf (byteOf (r.countStatus .failed)) (byteOf (r.countStatus .voted)),
    wordOf (byteOf (r.countStatus .written)) (byteOf (r.countStatus .marked)),
    wordOf (byteOf (r.countStatus .damaged)) (byteOf (r.countStatus .replaced)),
    wordOf 0 (byteOf (r.countStatus .lost)),
    r.revision,
    0 ]

/-! ## Response payloads (spec/12, 12.3) -/

/-- One sector entry of the TRACK_RECORD payload; byte 7 is 0 where HEADER_FLAG is absent (log entry 51). -/
def sectorEntry (x : SectorRec) (candidates : Nat) : List Byte :=
  [ byteOf x.status.code, byteOf x.attempts, byteOf x.checkFails, byteOf x.syncMisses,
    byteOf x.headerFaults, byteOrAbsent x.resolvedStep,
    byteOf (bitOf x.blind + 2 * bitOf x.headerFlag.isSome), x.headerFlag.getD 0 ]
    ++ be2OrAbsent x.uncertain ++ [byteOf x.guess.code, byteOf candidates]

/-- The TRACK_RECORD payload of a slot (R58). -/
def State.trackRecordPayload (s : State) (n : Nat) : List Byte :=
  let r := s.track n
  be2 n
    ++ [ byteOf r.state.code, byteOrAbsent (r.cls.map TrackClass.code),
         byteOrAbsent (r.addr.map (fun a => a.drive.val)), byteOrAbsent (r.addr.map (·.head)) ]
    ++ be2OrAbsent (r.addr.map (·.cyl))
    ++ [ byteOf (bitOf r.origins.system + 2 * bitOf r.origins.archive + 4 * bitOf r.origins.sweep),
         byteOf r.nextStep, byteOf r.stepRevs, byteOrAbsent (r.context.map (·.val)),
         byteOrAbsent (r.lock.map (·.val)), byteOf r.waiters,
         byteOf (bitOf r.diverged + 2 * bitOf r.exported), byteOf r.sectors.length ]
    ++ be2 r.totalRevs ++ be2 r.revision.toNat
    ++ ((List.range r.sectors.length).map
          (fun k => sectorEntry (r.sector k) (s.candidateCount n k))).flatten

/-- The CLAIM byte of DRIVE_STATE. -/
def claimByte : Option Holder → Byte
  | some (.ctx c) => byteOf c.val
  | some .drs => 4
  | none => 0xFF

/-- The geometry bytes of DRIVE_STATE: DEFINED and the seven fields, all 0 when UNDEFINED. -/
def geometryBytes : Option Geometry → List Byte
  | none => List.replicate 11 0
  | some g =>
    [1] ++ be2 g.cylinders ++ [byteOf g.heads, byteOf g.sectors] ++ be2 g.sectorBytes
      ++ [byteOf g.interleave, byteOf g.period] ++ be2 g.checkSeed.toNat

/-- The DRIVE_STATE payload (R37). -/
def State.driveStatePayload (s : State) (d : Fin 4) : List Byte :=
  let r := s.drives.get d
  [ byteOf d.val, byteOf (bitOf r.fitted), byteOf r.state.code,
    byteOrAbsent (r.faultKind.map FaultKind.code), byteOf (bitOf r.discovering) ]
    ++ be2OrAbsent r.cylAt
    ++ [ byteOrAbsent (r.offsetAt.map Offset.code), claimByte r.claim, byteOf r.observedSectors,
         byteOf (bitOf r.seekRetried) ]
    ++ geometryBytes (s.geometry.get d)

/-- The SWEEP_START and SWEEP_STOP payload (R79). -/
def State.sweepPayload (s : State) (d : Fin 4) : List Byte :=
  let w := s.sweeps.get d
  [byteOf d.val, byteOf w.state.code] ++ be2 w.cyl ++ [byteOf w.head, byteOf w.depth]

/-- The controller STATE and PHASE bytes. -/
def State.ctlBytes (s : State) : List Byte :=
  [byteOf s.ctl.state.code, byteOrAbsent (s.ctl.phase.map Phase.code)]

/-- The IDENTIFY payload (R170). -/
def State.identifyPayload (s : State) : List Byte :=
  be2 Config.vendorCode ++ be2 Config.partCode
    ++ [ byteOf Config.partRevision, byteOf (storeSizeMib s.ctl.straps.storeSize),
         byteOf s.ctl.straps.profile.val, byteOf s.ctl.straps.drives,
         byteOf s.ctl.straps.ioBase.val, byteOf s.ctl.sizeInUse ]
    ++ be2 s.usable ++ [byteOf s.ctl.storeCheck.code] ++ s.ctlBytes

/-- The two member bytes of the ATTENTION payload (R169). -/
def attentionBytes (a : Attention) : List Byte :=
  [ byteOf (bitOf a.driveChange.n0 + 2 * bitOf a.driveChange.n1 + 4 * bitOf a.driveChange.n2
      + 8 * bitOf a.driveChange.n3 + 16 * bitOf a.settled + 32 * bitOf a.sweep + 64 * bitOf a.store
      + 128 * bitOf a.sysclear),
    byteOf (bitOf a.started) ]

/-- The SET_LIMITS payload: the seven values in force (R171). -/
def State.limitsPayload (s : State) : List Byte :=
  [byteOf s.limits.uncertainty, byteOf s.limits.starvation]
    ++ (s.sweeps.map (fun w => byteOf w.depth)).toList ++ [byteOf s.store.scrubPeriod]

/-- The OWNER bytes of the STORE_STATE payload: kind, slot or context or drive, candidate position,
logical sector (spec/12). -/
def ownerBytes : WordOwner → List Byte
  | .nobody => [0] ++ be2 0xFFFF ++ [0xFF, 0xFF]
  | .trackSector n k => [1] ++ be2 n ++ [0xFF, byteOf k]
  | .candidate c p k => [2] ++ be2 c.val ++ [byteOf p, byteOf k]
  | .capture c k => [3] ++ be2 c.val ++ [0xFF, byteOf k]
  | .trackRecord n => [4] ++ be2 n ++ [0xFF, 0xFF]
  | .geometry d => [5] ++ be2 d.val ++ [0xFF, 0xFF]
  | .sweepRecord d => [6] ++ be2 d.val ++ [0xFF, 0xFF]

/-- The LAST_UNCORRECTED bytes 5 to 16 of the STORE_STATE payload. -/
def lastUncorrectedBytes : Option LastUncorrected → List Byte
  | none => [0] ++ List.replicate 11 0xFF
  | some x =>
    [1, byteOf x.region.code] ++ be2 x.frame ++ be2 x.offset ++ [byteOf x.foundBy.code]
      ++ ownerBytes x.owner

/-- The STORE_STATE payload (R132). -/
def State.storeStatePayload (s : State) : List Byte :=
  [byteOf s.ctl.sizeInUse] ++ be2 s.store.corrected ++ be2 s.store.uncorrected
    ++ lastUncorrectedBytes s.store.lastUncorrected
    ++ be4 s.store.scrubCursor ++ be2 s.store.passes.toNat ++ [byteOf s.store.scrubPeriod]

/-- One record of the LIST_TRACKS payload (R59). -/
def listedTrack (n : Nat) (r : TrackRec) : List Byte :=
  be2 n ++ [byteOf r.state.code, byteOrAbsent (r.addr.map (fun a => a.drive.val))]
    ++ be2OrAbsent (r.addr.map (·.cyl)) ++ [byteOrAbsent (r.addr.map (·.head))]

/-- The PULL payload: the header and the bytes returned (R60). -/
def pullPayload (x : SectorRec) (revision : Word16) (bytes : List Byte) : List Byte :=
  [byteOf x.status.code, byteOf x.guess.code] ++ be2OrAbsent x.uncertain ++ be2 revision.toNat
    ++ be2 bytes.length ++ bytes

/-- One ladder step from its four bytes (R81, spec/12). -/
def parseStep (p : List Byte) (i : Nat) : Option LadderStep :=
  match strobeOfCode (at1 p i), offsetOfCode (at1 p (i + 1)), boolOfCode (at1 p (i + 3)) with
  | some strobe, some offset, some blind =>
    if 1 ≤ at1 p (i + 2) && at1 p (i + 2) ≤ 15 then
      some { strobe := strobe, offset := offset, revs := at1 p (i + 2), blind := blind }
    else none
  | _, _, _ => none

/-- `n` ladder steps from byte `i` on, all in range (R81). -/
def parseSteps (p : List Byte) : Nat → Nat → Option (List LadderStep)
  | _, 0 => some []
  | i, n + 1 =>
    match parseStep p i, parseSteps p (i + 4) n with
    | some st, some rest => some (st :: rest)
    | _, _ => none

/-- The ladder of a SET_LADDER payload, when R81 accepts it. -/
def parseLadder (p : List Byte) : Option (List LadderStep) :=
  let n := at1 p 0
  if 1 ≤ n && n ≤ 12 && p.length = 1 + 4 * n then parseSteps p 1 n else none

/-- The geometry fields of a DEFINE_DRIVE payload (spec/12). -/
def parseGeometry (p : List Byte) : Geometry :=
  { cylinders := at2 p 1, heads := at1 p 3, sectors := at1 p 4, sectorBytes := at2 p 5,
    interleave := at1 p 7, period := at1 p 8, checkSeed := BitVec.ofNat 16 (at2 p 9) }

/-- The undefine form: bytes 1 to 10 all zero (R14, spec/12). -/
def undefineForm (p : List Byte) : Bool := ((p.drop 1).take 10).all (· = 0)

end Sys2Proof.Machine
end

