-- ==== Sys2Proof/Machine/Flags.lean ====
section
/-! DEFINITION. What the part shows at its pins and in its window: the interrupt lines, ATTN, and the eight words of the I/O window. -/

namespace Sys2Proof.Machine

/-- The attention set is empty (R168). -/
def Attention.isEmpty (a : Attention) : Bool :=
  !(a.driveChange.n0 || a.driveChange.n1 || a.driveChange.n2 || a.driveChange.n3 || a.settled || a.sweep
    || a.store || a.sysclear || a.started)

/-- The ATTN line: asserted while the slot holds a response or the attention set is not empty, and
released while LINK_RST is asserted (R168, R172). -/
def State.attnLine (s : State) : Bool :=
  !s.link.rstLine && (s.link.slot.isSome || !s.link.attention.isEmpty)

/-- A unit's interrupt source is pending while its STATE is PENDING (R144). -/
def State.unitSource (s : State) (u : Fin 4) : Bool := (s.units.get u).state = .pending

/-- The controller's interrupt source is pending while it holds an attention reason (R144). -/
def State.controllerSource (s : State) : Bool :=
  s.port.storeError || s.port.setupFailed || s.port.stateChange

/-- An interrupt line is asserted while a pending source is routed to it (R144): also by a reason that is set
while the system clear line stays asserted, at once, though CONTROLLER_STATE reads no reason until the release
(log entry 45). -/
def State.intLine (s : State) (level : Fin 4) : Bool :=
  fourNumbers.any (fun u => s.unitSource u && s.port.settings.unitRoute.get u = some level)
    || (s.controllerSource && s.port.settings.controllerRoute = some level)

/-- UNIT_SUMMARY (R137, spec/12). -/
def State.unitSummary (s : State) : Nat :=
  (s.units.get 0).state.code + 8 * (s.units.get 1).state.code + 64 * (s.units.get 2).state.code
    + 512 * (s.units.get 3).state.code

/-- CONTROLLER_STATE (R137, spec/12). -/
def State.controllerState (s : State) : Nat :=
  s.ctl.state.code + 8 * bitOf s.port.setupFetch.isSome + 16 * bitOf s.port.storeError
    + 32 * bitOf s.port.setupFailed + 64 * bitOf s.port.stateChange + 128 * bitOf s.port.statusLost

/-- What a read of a window word gives (R133, R137); reading changes nothing. ANSWER reads NOTHING
while the system clear line is asserted (R134), and the two status words read as the clear left them (R146,
log entry 45): every unit IDLE, no fetch, no reason, and the controller STATE of that moment. -/
def State.windowRead (s : State) (word : Fin 8) : Word16 :=
  match word.val with
  | 0 => BitVec.ofNat 16 (s.port.address.toNat / 65536)
  | 1 => BitVec.ofNat 16 s.port.address.toNat
  | 2 => 0
  | 3 => BitVec.ofNat 16 (if s.port.clearLine then Answer.nothing.code else s.port.answer.code)
  | 4 => BitVec.ofNat 16 (if s.port.clearLine then 0 else s.unitSummary)
  | 5 => BitVec.ofNat 16 (if s.port.clearLine then s.port.heldCtl.code else s.controllerState)
  | _ => 0

/-- The first word address of the window on the system I/O bus (R133). -/
def State.windowBase (s : State) : Nat := s.ctl.straps.ioBase.val * 8

/-- The bytes of a response frame (R165, spec/12). -/
def Response.frame (r : Response) : List Byte :=
  withCheck linkSeed
    ([ r.kind, r.tag, byteOf r.result.code, byteOf (bitOf r.previousLost + 2 * bitOf r.attentionSet) ]
      ++ be2 r.payload.length ++ r.payload)

/-- The NO_RESPONSE frame (R165). -/
def noResponseFrame (attentionSet : Bool) : Response :=
  { kind := 0, tag := 0, result := .ok, previousLost := false, attentionSet := attentionSet, payload := [] }

end Sys2Proof.Machine
end

