-- ==== Sys2Proof/Machine/Arbiter.lean ====
section
/-! DEFINITION. The Path Arbiter's grants (R30 to R32, R87) and the positioning of a drive for its holder (R24, R25, R86). -/

namespace Sys2Proof.Machine

/-! ## Grants -/

/-- The track that a context is bound to has a sector left unresolved. -/
def State.ctxUnresolved (s : State) (c : Fin 4) : Bool :=
  (s.ctxs.get c).track.any fun n => (s.track n).anyUnresolved

/-- A context waits for the read path while it is in WAIT_PATH with a sector to read: the wanted set of a
grant is never empty (R87). -/
def State.ctxWaits (s : State) (c : Fin 4) : Bool :=
  (s.ctxs.get c).state = .waitPath && s.ctxUnresolved c

/-- The rank of a waiting context (R31): 2 at the starvation guard, 3 with a DEMAND track, 4 otherwise. -/
def State.ctxRank (s : State) (c : Fin 4) : Nat :=
  if s.limits.starvation ≤ s.path.passedOver.get c then 2
  else if ((s.ctxs.get c).track.bind (fun n => (s.track n).cls)) = some .demand then 3
  else 4

/-- The first waiting context of a rank in the order after LAST_GRANTED (R31). -/
def State.firstOfRank (s : State) (rank : Nat) : Option (Fin 4) :=
  let l := s.path.lastGranted
  [l + 1, l + 2, l + 3, l + 4].find? (fun c => s.ctxWaits c && s.ctxRank c = rank)

/-- The highest-ranked waiting context (R31). -/
def State.bestContext (s : State) : Option (Fin 4) :=
  match s.firstOfRank 2 with
  | some c => some c
  | none =>
    match s.firstOfRank 3 with
    | some c => some c
    | none => s.firstOfRank 4

/-- The PASSED_OVER counts after a grant to a holder of the given rank: each waiting context of a lower
rank is counted, up to 16 (R32). -/
def State.countPassed (s : State) (rank : Nat) : Four Nat :=
  Four.ofFn fun c =>
    if s.ctxWaits c && rank < s.ctxRank c then satAdd 16 (s.path.passedOver.get c) 1
    else s.path.passedOver.get c

/-- The path granted to the Direct Read Slot: rank 1, LAST_GRANTED kept, strobe NOMINAL, not blind (R31,
R157 step 4). -/
def State.grantDrs (s : State) (t : DrsTarget) : State :=
  { s with
    path := { s.path with
      grant := some { holder := .drs, addr := t.addr, strobe := .nominal, blind := false, opened := false }
      passedOver := s.countPassed 1 }
    drs := { s.drs with state := .reading } }

/-- The path granted to a context: it enters READING and names its track, strobe, blind indication and
wanted set (R31, R32, R87). -/
def State.grantCtx (s : State) (c : Fin 4) : State :=
  let x := s.ctxs.get c
  match x.track, x.step with
  | some n, some st =>
    match (s.track n).addr with
    | some a =>
      let s := { s with path := { s.path with
        grant := some { holder := .ctx c, addr := a, strobe := st.step.strobe, blind := st.step.blind,
                        opened := false }
        lastGranted := c
        passedOver := (s.countPassed (s.ctxRank c)).set c 0 } }
      s.modCtx c fun x => { x with state := .reading, wanted := (s.track n).unresolvedSectors }
    | none => s
  | _, _ => s

/-- A grant decision, when the path is free (R30, R31). -/
def State.grantPath (s : State) : State :=
  if s.path.grant.isSome then s
  else
    match s.drs.state, s.drs.target with
    | .waitPath, some t => s.grantDrs t
    | _, _ =>
      match s.bestContext with
      | some c => s.grantCtx c
      | none => s

/-- The path made free; the decision that follows is the caller's (R30). -/
def State.dropGrant (s : State) : State :=
  { s with path := { s.path with grant := none, rev := Revolution.start } }

/-- A granted revolution of a holder ends without a result, and a decision follows (R33). -/
def State.releaseGrant (s : State) (h : Holder) : State :=
  if (s.path.grant.map (·.holder)) = some h then s.dropGrant.grantPath else s

/-- A context enters WAIT_PATH and is a waiting holder at once (R86, R30). -/
def State.enterWaitPath (s : State) (c : Fin 4) : State :=
  (s.modCtx c fun x => { x with state := .waitPath }).grantPath

/-! ## Positioning -/

/-- The holder of a drive is told POSITIONED (R24, R86, R157 step 3). -/
def State.tellPositioned (s : State) (d : Fin 4) : State :=
  let s := s.modDrive d fun r => { r with positioning := none }
  match (s.drives.get d).claim with
  | some (.ctx c) => s.enterWaitPath c
  | some .drs => { s with drs := { s.drs with state := .waitPath } }.grantPath
  | none => s

/-- The offset brought to its target once the heads stand on the cylinder (R25). -/
def State.offsetStage (s : State) (d : Fin 4) (cyl : Nat) (offset : Offset) : State :=
  if (s.drives.get d).offsetAt = some offset then s.tellPositioned d
  else
    s.modDrive d fun r =>
      { r with offsetAt := none, positioning := some { cyl := cyl, offset := offset, stage := .settling } }

/-- A seek begins: CYL_AT becomes UNKNOWN (R24). -/
def State.beginSeek (s : State) (d : Fin 4) (cyl : Nat) (offset : Offset) : State :=
  s.modDrive d fun r =>
    { r with cylAt := none, positioning := some { cyl := cyl, offset := offset, stage := .seeking } }

/-- A positioning's recalibration begins: SEEK_RETRIED becomes yes (R24). `again` when a seek that timed
out is to be made again after it. -/
def State.beginRecalibration (s : State) (d : Fin 4) (cyl : Nat) (offset : Offset) (again : Bool) :
    State :=
  s.modDrive d fun r =>
    { r with seekRetried := true,
             positioning := some { cyl := cyl, offset := offset, stage := .recalibrating again } }

/-- A positioning request (R24). -/
def State.beginPositioning (s : State) (d : Fin 4) (cyl : Nat) (offset : Offset) : State :=
  match (s.drives.get d).cylAt with
  | none => s.beginRecalibration d cyl offset false
  | some at_ => if at_ = cyl then s.offsetStage d cyl offset else s.beginSeek d cyl offset

/-- A positioning in progress abandoned: a seek or recalibration leaves CYL_AT UNKNOWN, a settle leaves
OFFSET_AT UNKNOWN (R25, R27). -/
def DriveRec.abandonPositioning (r : DriveRec) : DriveRec :=
  match r.positioning with
  | none => r
  | some p =>
    match p.stage with
    | .settling => { r with positioning := none, offsetAt := none }
    | .seeking => { r with positioning := none, cylAt := none }
    | .recalibrating _ => { r with positioning := none, cylAt := none }

/-- A context prepares a revolution under its STEP_IN_FORCE (R86). -/
def State.prepareRevolution (s : State) (c : Fin 4) : State :=
  let x := s.ctxs.get c
  match x.track, x.step with
  | some n, some st =>
    match (s.track n).addr with
    | some a =>
      let r := s.drives.get a.drive
      if r.cylAt = some a.cyl && r.offsetAt = some st.step.offset then s.enterWaitPath c
      else
        (s.modCtx c fun x => { x with state := .positioning }).beginPositioning a.drive a.cyl
          st.step.offset
    | none => s
  | _, _ => s

end Sys2Proof.Machine
end

