-- ==== Sys2Proof/Machine/Bus.lean ====
section
/-! DEFINITION. The memory-bus requester (R140 to R143), a unit's transfers, and the ending of an order list (R159 to R163). -/

namespace Sys2Proof.Machine

/-! ## Forming bursts (R143) -/

/-- One past the top of the 24-bit system memory address space. -/
def busTop : Nat := 0x1000000

/-- A STORE's words from its bytes: two bytes a word, low half first; a last single byte has its low
mark set and its high mark clear (R143, R177). -/
def busWords : List Byte → List BusWord
  | [] => []
  | [lo] => [{ data := wordOf 0 lo, lowMark := true, highMark := false }]
  | lo :: hi :: rest => { data := wordOf hi lo, lowMark := true, highMark := true } :: busWords rest

/-- The direction of a transfer's bursts. -/
def TransferKind.direction : TransferKind → Direction
  | .orderFetch => .load
  | .prefetch => .load
  | .gather => .load
  | .deliver => .store
  | .senseStore => .store
  | .summaryStore => .store
  | .statusStore => .store

/-- The next burst of a unit's transfer, or nothing when its words would pass address 0xFFFFFF (R143). -/
def Transfer.nextBurst (x : Transfer) (u : Fin 4) (burstMax : Nat) : Option Burst :=
  let n := min burstMax ((x.left + 1) / 2)
  if busTop < x.addr + 2 * n then none
  else
    some { claimant := .unit u
           direction := x.kind.direction
           addr := x.addr
           count := n
           key := x.key
           words := match x.kind.direction with
             | .store => busWords (x.out.take (2 * n))
             | .load => [] }

/-- A transfer after a burst of `n` words ended DONE, with a LOAD's words. -/
def Transfer.advance (x : Transfer) (n : Nat) (words : List Word16) : Transfer :=
  { x with
    addr := x.addr + 2 * n
    left := x.left - 2 * n
    out := x.out.drop (2 * n)
    got := match x.kind.direction with
      | .load => x.got ++ (List.range n).map (fun i => words.getD i 0)
      | .store => x.got }

/-- A unit's burst put before the requester (R140: at most one waiting). -/
def State.putBurst (s : State) (u : Fin 4) (b : Burst) : State :=
  { s with req := { s.req with unitWaiting := s.req.unitWaiting.set u (some b) } }

/-- A unit's transfer begun or gone on with: its next burst waits, or nothing when R143 ends it at once. -/
def State.askTransfer (s : State) (u : Fin 4) (x : Transfer) : Option State :=
  match x.nextBurst u s.port.settings.burst with
  | none => none
  | some b => some ((s.modUnit u fun r => { r with transfer := some x }).putBurst u b)

/-- The next burst of the setup fetch, KEY 0, or nothing when it would pass 0xFFFFFF (R139, R143). -/
def SetupFetch.nextBurst (f : SetupFetch) (burstMax : Nat) : Option Burst :=
  let n := min burstMax (8 - f.got.length)
  let a := f.addr + 2 * f.got.length
  if busTop < a + 2 * n then none
  else some { claimant := .setup, direction := .load, addr := a, count := n, key := 0, words := [] }

/-! ## Choosing (R140) -/

/-- The cycle unit 0, 1, 2, 3, setup from the claimant after the one last served. -/
def BusClaimant.cycle : BusClaimant → List BusClaimant
  | .unit u =>
    match u with
    | 0 => [.unit 1, .unit 2, .unit 3, .setup, .unit 0]
    | 1 => [.unit 2, .unit 3, .setup, .unit 0, .unit 1]
    | 2 => [.unit 3, .setup, .unit 0, .unit 1, .unit 2]
    | 3 => [.setup, .unit 0, .unit 1, .unit 2, .unit 3]
  | .setup => [.unit 0, .unit 1, .unit 2, .unit 3, .setup]

/-- The waiting burst of a claimant. -/
def Requester.waiting (q : Requester) : BusClaimant → Option Burst
  | .unit u => q.unitWaiting.get u
  | .setup => q.setupWaiting

/-- A claimant's waiting burst taken from it. -/
def Requester.take (q : Requester) : BusClaimant → Requester
  | .unit u => { q with unitWaiting := q.unitWaiting.set u none }
  | .setup => { q with setupWaiting := none }

/-- A FREE requester takes the first waiting claimant after LAST_SERVED, and raises its request (R140, R141). -/
def Requester.choose (q : Requester) : Requester :=
  if q.state = .free then
    match q.lastServed.cycle.find? (fun cl => (q.waiting cl).isSome) with
    | none => q
    | some cl =>
      { q.take cl with state := .requesting, current := q.waiting cl, lastServed := cl }
  else q

/-- BURST_CHOICE (R140). -/
def State.chooseBurst (s : State) : State := { s with req := s.req.choose }

/-- The requester at system clear and RESET_CONTROLLER: waiting bursts discarded, one not yet accepted
withdrawn, one in its cycle left to finish, LAST_SERVED setup (R146 step 4). -/
def Requester.cleared (q : Requester) : Requester :=
  match q.state with
  | .inCycle => { Requester.powerOn with state := .finishing, current := q.current }
  | .finishing => { Requester.powerOn with state := .finishing, current := q.current }
  | .free => Requester.powerOn
  | .requesting => Requester.powerOn
  | .presenting => Requester.powerOn

/-! ## Status records (R160, R163) -/

/-- A status record could not be stored (R160): STATUS_LOST and STATE_CHANGE; the unit enters PENDING. -/
def State.statusLost (s : State) (u : Fin 4) : State :=
  let s := { s with port := { s.port with statusLost := true, stateChange := true } }
  s.modUnit u fun r => { r with state := .pending, transfer := none }

/-- A unit enters ENDING and begins the store of its status record at STATUS_BASE + 16 × unit, with
its KEY (R160). -/
def State.storeStatus (s : State) (u : Fin 4) (completion : Completion) (conditions : List Condition)
    (residual orderAddress guessed : Nat) : State :=
  let words := statusWords completion conditions (s.drives.get u).state residual orderAddress guessed
  let x : Transfer :=
    { kind := .statusStore, key := s.port.settings.key.get u,
      addr := s.port.settings.statusBase + 16 * u.val, left := 16, out := wordsToBytes words, got := [] }
  let s := s.modUnit u fun r => { r with state := .ending, conditions := conditions }
  match s.askTransfer u x with
  | some t => t
  | none => s.statusLost u

/-- An IDLE unit stores an UNSOLICITED record (R163). -/
def State.storeUnsolicited (s : State) (u : Fin 4) : State := s.storeStatus u .unsolicited [] 0 0 0

/-- An unsolicited status offered to a unit (R163); discarded while the system clear line is asserted (R146). -/
def State.offerStatus (s : State) (u : Fin 4) : State :=
  if s.port.clearLine then s
  else if (s.units.get u).state = .idle then s.storeUnsolicited u
  else s.modUnit u fun r => { r with stacked := true }

/-! ## The ending of a list (R159 to R161) -/

/-- A list is closed: what it held is discarded and its status record is stored (R149, R160, R162). -/
def State.closeList (s : State) (u : Fin 4) (completion : Completion) (conditions : List Condition) :
    State :=
  let s := s.modUnit u fun r =>
    { r with order := none, prefetched := .absent, haltTold := false, waitOn := none, patience := none,
             guess := false, transfer := none, writeTrack := none, notified := false }
  let r := s.units.get u
  s.storeStatus u completion conditions r.residual r.orderAddress r.guessed

/-- The track at a unit's POSITION, on its own drive (R147). -/
def State.positionTrack (s : State) (u : Fin 4) : TrackAddr :=
  { drive := u, cyl := (s.units.get u).position.cyl, head := (s.units.get u).position.head }

/-- The sense record of a check condition (R161): the record that holds the track at POSITION gives
SLOT and the sector's fields; a direct read gives its own counts and no SLOT (R157, log entry 18). With
neither, ATTEMPTS and CHECK_FAILS are 0 (log entry 49). -/
def State.senseOf (s : State) (u : Fin 4) (reason : SenseReason) (port : Option PortOutcome)
    (direct : Option (Nat × Nat)) : SenseRec :=
  let r := s.units.get u
  let d := s.drives.get u
  let base : SenseRec :=
    { reason := reason, position := r.position, slot := none, sectorStatus := none, guess := none,
      attempts := 0, checkFails := 0, portOutcome := port, driveStatus := d.state,
      faultKind := d.faultKind }
  match direct with
  | some (attempts, checkFails) => { base with attempts := attempts, checkFails := checkFails }
  | none =>
    match s.findTrack (s.positionTrack u) with
    | none => base
    | some n =>
      match (s.track n).sectors[r.position.sector]? with
      | none => { base with slot := some n }
      | some x =>
        { base with slot := some n, sectorStatus := some x.status, guess := some x.guess,
                    attempts := x.attempts, checkFails := x.checkFails }

/-- The sense record is replaced whole (R161). -/
def State.setSense (s : State) (u : Fin 4) (x : SenseRec) : State :=
  s.modUnit u fun r => { r with sense := x }

/-- A direct read's list ends CHECK, with the read's own counts in the sense record (R157). Its order is a
READ, which leaves no written track behind. -/
def State.endDirect (s : State) (u : Fin 4) (cond : Condition) (reason : SenseReason) : State :=
  (s.setSense u (s.senseOf u reason none (some (s.drs.attempts, s.drs.checkFails)))).closeList u .check
    [cond]

/-- A unit's list ends with TABLE_FAULT as the record it waits on becomes BROKEN (R53, R155): the record is
on its way to hold no address, so a WRITE leaves no track to be enqueued (R158). The sense record shows the
sector as it stood before the rewrite (log entry 62). -/
def State.endBroken (s : State) (u : Fin 4) : State :=
  (s.setSense u (s.senseOf u .tableFault none none)).closeList u .check [.tableFault]

/-! ## Waits (R47, R155) -/

/-- A unit's wait on a track is withdrawn: WAITERS falls by one (R155). -/
def State.withdrawWait (s : State) (u : Fin 4) : State :=
  match (s.units.get u).waitSlot with
  | some n => s.modTrack n fun r => { r with waiters := r.waiters - 1 }
  | none => s

end Sys2Proof.Machine
end

