-- ==== Sys2Proof/Machine/Claims.lean ====
section
/-! DEFINITION. Drive claims (R28, R29), the Direct Read Slot's asking and ending (R156, R157), and the Vote Unit's request list (R107, R117). -/

namespace Sys2Proof.Machine

/-! ## The Direct Read Slot gives a drive back -/

/-- A displaced context receives its claim back and goes on (R29, R102). -/
def State.returnToContext (s : State) (c : Fin 4) (d : Fin 4) : State :=
  if (s.ctxs.get c).evaluation ≠ .none then s.modCtx c fun x => { x with state := .evaluating }
  else
    match (s.drives.get d).state with
    | .ready => s.prepareRevolution c
    | .faulted => s.modCtx c fun x => { x with state := .faultHold }
    | .absent => s
    | .notReady => s
    | .withdrawn => s

/-- The Direct Read Slot gives up its claim on a drive: a positioning is abandoned, SEEK_RETRIED
becomes no, and the claim returns to a displaced context that is still bound, or to none (R28, R29). This
holds at system clear too, where R17's table says that CYL_AT, OFFSET_AT and SEEK_RETRIED are kept (log
entry 58). -/
def State.drsGiveUp (s : State) (d : Fin 4) : State :=
  let back := (s.drives.get d).displacedContext.filter
    (fun c => (s.ctxs.get c).state = .displaced && s.boundOn c d)
  let s := s.modDrive d fun r =>
    { r.abandonPositioning with seekRetried := false, displacedContext := none,
                                claim := back.map Holder.ctx }
  match back with
  | none => s
  | some c => s.returnToContext c d

/-- The Direct Read Slot becomes FREE, its waiting units kept (R157). -/
def DrsRec.freed (r : DrsRec) : DrsRec := { DrsRec.reset with waitingUnits := r.waitingUnits }

/-- A direct read ends: a revolution still granted to it ends without a result, its claim or claim
request is given up, and the slot becomes FREE (R33, R157). -/
def State.endRead (s : State) : State :=
  match s.drs.target with
  | none => { s with drs := s.drs.freed }
  | some t =>
    let d := t.addr.drive
    let s := { s with drs := s.drs.freed }
    let s := s.modDrive d fun r => { r with drsWaiting := false }
    let s := s.releaseGrant .drs
    if (s.drives.get d).claim = some .drs then s.drsGiveUp d else s

/-- A direct read that cannot go on ends its unit's list with NOT_READY (R157). -/
def State.failRead (s : State) : State :=
  match s.drs.serving with
  | none => s
  | some u => (s.endDirect u .notReady .notReady).endRead

/-! ## The Direct Read Slot asks for a drive -/

/-- What the Drive Supervisor decides on a Direct Read Slot's request (R28). -/
inductive DrsDecision
  | grant
  | displace (c : Fin 4)
  | wait
  | refuse
  deriving DecidableEq, Repr

/-- A context is READING, or its drive is seeking or recalibrating for it (R28, R29). -/
def State.holdsFast (s : State) (c : Fin 4) (d : Fin 4) : Bool :=
  (s.ctxs.get c).state = .reading ||
    match (s.drives.get d).positioning with
    | none => false
    | some p => p.stage ≠ .settling

/-- The decision on a Direct Read Slot's request for a drive (R28). -/
def State.drsDecision (s : State) (d : Fin 4) : DrsDecision :=
  let r := s.drives.get d
  if r.state ≠ .ready || (s.geometry.get d).isNone then .refuse
  else if r.discovering then .wait
  else
    match r.claim with
    | none => .grant
    | some (.ctx c) => if s.holdsFast c d then .wait else .displace c
    | some .drs => .wait

/-- The Direct Read Slot, holding the claim, positions to its target with offset NONE (R157 step 3). -/
def State.drsPosition (s : State) (t : DrsTarget) : State :=
  let s := { s with drs := { s.drs with state := .positioning } }
  s.beginPositioning t.addr.drive t.addr.cyl .centre

/-- A Direct Read Slot's request decided (R28, R29). A context displaced in POSITIONING leaves OFFSET_AT
UNKNOWN (R102, log entry 54). -/
def State.drsDecide (s : State) (t : DrsTarget) : State :=
  let d := t.addr.drive
  match s.drsDecision d with
  | .grant =>
    (s.modDrive d fun r => { r with claim := some .drs, drsWaiting := false }).drsPosition t
  | .displace c =>
    let positioning : Bool := (s.ctxs.get c).state = .positioning
    let s := s.modDrive d fun r =>
      { r.abandonPositioning with
        claim := some .drs, displacedContext := some c, drsWaiting := false
        offsetAt := if positioning then none else r.abandonPositioning.offsetAt }
    (s.modCtx c fun x => { x with state := .displaced }).drsPosition t
  | .wait => s.modDrive d fun r => { r with drsWaiting := true }
  | .refuse => (s.modDrive d fun r => { r with drsWaiting := false }).failRead

/-- A waiting request of the Direct Read Slot for the drive decided again (R28). -/
def State.drsRecheck (s : State) (d : Fin 4) : State :=
  if (s.drives.get d).drsWaiting then
    match s.drs.target with
    | some t => if t.addr.drive = d then s.drsDecide t else s
    | none => s
  else s

/-! ## A context gives up its claim -/

/-- A context gives up its drive claim (R28): a positioning is abandoned (R27), SEEK_RETRIED becomes
no, and a waiting Direct Read Slot is decided again. A context that holds none gives up nothing. -/
def State.ctxGiveUp (s : State) (c : Fin 4) (d : Fin 4) : State :=
  if (s.drives.get d).claim = some (.ctx c) then
    (s.modDrive d fun r => { r.abandonPositioning with seekRetried := false, claim := none }).drsRecheck d
  else s

/-! ## The Vote Unit's request list -/

/-- A request joins the tail of the list (R107). -/
def State.queueVote (s : State) (q : VoteRequest) : State :=
  { s with vote := { s.vote with requests := s.vote.requests ++ [q] } }

/-- A context's request is withdrawn; one in service is stopped (R117). The bursts that the Vote Unit asked for
and the store has not served stay among the store's asks (log entry 59). -/
def VoteRec.withdraw (v : VoteRec) (c : Fin 4) : VoteRec :=
  { requests := v.requests.filter (fun q => q.context ≠ c)
    serving := if (v.requests.head?.map (·.context)) = some c then none else v.serving }

/-- A context queues an evaluation request and is EVALUATING, or stays DISPLACED (R92, R95, R107). -/
def State.requestEvaluation (s : State) (c : Fin 4) (kind : VoteKind) : State :=
  let x := s.ctxs.get c
  match x.track with
  | none => s
  | some n =>
    let s := s.queueVote
      { context := c, track := n, kind := kind,
        step := match kind with
          | .inLadder => x.step.map (·.index)
          | .final => none,
        flags := x.lastFlags }
    s.modCtx c fun x =>
      { x with
        state := if x.state = .displaced then .displaced else .evaluating
        evaluation := match kind with
          | .inLadder => .inLadder
          | .final => .final
        wanted := [] }

end Sys2Proof.Machine
end

