-- ==== Sys2Proof/Machine/Contexts.lean ====
section
/-! DEFINITION. Recovery contexts: unbinding (R98), settling (R43, R103) and returning to the queue (R69, R104); and the change of a track record to BROKEN (R53, R128). -/

namespace Sys2Proof.Machine

/-- A context is unbound (R98): its lists are emptied, its evaluation request withdrawn, its grant and
its drive claim given up, the record's CONTEXT made absent, and it becomes FREE. The state the track
takes is the caller's. -/
def State.unbind (s : State) (c : Fin 4) : State :=
  match (s.ctxs.get c).track with
  | none => s
  | some n =>
    let s := s.modCtx c fun _ => CtxRec.free
    let s := { s with
      vote := s.vote.withdraw c
      path := { s.path with passedOver := s.path.passedOver.set c 0 } }
    let d := (s.track n).addr.map (·.drive)
    let s := s.modTrack n fun r => { r with context := none }
    let s := s.releaseGrant (.ctx c)
    match d with
    | none => s
    | some d => s.ctxGiveUp c d

/-- A context's track settles and the context is unbound (R94, R96, R103). -/
def State.settleBound (s : State) (c : Fin 4) (n : Nat) : State := (s.unbind c).settle n

/-- A context is unbound and its track returns to the head of its class's group (R69, R104, R129). -/
def State.returnTrack (s : State) (c : Fin 4) : State :=
  match (s.ctxs.get c).track with
  | none => s
  | some n => (s.unbind c).queueHead n

/-- A context is unbound and its track is requeued ARCHIVE from step 0, at the tail (R96, R70). -/
def State.requeueBound (s : State) (c : Fin 4) (n : Nat) : State :=
  let s := s.unbind c
  let s := s.modTrack n fun r => { r with nextStep := 0, stepRevs := 0 }
  s.queueTail n .archive

/-- A SETTLED track with a sector newly DAMAGED is requeued ARCHIVE (R70). -/
def State.requeueSettled (s : State) (n : Nat) : State :=
  let s := s.modTrack n fun r => { r with nextStep := 0, stepRevs := 0 }
  s.queueTail n .archive

/-- A context settles at once after a write in these states (R103). -/
def CtxRec.settlesAtOnce (x : CtxRec) : Bool :=
  x.state = .positioning || x.state = .waitPath || x.state = .faultHold
    || (x.state = .displaced && x.evaluation = .none)

/-- After a write or push: the track settles if that has resolved its last unresolved sector, which it has when
the track had one before and has none now (R43, R46, R61, R103). -/
def State.settleIfResolved (s : State) (n : Nat) (before : Bool) : State :=
  let r := s.track n
  if !before || r.anyUnresolved then s
  else
    match r.state with
    | .queued => (s.leaveQueue n).settle n
    | .pending => s.settle n
    | .active =>
      match r.context with
      | none => s
      | some c => if (s.ctxs.get c).settlesAtOnce then s.settleBound c n else s
    | .settled => s
    | .broken => s
    | .free => s

/-! ## The change to BROKEN (R53, R128) -/

/-- A track's wait notice for TABLE_FAULT: each unit that waits on the slot ends its list (R53 step 3). -/
def State.endWaitersBroken (s : State) (n : Nat) : State :=
  fourNumbers.foldl (fun s u => if (s.units.get u).waitsOnSlot n then s.endBroken u else s) s

/-- Bit errors in a record's own words are gone when the record is rewritten whole (R53 step 4, R122). -/
def State.clearFlips (s : State) (o : WordOwner) : State :=
  { s with store := { s.store with flips := s.store.flips.filter (fun e => s.wordOwner e.1 ≠ o) } }

/-- A record leaves the queue, its context, or the free list (R53 step 1). -/
def State.removeTrack (s : State) (n : Nat) : State :=
  let r := s.track n
  match r.state with
  | .queued => s.leaveQueue n
  | .active =>
    match r.context with
    | some c => s.unbind c
    | none => s
  | .free => { s with freeList := s.freeList.filter (· ≠ n) }
  | .pending => s
  | .settled => s
  | .broken => s

/-- The record is rewritten whole as BROKEN, with the DIVERGED that could be read (R53 step 4). -/
def State.rewriteBroken (s : State) (n : Nat) (diverged : Bool) : State :=
  (s.setTrack n (TrackRec.broken diverged)).clearFlips (.trackRecord n)

/-- The change of a track record to BROKEN in the four steps of R53 and R128: removal, lock, waiting
units, rewrite. -/
def State.breakTrack (s : State) (n : Nat) (diverged : Bool) : State :=
  (((s.removeTrack n).releaseLock n).endWaitersBroken n).rewriteBroken n diverged

end Sys2Proof.Machine
end

