-- ==== Sys2Proof/Machine/Records.lean ====
section
/-! DEFINITION. The test of a store word, whatever its owner then does (R121, R122); the read of a track record before each change of it (R120, R128); the endings and withdrawals that change a track record (R104, R155, R158); and what a drive fault does to contexts (R99, R100). -/

namespace Sys2Proof.Machine

/-! ## Testing a word -/

/-- FOUND_BY of the claimant whose read found a word (R131, log entry 24). -/
def StoreClaimant.foundBy : StoreClaimant → FoundBy
  | .capture => .recovery
  | .unit _ => .unit
  | .link => .link
  | .vote => .vote
  | .ctx _ => .recovery
  | .table => .table
  | .scrub => .scrub

/-- The effect that an owner takes on an uncorrectable word that a claimant found. -/
abbrev OwnerEffect := State → StoreClaimant → WordOwner → State

/-- A word's bit error is gone once it is rewritten. -/
def State.unflip (s : State) (w : Nat) : State :=
  { s with store := { s.store with flips := assocDel w s.store.flips } }

/-- A word of the frame or candidate region is rewritten with zero data (R122 step 5). -/
def State.zeroWord (s : State) (w : Nat) : State :=
  if regionOf s.usable (w / frameWords) = .table then s
  else { s with store := { s.store with mem := writeBytes s.store.mem (w * 8) (List.replicate 8 0) } }

/-- An uncorrectable word is counted, recorded and announced (R122 steps 1 to 3). -/
def State.noteUncorrectable (s : State) (cl : StoreClaimant) (w : Nat) : State :=
  let last : LastUncorrected :=
    { region := regionOf s.usable (w / frameWords), frame := w / frameWords,
      offset := w % frameWords * 8, owner := s.wordOwner w, foundBy := cl.foundBy }
  { s with store := { s.store with
    uncorrected := satAdd 65535 s.store.uncorrected 1, lastUncorrected := some last } }.attnStore

/-- An uncorrectable word is noted, its owner takes its effect, and it is rewritten (R122). -/
def State.uncorrectableWith (effect : OwnerEffect) (s : State) (cl : StoreClaimant) (w : Nat) : State :=
  ((effect (s.noteUncorrectable cl w) cl (s.wordOwner w)).unflip w).zeroWord w

/-- One store word read and tested (R121, R122). -/
def State.testWord (effect : OwnerEffect) (s : State) (cl : StoreClaimant) (w : Nat) : State :=
  match assocFind w s.store.flips with
  | none => s
  | some .single =>
    let s := s.unflip w
    { s with store := { s.store with corrected := satAdd 65535 s.store.corrected 1 } }
  | some .uncorrectable => s.uncorrectableWith effect cl w

/-- Words read and tested, in ascending order (log entry 23). -/
def State.testWords (effect : OwnerEffect) (s : State) (cl : StoreClaimant) (ws : List Nat) : State :=
  ws.foldl (fun s w => s.testWord effect cl w) s

/-- The words of the table region that belong to a record and have a bit error. -/
def State.flippedOf (s : State) (o : WordOwner) : List Nat :=
  (s.store.flips.filter (fun e => s.wordOwner e.1 = o)).map (·.1)

/-! ## Testing a track record -/

/-- The word that holds DIVERGED of the record in a slot (log entry 7). -/
def State.divergedAt (s : State) (n : Nat) : Nat :=
  let span := Config.trackSpanLessOne s.usable + 1
  s.usable * frameWords + n * span + Config.divergedWord s.usable % span

/-- DIVERGED as it can be read when a word of the record is uncorrectable: no when the word that holds it
is uncorrectable too (R50, R53); a record already BROKEN changes in no other way (R128). -/
def State.readableDiverged (s : State) (n : Nat) : Bool :=
  (s.track n).diverged &&
    ((s.track n).state = .broken || assocFind (s.divergedAt n) s.store.flips ≠ some .uncorrectable)

/-- A track record with an uncorrectable word becomes BROKEN (R128). -/
def State.trackLost (s : State) (n : Nat) : State :=
  if n < s.usable then s.breakTrack n (s.readableDiverged n) else s

/-- The effect on a track record alone. -/
def trackEffect : OwnerEffect := fun s _ o =>
  match o with
  | .trackRecord n => s.trackLost n
  | _ => s

/-- A track record read and tested (R120, R128): every change of some of its fields reads it first. -/
def State.touchTrack (s : State) (cl : StoreClaimant) (n : Nat) : State :=
  (s.testWords trackEffect cl (s.flippedOf (.trackRecord n))).askStore cl 1

/-- Track records read and tested, one after another. -/
def State.touchTracks (s : State) (cl : StoreClaimant) (ns : List Nat) : State :=
  ns.foldl (fun s n => s.touchTrack cl n) s

/-! ## The ending of a list (R158 to R161) -/

/-- A WRITE order leaves a track: the record that then holds its address is read, and enqueued SWEEP when
it is PENDING with an unresolved sector (R158). -/
def State.leaveWrittenTrack (s : State) (u : Fin 4) : State :=
  match (s.units.get u).writeTrack with
  | none => s
  | some a =>
    let s := s.modUnit u fun r => { r with writeTrack := none }
    match s.findTrack a with
    | none => s
    | some n =>
      let s := s.touchTrack (.unit u) n
      if (s.track n).state = .pending && (s.track n).anyUnresolved then s.enqueue n .sweep else s

/-- A list ends: the track it wrote is left, and the list is closed (R158, R160). -/
def State.endList (s : State) (u : Fin 4) (completion : Completion) (conditions : List Condition) :
    State := (s.leaveWrittenTrack u).closeList u completion conditions

/-- A list ends NORMAL (R159). -/
def State.endNormal (s : State) (u : Fin 4) : State := s.endList u .normal []

/-- A list ends HALTED (R162). -/
def State.endHalted (s : State) (u : Fin 4) : State := s.endList u .halted []

/-- A list ends CHECK with one condition; the sense record is replaced whole (R159, R161). -/
def State.endCheck (s : State) (u : Fin 4) (cond : Condition) (reason : SenseReason) : State :=
  (s.setSense u (s.senseOf u reason none none)).endList u .check [cond]

/-- A list ends CHECK with the outcome of a burst as its port condition (R148, R152). After a direct read's
delivery the sense record shows the record at POSITION all the same, if one holds it (log entry 50). -/
def State.endPort (s : State) (u : Fin 4) (outcome : PortOutcome) : State :=
  (s.setSense u (s.senseOf u .port (some outcome) none)).endList u .check [.port outcome]

/-- A SENSE order's own store failed: the sense record is unchanged (R151, R161). -/
def State.endSensePort (s : State) (u : Fin 4) (outcome : PortOutcome) : State :=
  s.endList u .check [.port outcome]

/-- A unit's wait is withdrawn, by a narrow write of WAITERS of its record (R120, R155), and the unit goes
on; a record that the read finds uncorrectable has ended the unit's list as BROKEN (R53). -/
def State.withdrawingWait (s : State) (u : Fin 4) (goOn : State → State) : State :=
  match (s.units.get u).waitSlot with
  | none => goOn s
  | some n =>
    let t := s.touchTrack (.unit u) n
    if (t.units.get u).waitSlot = some n then
      goOn ((t.withdrawWait u).modUnit u fun r => { r with waitOn := none, notified := false })
    else t

/-! ## Contexts -/

/-- A context returns its track to the head of its class's group, its record read first (R104, R120,
R129); a record found BROKEN has unbound the context already (R105). -/
def State.returnRead (s : State) (c : Fin 4) : State :=
  match (s.ctxs.get c).track with
  | none => s
  | some n =>
    let s := s.touchTrack (.ctx c) n
    if (s.ctxs.get c).track = some n then s.returnTrack c else s

/-- A context is told that its drive has latched FAULTED (R99); while the controller drains, a context
that comes to FAULT_HOLD is unbound from there at once (R104). -/
def State.ctxFaulted (s : State) (c : Fin 4) : State :=
  let hold (s : State) : State :=
    let s := s.modCtx c fun x => { x with state := .faultHold, wanted := [] }
    if s.ctl.state = .draining then s.returnRead c else s
  match (s.ctxs.get c).state with
  | .positioning => hold s
  | .waitPath => hold s
  | .reading => hold s
  | .evaluating => s
  | .faultHold => s
  | .displaced => s
  | .free => s

/-- A context in FAULT_HOLD is told that its drive is READY again (R100). -/
def State.ctxReady (s : State) (c : Fin 4) : State :=
  if (s.ctxs.get c).state = .faultHold then s.prepareRevolution c else s

/-- The holders of a drive, and a waiting Direct Read Slot, are told its new STATE (R23, R33, R99,
R100, R157). A revolution on a drive that has left READY ends ABORTED, and a decision follows. -/
def State.tellHolders (s : State) (d : Fin 4) : State :=
  let state : DriveState := (s.drives.get d).state
  let aborted : Bool := state ≠ DriveState.ready && (s.path.grant.map (·.addr.drive)) = some d
  let s := if aborted then s.dropGrant else s
  let s :=
    match (s.drives.get d).claim with
    | some (.ctx c) =>
      match state with
      | .ready => s.ctxReady c
      | .faulted => s.ctxFaulted c
      | .absent => s
      | .notReady => s
      | .withdrawn => s
    | some .drs => if state = DriveState.ready then s else s.failRead
    | none => s
  let s := s.drsRecheck d
  if aborted then s.grantPath else s

/-- A change of a drive record's STATE is reported (R23): DRIVE_CHANGE, the holders, and the unit's
unsolicited status, which comes after a wait that the report ends (R163). -/
def State.reportDrive (s : State) (d : Fin 4) : State :=
  ((s.attnDrive d).tellHolders d).offerStatus d

/-- A drive latches FAULTED (R22); the first fault stays latched, and a WITHDRAWN drive ignores it. -/
def State.latchFault (s : State) (d : Fin 4) (kind : FaultKind) : State :=
  let r := s.drives.get d
  if r.state = .faulted || r.state = .withdrawn || !r.fitted then s
  else
    let s := s.modDrive d fun r =>
      { r with state := .faulted, faultKind := some kind, cylAt := none, offsetAt := none,
               positioning := none, discovery := none }
    s.reportDrive d

/-! ## Geometry and sweep records lost -/

/-- A unit's wait or direct read ends as the drive's geometry becomes UNDEFINED (R155, R157). -/
def State.releaseUnit (s : State) (d : Fin 4) : State :=
  let r := s.units.get d
  if r.waitsOnTrack then s.withdrawingWait d fun s => s.endCheck d .notReady .notReady
  else if r.waitOn = some .drs then
    if s.drs.serving = some d then s.failRead
    else
      { s with drs := { s.drs with waitingUnits := s.drs.waitingUnits.filter (· ≠ d) } }.endCheck d
        .notReady .notReady
  else s

/-- A drive's geometry becomes UNDEFINED through a store error (R129): its bound context returns its
track to the queue, and its unit's wait or direct read ends with NOT_READY (R155, R157). -/
def State.loseGeometry (s : State) (d : Fin 4) : State :=
  let s := (s.setGeometry d none).clearFlips (.geometry d)
  let s :=
    match s.ctxOn d with
    | some c => s.returnRead c
    | none => s
  s.releaseUnit d

/-- A sweep record lost to a store error (R129): OFF, cursor 0/0, DEPTH 2. -/
def State.loseSweep (s : State) (d : Fin 4) : State :=
  (s.modSweep d fun _ => SweepRec.powerOn).clearFlips (.sweepRecord d)

end Sys2Proof.Machine
end

