-- ==== Sys2Proof/Machine/StoreAccess.lean ====
section
/-! DEFINITION. Access to the image store: the consequences of an uncorrectable word (R126 to R129), and the reads and writes that claims make. -/

namespace Sys2Proof.Machine

/-- The effect of an uncorrectable word on the sector that owns it (R126). A FAILED sector whose GUESS is
DAMAGED already is left as it is: no GUESS becomes DAMAGED (R48). -/
def State.markSector (s : State) (n k : Nat) : State :=
  let r := s.track n
  let x := r.sector k
  let put (y : SectorRec) : State := s.setTrack n (r.setSector k y).imageChanged
  match x.status with
  | .clean =>
    let s := put { x.restart with status := .damaged }
    if r.state = .settled then s.requeueSettled n else s
  | .voted =>
    let s := put { x.restart with status := .damaged }
    if r.state = .settled then s.requeueSettled n else s
  | .written => put { x.restart with status := .lost }
  | .replaced => put { x.restart with status := .lost }
  | .failed => if x.guess = .damaged then s else put { x.restart with guess := .damaged }
  | .pending => s
  | .damaged => s
  | .marked => s
  | .lost => s

/-- The sector of a frame is damaged by a narrow write of its track record (R120, R126): the record is read
first, and one found BROKEN has no sectors left. -/
def State.damageSector (s : State) (cl : StoreClaimant) (n k : Nat) : State :=
  let s := s.touchTrack cl n
  if (s.track n).state = .broken then s else s.markSector n k

/-- The effect of an uncorrectable word on the candidate entry that holds it (R127): a named candidate
leaves its list. -/
def State.dropCandidate (s : State) (c : Fin 4) (p k : Nat) : State :=
  s.modCtx c fun x => { x with candidates := x.candidates.set k ((x.list k).filter (· ≠ p)) }

/-- The owner of an uncorrectable word takes its effect (R122 step 4, R126 to R129). -/
def ownerEffect : OwnerEffect := fun s cl o =>
  match o with
  | .nobody => s
  | .trackSector n k => s.damageSector cl n k
  | .candidate c p k => s.dropCandidate c p k
  | .capture _ _ => s
  | .trackRecord n => s.trackLost n
  | .geometry d => s.loseGeometry d
  | .sweepRecord d => s.loseSweep d

/-- One store word read and tested, with the effect on its owner (R121, R122). -/
def State.readWord (s : State) (cl : StoreClaimant) (w : Nat) : State := s.testWord ownerEffect cl w

/-- The words of a run that have a bit error, in ascending order. -/
def State.flippedIn (s : State) (lo hi : Nat) : List Nat :=
  (s.store.flips.filter (fun e => lo ≤ e.1 && e.1 < hi)).map (·.1)

/-- Some word of a run is uncorrectable. -/
def State.uncorrectableIn (s : State) (lo hi : Nat) : Bool :=
  s.store.flips.any (fun e => lo ≤ e.1 && e.1 < hi && e.2 = .uncorrectable)

/-- The words of a run read and tested, in ascending order (log entry 23). -/
def State.readWords (s : State) (cl : StoreClaimant) (ws : List Nat) : State := s.testWords ownerEffect cl ws

/-- Store bytes read in bursts already asked for: the bytes, or none when a word of them is
uncorrectable, and the state after the words have been tested (R121, R122). -/
def State.readAsked (s : State) (cl : StoreClaimant) (a n : Nat) : Option (List Byte) × State :=
  let lo := a / 8
  let hi := (a + n + 7) / 8
  ( if s.uncorrectableIn lo hi then none else some (readBytes s.store.mem a n),
    s.readWords cl (s.flippedIn lo hi) )

/-- A claim's read of store bytes, with its bursts (R119, R121, R122). -/
def State.readStore (s : State) (cl : StoreClaimant) (a n : Nat) : Option (List Byte) × State :=
  let read := s.readAsked cl a n
  (read.1, read.2.askStore cl (burstsFor (((a + n + 7) / 8 - a / 8) * 8)))

/-- A claim's write of whole store words (R39, R119): fresh words have fresh check bits. -/
def State.writeStore (s : State) (cl : StoreClaimant) (a : Nat) (bytes : List Byte) : State :=
  let lo := a / 8
  let hi := (a + bytes.length + 7) / 8
  let s := { s with store := { s.store with
    mem := writeBytes s.store.mem a bytes
    flips := s.store.flips.filter (fun e => !(lo ≤ e.1 && e.1 < hi)) } }
  s.askStore cl (burstsFor ((hi - lo) * 8))

/-- Some word of a record in the table region is uncorrectable. -/
def State.recordBad (s : State) (o : WordOwner) : Bool :=
  s.store.flips.any (fun e => s.wordOwner e.1 = o && e.2 = .uncorrectable)

/-- A record of the table region read and tested, with its effect (R122, R128, R129). -/
def State.touchRecord (s : State) (cl : StoreClaimant) (o : WordOwner) : State :=
  (s.readWords cl (s.flippedOf o)).askStore cl 1

/-- A sector of a track's frame read by a claim (R39). -/
def State.readFrame (s : State) (cl : StoreClaimant) (n k : Nat) : Option (List Byte) × State :=
  let b := (s.track n).sectorBytes
  s.readStore cl (sectorAddr n b k) b

/-- A sector of a track's frame written whole by a claim (R39). -/
def State.writeFrame (s : State) (cl : StoreClaimant) (n k : Nat) (bytes : List Byte) : State :=
  s.writeStore cl (sectorAddr n (s.track n).sectorBytes k) bytes

end Sys2Proof.Machine
end

