-- ==== Sys2Proof/Machine/Tracks.lean ====
section
/-! DEFINITION. Claims on track records: allocation (R52), the change of a sector by a claim (R44, R48), and the shadow write (R46). -/

namespace Sys2Proof.Machine

/-- The kinds of party that name a track (R40, ORIGINS). -/
inductive OriginKind
  | system
  | archive
  | sweep
  deriving DecidableEq, Repr

/-- ORIGINS gains an origin (R40). -/
def Origins.add (o : Origins) : OriginKind → Origins
  | .system => { o with system := true }
  | .archive => { o with archive := true }
  | .sweep => { o with sweep := true }

/-- A record's ORIGINS gain an origin (R40, R52 step 2). -/
def State.addOrigin (s : State) (n : Nat) (o : OriginKind) : State :=
  s.modTrack n fun r => { r with origins := r.origins.add o }

/-- Outcomes of an allocation claim (R52). -/
inductive Allocation
  | outOfRange
  | found (n : Nat)
  | poolEmpty
  | fresh (n : Nat)
  deriving DecidableEq, Repr

/-- The slot at the head of the free list taken for an address (R52 step 4); a head whose record is
found uncorrectable leaves the list as BROKEN, and the allocation goes on with the new head (R122).
The count bounds how many heads are looked at: the length of the list. -/
def State.takeFrame (s : State) (cl : StoreClaimant) (a : TrackAddr) (g : Geometry) (o : OriginKind) :
    Nat → Allocation × State
  | 0 => (.poolEmpty, s)
  | tries + 1 =>
    match s.freeList with
    | [] => (.poolEmpty, s)
    | n :: rest =>
      if s.recordBad (.trackRecord n) then
        let t := s.touchTrack cl n
        { t with freeList := t.freeList.filter (· ≠ n) }.takeFrame cl a g o tries
      else
        let s := s.touchTrack cl n
        let s := { s with freeList := rest }
        (.fresh n, (s.setTrack n (TrackRec.allocated a g)).addOrigin n o)

/-- A claim finds the record that holds an address and gives it its origin; a record whose read finds
an uncorrectable word is BROKEN and holds the address no more (R52 step 2, R128). -/
def State.claimTrack (s : State) (cl : StoreClaimant) (a : TrackAddr) (o : OriginKind) :
    Option Nat × State :=
  match s.findTrack a with
  | none => (none, s)
  | some n =>
    let t := s.touchTrack cl n
    if (t.track n).holds a then (some n, t.addOrigin n o) else (none, t)

/-- An allocation claim (R52); the drive's geometry record is read first (R121, R129). -/
def State.allocate (s : State) (cl : StoreClaimant) (a : TrackAddr) (o : OriginKind) :
    Allocation × State :=
  let s := s.touchRecord cl (.geometry a.drive)
  match s.geometry.get a.drive with
  | none => (.outOfRange, s)
  | some g =>
    if !g.contains a.cyl a.head then (.outOfRange, s)
    else
      match s.claimTrack cl a o with
      | (some n, s) => (.found n, s)
      | (none, s) => s.takeFrame cl a g o s.freeList.length

/-- A claim of R44 that is taken: the sector record changed, REVISION up by one and EXPORTED cleared
(R48, R49), and, the sector being resolved, its candidates discarded (R97). -/
def State.resolveSector (s : State) (n k : Nat) (f : SectorRec → SectorRec) : State :=
  let r := s.track n
  (s.setTrack n (r.setSector k (f (r.sector k))).imageChanged).discardCandidates n k

/-- A recovery claim is taken only on a PENDING or DAMAGED sector of a track that is ACTIVE and bound
to the context it is made for (R45). -/
def State.recoveryTaken (s : State) (c : Fin 4) (n k : Nat) : Bool :=
  let r := s.track n
  r.state = .active && r.context = some c && (r.sector k).status.unresolved

/-- The sector record after a shadow write (R44). -/
def SectorRec.written (x : SectorRec) : SectorRec := { x.restart with status := .written }

/-- The sector record after a push (R44). -/
def SectorRec.replaced (x : SectorRec) : SectorRec := { x.restart with status := .replaced }

/-- The Track Table's decisions on a shadow write (R46, R158). -/
inductive WriteDecision
  | taken
  | locked
  | marked
  | unresolved
  deriving DecidableEq, Repr

/-- A shadow write taken: the frame written, the sector WRITTEN, DIVERGED set, and the track settled
when the write has resolved its last unresolved sector (R43, R44, R46, R50). -/
def State.takeWrite (s : State) (cl : StoreClaimant) (n k : Nat) (bytes : List Byte) : State :=
  let before := (s.track n).anyUnresolved
  let s := s.writeFrame cl n k bytes
  let s := s.resolveSector n k SectorRec.written
  let s := s.modTrack n fun r => { r with diverged := true }
  s.settleIfResolved n before

/-- A short share completed to a whole sector with the bytes beyond its count (R46 step 4). -/
def completed (bytes rest : List Byte) : List Byte := bytes ++ rest.drop bytes.length

/-- The shadow write claim (R46): a unit's bytes for a sector. -/
def State.shadowWrite (s : State) (cl : StoreClaimant) (n k : Nat) (bytes : List Byte) :
    WriteDecision × State :=
  let r := s.track n
  let zeros := List.replicate r.sectorBytes (0 : Byte)
  if r.lock.isSome then (.locked, s)
  else
    let st := (r.sector k).status
    if st = .marked then (.marked, s)
    else if bytes.length = r.sectorBytes then (.taken, s.takeWrite cl n k bytes)
    else
      match st with
      | .failed => (.taken, s.takeWrite cl n k (completed bytes zeros))
      | .lost => (.taken, s.takeWrite cl n k (completed bytes zeros))
      | .pending => (.unresolved, s)
      | .damaged => (.unresolved, s)
      | .marked => (.marked, s)
      | .clean =>
        match s.readFrame cl n k with
        | (some old, s) => (.taken, s.takeWrite cl n k (completed bytes old))
        | (none, s) => (.unresolved, s)
      | .voted =>
        match s.readFrame cl n k with
        | (some old, s) => (.taken, s.takeWrite cl n k (completed bytes old))
        | (none, s) => (.unresolved, s)
      | .written =>
        match s.readFrame cl n k with
        | (some old, s) => (.taken, s.takeWrite cl n k (completed bytes old))
        | (none, s) => (.taken, s.takeWrite cl n k (completed bytes zeros))
      | .replaced =>
        match s.readFrame cl n k with
        | (some old, s) => (.taken, s.takeWrite cl n k (completed bytes old))
        | (none, s) => (.taken, s.takeWrite cl n k (completed bytes zeros))

end Sys2Proof.Machine
end

