-- ==== Sys2Proof/Machine/Units.lean ====
section
/-! DEFINITION. The unit sequencers: walking an order list (R148 to R152), reading (R153 to R155), writing (R158), halting (R162), and what the end of each burst does (R143, R160). -/

namespace Sys2Proof.Machine

/-! ## Lists and fetches -/

/-- The unit enters FETCH and loads the 12 bytes at ORDER_ADDRESS (R148). -/
def State.fetchFromBus (s : State) (u : Fin 4) : State :=
  let s := s.modUnit u fun r => { r with state := .fetch, prefetched := .absent }
  let x : Transfer :=
    { kind := .orderFetch, key := s.port.settings.key.get u, addr := (s.units.get u).orderAddress,
      left := 12, out := [], got := [] }
  match s.askTransfer u x with
  | some t => t
  | none => s.endPort u .addressInvalid

/-- An order completes without a condition and the list goes on (R148); `fetch` loads the next block.
A halt that was told takes effect here at the latest (R162). -/
def State.advanceList (s : State) (u : Fin 4) (fetch : State → State) : State :=
  let s := s.leaveWrittenTrack u
  let s := s.modUnit u fun r => { r with ordersDone := r.ordersDone + 1 }
  let r := s.units.get u
  if r.haltTold then s.endHalted u
  else if (r.order.map (·.chained)) ≠ some true then s.endNormal u
  else
    let s := s.modUnit u fun r => { r with orderAddress := r.orderAddress + 12 }
    if r.ordersDone < 32 then fetch s else s.endCheck u .orderFault .listTooLong

/-- An order that prefetched nothing completes (R148). -/
def State.completeOrder (s : State) (u : Fin 4) : State := s.advanceList u fun t => t.fetchFromBus u

/-! ## Waits -/

/-- A unit's demand wait begins, or begins again with its timer still running (R47, R155). A halt that
was told lets no wait begin (R162). -/
def State.demandWait (s : State) (u : Fin 4) (n : Nat) (on : WaitOn) : State :=
  if (s.units.get u).haltTold then s.endHalted u
  else
    let s := s.modUnit u fun r =>
      { r with state := .wait, waitOn := some on,
               patience := some (r.patience.getD s.port.settings.patience) }
    let s := s.modTrack n fun r => { r with waiters := r.waiters + 1 }
    s.promote n .demand

/-- A unit asks the Direct Read Slot for its sector (R154, R156). -/
def State.askDirect (s : State) (u : Fin 4) : State :=
  let s := s.modUnit u fun r =>
    { r with state := .wait, waitOn := some .drs, patience := some s.port.settings.patience }
  { s with drs := { s.drs with waitingUnits := s.drs.waitingUnits ++ [u] } }

/-! ## Reading -/

/-- A sector's bytes lie in the unit's buffer and its share goes to system memory (R153). -/
def State.deliver (s : State) (u : Fin 4) (bytes : List Byte) (guess : Bool) : State :=
  let r := s.units.get u
  let share := min r.residual bytes.length
  let s := s.modUnit u fun r =>
    { r with state := .run, waitOn := none, patience := none, buffer := bytes, guess := guess }
  let x : Transfer :=
    { kind := .deliver, key := s.port.settings.key.get u, addr := r.dataAt, left := share,
      out := bytes.take share, got := [] }
  match s.askTransfer u x with
  | some t => t
  | none => s.endPort u .addressInvalid

/-- What a load claim does after an uncorrectable word took its effect on the sector (R126, R153). -/
def State.loadLost (s : State) (u : Fin 4) (n k : Nat) : State :=
  match ((s.track n).sector k).status with
  | .lost => s.endCheck u .dataCheck .lost
  | .failed => s.endCheck u .dataCheck .failed
  | .pending => s.demandWait u n (.sector n k)
  | .damaged => s.demandWait u n (.sector n k)
  | .clean => s.demandWait u n (.sector n k)
  | .voted => s.demandWait u n (.sector n k)
  | .marked => s.endCheck u .dataCheck .marked
  | .written => s.demandWait u n (.sector n k)
  | .replaced => s.demandWait u n (.sector n k)

/-- The frame sector is loaded into the buffer and delivered (R153). -/
def State.loadFrame (s : State) (u : Fin 4) (n k : Nat) (guess : Bool) : State :=
  match s.readFrame (.unit u) n k with
  | (some bytes, t) => t.deliver u bytes guess
  | (none, t) => t.loadLost u n k

/-- ACCEPT_GUESS of the current order (R147). -/
def UnitRec.acceptsGuess (r : UnitRec) : Bool := (r.order.map (·.acceptGuess)).getD false

/-- The load claim decided against the record that holds the track (R153). -/
def State.loadFrom (s : State) (u : Fin 4) (n : Nat) : State :=
  let k := (s.units.get u).position.sector
  let r := s.track n
  let x := r.sector k
  if r.lock.isSome then s.demandWait u n (.lock n)
  else
    match x.status with
    | .clean => s.loadFrame u n k false
    | .voted => s.loadFrame u n k false
    | .written => s.loadFrame u n k false
    | .replaced => s.loadFrame u n k false
    | .failed =>
      if (s.units.get u).acceptsGuess && x.guess = .present then s.loadFrame u n k true
      else s.endCheck u .dataCheck .failed
    | .marked => s.endCheck u .dataCheck .marked
    | .lost => s.endCheck u .dataCheck .lost
    | .pending => s.demandWait u n (.sector n k)
    | .damaged => s.demandWait u n (.sector n k)

/-- A READ that finds no record for its track (R154); `empty` is what follows an empty pool. -/
def State.allocateForRead (s : State) (u : Fin 4) (empty : State → State) : State :=
  match s.allocate (.unit u) (s.positionTrack u) .system with
  | (.fresh n, t) =>
    (t.enqueue n .demand).demandWait u n (.sector n (t.units.get u).position.sector)
  | (.found n, t) => t.loadFrom u n
  | (.poolEmpty, t) => empty t
  | (.outOfRange, t) => t.endCheck u .notReady .notReady

/-- The load claim of a READ (R153). -/
def State.loadClaim (s : State) (u : Fin 4) : State :=
  match s.claimTrack (.unit u) (s.positionTrack u) .system with
  | (some n, t) => t.loadFrom u n
  | (none, t) => t.allocateForRead u fun t => t.askDirect u

/-! ## Sectors of an order -/

/-- The gathering of a WRITE's share of a sector begins (R152, R158). -/
def State.startGather (s : State) (u : Fin 4) (sectorBytes : Nat) : State :=
  let r := s.units.get u
  let x : Transfer :=
    { kind := .gather, key := s.port.settings.key.get u, addr := r.dataAt,
      left := min r.residual sectorBytes, out := [], got := [] }
  match s.askTransfer u x with
  | some t => t
  | none => s.endPort u .addressInvalid

/-- What a READ or WRITE does before each sector (R152), the geometry record read first (R121, R129); `done`
completes the order when no byte is left. -/
def State.nextSector (s : State) (u : Fin 4) (done : State → State) : State :=
  let r := s.units.get u
  if r.residual = 0 then done s
  else if r.haltTold then s.endHalted u
  else
    let s := s.touchRecord (.unit u) (.geometry u)
    match s.geometry.get u with
    | none => s.endCheck u .notReady .notReady
    | some g =>
      if g.cylinders ≤ r.position.cyl then s.endCheck u .endOfMedium .endOfMedium
      else
        match r.order.map Order.op with
        | some .read => s.loadClaim u
        | some .write => s.startGather u g.sectorBytes
        | some .position => s
        | some .sense => s
        | some .state => s
        | none => s

/-- POSITION advanced by one sector (R152). -/
def Position.next (p : Position) (g : Geometry) : Position :=
  if p.sector + 1 < g.sectors then { p with sector := p.sector + 1 }
  else if p.head + 1 < g.heads then { p with head := p.head + 1, sector := 0 }
  else { cyl := p.cyl + 1, head := 0, sector := 0 }

/-! ## Beginning an order -/

/-- A POSITION order (R150), the geometry record read first (R121, R129). -/
def State.performPosition (s : State) (u : Fin 4) (o : Order) : State :=
  let s := s.touchRecord (.unit u) (.geometry u)
  match s.geometry.get u with
  | none => s.endCheck u .notReady .notReady
  | some g =>
    if !(g.contains o.cyl o.head && o.sector < g.sectors) then
      s.endCheck u .orderFault .badPosition
    else
      let s := s.modUnit u fun r =>
        { r with position := { cyl := o.cyl, head := o.head, sector := o.sector } }
      match s.allocate (.unit u) (s.positionTrack u) .system with
      | (.fresh n, t) => (t.enqueue n .demand).completeOrder u
      | (.found n, t) => (t.promote n .demand).completeOrder u
      | (.poolEmpty, t) => t.completeOrder u
      | (.outOfRange, t) => t.completeOrder u

/-- A SENSE or STATE order's bytes have been stored (R151). -/
def State.storeDone (s : State) (u : Fin 4) : State :=
  match (s.units.get u).order with
  | none => s
  | some o =>
    let s := s.modUnit u fun r =>
      { r with transfer := none, residual := o.count - min o.count 16 }
    if o.count ≠ 16 && !o.suppressLength then s.endCheck u .incorrectLength .length
    else s.completeOrder u

/-- A SENSE or STATE order begins its store of up to 16 bytes (R151). -/
def State.startStore (s : State) (u : Fin 4) (o : Order) (kind : TransferKind)
    (words : List Word16) : State :=
  let n := min o.count 16
  if n = 0 then s.storeDone u
  else
    let x : Transfer :=
      { kind := kind, key := s.port.settings.key.get u, addr := o.dataAddress, left := n,
        out := (wordsToBytes words).take n, got := [] }
    match s.askTransfer u x with
    | some t => t
    | none =>
      match kind with
      | .senseStore => s.endSensePort u .addressInvalid
      | .summaryStore => s.endPort u .addressInvalid
      | .orderFetch => s
      | .prefetch => s
      | .deliver => s
      | .gather => s
      | .statusStore => s

/-- The state summary of the track at POSITION, read in one claim on the geometry record and the track's
(R151); the read adds no origin (log entry 44). -/
def State.readSummary (s : State) (u : Fin 4) : List Word16 × State :=
  let s := s.touchRecord (.unit u) (.geometry u)
  match s.geometry.get u, s.findTrack (s.positionTrack u) with
  | some _, some n =>
    let t := s.touchTrack (.unit u) n
    if (t.track n).holds (s.positionTrack u) then (summaryWords (t.track n), t)
    else (summaryWords TrackRec.free, t)
  | _, _ => (summaryWords TrackRec.free, s)

/-- The unit performs the order it holds (R148 case 4, R150 to R152). -/
def State.beginOrder (s : State) (u : Fin 4) (o : Order) : State :=
  match o.op with
  | .position => s.performPosition u o
  | .read => s.nextSector u fun t => t.completeOrder u
  | .write => s.nextSector u fun t => t.completeOrder u
  | .sense => s.startStore u o .senseStore (senseWords (s.units.get u).sense)
  | .state =>
    let (words, t) := s.readSummary u
    t.startStore u o .summaryStore words

/-- A fetched block is judged, and performed when nothing is wrong with it (R148). -/
def State.judgeBlock (s : State) (u : Fin 4) (words : List Word16) : State :=
  let s := s.modUnit u fun r => { r with prefetched := .absent, transfer := none }
  match parseOrder words with
  | none => s.endCheck u .orderFault .unknownOp
  | some o =>
    if o.op ≠ .position && o.dataAddress % 2 = 1 then s.endCheck u .orderFault .oddAddress
    else
      let s := s.modUnit u fun r =>
        { r with state := .run, order := some o, dataAt := o.dataAddress,
                 residual := if o.op = .position then 0 else o.count }
      s.beginOrder u o

/-! ## After a sector -/

/-- The next block is fetched: what was prefetched is taken instead of a load (R148, R149). -/
def State.fetchNext (s : State) (u : Fin 4) : State :=
  match (s.units.get u).prefetched with
  | .absent => s.fetchFromBus u
  | .block words => (s.modUnit u fun r => { r with state := .fetch }).judgeBlock u words
  | .failed outcome => s.endPort u outcome

/-- A READ or WRITE completes; its next block may have been prefetched (R148, R149). -/
def State.completeTransferOrder (s : State) (u : Fin 4) : State :=
  s.advanceList u fun t => t.fetchNext u

/-- The order goes on to its next sector (R152). -/
def State.goOn (s : State) (u : Fin 4) : State := s.nextSector u fun t => t.completeTransferOrder u

/-- The prefetch of the next block begins; one that would pass 0xFFFFFF is held as failed (R149, R143). -/
def State.startPrefetch (s : State) (u : Fin 4) : State :=
  let x : Transfer :=
    { kind := .prefetch, key := s.port.settings.key.get u,
      addr := (s.units.get u).orderAddress + 12, left := 12, out := [], got := [] }
  match s.askTransfer u x with
  | some t => t
  | none =>
    (s.modUnit u fun r => { r with prefetched := .failed .addressInvalid }).goOn u

/-- A READ or WRITE that has moved its first sector prefetches when CONTINUE is set and the next
block would not be the 33rd (R149). -/
def UnitRec.prefetches (r : UnitRec) : Bool :=
  (r.order.map (·.chained)).getD false && (r.order.map (·.count)) = some r.residual && r.ordersDone < 31

/-- The bytes of the sector that the order moves: its share (R152). -/
def UnitRec.share (r : UnitRec) : Nat := min r.residual r.buffer.length

/-- POSITION after the sector; without a geometry only the sector number moves (R152, log entry 20). -/
def State.positionAfter (s : State) (u : Fin 4) : Position :=
  let p := (s.units.get u).position
  match s.geometry.get u with
  | some g => p.next g
  | none => { p with sector := p.sector + 1 }

/-- A sector's transfer completes (R149, R152, R153, R158, R162). -/
def State.sectorDone (s : State) (u : Fin 4) : State :=
  let r := s.units.get u
  let before := s.positionTrack u
  let p := s.positionAfter u
  let s := s.modUnit u fun x =>
    { x with state := .run, transfer := none, waitOn := none, patience := none,
             residual := x.residual - r.share, dataAt := x.dataAt + r.share, position := p,
             guessed := if x.guess then satAdd 65535 x.guessed 1 else x.guessed, guess := false }
  let s := if s.positionTrack u = before then s else s.leaveWrittenTrack u
  if r.haltTold then s.endHalted u
  else if r.prefetches then s.startPrefetch u
  else s.goOn u

/-! ## Writing -/

/-- The shadow write claim on the record that holds the track (R46, R158). -/
def State.writeInto (s : State) (u : Fin 4) (n : Nat) : State :=
  let r := s.units.get u
  let k := r.position.sector
  let s := s.modUnit u fun r => { r with writeTrack := some (s.positionTrack u), waitOn := none }
  match s.shadowWrite (.unit u) n k r.buffer with
  | (.taken, t) => t.sectorDone u
  | (.locked, t) => t.demandWait u n (.lock n)
  | (.marked, t) => t.endCheck u .marked .marked
  | (.unresolved, t) => t.demandWait u n (.sector n k)

/-- A WRITE's claim finds its record, or allocates one (R158). -/
def State.writeClaim (s : State) (u : Fin 4) : State :=
  match s.claimTrack (.unit u) (s.positionTrack u) .system with
  | (some n, t) => t.writeInto u n
  | (none, t) =>
    match t.allocate (.unit u) (t.positionTrack u) .system with
    | (.fresh n, t) => t.writeInto u n
    | (.found n, t) => t.writeInto u n
    | (.poolEmpty, t) => t.endCheck u .poolFull .poolFull
    | (.outOfRange, t) => t.endCheck u .notReady .notReady

/-- A notified unit's wait ends and it makes its claim again, with its timer still running (R155). -/
def State.claimAgain (s : State) (u : Fin 4) : State :=
  s.withdrawingWait u fun s =>
    let s := s.modUnit u fun r => { r with state := .run }
    if ((s.units.get u).order.map (·.op)) = some .write then s.writeClaim u else s.loadClaim u

/-! ## The end of a burst -/

/-- Outcomes of a burst (R141). -/
inductive BurstOutcome
  | done
  | failed (outcome : PortOutcome)
  deriving DecidableEq, Repr

/-- A transfer's burst failed (R148, R149, R151, R152, R160). RESIDUAL of a SENSE or STATE order stays COUNT, also
where bursts of its store have ended DONE before: the model's choice (log entry 65). -/
def State.transferFailed (s : State) (u : Fin 4) (kind : TransferKind) (o : PortOutcome) : State :=
  match kind with
  | .orderFetch => s.endPort u o
  | .prefetch =>
    (s.modUnit u fun r => { r with transfer := none, prefetched := .failed o }).goOn u
  | .deliver => s.endPort u o
  | .gather => s.endPort u o
  | .senseStore => s.endSensePort u o
  | .summaryStore => s.endPort u o
  | .statusStore => s.statusLost u

/-- A transfer has moved its last byte (R148, R149, R151, R153, R158, R160). -/
def State.transferDone (s : State) (u : Fin 4) (x : Transfer) : State :=
  match x.kind with
  | .orderFetch => s.judgeBlock u x.got
  | .prefetch =>
    (s.modUnit u fun r => { r with transfer := none, prefetched := .block x.got }).goOn u
  | .deliver => s.sectorDone u
  | .gather =>
    (s.modUnit u fun r =>
      { r with transfer := none, buffer := (wordsToBytes x.got).take r.residual }).writeClaim u
  | .senseStore => s.storeDone u
  | .summaryStore => s.storeDone u
  | .statusStore => s.modUnit u fun r => { r with state := .pending, transfer := none }

/-- A halt that was told ends the list when a fetch's burst ends (R149, R162). -/
def TransferKind.haltsAtBurst : TransferKind → Bool
  | .orderFetch => true
  | .prefetch => true
  | .deliver => false
  | .gather => false
  | .senseStore => false
  | .summaryStore => false
  | .statusStore => false

/-- A unit's burst of `n` words ends (R141, R143). -/
def State.unitBurstEnd (s : State) (u : Fin 4) (n : Nat) (outcome : BurstOutcome)
    (words : List Word16) : State :=
  match (s.units.get u).transfer with
  | none => s
  | some x =>
    if (s.units.get u).haltTold && x.kind.haltsAtBurst then s.endHalted u
    else
      match outcome with
      | .failed o => s.transferFailed u x.kind o
      | .done =>
        let y := x.advance n words
        if y.left = 0 then s.transferDone u y
        else
          match s.askTransfer u y with
          | some t => t
          | none => s.transferFailed u y.kind .addressInvalid

/-! ## Commands that reach a unit's list -/

/-- The list of an accepted START begins at ADDRESS (R148). -/
def State.startList (s : State) (u : Fin 4) : State :=
  let s := s.modUnit u fun r =>
    { r with orderAddress := s.port.address.toNat, order := none, ordersDone := 0, residual := 0,
             guessed := 0, conditions := [], haltTold := false, position := ⟨0, 0, 0⟩ }
  s.fetchFromBus u

/-- A unit leaves WAITING_UNITS (R156). -/
def State.leaveWaiting (s : State) (u : Fin 4) : State :=
  { s with drs := { s.drs with waitingUnits := s.drs.waitingUnits.filter (· ≠ u) } }

/-- A HALT taken by a unit in FETCH, RUN or WAIT (R157, R162). -/
def State.haltUnit (s : State) (u : Fin 4) : State :=
  let r := s.units.get u
  if r.state = .wait then
    if r.waitsOnTrack then s.withdrawingWait u fun s => s.endHalted u
    else if s.drs.serving = some u then (s.endHalted u).endRead
    else (s.leaveWaiting u).endHalted u
  else s.modUnit u fun r => { r with haltTold := true }

/-- The condition and sense REASON with which an expired wait ends (R155, R156). -/
def State.expiryReason (s : State) (u : Fin 4) : Condition × SenseReason :=
  if (s.drives.get u).state ≠ DriveState.ready then (.notReady, .notReady)
  else
    match (s.units.get u).waitOn with
    | some (.lock _) => (.recovering, .locked)
    | some (.sector _ _) => (.recovering, .recovering)
    | some .drs => (.recovering, .recovering)
    | none => (.recovering, .recovering)

/-- A unit's patience expires (R155, R156). -/
def State.patienceExpires (s : State) (u : Fin 4) : State :=
  let (cond, reason) := s.expiryReason u
  s.withdrawingWait u fun s => (s.leaveWaiting u).endCheck u cond reason

/-! ## The Direct Read Slot serves a unit -/

/-- The sector is read from the medium: TARGET is set and the drive is asked for (R157 step 2). -/
def State.beginRead (s : State) (u : Fin 4) : State :=
  let t : DrsTarget := { addr := s.positionTrack u, sector := (s.units.get u).position.sector }
  let s := { s with drs := { s.drs with
    state := .claiming, serving := some u, target := some t, revsTried := 0, capture := [],
    attempts := 0, checkFails := 0, geometryRead := false } }
  s.drsDecide t

/-- The oldest waiting unit becomes SERVING and makes its load claim again, its wait over (R156, R157 step 1);
with the pool still empty the direct read begins (log entry 40), and the unit waits for it. -/
def State.serveUnit (s : State) (u : Fin 4) : State :=
  let s := (s.leaveWaiting u).modUnit u fun r => { r with patience := none, state := .run, waitOn := none }
  match s.claimTrack (.unit u) (s.positionTrack u) .system with
  | (some n, t) => t.loadFrom u n
  | (none, t) =>
    t.allocateForRead u fun t =>
      (t.modUnit u fun r => { r with state := .wait, waitOn := some .drs }).beginRead u

end Sys2Proof.Machine
end

