-- ==== Sys2Proof/Machine/Voting.lean ====
section
/-! DEFINITION. The Vote Unit: the vote (R109 to R112), its claims (R113, R115), the service of a request (R108, R114), and the accounting that follows it (R94 to R96). -/

namespace Sys2Proof.Machine

/-! ## The vote -/

/-- The bytes that the candidates hold at one position, oldest candidate first (R110). -/
def column (candidates : List (List Byte)) (i : Nat) : List Byte := candidates.map (fun c => c.getD i 0)

/-- The largest number of candidates that hold one value at a position (R110). -/
def largestCount (col : List Byte) : Nat := (col.map (fun v => col.count v)).foldl max 0

/-- The winning value: of the values with the largest count, the one that the newest candidate holds (R110). -/
def winner (col : List Byte) : Byte :=
  (col.reverse.find? (fun v => col.count v = largestCount col)).getD 0

/-- A position is uncertain when twice the winner's count is at most the number of candidates (R111). -/
def uncertainAt (col : List Byte) : Bool := 2 * col.count (winner col) ≤ col.length

/-- The voted image (R110). -/
def votedImage (len : Nat) (candidates : List (List Byte)) : List Byte :=
  (List.range len).map (fun i => winner (column candidates i))

/-- UNCERTAIN of the vote (R111). -/
def uncertainCount (len : Nat) (candidates : List (List Byte)) : Nat :=
  ((List.range len).filter (fun i => uncertainAt (column candidates i))).length

/-! ## Reading the candidates -/

/-- The Vote Unit's bursts that the store has yet to serve. -/
def StoreRec.voteBursts (t : StoreRec) : Nat :=
  t.asks.count .vote + if t.burst = some .vote then 1 else 0

/-- The positions still to be read whose candidates are in the list now: one that left the list before it is
read is not read (R109). -/
def State.unread (s : State) (q : VoteRequest) (sv : VoteService) : List Nat :=
  sv.left.filter (fun p => ((s.ctxs.get q.context).list sv.sector).contains p)

/-- Bytes of a candidate that take part in the vote: data and check (R109). -/
def State.candidateBytes (s : State) (q : VoteRequest) : Nat := (s.track q.track).sectorBytes + 2

/-- The service replaced. -/
def State.setService (s : State) (sv : VoteService) : State :=
  { s with vote := { s.vote with serving := some sv } }

/-- The Vote Unit asks for the entry of its next candidate: it has been read when these bursts, and those
the Vote Unit asked for before, have ended (R109, R119, log entry 55). -/
def State.askCandidate (s : State) (q : VoteRequest) (sv : VoteService) : State :=
  match s.unread q sv with
  | [] => s.setService { sv with left := [], bursts := 0 }
  | p :: rest =>
    let n := burstsFor (entryBytes (s.track q.track).sectorBytes)
    (s.setService { sv with left := p :: rest, bursts := s.store.voteBursts + n }).askStore .vote n

/-- Candidates read, oldest first, in bursts already asked for; one that meets an uncorrectable word has
left its list and is left out, and so is one that has left it before (R109). -/
def State.readCandidates (s : State) (q : VoteRequest) (k : Nat) : List Nat → List (List Byte) × State
  | [] => ([], s)
  | p :: rest =>
    if ((s.ctxs.get q.context).list k).contains p then
      match s.readAsked .vote (s.entryAddr q.context p (s.track q.track).sectorBytes k)
          (s.candidateBytes q) with
      | (some bytes, t) =>
        let more := t.readCandidates q k rest
        (bytes :: more.1, more.2)
      | (none, t) => t.readCandidates q k rest
    else s.readCandidates q k rest

/-- A burst of the Vote Unit has ended: with the last one of a candidate it has been read, and the next one
is asked for (R109). -/
def State.voteBurst (s : State) : State :=
  match s.vote.serving, s.vote.requests.head? with
  | some sv, some q =>
    if sv.bursts = 0 then s
    else if sv.bursts = 1 then
      let read := s.readCandidates q sv.sector (sv.left.take 1)
      read.2.askCandidate q { sv with left := sv.left.tail, got := sv.got ++ read.1 }
    else s.setService { sv with bursts := sv.bursts - 1 }
  | _, _ => s

/-- The candidates of the sector when its vote is formed: those read so far, and those left read now, the
bursts of all but the first of them still to be asked for (R109, log entry 55). -/
def State.readRest (s : State) (q : VoteRequest) (sv : VoteService) : List (List Byte) × State :=
  let n := (s.unread q { sv with left := sv.left.tail }).length * burstsFor (entryBytes (s.track q.track).sectorBytes)
  let read := s.readCandidates q sv.sector sv.left
  (sv.got ++ read.1, read.2.askStore .vote n)

/-! ## Claims -/

/-- A claim of the Vote Unit, taken only as R45 allows: the frame sector written and the record changed
(R113, R115). The request's FLAGS entry, when present, becomes HEADER_FLAG. -/
def State.voteClaim (s : State) (q : VoteRequest) (k : Nat) (data : List Byte)
    (f : SectorRec → SectorRec) : State :=
  if s.recoveryTaken q.context q.track k then
    let flag := q.flags.getD k none
    let s := s.writeFrame .vote q.track k data
    s.resolveSector q.track k fun x => f { x with headerFlag := flag <|> x.headerFlag }
  else s

/-- The sector record after an accepted vote (R113). -/
def SectorRec.voted (x : SectorRec) (uncertain : Nat) (step : Option Nat) : SectorRec :=
  { x with status := .voted, uncertain := some uncertain, resolvedStep := step, blind := false,
           guess := .none }

/-- The sector record after a final evaluation whose image does not verify (R115). -/
def SectorRec.failedGuess (x : SectorRec) (uncertain : Nat) : SectorRec :=
  { x with status := .failed, uncertain := some uncertain, resolvedStep := none, blind := false,
           guess := .present }

/-- The sector record after a final evaluation without candidates (R115). -/
def SectorRec.failedEmpty (x : SectorRec) : SectorRec :=
  { x with status := .failed, uncertain := none, resolvedStep := none, blind := false, guess := .none }

/-- CHECK_SEED of the drive of a track (R7, R112). -/
def State.trackSeed (s : State) (n : Nat) : Word16 :=
  (((s.track n).addr.bind (fun a => s.geometry.get a.drive)).map (·.checkSeed)).getD 0

/-- One sector voted for an IN_LADDER request, from the candidates read (R109, R113). -/
def State.voteInLadder (s : State) (q : VoteRequest) (k limit : Nat) (candidates : List (List Byte)) :
    State :=
  let b := (s.track q.track).sectorBytes
  let image := votedImage (b + 2) candidates
  let uncertain := uncertainCount (b + 2) candidates
  if 3 ≤ candidates.length && verifies (s.trackSeed q.track) image && uncertain ≤ limit then
    s.voteClaim q k (image.take b) fun x => x.voted uncertain q.step
  else s

/-- One sector worked for a FINAL request, from the candidates read (R109, R115). -/
def State.voteFinal (s : State) (q : VoteRequest) (k : Nat) (candidates : List (List Byte)) : State :=
  let b := (s.track q.track).sectorBytes
  let image := votedImage (b + 2) candidates
  let uncertain := uncertainCount (b + 2) candidates
  if candidates.isEmpty then s.voteClaim q k (List.replicate b 0) fun x => x.failedEmpty
  else if verifies (s.trackSeed q.track) image then
    s.voteClaim q k (image.take b) fun x => x.voted uncertain none
  else s.voteClaim q k (image.take b) fun x => x.failedGuess uncertain

/-- One sector worked for a request (R108). -/
def State.voteSector (s : State) (q : VoteRequest) (k limit : Nat) (candidates : List (List Byte)) :
    State :=
  match q.kind with
  | .inLadder => s.voteInLadder q k limit candidates
  | .final => s.voteFinal q k candidates

/-! ## Accounting -/

/-- The step of the ladder table at an index, as STEP_IN_FORCE (R82). -/
def stepAt (ladder : List LadderStep) (i : Nat) : Option StepInForce :=
  ladder[i]?.map fun st => { index := i, step := st }

/-- NEXT_STEP and STEP_REVS after the accounting, under the table as it stands (R94). -/
def TrackRec.accounted (r : TrackRec) (ladder : List LadderStep) : TrackRec :=
  let finished : TrackRec := { r with nextStep := min 12 (r.nextStep + 1), stepRevs := 0 }
  match ladder[r.nextStep]? with
  | some st => if r.stepRevs + 1 < st.revs then { r with stepRevs := r.stepRevs + 1 } else finished
  | none => finished

/-- What follows the accounting (R95). -/
def State.afterAccounting (s : State) (c : Fin 4) (n : Nat) : State :=
  let x := s.ctxs.get c
  let d := (s.track n).addr.map (·.drive)
  if x.step.isNone then s.requestEvaluation c .final
  else if s.ctl.state = .draining then s.returnTrack c
  else if x.state = .displaced then s
  else if d.map (fun d => (s.drives.get d).state) = some DriveState.faulted then
    s.modCtx c fun x => { x with state := .faultHold }
  else s.prepareRevolution c

/-- The accounting after an IN_LADDER evaluation (R94). -/
def State.accountStep (s : State) (c : Fin 4) (n : Nat) : State :=
  if !(s.track n).anyUnresolved then s.settleBound c n
  else
    let s := s.modTrack n fun r => r.accounted s.ladder
    let s := s.modCtx c fun x => { x with step := stepAt s.ladder (s.track n).nextStep }
    s.afterAccounting c n

/-- The end of a FINAL evaluation (R96). -/
def State.finalStep (s : State) (c : Fin 4) (n : Nat) : State :=
  if !(s.track n).anyUnresolved then s.settleBound c n else s.requeueBound c n

/-- The end notice of an evaluation (R94, R96, R108). -/
def State.endNotice (s : State) (c : Fin 4) (kind : VoteKind) : State :=
  match (s.ctxs.get c).track with
  | none => s
  | some n =>
    let s := s.modCtx c fun x => { x with evaluation := .none }
    let s := s.touchTrack (.ctx c) n
    if (s.ctxs.get c).track = some n then
      match kind with
      | .inLadder => s.accountStep c n
      | .final => s.finalStep c n
    else s

/-! ## Service -/

/-- The request works on a sector (R108, R114). -/
def State.worksOn (s : State) (q : VoteRequest) (sv : VoteService) (k : Nat) : Bool :=
  let unresolved := ((s.track q.track).sector k).status.unresolved
  match q.kind with
  | .inLadder => unresolved && 3 ≤ ((s.ctxs.get q.context).list k).length
  | .final => unresolved && sv.finalSet.contains k

/-- The next sector at or above `from_` that the request works on (R108). -/
def State.nextVoteSector (s : State) (q : VoteRequest) (sv : VoteService) (from_ : Nat) : Option Nat :=
  (List.range (s.track q.track).sectors.length).find? (fun k => from_ ≤ k && s.worksOn q sv k)

/-- The Vote Unit begins a sector: it names the positions in the list, oldest first, and asks for the first
of their entries (R109). -/
def State.beginSector (s : State) (q : VoteRequest) (sv : VoteService) (k : Nat) : State :=
  s.askCandidate q { sv with sector := k, left := (s.ctxs.get q.context).list k, got := [] }

/-- The service goes on to its next sector, or ends with its notice (R108). -/
def State.continueService (s : State) (q : VoteRequest) (sv : VoteService) (from_ : Nat) : State :=
  match s.nextVoteSector q sv from_ with
  | some k => s.beginSector q sv k
  | none =>
    { s with vote := { requests := s.vote.requests.tail, serving := none } }.endNotice q.context q.kind

/-- The request is still the one to be taken into service: none is in service, and it heads the list. -/
def State.awaitsService (s : State) (q : VoteRequest) : Bool :=
  s.vote.serving.isNone && s.vote.requests.head? = some q

/-- The service of a request begins: its UNCERTAIN limit and, for a FINAL request, its sectors are taken (R108,
R114, R118). -/
def State.beginService (s : State) (q : VoteRequest) : State :=
  let sv : VoteService :=
    { limit := s.limits.uncertainty
      finalSet := match q.kind with
        | .inLadder => []
        | .final => (s.track q.track).unresolvedSectors
      sector := 0, left := [], got := [], bursts := 0 }
  s.continueService q sv 0

/-- The Vote Unit takes the request at the head of its list into service, its track record read first (R108,
R121); a record found BROKEN has withdrawn the request (R105). -/
def State.startService (s : State) (q : VoteRequest) : State :=
  let s := s.touchTrack .vote q.track
  if s.awaitsService q then s.beginService q else s

/-- The geometry record of a track's drive, which holds CHECK_SEED, read for the Vote Unit (R7, R112, R121). -/
def State.touchSeed (s : State) (n : Nat) : State :=
  match (s.track n).addr with
  | none => s
  | some a => s.touchRecord .vote (.geometry a.drive)

/-- VOTE_SECTOR: the candidates of the sector being worked that are not yet read are read, the sector is
voted, and the service goes on (R108, R109, R117). A service that the read of the track record or of the
geometry record has withdrawn goes no further (R105, R129). -/
def State.voteSectorStep (s : State) : State :=
  match s.vote.serving, s.vote.requests.head? with
  | some sv, some q =>
    let s := s.touchTrack .vote q.track
    if s.vote.serving.isNone then s
    else
      let s := s.touchSeed q.track
      if s.vote.serving.isNone then s
      else
        let read := s.readRest q sv
        let s := read.2.voteSector q sv.sector sv.limit read.1
        if s.vote.serving.isNone then s else s.continueService q sv (sv.sector + 1)
  | _, _ => s

end Sys2Proof.Machine
end

