-- ==== Sys2Proof/Machine/React.lean ====
section
/-! DEFINITION. What the blocks do by themselves once a command has acted: contexts with nothing left to read (R103), notified units (R47), the Direct Read Slot (R156), the Vote Unit (R107), the Sweep Feeder (R75, R76), the Dispatcher (R72, R73) and the reads owed to a grant or a claim (R121), run until nothing is left to do (log entry 11). -/

namespace Sys2Proof.Machine

/-! ## Notified units -/

/-- The wait of a unit is over: the Track Table has notified it, or its sector is resolved, or the lock is
released (R47). -/
def State.waitOver (s : State) (u : Fin 4) : Bool :=
  let r := s.units.get u
  r.state = .wait &&
    match r.waitOn with
    | some (.sector n k) => r.notified || !((s.track n).sector k).status.unresolved
    | some (.lock n) => r.notified || (s.track n).lock.isNone
    | some .drs => false
    | none => false

/-- The first unit in ascending order whose wait is over. -/
def State.notifiedUnit (s : State) : Option (Fin 4) := fourNumbers.find? s.waitOver

/-! ## Contexts with nothing left to read -/

/-- A context that neither reads nor is evaluated, on a track with no unresolved sector: it settles at once
(R87, R103, log entry 53). -/
def State.settlesNow (s : State) (c : Fin 4) : Bool :=
  (s.ctxs.get c).settlesAtOnce && (s.ctxs.get c).track.isSome && !s.ctxUnresolved c

/-- The first context in ascending order that settles now. -/
def State.settlingCtx (s : State) : Option (Fin 4) := fourNumbers.find? s.settlesNow

/-- The context's track settles, its record read first (R43, R98, R120). -/
def State.settleCtx (s : State) (c : Fin 4) : State :=
  match (s.ctxs.get c).track with
  | none => s
  | some n =>
    let s := s.touchTrack (.ctx c) n
    if (s.ctxs.get c).track = some n then s.settleBound c n else s

/-! ## The Sweep Feeder -/

/-- The sweep count of a drive (R74). -/
def State.sweepCount (s : State) (d : Fin 4) : Nat :=
  (s.tracks.filter (fun e =>
    (e.2.addr.map (·.drive)) = some d && e.2.cls = some .sweep
      && (e.2.state = .queued || e.2.state = .active))).length

/-- The feeder feeds a drive (R75). -/
def State.feeds (s : State) (d : Fin 4) : Bool :=
  (s.sweeps.get d).state = .running && s.openForWork d && s.ctl.state = .ready
    && s.sweepCount d < (s.sweeps.get d).depth

/-- The drive that is fed next. -/
def State.fedDrive (s : State) : Option (Fin 4) := fourNumbers.find? s.feeds

/-- CURSOR advances, or the sweep is DONE after the last track, its cursor left there (R75, R76, log entry 41). -/
def State.advanceCursor (s : State) (d : Fin 4) (g : Geometry) : State :=
  let w := s.sweeps.get d
  if w.head + 1 < g.heads then s.modSweep d fun w => { w with head := w.head + 1 }
  else if w.cyl + 1 < g.cylinders then s.modSweep d fun w => { w with cyl := w.cyl + 1, head := 0 }
  else (s.modSweep d fun w => { w with state := .done }).attnSweep

/-- One feeding step (R75, R76); a drive whose geometry the allocation's read finds lost is fed no more (R129). -/
def State.feedStep (s : State) (d : Fin 4) (g : Geometry) : State :=
  let w := s.sweeps.get d
  match s.allocate .table ⟨d, w.cyl, w.head⟩ .sweep with
  | (.fresh n, t) => (t.enqueue n .sweep).advanceCursor d g
  | (.found _, t) => t.advanceCursor d g
  | (.poolEmpty, t) => (t.modSweep d fun w => { w with state := .stalled }).attnSweep
  | (.outOfRange, t) => if (t.geometry.get d).isSome then t.advanceCursor d g else t

/-- The feeder reads the drive's sweep record and feeds (R75); a record it loses is fed no more (R129). -/
def State.feed (s : State) (d : Fin 4) : State :=
  let s := s.touchRecord .table (.sweepRecord d)
  if s.feeds d then
    match s.geometry.get d with
    | some g => s.feedStep d g
    | none => s
  else s

/-- The sweep records of drives picked are read and tested, ascending (R120, R129). -/
def State.touchSweeps (s : State) (pick : Fin 4 → Bool) : State :=
  (fourNumbers.filter pick).foldl (fun s d => s.touchRecord .table (.sweepRecord d)) s

/-- Every STALLED sweep returns to RUNNING, its record read first (R76, R120). What that read finds changes no
answer of the request that the resuming follows (log entry 56). -/
def State.resumeSweeps (s : State) : State :=
  let s := s.touchSweeps fun d => (s.sweeps.get d).state = .stalled
  { s with sweeps := s.sweeps.map fun w =>
      { w with state := if w.state = .stalled then .running else w.state } }

/-! ## The Dispatcher -/

/-- A queue entry is dispatchable (R72). -/
def State.dispatchable (s : State) (n : Nat) : Bool :=
  let r := s.track n
  match r.addr with
  | none => false
  | some a =>
    s.openForWork a.drive && (s.drives.get a.drive).claim.isNone && (s.ctxOn a.drive).isNone
      && r.lock.isNone && s.ctl.state = .ready

/-- The lowest-numbered FREE context (R73). -/
def State.freeContext (s : State) : Option (Fin 4) :=
  fourNumbers.find? (fun c => (s.ctxs.get c).state = .free)

/-- The binding with which the Dispatcher's next decision begins: a context and a slot (R73). -/
def State.nextBinding (s : State) : Option (Fin 4 × Nat) :=
  match s.freeContext, s.queue.order.find? s.dispatchable with
  | some c, some n => some (c, n)
  | _, _ => none

/-- What a context does when it is bound (R85). -/
def State.startContext (s : State) (c : Fin 4) (n : Nat) : State :=
  let r := s.track n
  if !r.anyUnresolved then s.settleBound c n
  else
    match stepAt s.ladder r.nextStep with
    | none => s.requestEvaluation c .final
    | some st => (s.modCtx c fun x => { x with step := some st }).prepareRevolution c

/-- The binding made: the entry leaves the queue, the drive is claimed and the context starts (R73, R85). -/
def State.bindTrack (s : State) (c : Fin 4) (n : Nat) (d : Fin 4) : State :=
  let s := s.leaveQueue n
  let s := s.modTrack n fun r => { r with state := .active, context := some c }
  let s := s.modDrive d fun r => { r with claim := some (.ctx c) }
  let size := (s.track n).sectors.length
  let s := s.modCtx c fun _ =>
    { CtxRec.free with state := .positioning, track := some n, candidates := List.replicate size [],
                       lastFlags := List.replicate size none }
  s.startContext c n

/-- The Dispatcher reads an entry's track record and its drive's geometry record: the address to bind, or none
when a read has found its record uncorrectable, and the state after the reads (R121, R128, R129). -/
def State.readEntry (s : State) (n : Nat) : Option TrackAddr × State :=
  let s := s.touchTrack .table n
  match (s.track n).addr with
  | none => (none, s)
  | some a =>
    let lost := s.recordBad (.geometry a.drive)
    (if (s.track n).state = .queued && !lost then some a else none,
      s.touchRecord .table (.geometry a.drive))

/-- An entry that a decision may still offer: dispatchable, and its drive not among those that this decision has
bound a track of (R72, R73). -/
def State.offerable (s : State) (bound : List (Fin 4)) (n : Nat) : Bool :=
  s.dispatchable n && !((s.track n).addr.any fun a => bound.contains a.drive)

/-- The Dispatcher reads an entry and binds it for a context; one that the reads make unfit is not bound (R73). -/
def State.dispatch (s : State) (c : Fin 4) (n : Nat) : State :=
  match s.readEntry n with
  | (some a, t) => t.bindTrack c n a.drive
  | (none, t) => t

/-- A FREE context is offered the first entry of the queue that the decision may still offer; when it is not
bound, the Dispatcher walks on for the same context (R73). The state and the drives bound, after it. The count
bounds the walk: the length of the queue. -/
def State.offerEntries (c : Fin 4) (bound : List (Fin 4)) : Nat → State → State × List (Fin 4)
  | 0, s => (s, bound)
  | left + 1, s =>
    match s.queue.order.find? (s.offerable bound) with
    | none => (s, bound)
    | some n =>
      match s.readEntry n with
      | (some a, t) => (t.bindTrack c n a.drive, a.drive :: bound)
      | (none, t) => t.offerEntries c bound left

/-- A context's turn in a decision that has bound tracks of some drives: nothing, unless it is FREE (R73). -/
def State.offer (s : State) (bound : List (Fin 4)) (c : Fin 4) : State × List (Fin 4) :=
  if (s.ctxs.get c).state = .free then s.offerEntries c bound s.queue.order.length else (s, bound)

/-- A decision of the Dispatcher: each FREE context is offered an entry once, in ascending order, and at most one
track of each drive is bound (R73). A context that its binding leaves FREE again, and a drive that it leaves
unclaimed again, wait for the next decision. -/
def State.bindFree (s : State) : State :=
  (fourNumbers.foldl (fun x c => x.1.offer x.2 c) (s, [])).1

/-! ## Reads owed to a decision made inside another operation -/

/-- The context whose grant's track record has not been read: WANTED was taken from it (R87, R121). -/
def State.unreadCtx (s : State) : Option (Fin 4) :=
  match s.path.grant with
  | none => none
  | some g =>
    match g.holder with
    | .ctx c => if (s.ctxs.get c).state = .reading && !g.recordRead then some c else none
    | .drs => none

/-- The granted context's record is read; one found BROKEN has unbound the context and ended the grant (R105). -/
def State.readGranted (s : State) (c : Fin 4) : State :=
  let s := { s with path := { s.path with grant := s.path.grant.map fun g => { g with recordRead := true } } }
  match (s.ctxs.get c).track with
  | none => s
  | some n => s.touchTrack (.ctx c) n

/-- The unit that the Direct Read Slot serves with a claim on its drive, the geometry record by which the claim
was decided not read (R28, R121). -/
def State.unreadDrs (s : State) : Option (Fin 4) :=
  if s.drs.geometryRead || s.drs.state = .free || s.drs.state = .claiming then none
  else s.drs.serving.filter fun u => (s.units.get u).state = .wait

/-- The geometry record of a claimed drive is read; one found uncorrectable ends the direct read (R129, R157). -/
def State.readClaimed (s : State) (u : Fin 4) : State :=
  { s with drs := { s.drs with geometryRead := true } }.touchRecord (.unit u) (.geometry u)

/-! ## Running the reactions to their end -/

/-- A unit is served by the Direct Read Slot next (R156). -/
def State.servedUnit (s : State) : Option (Fin 4) :=
  if s.drs.state = .free then s.drs.waitingUnits.head? else none

/-- A request is taken into service next (R107, R108). -/
def State.startedRequest (s : State) : Option VoteRequest :=
  if s.vote.serving.isNone then s.vote.requests.head? else none

/-- One reaction, or nothing when every block is at rest. -/
def State.reactOnce (s : State) : Option State :=
  match s.settlingCtx with
  | some c => some (s.settleCtx c)
  | none =>
    match s.notifiedUnit with
    | some u => some (s.claimAgain u)
    | none =>
      match s.servedUnit with
      | some u => some (s.serveUnit u)
      | none =>
        match s.startedRequest with
        | some q => some (s.startService q)
        | none =>
          match s.fedDrive with
          | some d => some (s.feed d)
          | none =>
            match s.nextBinding with
            | some _ => some s.bindFree
            | none =>
              match s.unreadCtx with
              | some c => some (s.readGranted c)
              | none => s.unreadDrs.map s.readClaimed

/-- Reactions run until every block is at rest, at most `fuel` of them (log entry 11). -/
def State.quiesce : Nat → State → State
  | 0, s => s
  | fuel + 1, s =>
    match s.reactOnce with
    | none => s
    | some t => State.quiesce fuel t

/-- More reactions than one command can cause: a feeder passes over at most every record (R38, R75). -/
def reactFuel : Nat := 16384

/-- The end of a command: the blocks come to rest, a free requester chooses a burst (R140), and a free
store grants one (R125). -/
def State.finish (s : State) : State := (State.quiesce reactFuel s).chooseBurst.grantStore

/-! ## READY -/

/-- The controller becomes READY: STATE_CHANGE is set and STALLED sweeps run again (R76, R173, R174, R176). -/
def State.becomeReady (s : State) : State :=
  ({ s with ctl := { s.ctl with state := .ready, phase := none } }.stateChange).resumeSweeps

end Sys2Proof.Machine
end

