-- ==== Sys2Proof/Machine/Drives.lean ====
section
/-! DEFINITION. The Drive Supervisor: discovery (R18 to R20), the ready, fault and index lines (R21, R22), and the ends of seeks, recalibrations and settles (R24, R25). -/

namespace Sys2Proof.Machine

/-! ## Discovery -/

/-- Outcomes of a discovery (R19). -/
inductive DiscoveryOutcome
  | noAnswer
  | notReady
  | fault (kind : FaultKind)
  | ready
  deriving DecidableEq, Repr

/-- The drive record when a discovery starts (R18). -/
def DriveRec.startDiscovery (r : DriveRec) (skip : Bool) : DriveRec :=
  let released : Bool := r.state = .withdrawn || (r.state = .faulted && r.claim.isNone)
  { r with
    discovery := some { skipRecalibration := skip, stage := .awaitAnswer }
    state := if released then .notReady else r.state
    faultKind := if released then none else r.faultKind }

/-- A drive's STATE is reported when it differs from an earlier one (R23). -/
def State.reportIfChanged (s : State) (d : Fin 4) (before : DriveState) : State :=
  if (s.drives.get d).state = before then s else s.reportDrive d

/-- Discovery starts on a drive (R18). -/
def State.startDiscovery (s : State) (d : Fin 4) (skip : Bool) : State :=
  (s.modDrive d fun r => r.startDiscovery skip).reportIfChanged d (s.drives.get d).state

/-- The kind of fault with which a discovery's outcome leaves the drive FAULTED, if it does (R19). -/
def DiscoveryOutcome.faultKind (o : DiscoveryOutcome) (claimed : Bool) : Option FaultKind :=
  match o with
  | .noAnswer => if claimed then some .readyDrop else none
  | .notReady => if claimed then some .readyDrop else none
  | .fault kind => some kind
  | .ready => none

/-- The STATE that a discovery's outcome gives when it is no fault (R19). -/
def DiscoveryOutcome.state : DiscoveryOutcome → DriveState
  | .noAnswer => .absent
  | .notReady => .notReady
  | .fault _ => .faulted
  | .ready => .ready

/-- The drive record when a discovery ends (R19); a latched fault leaves the heads' place UNKNOWN (R22). -/
def DriveRec.endDiscovery (r : DriveRec) (o : DiscoveryOutcome) : DriveRec :=
  match o.faultKind r.claim.isSome with
  | some kind =>
    { r with discovery := none, state := .faulted, faultKind := some kind, cylAt := none,
             offsetAt := none }
  | none => { r with discovery := none, state := o.state, faultKind := none }

/-- OBSERVED_SECTORS differs from the geometry's SECTORS (R19). -/
def State.sectorsDiffer (s : State) (d : Fin 4) : Bool :=
  match s.geometry.get d with
  | none => false
  | some g => (s.drives.get d).observedSectors ≠ g.sectors

/-- The Drive Supervisor reads the drive's geometry record for the comparison that a READY outcome makes; a
record it loses is UNDEFINED, and no comparison is made (R19, R121, R129, log entry 24). -/
def State.readForOutcome (s : State) (d : Fin 4) (o : DiscoveryOutcome) : State :=
  if o = .ready then s.touchRecord .table (.geometry d) else s

/-- Discovery ends (R19): the STATE change is reported, a READY outcome compares OBSERVED_SECTORS, and a
waiting Direct Read Slot is decided again (R28). -/
def State.endDiscovery (s : State) (d : Fin 4) (o : DiscoveryOutcome) : State :=
  let s := s.readForOutcome d o
  let before := (s.drives.get d).state
  let s := s.modDrive d fun r => r.endDiscovery o
  let differs : Bool := o = .ready && s.sectorsDiffer d
  let s := s.reportIfChanged d before
  let s := if differs then s.attnDrive d else s
  s.drsRecheck d

/-- The discovery's stage replaced. -/
def State.setStage (s : State) (d : Fin 4) (stage : DiscoveryStage) : State :=
  s.modDrive d fun r => { r with discovery := r.discovery.map fun x => { x with stage := stage } }

/-- The stage of a drive's discovery. -/
def State.stage (s : State) (d : Fin 4) : Option DiscoveryStage :=
  (s.drives.get d).discovery.map (·.stage)

/-- Discovery starts with recalibration on every drive of a list that a test picks, in ascending order
(R173, R174, R176). -/
def State.discoverAll (s : State) (pick : DriveRec → Bool) : State :=
  fourNumbers.foldl (fun s d => if pick (s.drives.get d) then s.startDiscovery d false else s) s

/-- A discovery runs on some drive of those a test picks. -/
def State.anyDiscovering (s : State) (pick : DriveRec → Bool) : Bool :=
  s.drives.toList.any (fun r => pick r && r.discovering)

/-! ## Ready and fault lines -/

/-- The ready and fault lines are watched (R21): not in HOLD, in STORE_FAILED, or in the STORE_CHECK and
FORMAT phases. -/
def State.watched (s : State) : Bool :=
  s.ctl.state ≠ .hold && s.ctl.state ≠ .storeFailed && s.ctl.phase ≠ some .storeCheck
    && s.ctl.phase ≠ some .format

/-- The ready line's level noted. -/
def State.setReadyLine (s : State) (d : Fin 4) (level : Bool) : State :=
  s.modDrive d fun r => { r with readyLine := level }

/-- An unclaimed drive falls to NOT_READY; a discovery on it is abandoned (R20, R21). -/
def State.dropToNotReady (s : State) (d : Fin 4) : State :=
  (s.modDrive d fun r =>
    { r with state := .notReady, faultKind := none, discovery := none }).reportIfChanged d
      (s.drives.get d).state

/-- A discovery on a FAULTED drive is abandoned, and the fault stays latched (R20). -/
def State.abandonDiscovery (s : State) (d : Fin 4) : State :=
  s.modDrive d fun r => { r with discovery := none }

/-- The ready line falls on a claimed drive: READY_DROP is latched, but where a fault stands it stays (R20,
R21, R22). -/
def State.dropClaimed (s : State) (d : Fin 4) : State :=
  if (s.drives.get d).state = .faulted then s.abandonDiscovery d else s.latchFault d .readyDrop

/-- What a watched fall of a drive's ready line does (R20, R21). -/
def State.readyFalls (s : State) (d : Fin 4) : State :=
  let r := s.drives.get d
  if r.state = .withdrawn then s
  else if r.discovering || r.state = .ready then
    if r.claim.isSome then s.dropClaimed d else s.dropToNotReady d
  else s

/-- What a watched rise of a drive's ready line does (R21). -/
def State.readyRises (s : State) (d : Fin 4) : State :=
  let r := s.drives.get d
  if (r.state = .notReady || r.state = .absent) && !r.discovering then s.startDiscovery d false else s

/-- The fault line's unwatched rise noted, or no longer held (R21, log entry 13). -/
def State.setFaultHeld (s : State) (d : Fin 4) (held : Bool) : State :=
  s.modDrive d fun r => { r with faultHeld := held }

/-- What a watched rise of a drive's fault line does (R20, R22). On a drive that is FAULTED already the fault stays
latched, and a discovery that runs on it is abandoned: that the discovery ends is the model's reading of R20's row
(log entry 64). -/
def State.faultRises (s : State) (d : Fin 4) : State :=
  if (s.drives.get d).state = .faulted then s.abandonDiscovery d
  else s.latchFault d .driveSignalled

/-- READY_LINE_FALL. -/
def State.readyLineFalls (s : State) (d : Fin 4) : State :=
  let s := s.setReadyLine d false
  if s.watched && s.fitted d then s.readyFalls d else s

/-- READY_LINE_RISE. -/
def State.readyLineRises (s : State) (d : Fin 4) : State :=
  let s := s.setReadyLine d true
  if s.watched && s.fitted d then s.readyRises d else s

/-- FAULT_LINE_RISE. A rise while the lines are not watched is held for the discovery that finds it; a watched
one is taken whole when it comes (R21, R22, log entry 13). -/
def State.faultLineRises (s : State) (d : Fin 4) : State :=
  if s.watched && s.fitted d then (s.setFaultHeld d false).faultRises d else s.setFaultHeld d true

/-! ## The index -/

/-- The index bounds a discovery's header count (R19 step 3). -/
def State.countIndex (s : State) (d : Fin 4) : State :=
  match s.stage d with
  | some .awaitIndex => s.setStage d (.counting 0)
  | some (.counting pulses) =>
    (s.modDrive d fun r => { r with observedSectors := min 63 pulses }).endDiscovery d .ready
  | some .awaitAnswer => s
  | some (.recalibrating _) => s
  | none => s

/-- A missing index (R19 step 3, R22): a header count ends INDEX_LOST, and a READY drive outside HOLD and
STORE_FAILED latches it. -/
def State.loseIndex (s : State) (d : Fin 4) : State :=
  match s.stage d with
  | some .awaitIndex => s.endDiscovery d (.fault .indexLost)
  | some (.counting _) => s.endDiscovery d (.fault .indexLost)
  | _ =>
    if s.watched && (s.drives.get d).state = DriveState.ready then s.latchFault d .indexLost else s

/-- MARK_PULSE (R19 step 3): OBSERVED_SECTORS is held at 63, and so is the count. -/
def State.countPulse (s : State) (d : Fin 4) : State :=
  match s.stage d with
  | some (.counting pulses) => s.setStage d (.counting (satAdd 63 pulses 1))
  | some .awaitIndex => s
  | some .awaitAnswer => s
  | some (.recalibrating _) => s
  | none => s

/-! ## The answer line -/

/-- DRIVE_ANSWER (R19 step 1). The drive is selected and answers, so its lines are looked at: a fault level that
came while they were not watched is found first (R21), and then the ready line's level. That the fault is found
here, and before the ready line, is log entry 13. -/
def State.answers (s : State) (d : Fin 4) : State :=
  match (s.drives.get d).discovery with
  | some { skipRecalibration := skip, stage := .awaitAnswer } =>
    if (s.drives.get d).faultHeld then (s.setFaultHeld d false).endDiscovery d (.fault .driveSignalled)
    else if !(s.drives.get d).readyLine then s.endDiscovery d .notReady
    else if skip then s.setStage d .awaitIndex
    else s.setStage d (.recalibrating false)
  | _ => s

/-- ANSWER_TIMEOUT (R19 step 1). -/
def State.noAnswer (s : State) (d : Fin 4) : State :=
  if s.stage d = some .awaitAnswer then s.endDiscovery d .noAnswer else s

/-! ## Seeks, recalibrations, settles -/

/-- The positioning goes on once the heads have come to rest, unless the Direct Read Slot has taken the
drive at this moment (R24, R28). `seek` when a seek follows: the one that timed out is made again, and
after a recalibration for CYL_AT UNKNOWN none is needed to cylinder 0. -/
def State.headsRest (s : State) (d : Fin 4) (p : Positioning) (seek : Bool) : State :=
  let holder := (s.drives.get d).claim
  let s := (s.modDrive d fun r => { r with positioning := none }).drsRecheck d
  if (s.drives.get d).claim ≠ holder then s
  else if seek then s.beginSeek d p.cyl p.offset
  else s.offsetStage d p.cyl p.offset

/-- SEEK_DONE of a positioning (R24). -/
def State.seekEnds (s : State) (d : Fin 4) (p : Positioning) : State :=
  match p.stage with
  | .seeking => (s.modDrive d fun r => { r with cylAt := some p.cyl }).headsRest d p false
  | .recalibrating again =>
    (s.modDrive d fun r => { r with cylAt := some 0, offsetAt := some .centre }).headsRest d p
      (again || p.cyl ≠ 0)
  | .settling => s

/-- SEEK_DONE (R19 step 2, R24). -/
def State.seekDone (s : State) (d : Fin 4) : State :=
  match s.stage d, (s.drives.get d).positioning with
  | some (.recalibrating _), _ =>
    (s.modDrive d fun r => { r with cylAt := some 0, offsetAt := some .centre }).setStage d .awaitIndex
  | _, some p => s.seekEnds d p
  | _, none => s

/-- SEEK_TIMEOUT (R24). -/
def State.seekTimesOut (s : State) (d : Fin 4) : State :=
  let r := s.drives.get d
  match r.positioning with
  | none => s
  | some p =>
    if p.stage ≠ .seeking then s
    else if r.seekRetried then s.latchFault d .seekFail
    else s.beginRecalibration d p.cyl p.offset true

/-- The heads are being recalibrated in this stage. -/
def PositioningStage.recalibrates : PositioningStage → Bool
  | .recalibrating _ => true
  | .seeking => false
  | .settling => false

/-- RECALIBRATION_TIMEOUT of a positioning (R24). -/
def State.positioningFails (s : State) (d : Fin 4) : State :=
  if (s.drives.get d).positioning.any (·.stage.recalibrates) then s.latchFault d .seekFail else s

/-- RECALIBRATION_TIMEOUT (R19 step 2, R24). -/
def State.recalibrationTimesOut (s : State) (d : Fin 4) : State :=
  match s.stage d with
  | some (.recalibrating false) => s.setStage d (.recalibrating true)
  | some (.recalibrating true) => s.endDiscovery d (.fault .seekFail)
  | some .awaitAnswer => s.positioningFails d
  | some .awaitIndex => s.positioningFails d
  | some (.counting _) => s.positioningFails d
  | none => s.positioningFails d

/-- SETTLE_END (R25). -/
def State.settles (s : State) (d : Fin 4) : State :=
  match (s.drives.get d).positioning with
  | none => s
  | some p =>
    if p.stage = .settling then
      (s.modDrive d fun r => { r with offsetAt := some p.offset }).tellPositioned d
    else s

end Sys2Proof.Machine
end

