-- ==== Sys2Proof/Machine/ReadPath.lean ====
section
/-! DEFINITION. The Read Path: headers, data fields and windows of one revolution (R4 to R13), and what the holder does with each attempt report (R88 to R91, R157) and with the result (R26, R92, R93). -/

namespace Sys2Proof.Machine

/-! ## The revolution -/

/-- The revolution in progress changed. -/
def State.setRev (s : State) (r : Revolution) : State := { s with path := { s.path with rev := r } }

/-- A grant whose revolution has opened, with the geometry it is read under (R30). The geometry record was read
when the revolution opened (`openRevolution`), and its loss ends the revolution (R33, R129), so what stands here is
what that read gave. -/
def State.openGrant (s : State) : Option (Grant × Geometry) :=
  match s.path.grant with
  | none => none
  | some g =>
    if g.opened then (s.geometry.get g.addr.drive).map fun geo => (g, geo) else none

/-- The holder's wanted set (R12, R87, R157 step 4). -/
def State.wantedBy (s : State) : Holder → List Nat
  | .ctx c => (s.ctxs.get c).wanted
  | .drs => (s.drs.target.map (·.sector)).toList

/-- A header result that makes a blind attempt (R10). -/
def HeaderResult.blindable : HeaderResult → Bool
  | .noHeader => true
  | .headerCheck => true
  | .wrongAddress => false
  | .addressed _ => false

/-- The FLAG of an addressed header (R11). -/
def HeaderResult.flag : HeaderResult → Option Byte
  | .addressed f => some f
  | .noHeader => none
  | .headerCheck => none
  | .wrongAddress => none

/-- A header result as an attempt outcome, when it is one (R9). -/
def HeaderResult.outcome : HeaderResult → Option AttemptOutcome
  | .noHeader => some .noHeader
  | .headerCheck => some .headerCheck
  | .wrongAddress => some .wrongAddress
  | .addressed _ => none

/-! ## Headers -/

/-- The bytes of a header field in recorded order (R5). -/
def headerList (h : HeaderBytes) : List Byte :=
  [h.cylHigh, h.cylLow, h.head, h.sector, h.flag, h.checkHigh, h.checkLow]

/-- A header field classified (R8). -/
def classifyHeader (seed : Word16) (a : TrackAddr) (h : HeaderBytes) : HeaderResult :=
  if !verifies seed (headerList h) then .headerCheck
  else if (wordOf h.cylHigh h.cylLow).toNat ≠ a.cyl || h.head.toNat ≠ a.head then .wrongAddress
  else .addressed h.flag

/-- The revolution after a header (R8, R13): a header that is no longer blind leaves no blind data behind. A blind
field of the same window that was already taken whole, and written to the capture slot, is then no attempt's, and
an addressed header without a further data mark is NO_SYNC: the model's choice (R9, R12, log entry 63). -/
def Revolution.withHeader (r : Revolution) (x : HeaderResult) : Revolution :=
  { r with
    header := x
    data := if x.blindable then r.data else none
    anyVerified := r.anyVerified || !x.blindable
    anyAddressed := r.anyAddressed || x.flag.isSome }

/-- HEADER_FIELD (R8): the first header of the slot's window, unless an earlier slot's field is being taken. -/
def State.takeHeader (s : State) (h : HeaderBytes) : State :=
  match s.openGrant with
  | none => s
  | some (g, geo) =>
    let r := s.path.rev
    if geo.sectors ≤ r.slot || r.taking.isSome || r.header ≠ .noHeader then s
    else s.setRev (r.withHeader (classifyHeader geo.checkSeed g.addr h))

/-! ## Reports to a context -/

/-- The attempt counters after a report (R88). -/
def SectorRec.counted (x : SectorRec) (p : Report) : SectorRec :=
  let faults := (match p.outcome with
    | .noHeader => 1
    | .headerCheck => 1
    | .wrongAddress => 1
    | .good => 0
    | .checkFail => 0
    | .noSync => 0) + (if p.blind then 1 else 0)
  { x with
    attempts := satAdd 255 x.attempts 1
    checkFails := if p.outcome = .checkFail then satAdd 255 x.checkFails 1 else x.checkFails
    syncMisses := if p.outcome = .noSync then satAdd 255 x.syncMisses 1 else x.syncMisses
    headerFaults := satAdd 255 x.headerFaults faults }

/-- A FLAG of 0x80 or above (R11). -/
def Report.marked (p : Report) : Bool :=
  match p.flag with
  | some f => 0x80 ≤ f.toNat
  | none => false

/-- A marked-header claim (R44, R45, R89). -/
def State.claimMarked (s : State) (c : Fin 4) (n : Nat) (p : Report) : State :=
  if s.recoveryTaken c n p.sector then
    s.resolveSector n p.sector fun x => { x with status := .marked, headerFlag := p.flag }
  else s

/-- The captured bytes of a sector, read from its capture slot (R91). -/
def State.readCapture (s : State) (c : Fin 4) (n k : Nat) : Option (List Byte) × State :=
  let b := (s.track n).sectorBytes
  s.readStore (.ctx c) (s.entryAddr c 0 b k) (b + 2)

/-- A clean-read claim (R44, R45, R89). -/
def State.claimClean (s : State) (c : Fin 4) (n : Nat) (p : Report) (bytes : List Byte) : State :=
  if s.recoveryTaken c n p.sector then
    let flag := (s.ctxs.get c).lastFlags.getD p.sector none
    let step := (s.ctxs.get c).step.map (·.index)
    let s := s.writeFrame (.ctx c) n p.sector (bytes.take (s.track n).sectorBytes)
    s.resolveSector n p.sector fun x =>
      { x with status := .clean, resolvedStep := step, blind := p.blind, headerFlag := flag }
  else s

/-- A GOOD report (R89, R91). -/
def State.reportGood (s : State) (c : Fin 4) (n : Nat) (p : Report) : State :=
  match s.readCapture c n p.sector with
  | (some bytes, t) => t.claimClean c n p bytes
  | (none, t) => t

/-- The candidate position that a joining attempt uses, and the list that it joins (R90). -/
def joinPosition (list : List Nat) : Nat × List Nat :=
  if 7 ≤ list.length then (list.headD 1, list.tail)
  else ((([1, 2, 3, 4, 5, 6, 7] : List Nat).find? (fun p => !list.contains p)).getD 1, list)

/-- A captured attempt joins the sector's candidates (R90). -/
def State.joinCandidate (s : State) (c : Fin 4) (n k : Nat) (bytes : List Byte) : State :=
  let join := joinPosition ((s.ctxs.get c).list k)
  let s := s.writeStore (.ctx c) (s.entryAddr c join.1 (s.track n).sectorBytes k) bytes
  s.modCtx c fun x => { x with candidates := x.candidates.set k (join.2 ++ [join.1]) }

/-- A CHECK_FAIL report (R90, R91). -/
def State.reportCheckFail (s : State) (c : Fin 4) (n : Nat) (p : Report) : State :=
  if ((s.track n).sector p.sector).status.unresolved then
    match s.readCapture c n p.sector with
    | (some bytes, t) => t.joinCandidate c n p.sector bytes
    | (none, t) => t
  else s

/-- A context receives a report of its track (R88 to R90). -/
def State.reportTo (s : State) (c : Fin 4) (n : Nat) (p : Report) : State :=
  let s := s.modTrack n fun r => r.setSector p.sector ((r.sector p.sector).counted p)
  let s := s.modCtx c fun x =>
    { x with lastFlags := if p.flag.isSome then x.lastFlags.set p.sector p.flag else x.lastFlags }
  if p.marked then s.claimMarked c n p
  else
    match p.outcome with
    | .good => s.reportGood c n p
    | .checkFail => s.reportCheckFail c n p
    | .noSync => s
    | .noHeader => s
    | .headerCheck => s
    | .wrongAddress => s

/-- A report is handed to a context: the record is read, and nothing follows if the read unbinds it (R128). -/
def State.reportToContext (s : State) (c : Fin 4) (p : Report) : State :=
  match (s.ctxs.get c).track with
  | none => s
  | some n =>
    let s := s.touchTrack (.ctx c) n
    if (s.ctxs.get c).track = some n then s.reportTo c n p else s

/-! ## Reports to the Direct Read Slot -/

/-- A GOOD direct read: CAPTURE's data bytes go to the unit's buffer, and the read ends (R157). -/
def State.directGood (s : State) : State :=
  match s.drs.serving with
  | none => s
  | some u => (s.deliver u (s.drs.capture.take (s.drs.capture.length - 2)) false).endRead

/-- A direct read ends its unit's list with DATA_CHECK (R157). -/
def State.directFails (s : State) (reason : SenseReason) : State :=
  match s.drs.serving with
  | none => s
  | some u => (s.endDirect u .dataCheck reason).endRead

/-- The Direct Read Slot receives a report (R157 step 5). -/
def State.reportToDrs (s : State) (p : Report) : State :=
  let s := { s with drs := { s.drs with
    attempts := satAdd 255 s.drs.attempts 1
    checkFails := if p.outcome = .checkFail then satAdd 255 s.drs.checkFails 1 else s.drs.checkFails } }
  if p.marked then s.directFails .marked
  else if p.outcome = .good then s.directGood
  else s

/-! ## Handing over -/

/-- A report is handed over if its sector is still wanted (R12). -/
def State.handOver (s : State) (h : Holder) (p : Report) : State :=
  if (s.wantedBy h).contains p.sector then
    match h with
    | .ctx c => s.reportToContext c p
    | .drs => s.reportToDrs p
  else s

/-- A blind report is held to the end of the revolution, any other is handed over at once (R12). -/
def State.deliverReport (s : State) (h : Holder) (p : Report) : State :=
  if p.blind then s.setRev { s.path.rev with held := s.path.rev.held ++ [p] } else s.handOver h p

/-- The report of an attempt from its header result and its data outcome (R9 to R12). -/
def makeReport (k : Nat) (x : HeaderResult) (data : Option AttemptOutcome) (blindStep : Bool) : Report :=
  let blind := blindStep && x.blindable
  { sector := k
    outcome := if x.flag.isSome || blind then data.getD .noSync else x.outcome.getD .noSync
    blind := blind
    headerResult := if blind then x.outcome else none
    flag := x.flag }

/-! ## Data fields -/

/-- A data field's bytes, as many as the format gives it (R5, log entry 26). -/
def fieldBytes (sectorBytes : Nat) (bytes : List Byte) : List Byte :=
  (bytes ++ List.replicate (sectorBytes + 2) 0).take (sectorBytes + 2)

/-- The outcome of a data field taken whole (R9). -/
def dataOutcome (seed : Word16) (field : List Byte) : AttemptOutcome :=
  if verifies seed field then .good else .checkFail

/-- The bytes of an attempt written to the holder's capture slot (R12). -/
def State.writeCapture (s : State) (h : Holder) (sectorBytes k : Nat) (field : List Byte) : State :=
  match h with
  | .ctx c => s.writeStore .capture (s.entryAddr c 0 sectorBytes k) field
  | .drs => { s with drs := { s.drs with capture := field } }

/-- The slot's attempt looks for a data field (R9, R10). -/
def looksForData (blindStep inBlindWindow : Bool) (x : HeaderResult) : Bool :=
  x.flag.isSome || (blindStep && inBlindWindow && x.blindable)

/-- A field that was being taken past its slot's window has been taken whole: its attempt is classified (R9). -/
def State.finishTaken (s : State) (g : Grant) (geo : Geometry) (f : TakenField) (field : List Byte) :
    State :=
  let k := geo.sectorAt f.slot
  let s := s.setRev { s.path.rev with taking := none }
  if (s.wantedBy g.holder).contains k then
    let s := s.writeCapture g.holder geo.sectorBytes k field
    s.deliverReport g.holder
      (makeReport k f.header (some (dataOutcome geo.checkSeed field)) g.blind)
  else s

/-- DATA_FIELD (R5, R9, R10, R12). The bytes are written when the field has been taken whole, also where a later
header of the same window makes the attempt another one (log entry 63). -/
def State.takeData (s : State) (inBlindWindow : Bool) (bytes : List Byte) : State :=
  match s.openGrant with
  | none => s
  | some (g, geo) =>
    let r := s.path.rev
    let field := fieldBytes geo.sectorBytes bytes
    match r.taking with
    | some f => s.finishTaken g geo f field
    | none =>
      let k := geo.sectorAt r.slot
      if r.slot < geo.sectors && r.data.isNone && looksForData g.blind inBlindWindow r.header
          && (s.wantedBy g.holder).contains k then
        let s := s.writeCapture g.holder geo.sectorBytes k field
        s.setRev { r with data := some (dataOutcome geo.checkSeed field) }
      else s

/-- BLIND_WINDOW_CLOSE (R10): a blind attempt without a data mark is NO_SYNC. -/
def State.closeBlindWindow (s : State) : State :=
  match s.openGrant with
  | none => s
  | some (g, geo) =>
    let r := s.path.rev
    if r.slot < geo.sectors && g.blind && r.header.blindable && r.data.isNone && r.taking.isNone then
      s.setRev { r with data := some .noSync }
    else s

/-- PITCH_WINDOW_CLOSE (R4, R8, R9): the next slot's window opens, and the slot's wanted attempt is
classified unless its data field is still being taken. A field whose taking has begun is taken to its end,
also when its sector has left the wanted set meanwhile (R8, R12, log entry 14). -/
def State.closePitchWindow (s : State) (taking : Bool) : State :=
  match s.openGrant with
  | none => s
  | some (g, geo) =>
    let r := s.path.rev
    if geo.sectors ≤ r.slot then s
    else
      let k := geo.sectorAt r.slot
      let wanted := (s.wantedBy g.holder).contains k
      let stillTaken :=
        taking && r.taking.isNone && r.data.isNone && looksForData g.blind true r.header
      let s := s.setRev
        { r with slot := r.slot + 1, header := .noHeader, data := none,
                 taking := if stillTaken then some { slot := r.slot, header := r.header } else r.taking }
      if wanted && !stillTaken then s.deliverReport g.holder (makeReport k r.header r.data g.blind)
      else s

/-! ## The closing index -/

/-- The held blind reports handed over (R13). -/
def State.handOverHeld (s : State) (h : Holder) : State :=
  s.path.rev.held.foldl (fun s p => s.handOver h p) s

/-- A context receives COMPLETE (R92): its record is read for the change of TOTAL_REVS, and one found BROKEN
has unbound the context and given the path up (R105, R120). -/
def State.ctxComplete (s : State) (c : Fin 4) (d : Fin 4) : State :=
  match (s.ctxs.get c).track with
  | none => s
  | some n =>
    let s := s.touchTrack (.ctx c) n
    if (s.ctxs.get c).track = some n then
      let s := s.modTrack n fun r => { r with totalRevs := satAdd 65535 r.totalRevs 1 }
      ((s.requestEvaluation c .inLadder).drsRecheck d).dropGrant.grantPath
    else s

/-- The Direct Read Slot receives COMPLETE without a GOOD report (R157). -/
def State.drsComplete (s : State) : State :=
  let s := { s with drs := { s.drs with revsTried := s.drs.revsTried + 1 } }
  if s.drs.revsTried < 3 then
    { s.dropGrant with drs := { s.drs with state := .waitPath } }.grantPath
  else s.directFails .directFailed

/-- COMPLETE (R13, R24). -/
def State.revolutionComplete (s : State) (g : Grant) : State :=
  let d := g.addr.drive
  let s := s.handOverHeld g.holder
  if (s.path.grant.map (·.holder)) = some g.holder then
    let s := s.modDrive d fun r => { r with seekRetried := false }
    match g.holder with
    | .ctx c => s.ctxComplete c d
    | .drs => s.drsComplete
  else s

/-- A context goes on after MIS_SEEK with its drive READY (R93, R104), unless the Direct Read Slot has
taken the drive as the context left READING (R28). -/
def State.ctxMisSeek (s : State) (c : Fin 4) (d : Fin 4) : State :=
  if s.ctl.state = .draining then s.returnRead c
  else
    let s := s.drsRecheck d
    if (s.ctxs.get c).state = .displaced then s else s.prepareRevolution c

/-- The holder goes on after MIS_SEEK with its drive READY (R26). -/
def State.holderMisSeek (s : State) (h : Holder) (d : Fin 4) : State :=
  match h with
  | .ctx c => s.ctxMisSeek c d
  | .drs =>
    match s.drs.target with
    | some t => s.drsPosition t
    | none => s

/-- MIS_SEEK (R13, R26, R93): the path is free again, the context's WANTED is emptied, and the drive is
sought again or latches SEEK_FAIL. -/
def State.revolutionMisSeek (s : State) (g : Grant) : State :=
  let d := g.addr.drive
  let s := s.dropGrant
  let s := match g.holder with
    | .ctx c => s.modCtx c fun x => { x with state := .positioning, wanted := [] }
    | .drs => { s with drs := { s.drs with state := .positioning } }
  let s :=
    if (s.drives.get d).seekRetried then s.latchFault d .seekFail
    else (s.modDrive d fun r => { r with cylAt := none }).holderMisSeek g.holder d
  s.grantPath

/-- The closing index of a revolution (R13). A field of the last slot that is still being taken then gives no
report (log entry 15). -/
def State.closeRevolution (s : State) (g : Grant) : State :=
  if s.path.rev.anyVerified && !s.path.rev.anyAddressed then s.revolutionMisSeek g
  else s.revolutionComplete g

/-- The opening index of a grant's revolution (R30): the Read Path reads the geometry record that it reads the
track under, and a record it loses has ended the grant (R33, R121, R129, log entry 24). -/
def State.openRevolution (s : State) (g : Grant) : State :=
  let s := s.touchRecord .table (.geometry g.addr.drive)
  if s.path.grant = some g then
    { s with path := { s.path with grant := some { g with opened := true }, rev := Revolution.start } }
  else s

/-- An index of the granted drive opens its revolution, or closes it (R30). -/
def State.revolutionIndex (s : State) (d : Fin 4) : State :=
  match s.path.grant with
  | none => s
  | some g =>
    if g.addr.drive ≠ d then s
    else if g.opened then s.closeRevolution g
    else s.openRevolution g

/-- INDEX (R4, R19, R30): it opens or closes a revolution granted before it, and it bounds a discovery's
header count; a grant that this very index brings about waits for the next one. -/
def State.indexArrives (s : State) (d : Fin 4) : State := (s.revolutionIndex d).countIndex d

end Sys2Proof.Machine
end

