-- ==== Sys2Proof/Machine/Link.lean ====
section
/-! DEFINITION. The Archive Link: how a request is judged and answered (R164 to R167), and the general requests (R132, R169 to R171). -/

namespace Sys2Proof.Machine

/-- The outcome type of every command. -/
abbrev Result3 := Host.Outcome State Fault Refusal

/-! ## Requests -/

/-- What an owning rule answers: RESULT, payload, and the state after it (R166 step 5). -/
structure Reply where
  result : Result
  payload : List Byte
  after : State
  deriving DecidableEq, Repr

/-- An answer without payload. -/
def State.reply (s : State) (r : Result) : Reply := { result := r, payload := [], after := s }

/-- An answer with a payload. -/
def State.replyWith (s : State) (r : Result) (payload : List Byte) : Reply :=
  { result := r, payload := payload, after := s }

/-- In which controller states a request is performed (R167). -/
inductive RequestGroup
  | always
  | notStoreFailed
  | readyOnly
  deriving DecidableEq, Repr

/-- The answer to a request of the group that the controller state does not perform (R167). -/
def RequestGroup.refusal (g : RequestGroup) (st : CtlState) : Option Result :=
  match g, st with
  | .always, _ => none
  | _, .ready => none
  | _, .storeFailed => some .storeError
  | .notStoreFailed, _ => none
  | .readyOnly, .starting => some .starting
  | .readyOnly, .resuming => some .starting
  | .readyOnly, .draining => some .holding
  | .readyOnly, .hold => some .holding

/-- KIND of ATTENTION. -/
def attentionKind : Byte := 0x02

/-- A response placed in the slot (R165); ATTENTION's own answer shows the set emptied (R169). -/
def State.place (s : State) (kind tag : Byte) (result : Result) (payload : List Byte) : State :=
  { s with link := { s.link with
    slot := some
      { kind := kind, tag := tag, result := result, previousLost := s.link.slot.isSome,
        attentionSet := !(kind = attentionKind && result = .ok) && !s.link.attention.isEmpty,
        payload := payload } } }

/-- The bytes driven out of the part in a chip-select window (R164, log entry 32). -/
def State.driveOut (s : State) (bytes : List Byte) : State := { s with link := { s.link with out := bytes } }

/-- A request window sends 0xFF for each of its bytes: KIND, TAG, LENGTH, the payload and CHECK (R164). -/
def State.requestWindow (s : State) (payload : List Byte) : State :=
  s.driveOut (List.replicate (payload.length + 6) 0xFF)

/-- The answer of R166 steps 1, 3 and 4, when one of them applies. -/
def State.turnedAway (s : State) (lengths : List Nat) (g : RequestGroup) (payload : List Byte) :
    Option Result :=
  if 544 < payload.length then some .frameCheck
  else if !lengths.contains payload.length then some .badLength
  else g.refusal s.ctl.state

/-- A request taken when its window closes (R164, R166): judged, performed or refused, answered, and
then the blocks come to rest (log entry 30). `rest` is that last part. LINK_RST makes the link deaf (R172). -/
def State.request (s : State) (kind tag : Byte) (lengths : List Nat) (g : RequestGroup)
    (payload : List Byte) (owner : State → Reply) (rest : State → State) : State :=
  if s.link.rstLine then s
  else
    let s := s.requestWindow payload
    match s.turnedAway lengths g payload with
    | some r => s.place kind tag r []
    | none =>
      let y := owner s
      rest (y.after.place kind tag y.result y.payload)

/-! ## Records that a request reads -/

/-- The records read and tested for the link (R122); with an uncorrectable word among them the request
is answered STORE_ERROR after the effect, with no further change. -/
def State.withRecords (s : State) (os : List WordOwner) (k : State → Reply) : Reply :=
  let t := os.foldl (fun s o => s.touchRecord .link o) s
  if os.any s.recordBad then t.reply .storeError else k t

/-- A drive position 0-3 within the fitted count, from the first byte of a payload. -/
def State.fittedDrive (s : State) (p : List Byte) : Option (Fin 4) :=
  (fin4? (at1 p 0)).filter (fun d => s.fitted d)

/-- A request that names a fitted drive, or RANGE. -/
def State.withDrive (s : State) (p : List Byte) (k : State → Fin 4 → Reply) : Reply :=
  match s.fittedDrive p with
  | none => s.reply .range
  | some d => k s d

/-- The records that a track operand reads: the geometry for the address form, and the record named (R57);
another FORM reads nothing (R178). -/
def State.operandOwners (s : State) (p : List Byte) : List WordOwner :=
  if at1 p 0 = 1 then (if at2 p 1 < s.usable then [.trackRecord (at2 p 1)] else [])
  else if at1 p 0 = 0 then
    ((fin4? (at1 p 1)).map WordOwner.geometry).toList
      ++ match s.trackOperand p with
         | .slot n => [.trackRecord n]
         | .refused _ => []
  else []

/-- A request that names a track (R57). -/
def State.withTrack (s : State) (p : List Byte) (k : State → Nat → Reply) : Reply :=
  s.withRecords (s.operandOwners p) fun s =>
    match s.trackOperand p with
    | .refused r => s.reply r
    | .slot n => k s n

/-- The geometry and sweep records have been written: the FORMAT phase of a power-on has ended (R167, R169). -/
def State.formatted (s : State) : Bool :=
  s.ctl.phase ≠ some .storeCheck && s.ctl.phase ≠ some .format && s.ctl.state ≠ .storeFailed

/-- The four sweep records. -/
def sweepOwners : List WordOwner := fourNumbers.map WordOwner.sweepRecord

/-! ## General requests -/

/-- IDENTIFY (R170). -/
def State.identify (s : State) : Reply := s.replyWith .ok s.identifyPayload

/-- ATTENTION (R169): the set as it stood is reported and emptied; then the sweep records are read. -/
def State.reportAttention (s : State) : Reply :=
  let members := s.link.attention
  let s := s.modAttention fun _ => Attention.empty
  let s := if s.formatted then sweepOwners.foldl (fun s o => s.touchRecord .link o) s else s
  s.replyWith .ok
    (attentionBytes members ++ s.ctlBytes ++ (s.sweeps.map (fun w => byteOf w.state.code)).toList)

/-- The seven values of SET_LIMITS lie in their ranges (R171). -/
def limitsInRange (p : List Byte) : Bool :=
  at1 p 0 ≤ 64 && 1 ≤ at1 p 1 && at1 p 1 ≤ 16
    && ([2, 3, 4, 5].all fun i => 1 ≤ at1 p i && at1 p i ≤ 8) && at1 p 6 ≤ 60

/-- The seven values installed together (R171). -/
def State.installLimits (s : State) (p : List Byte) : State :=
  { s with
    limits := { uncertainty := at1 p 0, starvation := at1 p 1 }
    sweeps := Four.ofFn fun d => { s.sweeps.get d with depth := at1 p (2 + d.val) }
    store := { s.store with scrubPeriod := at1 p 6 } }

/-- SET_LIMITS (R171). -/
def State.setLimits (s : State) (p : List Byte) : Reply :=
  if !limitsInRange p then s.reply .range
  else
    s.withRecords sweepOwners fun s =>
      let s := s.installLimits p
      s.replyWith .ok s.limitsPayload

/-- STORE_STATE (R132). -/
def State.reportStore (s : State) (p : List Byte) : Reply :=
  let payload := s.storeStatePayload
  let s :=
    if (at1 p 0).testBit 0 then
      { s with store := { s.store with corrected := 0, uncorrected := 0 } }
    else s
  s.replyWith .ok payload

/-- The meaning of IDENTIFY. -/
def execIdentify (tag : Byte) (payload : List Byte) (s : State) : Result3 :=
  .next (s.request 0x01 tag [0] .always payload (fun s => s.identify) id)

/-- The meaning of ATTENTION. -/
def execAttention (tag : Byte) (payload : List Byte) (s : State) : Result3 :=
  .next (s.request attentionKind tag [0] .notStoreFailed payload (fun s => s.reportAttention)
    State.finish)

/-- The meaning of SET_LIMITS. -/
def execSetLimits (tag : Byte) (payload : List Byte) (s : State) : Result3 :=
  .next (s.request 0x03 tag [7] .readyOnly payload (fun s => s.setLimits payload) State.finish)

/-- The meaning of STORE_STATE. -/
def execStoreState (tag : Byte) (payload : List Byte) (s : State) : Result3 :=
  .next (s.request 0x04 tag [1] .readyOnly payload (fun s => s.reportStore payload) id)

/-! ## Read windows and link reset -/

/-- The frame that a read window sends: the held response, or NO_RESPONSE (R164, R165). -/
def State.frameToSend (s : State) : List Byte :=
  match s.link.slot with
  | some r => r.frame
  | none => (noResponseFrame (!s.link.attention.isEmpty)).frame

/-- A read window of `bytes` bytes (R164, R165): 0xFF, the frame, then 0xFF; the slot empties when the
held response was sent in full. -/
def State.readWindow (s : State) (bytes : Nat) : State :=
  if s.link.rstLine || bytes = 0 then s
  else
    let frame := s.frameToSend
    let sent := ((0xFF#8 :: frame) ++ List.replicate bytes 0xFF#8).take bytes
    let s := s.driveOut sent
    if frame.length < bytes then { s with link := { s.link with slot := none } } else s

/-- The meaning of READ_WINDOW. -/
def execReadWindow (bytes : Nat) (s : State) : Result3 := .next (s.readWindow bytes)

/-- The slots in the lock table, entries ascending (R54). Between RESET_CONTROLLER and the rescan a record may hold
a LOCK that the table lists no more (log entry 38). -/
def State.lockedTracks (s : State) : List Nat := s.locks.toList.filterMap id

/-- LOCK absent in a slot's record (R56). -/
def State.dropLock (s : State) (n : Nat) : State := s.modTrack n fun r => { r with lock := none }

/-- Every lock in the lock table released, each record read first and the units that wait on its track
notified (R56, R120, R172). -/
def State.releaseAllLocks (s : State) : State :=
  let s := s.touchTracks .link s.lockedTracks
  let slots := s.lockedTracks
  { (slots.foldl State.dropLock s).notifyWaiters (fun n => slots.contains n) with locks := Four.all none }

/-- Link reset (R172); the line asserted again changes nothing (log entry 27). The attention set is STARTED
alone after the whole step: a STORE that the reads of its own lock release have set is lost (log entry 61). -/
def State.linkReset (s : State) : State :=
  if s.link.rstLine then s
  else
    { s.releaseAllLocks with
      link := { slot := none, attention := { Attention.empty with started := true }, rstLine := true,
                out := [] } }.finish

/-- The meaning of LINK_RST. -/
def execLinkRst (s : State) : Result3 := .next s.linkReset

/-- The meaning of LINK_RST_RELEASE (R172). -/
def execLinkRstRelease (s : State) : Result3 := .next { s with link := { s.link with rstLine := false } }

end Sys2Proof.Machine
end

