-- ==== Sys2Proof/Machine/DriveRequests.lean ====
section
/-! DEFINITION. The archive requests on drives (R14, R15, R34 to R37, R71). -/

namespace Sys2Proof.Machine

/-! ## DEFINE_DRIVE -/

/-- Any track record of the drive has a STATE other than FREE (R14). -/
def State.driveHasTracks (s : State) (d : Fin 4) : Bool :=
  s.tracks.any (fun e => e.2.state ≠ .free && (e.2.addr.map (·.drive)) = some d)

/-- The Direct Read Slot holds the drive or is waiting to claim it (R14). -/
def State.drsUses (s : State) (d : Fin 4) : Bool :=
  (s.drives.get d).claim = some .drs || (s.drives.get d).drsWaiting
    || (s.drs.target.map (·.addr.drive)) = some d

/-- A unit is in a state other than IDLE or PENDING (R14, R175). -/
def UnitRec.busy (r : UnitRec) : Bool := r.state ≠ .idle && r.state ≠ .pending

/-- DRIVE_IN_USE (R14 step 3). -/
def State.driveInUse (s : State) (d : Fin 4) : Bool :=
  s.driveHasTracks d || s.drsUses d || (s.units.get d).busy

/-- The drive's geometry record replaced, in a burst of the link (R119), and its sweep made OFF (R15, R74). -/
def State.writeGeometry (s : State) (d : Fin 4) (g : Option Geometry) : State :=
  let s := ((s.setGeometry d g).clearFlips (.geometry d)).askStore .link 1
  s.modSweep d fun w => { w with state := .off, cyl := 0, head := 0 }

/-- The define form's effect on the drive (R15). A FAULTED drive's fault stays latched; a discovery that runs on
it is abandoned and begins again under the new geometry, with its recalibration (R20, log entry 54). -/
def State.rediscover (s : State) (d : Fin 4) : State :=
  match (s.drives.get d).state with
  | .absent => s.startDiscovery d false
  | .notReady => s.startDiscovery d false
  | .ready => s.startDiscovery d false
  | .faulted =>
    if (s.drives.get d).discovering then
      s.modDrive d fun r => { r with discovery := some { skipRecalibration := false, stage := .awaitAnswer } }
    else s
  | .withdrawn => s

/-- DEFINE_DRIVE accepted (R15). -/
def State.acceptDefine (s : State) (d : Fin 4) (p : List Byte) : Reply :=
  s.withRecords [.sweepRecord d] fun s =>
    if undefineForm p then
      ((s.writeGeometry d none).modDrive d fun r => { r with discovery := none }).reply .ok
    else ((s.writeGeometry d (some (parseGeometry p))).rediscover d).reply .accepted

/-- DEFINE_DRIVE (R14, R15). -/
def State.defineDrive (s : State) (p : List Byte) : Reply :=
  s.withDrive p fun s d =>
    if !undefineForm p && !(parseGeometry p).valid then s.reply .range
    else if s.driveInUse d then s.reply .driveInUse
    else s.acceptDefine d p

/-- The meaning of DEFINE_DRIVE. -/
def execDefineDrive (tag : Byte) (payload : List Byte) (s : State) : Result3 :=
  .next (s.request 0x05 tag [12] .readyOnly payload (fun s => s.defineDrive payload) State.finish)

/-! ## WITHDRAW_DRIVE -/

/-- The drive record when it is withdrawn (R34). -/
def DriveRec.withdrawn (r : DriveRec) : DriveRec :=
  { r with state := .withdrawn, faultKind := none, discovery := none, positioning := none, cylAt := none,
           offsetAt := none, claim := none, displacedContext := none, drsWaiting := false,
           seekRetried := false }

/-- A record leaves recovery as PENDING, its CLASS absent (R69, R101). -/
def TrackRec.madePending (r : TrackRec) : TrackRec := { r with state := .pending, cls := none }

/-- A record is QUEUED on a drive. -/
def TrackRec.queuedOn (r : TrackRec) (d : Fin 4) : Bool :=
  r.state = .queued && (r.addr.map (·.drive)) = some d

/-- Every QUEUED record of the drive leaves the queue and becomes PENDING (R69). -/
def State.dequeueDrive (s : State) (d : Fin 4) : State :=
  let on (n : Nat) : Bool := (s.track n).queuedOn d
  { s.mapTracks (fun r => if r.queuedOn d then r.madePending else r) with
    queue := { demand := s.queue.demand.filter (fun n => !on n)
               archive := s.queue.archive.filter (fun n => !on n)
               sweep := s.queue.sweep.filter (fun n => !on n) } }

/-- The context bound to a track of the drive is unbound, and its track becomes PENDING (R101). -/
def State.withdrawContext (s : State) (d : Fin 4) : State :=
  match s.ctxOn d with
  | none => s
  | some c =>
    match (s.ctxs.get c).track with
    | none => s
    | some n => (s.unbind c).modTrack n TrackRec.madePending

/-- A unit's wait on a track of the withdrawn drive ends with NOT_READY (R155). -/
def State.withdrawWaiter (s : State) (d : Fin 4) : State :=
  if (s.units.get d).waitsOnTrack then s.withdrawingWait d fun s => s.endCheck d .notReady .notReady
  else s

/-- The records that a withdrawal changes: those in recovery on the drive, and the one its unit waits on. -/
def State.withdrawnTracks (s : State) (d : Fin 4) : List Nat :=
  (s.tracks.filter (fun e => (e.2.state = .queued || e.2.state = .active)
    && (e.2.addr.map (·.drive)) = some d)).map (·.1) ++ (s.units.get d).waitSlot.toList

/-- A drive is taken out of service (R34): its revolution ends ABORTED, its claims end, its tracks become
PENDING, and the change is reported (R23). -/
def State.withdraw (s : State) (d : Fin 4) : State :=
  let s := s.modDrive d DriveRec.withdrawn
  let s := if (s.path.grant.map (·.addr.drive)) = some d then s.dropGrant else s
  let s := if (s.drs.target.map (·.addr.drive)) = some d then s.failRead else s
  let s := (s.withdrawContext d).dequeueDrive d
  ((s.attnDrive d).withdrawWaiter d).offerStatus d |>.grantPath

/-- WITHDRAW_DRIVE (R34); the records it changes are read first, and an uncorrectable word among them is
answered STORE_ERROR (R120, R122). -/
def State.withdrawDrive (s : State) (p : List Byte) : Reply :=
  s.withDrive p fun s d =>
    if (s.drives.get d).state = DriveState.withdrawn then s.reply .ok
    else s.withRecords ((s.withdrawnTracks d).map .trackRecord) fun s => (s.withdraw d).reply .ok

/-- The meaning of WITHDRAW_DRIVE. -/
def execWithdrawDrive (tag : Byte) (payload : List Byte) (s : State) : Result3 :=
  .next (s.request 0x06 tag [1] .readyOnly payload (fun s => s.withdrawDrive payload) State.finish)

/-! ## RESTORE_DRIVE -/

/-- The class with which a restored track is enqueued (R71). -/
def TrackRec.restoredClass (r : TrackRec) : TrackClass :=
  if r.origins.archive || r.origins.system then .archive else .sweep

/-- The PENDING records of a drive in ascending slot order (R71). -/
def State.pendingTracks (s : State) (d : Fin 4) : List Nat :=
  (s.tracks.filter (fun e => e.2.state = .pending && (e.2.addr.map (·.drive)) = some d)).map (·.1)

/-- The drive's PENDING records enqueued (R71). -/
def State.restoreTracks (s : State) (d : Fin 4) : State :=
  (s.pendingTracks d).foldl (fun s n => s.enqueue n (s.track n).restoredClass) s

/-- RESTORE_DRIVE (R35, R71); the records it enqueues are read first, and an uncorrectable word among them
is answered STORE_ERROR (R120 to R122). -/
def State.restoreDrive (s : State) (p : List Byte) : Reply :=
  s.withDrive p fun s d =>
    if (s.drives.get d).state = DriveState.withdrawn then
      s.withRecords ((s.pendingTracks d).map .trackRecord) fun s =>
        ((s.startDiscovery d false).restoreTracks d).reply .accepted
    else s.reply .driveCondition

/-- The meaning of RESTORE_DRIVE. -/
def execRestoreDrive (tag : Byte) (payload : List Byte) (s : State) : Result3 :=
  .next (s.request 0x07 tag [1] .readyOnly payload (fun s => s.restoreDrive payload) State.finish)

/-! ## CLEAR_DRIVE_FAULT -/

/-- CLEAR_DRIVE_FAULT on a FAULTED drive whose ready line is low (R36). -/
def State.clearFaultLow (s : State) (d : Fin 4) : State :=
  if (s.drives.get d).claim.isSome then
    s.modDrive d fun r => { r with seekRetried := false, faultKind := some .readyDrop }
  else
    (s.modDrive d fun r => { r with seekRetried := false, state := .notReady, faultKind := none }).reportIfChanged
      d (s.drives.get d).state

/-- CLEAR_DRIVE_FAULT (R36). -/
def State.clearDriveFault (s : State) (p : List Byte) : Reply :=
  s.withDrive p fun s d =>
    let r := s.drives.get d
    if r.state ≠ .faulted then s.reply .driveCondition
    else if r.readyLine then
      ((s.modDrive d fun r => { r with seekRetried := false }).startDiscovery d true).reply .accepted
    else (s.clearFaultLow d).reply .ok

/-- The meaning of CLEAR_DRIVE_FAULT. -/
def execClearDriveFault (tag : Byte) (payload : List Byte) (s : State) : Result3 :=
  .next (s.request 0x08 tag [1] .readyOnly payload (fun s => s.clearDriveFault payload) State.finish)

/-! ## DRIVE_STATE -/

/-- DRIVE_STATE (R37); before FORMAT has ended no geometry record is read (R167). -/
def State.reportDriveState (s : State) (p : List Byte) : Reply :=
  match fin4? (at1 p 0) with
  | none => s.reply .range
  | some d =>
    s.withRecords (if s.formatted then [.geometry d] else []) fun s =>
      s.replyWith .ok (s.driveStatePayload d)

/-- The meaning of DRIVE_STATE. -/
def execDriveState (tag : Byte) (payload : List Byte) (s : State) : Result3 :=
  .next (s.request 0x09 tag [1] .notStoreFailed payload (fun s => s.reportDriveState payload)
    State.finish)

end Sys2Proof.Machine
end

