-- ==== Sys2Proof/Machine/ControllerRequests.lean ====
section
/-! DEFINITION. The archive requests on the controller state: HOLD_ENTER and HOLD_EXIT (R104, R175, R176) and RESET_CONTROLLER (R174). -/

namespace Sys2Proof.Machine

/-- Fitted, and not WITHDRAWN: the drives that RESET_CONTROLLER and HOLD_EXIT discover (R18). -/
def DriveRec.inService (r : DriveRec) : Bool := r.fitted && r.state ≠ .withdrawn

/-! ## HOLD -/

/-- A unit is busy, or the Direct Read Slot is not FREE (R175). -/
def State.unitsBusy (s : State) : Bool :=
  s.units.toList.any UnitRec.busy || s.drs.state ≠ .free

/-- A context is unbound at once when DRAINING begins (R104). -/
def CtxRec.drainsAtOnce (x : CtxRec) : Bool :=
  x.state = .positioning || x.state = .waitPath || x.state = .faultHold

/-- DRAINING begins (R104, R175). The contexts unbound at once return their tracks in ascending order, so
the track of the highest-numbered one stands first in its group (log entry 46). -/
def State.beginDraining (s : State) : State :=
  fourNumbers.foldl (fun s c => if (s.ctxs.get c).drainsAtOnce then s.returnRead c else s)
    { s with ctl := { s.ctl with state := .draining } }

/-- HOLD_ENTER (R175). It is answered ACCEPTED also when the read of a track record, made as a context returns its
track, finds an uncorrectable word (log entry 56). -/
def State.holdEnter (s : State) : Reply :=
  if s.unitsBusy then s.reply .unitsBusy else s.beginDraining.reply .accepted

/-- The meaning of HOLD_ENTER. -/
def execHoldEnter (tag : Byte) (payload : List Byte) (s : State) : Result3 :=
  .next (s.request 0x17 tag [0] .readyOnly payload (fun s => s.holdEnter) State.finish)

/-- The store leaves self-refresh and its timer runs again (R124). -/
def StoreRec.leaveSelfRefresh (t : StoreRec) : StoreRec :=
  { t with selfRefresh := false, timerRunning := true }

/-- HOLD becomes RESUMING, with discovery on every fitted drive not WITHDRAWN (R176). -/
def State.beginResuming (s : State) : State :=
  { s with
    ctl := { s.ctl with state := .resuming }
    store := s.store.leaveSelfRefresh }.discoverAll DriveRec.inService

/-- HOLD_EXIT (R176). In DRAINING it is answered OK also when the read of a STALLED sweep's record, made as the
controller becomes READY, finds an uncorrectable word (log entry 56). -/
def State.holdExit (s : State) : Reply :=
  match s.ctl.state with
  | .draining => s.becomeReady.reply .ok
  | .hold => s.beginResuming.reply .accepted
  | .starting => s.reply .ok
  | .resuming => s.reply .ok
  | .ready => s.reply .ok
  | .storeFailed => s.reply .ok

/-- The meaning of HOLD_EXIT. -/
def execHoldExit (tag : Byte) (payload : List Byte) (s : State) : Result3 :=
  .next (s.request 0x18 tag [0] .notStoreFailed payload (fun s => s.holdExit) State.finish)

/-! ## RESET_CONTROLLER -/

/-- The drive record at RESET_CONTROLLER: what is in progress is abandoned, every claim ends, and FAULT_KIND
is absent (R17); STATE stands until the new discovery starts (log entry 21). -/
def DriveRec.controllerReset (r : DriveRec) : DriveRec :=
  { r.abandonPositioning with
    faultKind := none, discovery := none, claim := none, displacedContext := none, drsWaiting := false,
    seekRetried := false }

/-- The track of a bound context becomes QUEUED at the tail of its class's group (R83, R174), its record
read first (R120); one found BROKEN has unbound the context. -/
def State.requeueContext (s : State) (c : Fin 4) : State :=
  match (s.ctxs.get c).track with
  | none => s
  | some n =>
    let s := s.touchTrack .table n
    if (s.ctxs.get c).track = some n then
      (s.modTrack n fun r => { r with context := none }).queueTail n ((s.track n).cls.getD .sweep)
    else s

/-- The tracks of the bound contexts return to the queue, contexts ascending (R174, log entry 46). -/
def State.requeueContexts (s : State) : State := fourNumbers.foldl State.requeueContext s

/-- The System Port at RESET_CONTROLLER and system clear: window, settings, setup fetch and attention
(R133, R138, R139, R145); the words held for an asserted system clear line stay (R146). -/
def SysPort.cleared (p : SysPort) : SysPort :=
  { SysPort.powerOn p.clearLine with heldCtl := p.heldCtl }

/-- The blocks take their values after RESET_CONTROLLER (R174). -/
def State.resetBlocks (s : State) : State :=
  { s with
    ctl := { s.ctl with state := .starting, phase := some .rescan }
    drives := s.drives.map DriveRec.controllerReset
    sweeps := s.sweeps.map fun w => { w with depth := 2 }
    locks := Four.all none
    ladder := defaultLadder
    ctxs := Four.all CtxRec.free
    path := PathRec.reset
    vote := { requests := [], serving := none }
    limits := Limits.reset
    store := { s.store.leaveSelfRefresh with scrubPeriod := 20, lastUnit := 3, lastRecovery := 4 }
    port := s.port.cleared
    req := s.req.cleared
    units := Four.all UnitRec.reset
    drs := DrsRec.reset
    link := { s.link with attention := Attention.empty } }

/-- What RESET_CONTROLLER does in one step (R174). The records it changes are read first, for the Track
Table (R120, log entry 56); the blocks take their values after those reads, so that a STORE and a STORE_ERROR
that the reads have raised are lost (log entry 61). -/
def State.resetNow (s : State) : State := (s.requeueContexts.touchSweeps fun _ => true).resetBlocks

/-- RESET_CONTROLLER (R174): answered STARTING in the STORE_CHECK and FORMAT phases of a power-on. -/
def State.resetController (s : State) : Reply :=
  if s.ctl.phase = some .storeCheck || s.ctl.phase = some .format then s.reply .starting
  else s.resetNow.reply .accepted

/-- The meaning of RESET_CONTROLLER. -/
def execResetController (tag : Byte) (payload : List Byte) (s : State) : Result3 :=
  .next (s.request 0x19 tag [0] .notStoreFailed payload (fun s => s.resetController) State.finish)

end Sys2Proof.Machine
end

