-- ==== Sys2Proof/Machine/DriveLines.lean ====
section
/-! DEFINITION. The commands that the drives send: their lines (R19 to R25), the index (R4, R22), and the fields and windows of a revolution (R8 to R10). -/

namespace Sys2Proof.Machine

/-- The meaning of READY_LINE_FALL (R20, R21). -/
def execReadyLineFall (d : Fin 4) (s : State) : Result3 := .next (s.readyLineFalls d).finish

/-- The meaning of READY_LINE_RISE (R21). -/
def execReadyLineRise (d : Fin 4) (s : State) : Result3 := .next (s.readyLineRises d).finish

/-- The meaning of FAULT_LINE_RISE (R20, R22). -/
def execFaultLineRise (d : Fin 4) (s : State) : Result3 := .next (s.faultLineRises d).finish

/-- The meaning of INDEX (R4, R13, R19, R30). -/
def execIndex (d : Fin 4) (s : State) : Result3 := .next (s.indexArrives d).finish

/-- The meaning of INDEX_LOST (R19, R22). -/
def execIndexLost (d : Fin 4) (s : State) : Result3 := .next (s.loseIndex d).finish

/-- The meaning of DRIVE_ANSWER (R19 step 1). -/
def execDriveAnswer (d : Fin 4) (s : State) : Result3 := .next (s.answers d).finish

/-- The meaning of ANSWER_TIMEOUT (R19 step 1). -/
def execAnswerTimeout (d : Fin 4) (s : State) : Result3 := .next (s.noAnswer d).finish

/-- The meaning of MARK_PULSE (R19 step 3). -/
def execMarkPulse (d : Fin 4) (s : State) : Result3 := .next (s.countPulse d)

/-- The meaning of SEEK_DONE (R19 step 2, R24). -/
def execSeekDone (d : Fin 4) (s : State) : Result3 := .next (s.seekDone d).finish

/-- The meaning of SEEK_TIMEOUT (R24). -/
def execSeekTimeout (d : Fin 4) (s : State) : Result3 := .next (s.seekTimesOut d).finish

/-- The meaning of RECALIBRATION_TIMEOUT (R19 step 2, R24). -/
def execRecalibrationTimeout (d : Fin 4) (s : State) : Result3 := .next (s.recalibrationTimesOut d).finish

/-- The meaning of SETTLE_END (R25). -/
def execSettleEnd (d : Fin 4) (s : State) : Result3 := .next (s.settles d).finish

/-- The meaning of HEADER_FIELD (R8). -/
def execHeaderField (bytes : HeaderBytes) (s : State) : Result3 := .next (s.takeHeader bytes)

/-- The meaning of DATA_FIELD (R5, R9, R10, R12). -/
def execDataField (inBlindWindow : Bool) (bytes : List Byte) (s : State) : Result3 :=
  .next (s.takeData inBlindWindow bytes).finish

/-- The meaning of PITCH_WINDOW_CLOSE (R4, R8, R9). -/
def execPitchWindowClose (taking : Bool) (s : State) : Result3 := .next (s.closePitchWindow taking).finish

/-- The meaning of BLIND_WINDOW_CLOSE (R10). -/
def execBlindWindowClose (s : State) : Result3 := .next s.closeBlindWindow

end Sys2Proof.Machine
end

