-- ==== Sys2Proof/Machine/SystemPort.lean ====
section
/-! DEFINITION. The I/O window: ADDRESS and the six commands (R133 to R139, R145), and system clear (R146). -/

namespace Sys2Proof.Machine

/-! ## ADDRESS -/

/-- ADDRESS replaced (R133). -/
def State.setAddress (s : State) (a : BitVec 24) : State := { s with port := { s.port with address := a } }

/-- The meaning of ADDRESS_HI (R133): bits 23-16 from the low byte of the word written. -/
def execAddressHi (value : Word16) (s : State) : Result3 :=
  .next (s.setAddress (lowByte value ++ s.port.address.setWidth 16))

/-- The meaning of ADDRESS_LO (R133). -/
def execAddressLo (value : Word16) (s : State) : Result3 :=
  .next (s.setAddress ((s.port.address >>> 16).setWidth 8 ++ value))

/-- The meaning of REGISTER_WRITE_IGNORED (R133). -/
def execRegisterWriteIgnored (_word : IgnoredWord) (_value : Word16) (s : State) : Result3 := .next s

/-! ## Commands -/

/-- ANSWER set (R134). -/
def State.answer (s : State) (a : Answer) : State := { s with port := { s.port with answer := a } }

/-- A write to COMMAND: ignored while the system clear line is asserted (R134, R146). -/
def State.command (s : State) (f : State → State) : State := if s.port.clearLine then s else f s

/-- The drive of a unit is there for work, its geometry apart (R135 test 1). -/
def State.driveThere (s : State) (u : Fin 4) : Bool :=
  (s.drives.get u).state ≠ .absent && (s.drives.get u).state ≠ .withdrawn

/-- Test 1 of START and PROBE comes to the geometry record of the unit's drive, and the unit reads it; one found
uncorrectable is UNDEFINED from now on (R121, R129, R135, log entry 24). -/
def State.readForTest (s : State) (u : Fin 4) : State :=
  if s.ctl.state = .ready && s.driveThere u then s.touchRecord (.unit u) (.geometry u) else s

/-- The drive of a unit cannot take work (R135 test 1). -/
def State.driveUnavailable (s : State) (u : Fin 4) : Bool :=
  !s.driveThere u || (s.geometry.get u).isNone

/-- Tests 1 to 3 of START, and the answer of PROBE (R135). -/
def State.probeAnswer (s : State) (u : Fin 4) : Answer :=
  if s.ctl.state ≠ .ready || s.driveUnavailable u then .unavailable
  else if (s.units.get u).state = .pending then .statusPending
  else if (s.units.get u).state ≠ .idle || s.port.setupFetch.isSome then .busy
  else .accepted

/-- ADDRESS is odd (R135, R139). -/
def State.addressOdd (s : State) : Bool := s.port.address.getLsbD 0

/-- The answer of START (R135). -/
def State.startAnswer (s : State) (u : Fin 4) : Answer :=
  if s.probeAnswer u = .accepted && s.addressOdd then .illegal else s.probeAnswer u

/-- START (R135, R148). -/
def State.startCommand (s : State) (u : Fin 4) : State :=
  let s := s.readForTest u
  let a := s.startAnswer u
  let s := s.answer a
  (if a = .accepted then s.startList u else s).finish

/-- The meaning of START. -/
def execStart (u : Fin 4) (s : State) : Result3 := .next (s.command fun s => s.startCommand u)

/-- PROBE (R135): it changes nothing but ANSWER, its read of the geometry record apart (log entry 24). -/
def State.probeCommand (s : State) (u : Fin 4) : State :=
  let s := s.readForTest u
  (s.answer (s.probeAnswer u)).finish

/-- The meaning of PROBE. -/
def execProbe (u : Fin 4) (s : State) : Result3 := .next (s.command fun s => s.probeCommand u)

/-- The unit can be told to halt: FETCH, RUN or WAIT (R136). -/
def UnitRec.haltable (r : UnitRec) : Bool := r.state = .fetch || r.state = .run || r.state = .wait

/-- HALT (R136, R162). -/
def State.haltCommand (s : State) (u : Fin 4) : State :=
  if (s.units.get u).haltable then ((s.answer .accepted).haltUnit u).finish else s.answer .nothing

/-- The meaning of HALT. -/
def execHalt (u : Fin 4) (s : State) : Result3 := .next (s.command fun s => s.haltCommand u)

/-- A PENDING unit's status is acknowledged: it is IDLE, or stores its stacked record (R136, R163). -/
def State.acknowledgeUnit (s : State) (u : Fin 4) : State :=
  if (s.units.get u).stacked then
    (s.modUnit u fun r => { r with state := .idle, stacked := false }).storeUnsolicited u
  else s.modUnit u fun r => { r with state := .idle }

/-- ACKNOWLEDGE (R136). -/
def State.acknowledgeCommand (s : State) (u : Fin 4) : State :=
  if (s.units.get u).state = .pending then ((s.answer .accepted).acknowledgeUnit u).finish
  else s.answer .nothing

/-- The meaning of ACKNOWLEDGE. -/
def execAcknowledge (u : Fin 4) (s : State) : Result3 := .next (s.command fun s => s.acknowledgeCommand u)

/-- A controller attention reason is set, or STATUS_LOST is yes (R145). -/
def SysPort.anyReason (p : SysPort) : Bool := p.storeError || p.setupFailed || p.stateChange || p.statusLost

/-- ACK_CONTROLLER (R145). -/
def State.ackController (s : State) : State :=
  if s.port.anyReason then
    { s with port := { s.port with
      answer := .accepted, storeError := false, setupFailed := false, stateChange := false,
      statusLost := false } }
  else s.answer .nothing

/-- The meaning of ACK_CONTROLLER. -/
def execAckController (s : State) : Result3 := .next (s.command fun s => s.ackController)

/-- The answer of SETUP (R139). -/
def State.setupAnswer (s : State) : Answer :=
  if s.units.toList.any (fun r => r.state ≠ .idle) || s.port.setupFetch.isSome then .busy
  else if s.addressOdd then .illegal
  else .accepted

/-- The setup fetch ends: SETUP_RUNNING no, and SETUP_FAILED as given (R139). -/
def State.endSetup (s : State) (failed : Bool) : State :=
  { s with port := { s.port with setupFetch := none, setupFailed := s.port.setupFailed || failed } }

/-- The setup fetch asks for its next burst, or ends when it would pass 0xFFFFFF (R139, R143). -/
def State.fetchSetup (s : State) (f : SetupFetch) : State :=
  match f.nextBurst s.port.settings.burst with
  | some b =>
    { s with
      port := { s.port with setupFetch := some f }
      req := { s.req with setupWaiting := some b } }
  | none => s.endSetup true

/-- SETUP (R139). -/
def State.setupCommand (s : State) : State :=
  let a := s.setupAnswer
  let s := s.answer a
  if a = .accepted then (s.fetchSetup { addr := s.port.address.toNat, got := [] }).chooseBurst else s

/-- The meaning of SETUP. -/
def execSetup (s : State) : Result3 := .next (s.command State.setupCommand)

/-- A word written to COMMAND, decoded (R134, spec/12): bits 3-0 the code, bits 9-8 the unit. -/
def State.commandWord (s : State) (value : Word16) : State :=
  let u : Fin 4 := Fin.ofNat 4 (value.toNat / 256)
  match value.toNat % 16 with
  | 1 => s.startCommand u
  | 2 => s.haltCommand u
  | 3 => s.acknowledgeCommand u
  | 4 => s.ackController
  | 5 => s.setupCommand
  | 6 => s.probeCommand u
  | _ => s.answer .illegal

/-- The meaning of ILLEGAL_COMMAND: the word is decoded, and an undefined code is answered ILLEGAL (R134,
log entry 31). -/
def execIllegalCommand (value : Word16) (s : State) : Result3 :=
  .next (s.command fun s => s.commandWord value)

/-! ## System clear -/

/-- The slots of the records that system clear changes: WAITERS above 0, or CLASS DEMAND (R68, R146). -/
def State.clearedTracks (s : State) : List Nat :=
  (s.tracks.filter (fun e => 0 < e.2.waiters || e.2.cls = some .demand)).map (·.1)

/-- The units and the Track Table at system clear (R146 steps 1, 2), each record that changes read first
(R120, log entry 56). A WRITE order discarded here enqueues nothing (log entry 48). -/
def State.clearUnits (s : State) : State :=
  ((({ s with units := Four.all UnitRec.reset }.touchTracks .table s.clearedTracks).mapTracks
    (fun r => { r with waiters := 0 }))).demoteDemand

/-- The Direct Read Slot at system clear (R146 step 3). -/
def State.clearDrs (s : State) : State :=
  { s with drs := { s.drs with waitingUnits := [] } }.endRead

/-- Requester, setup, window and attention at system clear (R146 steps 4 to 7). -/
def State.clearPort (s : State) : State :=
  { s with
    req := s.req.cleared
    port := { s.port.cleared with clearLine := true, heldCtl := s.ctl.state } }.modAttention
    fun a => { a with sysclear := true }

/-- System clear (R146); the line asserted again changes nothing (log entry 27). -/
def State.systemClear (s : State) : State :=
  if s.port.clearLine then s else s.clearUnits.clearDrs.clearPort.finish

/-- The meaning of SYSTEM_CLEAR. -/
def execSystemClear (s : State) : Result3 := .next s.systemClear

/-- The meaning of SYSTEM_CLEAR_RELEASE (R146). -/
def execSystemClearRelease (s : State) : Result3 :=
  .next { s with port := { s.port with clearLine := false } }

end Sys2Proof.Machine
end

