-- ==== Sys2Proof/Machine/MemoryBus.lean ====
section
/-! DEFINITION. The memory bus: grant, accept, advance and the two time limits (R141, R142), the setup fetch's bursts (R139), and the expiry of a unit's patience (R155). -/

namespace Sys2Proof.Machine

/-- REQ_STATE replaced (R140). -/
def State.setReq (s : State) (st : ReqState) : State := { s with req := { s.req with state := st } }

/-- The requester lowers its request, releases the bus and becomes FREE (R141). -/
def State.freeReq (s : State) : State := { s with req := { s.req with state := .free, current := none } }

/-! ## The setup fetch -/

/-- The whole setup block has arrived and is judged (R139). -/
def State.judgeSetup (s : State) (words : List Word16) : State :=
  match parseSetup words with
  | some x => { s with port := { s.port with settings := x } }.endSetup false
  | none => s.endSetup true

/-- A burst of the setup fetch ends (R139). -/
def State.setupBurstEnd (s : State) (n : Nat) (outcome : BurstOutcome) (words : List Word16) : State :=
  match s.port.setupFetch with
  | none => s
  | some f =>
    match outcome with
    | .failed _ => s.endSetup true
    | .done =>
      let got := f.got ++ (List.range n).map (fun i => words.getD i 0)
      if 8 ≤ got.length then s.judgeSetup got else s.fetchSetup { f with got := got }

/-! ## Ends of a burst -/

/-- The outcome handed to the claimant (R141). -/
def State.handBurst (s : State) (b : Burst) (outcome : BurstOutcome) (words : List Word16) : State :=
  match b.claimant with
  | .unit u => s.unitBurstEnd u b.count outcome words
  | .setup => s.setupBurstEnd b.count outcome words

/-- The burst being served ends: the requester is FREE, the claimant acts, and the next burst is chosen
(R140, R141). -/
def State.burstEnds (s : State) (outcome : BurstOutcome) (words : List Word16) : State :=
  match s.req.current with
  | none => s.freeReq.finish
  | some b => (s.freeReq.handBurst b outcome words).finish

/-- The memory's outcome as the claimant sees it (R141). -/
def burstOutcome : MemoryOutcome → BurstOutcome
  | .done => .done
  | .addressInvalid => .failed .addressInvalid
  | .keyViolation => .failed .keyViolation
  | .parity => .failed .parity

/-- The meaning of BUS_GRANT (R141); a grant that comes when none is awaited is released (R142). A late
grant of an expired burst that comes when the next one is requested is taken as the next one's (log entry 47). -/
def execBusGrant (s : State) : Result3 :=
  .next (if s.req.state = .requesting then s.setReq .presenting else s)

/-- The meaning of BUS_ACCEPT (R141). -/
def execBusAccept (s : State) : Result3 :=
  .next (if s.req.state = .presenting then s.setReq .inCycle else s)

/-- The meaning of BUS_ADVANCE (R141, R142, R146): a FINISHING burst's outcome is discarded. A late advance
of an expired burst that comes when the next one is in its cycle is taken as the next one's (log entry 47). -/
def execBusAdvance (outcome : MemoryOutcome) (words : List Word16) (s : State) : Result3 :=
  .next (match s.req.state with
    | .inCycle => s.burstEnds (burstOutcome outcome) words
    | .finishing => s.freeReq.finish
    | .free => s
    | .requesting => s
    | .presenting => s)

/-- The meaning of GRANT_TIMEOUT (R142). -/
def execGrantTimeout (s : State) : Result3 :=
  .next (if s.req.state = .requesting then s.burstEnds (.failed .noResponse) [] else s)

/-- The meaning of ADVANCE_TIMEOUT (R142, R146). -/
def execAdvanceTimeout (s : State) : Result3 :=
  .next (match s.req.state with
    | .inCycle => s.burstEnds (.failed .noResponse) []
    | .finishing => s.freeReq.finish
    | .free => s
    | .requesting => s
    | .presenting => s)

/-- The meaning of PATIENCE_TIMER_EXPIRY (R155): a unit in WAIT whose timer runs. -/
def execPatienceTimerExpiry (u : Fin 4) (s : State) : Result3 :=
  .next (if (s.units.get u).state = .wait && (s.units.get u).patience.isSome then
      (s.patienceExpires u).finish
    else s)

end Sys2Proof.Machine
end

