-- ==== Sys2Proof/Machine/QueueRequests.lean ====
section
/-! DEFINITION. The archive requests on the queue, the sweeps and the ladder (R77 to R79, R81). -/

namespace Sys2Proof.Machine

/-! ## QUEUE_TRACK -/

/-- Dispositions of QUEUE_TRACK (R77, spec/12). -/
inductive Disposition
  | new
  | enqueued
  | promoted
  | already
  deriving DecidableEq, Repr

/-- The code of a disposition (spec/12). -/
def Disposition.code : Disposition → Nat
  | .new => 0
  | .enqueued => 1
  | .promoted => 2
  | .already => 3

/-- QUEUE_TRACK's OK answer (R77). -/
def State.queuedReply (s : State) (n : Nat) (x : Disposition) : Reply :=
  s.replyWith .ok (be2 n ++ [byteOf x.code])

/-- What QUEUE_TRACK does with a record that it found (R77). -/
def State.queueFound (s : State) (n : Nat) : Reply :=
  let r := s.track n
  match r.state with
  | .pending => (s.enqueue n .archive).queuedReply n .enqueued
  | .queued => if r.cls = some .sweep then (s.promote n .archive).queuedReply n .promoted else s.queuedReply n .already
  | .active => if r.cls = some .sweep then (s.promote n .archive).queuedReply n .promoted else s.queuedReply n .already
  | .settled => s.reply .settled
  | .broken => s.reply .noSuchTrack
  | .free => s.reply .noSuchTrack

/-- QUEUE_TRACK once its drive, its geometry and its address have passed (R77). -/
def State.queueAddress (s : State) (a : TrackAddr) : Reply :=
  let settled : Bool :=
    match s.findTrack a with
    | some n => (s.track n).state = .settled
    | none => false
  if settled then s.reply .settled
  else
    match s.allocate .link a .archive with
    | (.fresh n, t) => (t.enqueue n .archive).queuedReply n .new
    | (.found n, t) => t.queueFound n
    | (.poolEmpty, t) => t.reply .poolFull
    | (.outOfRange, t) => t.reply .range

/-- The records that QUEUE_TRACK reads: the geometry, and the record that holds the address. -/
def State.queueOwners (s : State) (a : TrackAddr) : List WordOwner :=
  WordOwner.geometry a.drive :: ((s.findTrack a).map WordOwner.trackRecord).toList

/-- QUEUE_TRACK (R77). -/
def State.queueTrack (s : State) (p : List Byte) : Reply :=
  s.withDrive p fun s d =>
    let a : TrackAddr := { drive := d, cyl := at2 p 1, head := at1 p 3 }
    s.withRecords (s.queueOwners a) fun s =>
      match s.geometry.get d with
      | none => s.reply .driveCondition
      | some g => if !g.contains a.cyl a.head then s.reply .range else s.queueAddress a

/-- The meaning of QUEUE_TRACK. -/
def execQueueTrack (tag : Byte) (payload : List Byte) (s : State) : Result3 :=
  .next (s.request 0x12 tag [4] .readyOnly payload (fun s => s.queueTrack payload) State.finish)

/-! ## RETRY_TRACK -/

/-- A FAILED sector becomes PENDING (R44, R78). -/
def SectorRec.retried (x : SectorRec) : SectorRec :=
  if x.status = .failed then { x.restart with status := .pending } else x

/-- A record retried: `failed` sectors become PENDING, each counted in REVISION (R48, R78). -/
def TrackRec.retried (r : TrackRec) (failed : Nat) : TrackRec :=
  { r with
    sectors := r.sectors.map SectorRec.retried
    revision := r.revision + BitVec.ofNat 16 failed
    exported := false
    nextStep := 0
    stepRevs := 0
    origins := r.origins.add .archive }

/-- RETRY_TRACK (R78). -/
def State.retryTrack (s : State) (p : List Byte) : Reply :=
  s.withTrack p fun s n =>
    let r := s.track n
    let failed := r.countStatus .failed
    if r.state = .broken then s.reply .trackBroken
    else if r.state = .active || r.state = .queued || r.state = .pending then s.reply .trackActive
    else if failed = 0 then s.reply .nothingFailed
    else
      let s := (s.setTrack n (r.retried failed)).queueTail n .archive
      s.replyWith .ok ([byteOf failed] ++ be2 (s.track n).revision.toNat)

/-- The meaning of RETRY_TRACK. -/
def execRetryTrack (tag : Byte) (payload : List Byte) (s : State) : Result3 :=
  .next (s.request 0x13 tag [6] .readyOnly payload (fun s => s.retryTrack payload) State.finish)

/-! ## Sweeps -/

/-- SWEEP_START (R79). -/
def State.startSweep (s : State) (p : List Byte) : Reply :=
  s.withDrive p fun s d =>
    s.withRecords [.geometry d, .sweepRecord d] fun s =>
      match s.geometry.get d with
      | none => s.reply .driveCondition
      | some g =>
        if g.cylinders ≤ at2 p 1 then s.reply .range
        else
          let s := s.modSweep d fun w => { w with state := .running, cyl := at2 p 1, head := 0 }
          s.replyWith .accepted (s.sweepPayload d)

/-- The meaning of SWEEP_START. -/
def execSweepStart (tag : Byte) (payload : List Byte) (s : State) : Result3 :=
  .next (s.request 0x14 tag [3] .readyOnly payload (fun s => s.startSweep payload) State.finish)

/-- SWEEP_STOP (R79). -/
def State.stopSweep (s : State) (p : List Byte) : Reply :=
  s.withDrive p fun s d =>
    s.withRecords [.sweepRecord d] fun s =>
      let s := s.modSweep d fun w => { w with state := .off }
      s.replyWith .ok (s.sweepPayload d)

/-- The meaning of SWEEP_STOP. -/
def execSweepStop (tag : Byte) (payload : List Byte) (s : State) : Result3 :=
  .next (s.request 0x15 tag [1] .readyOnly payload (fun s => s.stopSweep payload) State.finish)

/-! ## The ladder -/

/-- SET_LADDER (R81). -/
def State.setLadder (s : State) (p : List Byte) : Reply :=
  match parseLadder p with
  | none => s.reply .range
  | some steps =>
    { s with ladder := steps }.replyWith .ok
      ([byteOf steps.length] ++ be2 (steps.map LadderStep.revs).sum)

/-- The payload lengths of SET_LADDER: 5, 9, … 49 (spec/10, request table). -/
def ladderLengths : List Nat := (List.range 12).map (fun n => 5 + 4 * n)

/-- The meaning of SET_LADDER. -/
def execSetLadder (tag : Byte) (payload : List Byte) (s : State) : Result3 :=
  .next (s.request 0x16 tag ladderLengths .readyOnly payload (fun s => s.setLadder payload) id)

end Sys2Proof.Machine
end

