-- ==== Sys2Proof/Machine/TrackRequests.lean ====
section
/-! DEFINITION. The archive requests on tracks (R55 to R63). -/

namespace Sys2Proof.Machine

/-! ## TRACK_RECORD and LIST_TRACKS -/

/-- TRACK_RECORD (R58). -/
def State.reportTrack (s : State) (p : List Byte) : Reply :=
  s.withTrack p fun s n => s.replyWith .ok (s.trackRecordPayload n)

/-- The meaning of TRACK_RECORD. -/
def execTrackRecord (tag : Byte) (payload : List Byte) (s : State) : Result3 :=
  .next (s.request 0x0A tag [6] .readyOnly payload (fun s => s.reportTrack payload) State.finish)

/-- The records that LIST_TRACKS collects: the first 32 in ascending slot order from `start` whose STATE
is in the filter (R59). -/
def State.listed (s : State) (start filter : Nat) : List Nat :=
  (((List.range s.usable).drop start).filter
    (fun n => filter.testBit (s.track n).state.code)).take 32

/-- The slots that the walk passes: to the 32nd record collected, or to the last usable slot (R59). -/
def State.walked (s : State) (start filter : Nat) : List Nat :=
  let found := s.listed start filter
  if found.length < 32 then (List.range s.usable).drop start
  else (List.range (found.getLastD 0 + 1)).drop start

/-- The continuation slot, or END (R59). -/
def State.continuation (s : State) (found : List Nat) : Nat :=
  let next := found.getLastD 0 + 1
  if found.length = 32 && next < s.usable then next else 0xFFFF

/-- LIST_TRACKS (R59): the walk reads every record it passes, each in a burst of its own (R119, log entry 9). -/
def State.listTracks (s : State) (p : List Byte) : Reply :=
  let start := at2 p 0
  let filter := at1 p 2 % 64
  if s.usable ≤ start || filter = 0 then s.reply .range
  else
    let walk := s.walked start filter
    let bad := walk.any (fun n => s.recordBad (.trackRecord n))
    let s := s.touchTracks .link walk
    if bad then s.reply .storeError
    else
      let found := s.listed start filter
      s.replyWith .ok
        (be2 (s.continuation found) ++ [byteOf found.length]
          ++ (found.map (fun n => listedTrack n (s.track n))).flatten)

/-- The meaning of LIST_TRACKS. -/
def execListTracks (tag : Byte) (payload : List Byte) (s : State) : Result3 :=
  .next (s.request 0x0B tag [3] .readyOnly payload (fun s => s.listTracks payload) State.finish)

/-! ## PULL -/

/-- A PULL's answer: the sector's state and the bytes (R60). -/
def State.pulled (s : State) (n k : Nat) (r : Result) (bytes : List Byte) : Reply :=
  s.replyWith r (pullPayload ((s.track n).sector k) (s.track n).revision bytes)

/-- The frame bytes of a sector, or STORE_ERROR after the effect (R60). -/
def State.pullFrame (s : State) (n k : Nat) : Reply :=
  match s.readFrame .link n k with
  | (some bytes, t) => t.pulled n k .ok bytes
  | (none, t) => t.pulled n k .storeError []

/-- A PULL from IMAGE, by the sector's STATUS (R60). -/
def State.pullImage (s : State) (n k : Nat) : Reply :=
  let x := (s.track n).sector k
  match x.status with
  | .clean => s.pullFrame n k
  | .voted => s.pullFrame n k
  | .written => s.pullFrame n k
  | .replaced => s.pullFrame n k
  | .failed => if x.guess = .damaged then s.pulled n k .ok [] else s.pullFrame n k
  | .pending => s.pulled n k .ok []
  | .damaged => s.pulled n k .ok []
  | .marked => s.pulled n k .ok []
  | .lost => s.pulled n k .ok []

/-- The entry position of candidate `j` of a sector, counted from the oldest (R84). -/
def State.candidateEntry (s : State) (n k j : Nat) : Option (Fin 4 × Nat) :=
  (s.track n).context.bind fun c => (((s.ctxs.get c).list k)[j]?).map fun p => (c, p)

/-- A PULL of a candidate (R60). -/
def State.pullCandidate (s : State) (n k j : Nat) : Reply :=
  match s.candidateEntry n k j with
  | none => s.reply .range
  | some (c, p) =>
    let b := (s.track n).sectorBytes
    match s.readStore .link (s.entryAddr c p b k) (b + 2) with
    | (some bytes, t) => t.pulled n k .ok bytes
    | (none, t) => t.pulled n k .storeError []

/-- PULL (R60). -/
def State.pull (s : State) (p : List Byte) : Reply :=
  s.withTrack p fun s n =>
    let r := s.track n
    let k := at1 p 6
    if r.state = .broken then s.reply .trackBroken
    else if r.sectors.length ≤ k then s.reply .range
    else if at1 p 7 = 0 then s.pullImage n k
    else s.pullCandidate n k (at1 p 7 - 1)

/-- The meaning of PULL. -/
def execPull (tag : Byte) (payload : List Byte) (s : State) : Result3 :=
  .next (s.request 0x0C tag [8] .readyOnly payload (fun s => s.pull payload) State.finish)

/-! ## PUSH_SECTOR -/

/-- A push taken: the frame written, the sector REPLACED, and the track settled when the push has resolved its
last unresolved sector (R43, R44, R61). -/
def State.takePush (s : State) (n k : Nat) (bytes : List Byte) : State :=
  let before := (s.track n).anyUnresolved
  let s := s.writeFrame .link n k bytes
  (s.resolveSector n k SectorRec.replaced).settleIfResolved n before

/-- PUSH_SECTOR (R61). -/
def State.pushSector (s : State) (p : List Byte) : Reply :=
  s.withTrack p fun s n =>
    let r := s.track n
    let k := at1 p 6
    let bytes := p.drop 8
    if r.state = .broken then s.reply .trackBroken
    else if r.sectors.length ≤ k then s.reply .range
    else if bytes.length ≠ r.sectorBytes then s.reply .badLength
    else if r.lock.isNone then s.reply .notLocked
    else if (r.sector k).status = .marked then s.reply .marked
    else
      let s := s.takePush n k bytes
      s.replyWith .ok (be2 (s.track n).revision.toNat)

/-- The meaning of PUSH_SECTOR. -/
def execPushSector (tag : Byte) (payload : List Byte) (s : State) : Result3 :=
  .next (s.request 0x0D tag [136, 264, 520] .readyOnly payload (fun s => s.pushSector payload)
    State.finish)

/-! ## Locks -/

/-- The lowest-numbered empty entry of the lock table (R55). -/
def State.emptyLock (s : State) : Option (Fin 4) := fourNumbers.find? (fun e => (s.locks.get e).isNone)

/-- A track put in a lock table entry (R55). -/
def State.putLock (s : State) (n : Nat) (e : Fin 4) : State :=
  { s.modTrack n (fun r => { r with lock := some e }) with locks := s.locks.set e (some n) }

/-- LOCK_TRACK (R55). -/
def State.lockTrack (s : State) (p : List Byte) : Reply :=
  s.withTrack p fun s n =>
    let r := s.track n
    if r.state = .active then s.reply .trackActive
    else if r.state = .broken then s.reply .trackBroken
    else if r.lock.isSome then s.reply .locked
    else
      match s.emptyLock with
      | none => s.reply .locksExhausted
      | some e => (s.putLock n e).replyWith .ok [byteOf e.val]

/-- The meaning of LOCK_TRACK. -/
def execLockTrack (tag : Byte) (payload : List Byte) (s : State) : Result3 :=
  .next (s.request 0x0E tag [6] .readyOnly payload (fun s => s.lockTrack payload) State.finish)

/-- UNLOCK_TRACK (R56). -/
def State.unlockTrack (s : State) (p : List Byte) : Reply :=
  s.withTrack p fun s n =>
    if (s.track n).lock.isNone then s.reply .notLocked else (s.releaseLock n).reply .ok

/-- The meaning of UNLOCK_TRACK. -/
def execUnlockTrack (tag : Byte) (payload : List Byte) (s : State) : Result3 :=
  .next (s.request 0x0F tag [6] .readyOnly payload (fun s => s.unlockTrack payload) State.finish)

/-! ## Export and release -/

/-- MARK_EXPORTED (R62). -/
def State.markExported (s : State) (p : List Byte) : Reply :=
  s.withTrack p fun s n =>
    let r := s.track n
    if r.state = .broken then s.reply .trackBroken
    else if at2 p 6 ≠ r.revision.toNat then s.replyWith .stale (be2 r.revision.toNat)
    else (s.modTrack n fun r => { r with exported := true }).reply .ok

/-- The meaning of MARK_EXPORTED. -/
def execMarkExported (tag : Byte) (payload : List Byte) (s : State) : Result3 :=
  .next (s.request 0x10 tag [8] .readyOnly payload (fun s => s.markExported payload) State.finish)

/-- A track's frame given back to the pool, and the Sweep Feeder told (R63, R76). The request is answered OK also
when the feeder's read of a STALLED sweep's record then finds an uncorrectable word (log entry 56). -/
def State.freeTrack (s : State) (n : Nat) : State :=
  let s := (s.leaveQueue n).setTrack n TrackRec.free
  { s with freeList := s.freeList ++ [n] }.resumeSweeps

/-- RELEASE_TRACK (R63). -/
def State.releaseTrack (s : State) (p : List Byte) : Reply :=
  s.withTrack p fun s n =>
    let r := s.track n
    if r.state = .active then s.reply .trackActive
    else if r.lock.isSome then s.reply .locked
    else if 0 < r.waiters then s.reply .trackInUse
    else if r.state ≠ .broken && !r.exported && !(at1 p 6).testBit 0 then s.reply .notExported
    else (s.freeTrack n).reply .ok

/-- The meaning of RELEASE_TRACK. -/
def execReleaseTrack (tag : Byte) (payload : List Byte) (s : State) : Result3 :=
  .next (s.request 0x11 tag [7] .readyOnly payload (fun s => s.releaseTrack payload) State.finish)

end Sys2Proof.Machine
end

