-- ==== Sys2Proof/Machine/RawRequest.lean ====
section
/-! DEFINITION. A request window judged from its bytes (R164, R166): the frame check, the KIND, and then the request itself (log entry 31). -/

namespace Sys2Proof.Machine

/-- A frame answered FRAME_CHECK or UNKNOWN_REQUEST (R166 cases 1, 2): only the slot changes. -/
def State.refuseFrame (s : State) (window : List Byte) (r : Result) : State :=
  if s.link.rstLine then s
  else
    (s.driveOut (List.replicate window.length 0xFF)).place (window.getD 0 0) (window.getD 1 0) r []

/-- The frame of a window passes R166 case 1: at least 6 bytes, LENGTH at most 544 and the number of
bytes LENGTH + 6, and a CHECK that verifies (R164). -/
def frameOk (window : List Byte) : Bool :=
  6 ≤ window.length && at2 window 2 ≤ 544 && window.length = at2 window 2 + 6
    && verifies linkSeed window

/-- The payload of a frame (R164). -/
def framePayload (window : List Byte) : List Byte := (window.drop 4).take (at2 window 2)

/-- A frame whose check verifies, by its KIND (R166 case 2, spec/10 request table). -/
def State.byKind (s : State) (window : List Byte) : Result3 :=
  let tag := window.getD 1 0
  let payload := framePayload window
  match at1 window 0 with
  | 0x01 => execIdentify tag payload s
  | 0x02 => execAttention tag payload s
  | 0x03 => execSetLimits tag payload s
  | 0x04 => execStoreState tag payload s
  | 0x05 => execDefineDrive tag payload s
  | 0x06 => execWithdrawDrive tag payload s
  | 0x07 => execRestoreDrive tag payload s
  | 0x08 => execClearDriveFault tag payload s
  | 0x09 => execDriveState tag payload s
  | 0x0A => execTrackRecord tag payload s
  | 0x0B => execListTracks tag payload s
  | 0x0C => execPull tag payload s
  | 0x0D => execPushSector tag payload s
  | 0x0E => execLockTrack tag payload s
  | 0x0F => execUnlockTrack tag payload s
  | 0x10 => execMarkExported tag payload s
  | 0x11 => execReleaseTrack tag payload s
  | 0x12 => execQueueTrack tag payload s
  | 0x13 => execRetryTrack tag payload s
  | 0x14 => execSweepStart tag payload s
  | 0x15 => execSweepStop tag payload s
  | 0x16 => execSetLadder tag payload s
  | 0x17 => execHoldEnter tag payload s
  | 0x18 => execHoldExit tag payload s
  | 0x19 => execResetController tag payload s
  | _ => .next (s.refuseFrame window .unknownRequest)

/-- The meaning of UNKNOWN_REQUEST: the window is judged whole. A window of no bytes is no frame, and one
whose first byte is 0x00 is a read window (R164). -/
def execUnknownRequest (window : List Byte) (s : State) : Result3 :=
  if window.isEmpty then .next s
  else if at1 window 0 = 0 then .next (s.readWindow window.length)
  else if frameOk window then s.byKind window
  else .next (s.refuseFrame window .frameCheck)

end Sys2Proof.Machine
end

