-- ==== Sys2Proof/Machine/StartUp.lean ====
section
/-! DEFINITION. Power-on, the phases of start-up, the rescan, and the ends of DRAINING and RESUMING (R173 to R176). -/

namespace Sys2Proof.Machine

/-! ## Power-on -/

/-- The meaning of POWER_ON (R173): every block takes its power-on values; the levels of the input pins
and the queue of commands are the outside world's (log entry 34). -/
def execPowerOn (straps : Straps) (s : State) : Result3 :=
  .next (State.powerOn straps (s.drives.map (·.readyLine)) (s.drives.map (·.faultHeld)) s.port.clearLine s.link.rstLine s.pending)

/-- The start-up stands in a phase. -/
def State.inPhase (s : State) (p : Phase) : Bool := s.ctl.state = .starting && s.ctl.phase = some p

/-- The outcome of the store check: STORE_CHECK and SIZE_IN_USE (R173). -/
def checkOutcome (size : StoreSize) (lowerFails upperFails : Bool) : StoreCheck × Nat :=
  if lowerFails then (.lowerFailed, 0)
  else if !upperFails then (.passed, storeSizeMib size)
  else
    match size with
    | .mib8 => (.lowerFailed, 0)
    | .mib16 => (.upperFailed, 8)
    | .mib32 => (.upperFailed, 16)

/-- The store check ends (R173): FORMAT follows, or STORE_FAILED with STATE_CHANGE. Every word has been
written afresh, so none holds a bit error. -/
def State.endStoreCheck (s : State) (outcome : StoreCheck × Nat) : State :=
  let failed : Bool := outcome.1 = .lowerFailed
  let s := { s with
    store := { s.store with flips := [] }
    ctl := { s.ctl with
      storeCheck := outcome.1
      sizeInUse := outcome.2
      state := if failed then .storeFailed else .starting
      phase := if failed then none else some .format } }
  if failed then s.stateChange else s

/-- The meaning of STORE_CHECK_END (R173). -/
def execStoreCheckEnd (lowerFails upperFails : Bool) (s : State) : Result3 :=
  .next (if s.inPhase .storeCheck then
      (s.endStoreCheck (checkOutcome s.ctl.straps.storeSize lowerFails upperFails)).finish
    else s)

/-- What FORMAT writes (R2, R3, R51, R73, R74). -/
def State.format (s : State) : State :=
  { s with
    tracks := []
    freeList := List.range s.usable
    geometry := Four.ofFn fun d =>
      if s.fitted d then profileGeometry s.ctl.straps.profile else none
    sweeps := Four.all SweepRec.powerOn
    store := { s.store with flips := s.store.flips.filter (fun e => s.wordOwner e.1 = .nobody) } }

/-- The DISCOVERY phase begins (R173, R174). -/
def State.beginDiscoveryPhase (s : State) (pick : DriveRec → Bool) : State :=
  { s with ctl := { s.ctl with phase := some .discovery } }.discoverAll pick

/-- The meaning of FORMAT_END (R173). -/
def execFormatEnd (s : State) : Result3 :=
  .next (if s.inPhase .format then (s.format.beginDiscoveryPhase (·.fitted)).finish else s)

/-- The meaning of DISCOVERY_PHASE_END (R173, R174): READY once no fitted drive is discovering. -/
def execDiscoveryPhaseEnd (s : State) : Result3 :=
  .next (if s.inPhase .discovery && !s.anyDiscovering (·.fitted) then
      (s.becomeReady.modAttention fun a => { a with started := true }).finish
    else s)

/-! ## Rescan -/

/-- An address is held by a record of lower slot that is neither FREE nor BROKEN (R174). -/
def State.heldBelow (s : State) (n : Nat) : Bool :=
  match (s.track n).addr with
  | none => false
  | some a => s.tracks.any (fun e => e.1 < n && e.2.holds a)

/-- A record that the rescan keeps (R68, R174). -/
def TrackRec.rescanned (r : TrackRec) : TrackRec :=
  { r.demoted with waiters := 0, lock := none, context := none }

/-- The rescan of one record (R174): its words are read and tested; a failed record check, or an address
held by a lower slot, makes it BROKEN. -/
def State.rescanTrack (failed : List Nat) (s : State) (n : Nat) : State :=
  let s := s.readWords .table (s.flippedOf (.trackRecord n))
  if (s.track n).state = .broken then s
  else if failed.contains n || s.heldBelow n then s.breakTrack n (s.track n).diverged
  else if (s.track n).state = .free then s
  else s.modTrack n TrackRec.rescanned

/-- The records above the track records are read and tested (R129, R174): drive by drive, the geometry record
and then the sweep record. The order is the model's choice (log entry 67). -/
def State.rescanUpper (s : State) : State :=
  fourNumbers.foldl
    (fun s d =>
      let s := s.readWords .table (s.flippedOf (.geometry d))
      s.readWords .table (s.flippedOf (.sweepRecord d)))
    s

/-- The QUEUED slots of a class in ascending order (R65). -/
def State.queuedOf (s : State) (cls : TrackClass) : List Nat :=
  (s.tracks.filter (fun e => e.2.state = .queued && e.2.cls = some cls)).map (·.1)

/-- The queue put in order and the free list built (R51, R65, R174). -/
def State.rebuildLists (s : State) : State :=
  { s with
    queue := { demand := [], archive := s.queuedOf .archive, sweep := s.queuedOf .sweep }
    freeList := (List.range s.usable).filter (fun n => (s.track n).state = .free) }

/-- The rescan (R174). -/
def State.rescan (s : State) (failed : List Nat) : State :=
  ((List.range s.usable).foldl (State.rescanTrack failed) s).rescanUpper.rebuildLists

/-- The meaning of RESCAN_END (R174). -/
def execRescanEnd (failedChecks : List Nat) (s : State) : Result3 :=
  .next (if s.inPhase .rescan then
      ((s.rescan failedChecks).beginDiscoveryPhase DriveRec.inService).finish
    else s)

/-! ## HOLD and RESUMING -/

/-- Every context is FREE (R175). -/
def State.allContextsFree (s : State) : Bool := s.ctxs.toList.all (fun x => x.state = .free)

/-- HOLD is entered (R124, R175): STATE is HOLD and STATE_CHANGE set at once. With a store burst running or
waiting, self-refresh is entered at the STORE_BURST_END that leaves the store idle, after STATE has become HOLD
(log entry 60). -/
def State.enterHold (s : State) : State :=
  ({ s with ctl := { s.ctl with state := .hold } }.stateChange).finish

/-- The meaning of HOLD_ENTRY (R175): every context is FREE while the controller drains. -/
def execHoldEntry (s : State) : Result3 :=
  .next (if s.ctl.state = .draining && s.allContextsFree then s.enterHold else s)

/-- The meaning of RESUMING_END (R176). -/
def execResumingEnd (s : State) : Result3 :=
  .next (if s.ctl.state = .resuming && !s.anyDiscovering DriveRec.inService then
      s.becomeReady.finish
    else s)

end Sys2Proof.Machine
end

