-- ==== Sys2Proof/Machine/StoreEvents.lean ====
section
/-! DEFINITION. The store's own events: the refresh timer (R123), the end of a burst (R125), the scrubber (R130), and the Vote Unit's sector (R108). -/

namespace Sys2Proof.Machine

/-- Store words of the size in use (R119). -/
def State.storeWords (s : State) : Nat := s.ctl.sizeInUse * 131072

/-- A bit error arises in a word: a second one in the same word cannot be corrected (R121, log entry 6). -/
def addFlip (flips : List (Nat × FlipKind)) (w : Nat) (kind : FlipKind) : List (Nat × FlipKind) :=
  match assocFind w flips with
  | none => assocPut w kind flips
  | some _ => assocPut w .uncorrectable flips

/-- The bit errors of the words that exist have arisen. -/
def State.addFlips (s : State) (flips : List (Nat × FlipKind)) : State :=
  { s with store := { s.store with
    flips := flips.foldl (fun fs e => if e.1 < s.storeWords then addFlip fs e.1 e.2 else fs)
      s.store.flips } }

/-- A refresh becomes due: performed at once with no burst running, else at the end of the burst (R123). -/
def StoreRec.timerExpires (t : StoreRec) : StoreRec :=
  { t with refreshDue := t.timerRunning && t.burst.isSome }

/-- The meaning of REFRESH_TIMER (R123). -/
def execRefreshTimer (flips : List (Nat × FlipKind)) (s : State) : Result3 :=
  let s := s.addFlips flips
  .next { s with store := s.store.timerExpires }

/-- The running burst ends: a due refresh is performed (R123, R125). -/
def State.endBurst (s : State) : State :=
  { s with store := { s.store with burst := none, refreshDue := false } }

/-- A store burst ends: the words it read have been tested for its claimant (R121, R122, R125), and the Vote
Unit's reading goes on with it (R109). -/
def State.storeBurstEnds (s : State) (words : List Nat) : State :=
  match s.store.burst with
  | none => s
  | some cl =>
    let s := (s.readWords cl (words.filter (· < s.storeWords))).endBurst
    (if cl = .vote then s.voteBurst else s).finish

/-- The meaning of STORE_BURST_END (R125). -/
def execStoreBurstEnd (words : List Nat) (s : State) : Result3 := .next (s.storeBurstEnds words)

/-- The scrubber advances in these states, with a period (R130). -/
def State.scrubs (s : State) : Bool :=
  (s.ctl.state = .ready || s.ctl.state = .draining) && s.store.scrubPeriod ≠ 0

/-- SCRUB_CURSOR and PASSES after a group (R130). -/
def State.advanceScrub (s : State) : State :=
  if s.store.scrubCursor + 64 < s.storeWords * 8 then
    { s with store := { s.store with scrubCursor := s.store.scrubCursor + 64 } }
  else { s with store := { s.store with scrubCursor := 0, passes := s.store.passes + 1 } }

/-- The eight words of the next group (R130). -/
def State.scrubWords (s : State) : List Nat :=
  (List.range 8).map (fun i => s.store.scrubCursor / 8 + i)

/-- The scrub of a group (R130). -/
def State.scrub (s : State) : State :=
  if s.scrubs then
    (((s.readWords .scrub s.scrubWords).advanceScrub).askStore .scrub 1).finish
  else s

/-- The meaning of SCRUB_GROUP (R130). -/
def execScrubGroup (s : State) : Result3 := .next s.scrub

/-- The meaning of VOTE_SECTOR (R108). -/
def execVoteSector (s : State) : Result3 := .next s.voteSectorStep.finish

end Sys2Proof.Machine
end

