-- ==== Sys2Proof/Machine/Dispatch.lean ====
section
/-! DEFINITION. The meaning of every command: one arm per constructor of Instr. -/

namespace Sys2Proof.Machine

def exec (i : Instr) (s : State) : Host.Outcome State Fault Refusal :=
  match i with
  | .powerOn straps => Sys2Proof.Machine.execPowerOn straps s
  | .storeCheckEnd lowerFails upperFails => Sys2Proof.Machine.execStoreCheckEnd lowerFails upperFails s
  | .formatEnd => Sys2Proof.Machine.execFormatEnd s
  | .discoveryPhaseEnd => Sys2Proof.Machine.execDiscoveryPhaseEnd s
  | .rescanEnd failedChecks => Sys2Proof.Machine.execRescanEnd failedChecks s
  | .holdEntry => Sys2Proof.Machine.execHoldEntry s
  | .resumingEnd => Sys2Proof.Machine.execResumingEnd s
  | .systemClear => Sys2Proof.Machine.execSystemClear s
  | .systemClearRelease => Sys2Proof.Machine.execSystemClearRelease s
  | .addressHi value => Sys2Proof.Machine.execAddressHi value s
  | .addressLo value => Sys2Proof.Machine.execAddressLo value s
  | .registerWriteIgnored word value => Sys2Proof.Machine.execRegisterWriteIgnored word value s
  | .start unit => Sys2Proof.Machine.execStart unit s
  | .probe unit => Sys2Proof.Machine.execProbe unit s
  | .halt unit => Sys2Proof.Machine.execHalt unit s
  | .acknowledge unit => Sys2Proof.Machine.execAcknowledge unit s
  | .ackController => Sys2Proof.Machine.execAckController s
  | .setup => Sys2Proof.Machine.execSetup s
  | .illegalCommand value => Sys2Proof.Machine.execIllegalCommand value s
  | .busGrant => Sys2Proof.Machine.execBusGrant s
  | .busAccept => Sys2Proof.Machine.execBusAccept s
  | .busAdvance outcome words => Sys2Proof.Machine.execBusAdvance outcome words s
  | .grantTimeout => Sys2Proof.Machine.execGrantTimeout s
  | .advanceTimeout => Sys2Proof.Machine.execAdvanceTimeout s
  | .patienceTimerExpiry unit => Sys2Proof.Machine.execPatienceTimerExpiry unit s
  | .readWindow bytes => Sys2Proof.Machine.execReadWindow bytes s
  | .unknownRequest window => Sys2Proof.Machine.execUnknownRequest window s
  | .linkRst => Sys2Proof.Machine.execLinkRst s
  | .linkRstRelease => Sys2Proof.Machine.execLinkRstRelease s
  | .identify tag payload => Sys2Proof.Machine.execIdentify tag payload s
  | .attention tag payload => Sys2Proof.Machine.execAttention tag payload s
  | .setLimits tag payload => Sys2Proof.Machine.execSetLimits tag payload s
  | .storeState tag payload => Sys2Proof.Machine.execStoreState tag payload s
  | .defineDrive tag payload => Sys2Proof.Machine.execDefineDrive tag payload s
  | .withdrawDrive tag payload => Sys2Proof.Machine.execWithdrawDrive tag payload s
  | .restoreDrive tag payload => Sys2Proof.Machine.execRestoreDrive tag payload s
  | .clearDriveFault tag payload => Sys2Proof.Machine.execClearDriveFault tag payload s
  | .driveState tag payload => Sys2Proof.Machine.execDriveState tag payload s
  | .trackRecord tag payload => Sys2Proof.Machine.execTrackRecord tag payload s
  | .listTracks tag payload => Sys2Proof.Machine.execListTracks tag payload s
  | .pull tag payload => Sys2Proof.Machine.execPull tag payload s
  | .pushSector tag payload => Sys2Proof.Machine.execPushSector tag payload s
  | .lockTrack tag payload => Sys2Proof.Machine.execLockTrack tag payload s
  | .unlockTrack tag payload => Sys2Proof.Machine.execUnlockTrack tag payload s
  | .markExported tag payload => Sys2Proof.Machine.execMarkExported tag payload s
  | .releaseTrack tag payload => Sys2Proof.Machine.execReleaseTrack tag payload s
  | .queueTrack tag payload => Sys2Proof.Machine.execQueueTrack tag payload s
  | .retryTrack tag payload => Sys2Proof.Machine.execRetryTrack tag payload s
  | .sweepStart tag payload => Sys2Proof.Machine.execSweepStart tag payload s
  | .sweepStop tag payload => Sys2Proof.Machine.execSweepStop tag payload s
  | .setLadder tag payload => Sys2Proof.Machine.execSetLadder tag payload s
  | .holdEnter tag payload => Sys2Proof.Machine.execHoldEnter tag payload s
  | .holdExit tag payload => Sys2Proof.Machine.execHoldExit tag payload s
  | .resetController tag payload => Sys2Proof.Machine.execResetController tag payload s
  | .readyLineFall drive => Sys2Proof.Machine.execReadyLineFall drive s
  | .readyLineRise drive => Sys2Proof.Machine.execReadyLineRise drive s
  | .faultLineRise drive => Sys2Proof.Machine.execFaultLineRise drive s
  | .index drive => Sys2Proof.Machine.execIndex drive s
  | .indexLost drive => Sys2Proof.Machine.execIndexLost drive s
  | .driveAnswer drive => Sys2Proof.Machine.execDriveAnswer drive s
  | .answerTimeout drive => Sys2Proof.Machine.execAnswerTimeout drive s
  | .markPulse drive => Sys2Proof.Machine.execMarkPulse drive s
  | .seekDone drive => Sys2Proof.Machine.execSeekDone drive s
  | .seekTimeout drive => Sys2Proof.Machine.execSeekTimeout drive s
  | .recalibrationTimeout drive => Sys2Proof.Machine.execRecalibrationTimeout drive s
  | .settleEnd drive => Sys2Proof.Machine.execSettleEnd drive s
  | .headerField bytes => Sys2Proof.Machine.execHeaderField bytes s
  | .dataField inBlindWindow bytes => Sys2Proof.Machine.execDataField inBlindWindow bytes s
  | .pitchWindowClose taking => Sys2Proof.Machine.execPitchWindowClose taking s
  | .blindWindowClose => Sys2Proof.Machine.execBlindWindowClose s
  | .refreshTimer flips => Sys2Proof.Machine.execRefreshTimer flips s
  | .storeBurstEnd words => Sys2Proof.Machine.execStoreBurstEnd words s
  | .scrubGroup => Sys2Proof.Machine.execScrubGroup s
  | .voteSector => Sys2Proof.Machine.execVoteSector s

end Sys2Proof.Machine
end

