-- ==== Sys2Proof/Safety.lean ====
section
/-! DEFINITION. What stays true of the part at every step, and the conditions on a state under which its blocks stand still. -/

namespace Sys2Proof.Machine

/-- A ladder table as R80 allows it: 1 to 12 steps, each of 1 to 15 revolutions. -/
def ladderSound (l : List LadderStep) : Bool :=
  1 ≤ l.length && l.length ≤ 12 && l.all (fun st => 1 ≤ st.revs && st.revs ≤ 15)

/-- Setup settings in their ranges (R138). -/
def Settings.sound (x : Settings) : Bool :=
  x.statusBase % 2 = 0 && x.statusBase ≤ 0xFFFFC0 && x.key.toList.all (· < 16) && 50 ≤ x.patience
    && x.patience ≤ 10000 && 1 ≤ x.burst && x.burst ≤ 8

/-- The counts and the period of the store in their ranges, its bytes and bit errors in canonical form
(R119, R130, R131). -/
def StoreRec.sound (t : StoreRec) : Bool :=
  Memory.wf t.mem && keysRiseFrom 0 t.flips && t.corrected ≤ 65535 && t.uncorrected ≤ 65535
    && t.scrubPeriod ≤ 60

/-- The track records in canonical form: slots rising, no FREE record listed (log entry 33). -/
def tracksSound (l : List (Nat × TrackRec)) : Bool :=
  keysRiseFrom 0 l && l.all (fun e => e.2.state ≠ .free)

/-- A geometry record satisfies R1, or is UNDEFINED. -/
def geometrySound (g : Option Geometry) : Bool := g.all Geometry.valid

/-- What every step keeps: the store and the track table in canonical form, every record of settings in
the ranges the rules give it (R1, R32, R74, R80, R118, R130, R131, R138), and the fitted positions those
of the DRIVES strap (R16). -/
structure State.Sound (s : State) : Prop where
  store : s.store.sound = true
  tracks : tracksSound s.tracks = true
  geometry : ∀ d, geometrySound (s.geometry.get d) = true
  ladder : ladderSound s.ladder = true
  uncertainty : s.limits.uncertainty ≤ 64
  starvation : 1 ≤ s.limits.starvation ∧ s.limits.starvation ≤ 16
  settings : s.port.settings.sound = true
  depth : ∀ d, 1 ≤ (s.sweeps.get d).depth ∧ (s.sweeps.get d).depth ≤ 8
  fitted : ∀ d, (s.drives.get d).fitted = decide (d.val < s.ctl.straps.drives)

/-- Every block is at rest: no reaction is left to run (log entry 11). -/
def State.Resting (s : State) : Prop := s.reactOnce = none

/-- No context is about to settle or reads, no unit waits, nothing is asked of the Direct Read Slot or the Vote Unit,
and, with the controller READY, no drive is: neither the Sweep Feeder nor the Dispatcher can act. -/
structure State.Still (s : State) : Prop where
  ctxs : ∀ c, s.settlesNow c = false
  reading : ∀ c, (s.ctxs.get c).state ≠ .reading
  units : ∀ u, (s.units.get u).state ≠ .wait
  drs : s.drs.waitingUnits = []
  vote : s.vote.requests = []
  drives : s.ctl.state = .ready → ∀ d, (s.drives.get d).state ≠ DriveState.ready

/-- Nothing waits for a unit: it waits on no sector, lock or direct read. -/
structure State.Apart (s : State) (u : Fin 4) : Prop where
  waitOn : (s.units.get u).waitOn = none
  waiting : u ∉ s.drs.waitingUnits
  serving : s.drs.serving ≠ some u

end Sys2Proof.Machine
end

