-- ==== Sys2Proof/Certificates/Slice0/Obligations.lean ====
section
/-! DEFINITION. The statements about the TRC-410 that the provers are asked to prove. Where one says that a
command answers `m.finish`, it describes the state m that the command's own effect gives; the block's internal
reactions to m then follow, in the order that log entry 11 fixes. -/

namespace Sys2Proof.Stated

open Sys2Proof.Machine

/-- A drive record at power-on, apart from the levels of its ready and fault lines (R17). -/
def drivePoweredOn (straps : Straps) (d : Fin 4) (r : DriveRec) : Prop :=
  r.fitted = decide (d.val < straps.drives) ∧ r.state = (if d.val < straps.drives then .notReady else .absent)
    ∧ r.faultKind = none ∧ r.discovery = none ∧ r.cylAt = none ∧ r.offsetAt = none ∧ r.claim = none
    ∧ r.displacedContext = none ∧ r.drsWaiting = false ∧ r.observedSectors = 0 ∧ r.seekRetried = false
    ∧ r.positioning = none

/-- The blocks on the drives' side and the Controller State at power-on (R17, R30, R32, R54, R65, R74,
R80, R83, R106, R118, R173). -/
def recoveryPoweredOn (straps : Straps) (t : State) : Prop :=
  t.ctl = { state := .starting, phase := some .storeCheck, straps := straps, storeCheck := .inProgress,
            sizeInUse := 0 }
    ∧ (∀ d, drivePoweredOn straps d (t.drives.get d))
    ∧ (∀ d, t.sweeps.get d = { state := .off, cyl := 0, head := 0, depth := 2 })
    ∧ t.tracks = [] ∧ (∀ e, t.locks.get e = none) ∧ t.queue.order = []
    ∧ t.ladder.map (fun st => (st.strobe, st.offset, st.revs, st.blind))
        = [(.nominal, .centre, 2, false), (.early, .centre, 2, false), (.late, .centre, 2, false),
           (.nominal, .inward, 3, false), (.nominal, .outward, 3, false), (.early, .inward, 2, false),
           (.late, .outward, 2, false), (.nominal, .centre, 4, true)]
    ∧ (∀ c, (t.ctxs.get c).state = .free ∧ (t.ctxs.get c).track = none ∧ (t.ctxs.get c).step = none
        ∧ (t.ctxs.get c).evaluation = .none)
    ∧ t.path.grant = none ∧ t.path.lastGranted = 3 ∧ (∀ c, t.path.passedOver.get c = 0)
    ∧ t.vote.requests = [] ∧ t.vote.serving = none ∧ t.limits = { uncertainty := 4, starvation := 4 }

/-- The image store, the system side and the link at power-on (R123, R130, R131, R133, R138, R140, R145,
R147, R156, R165, R168). -/
def portsPoweredOn (t : State) : Prop :=
  t.store.scrubCursor = 0 ∧ t.store.passes = 0 ∧ t.store.scrubPeriod = 20 ∧ t.store.corrected = 0
    ∧ t.store.uncorrected = 0 ∧ t.store.lastUncorrected = none ∧ t.store.refreshDue = false
    ∧ t.store.timerRunning = true ∧ t.store.lastUnit = 3 ∧ t.store.lastRecovery = 4
    ∧ t.port.address = 0 ∧ t.port.answer = .nothing ∧ t.port.setupFetch = none
    ∧ t.port.storeError = false ∧ t.port.setupFailed = false ∧ t.port.stateChange = false
    ∧ t.port.statusLost = false
    ∧ t.port.settings = { statusBase := 0x200, key := Four.all 0, unitRoute := Four.all (some 1),
                          controllerRoute := some 1, patience := 3000, burst := 4 }
    ∧ t.req.state = .free ∧ t.req.current = none ∧ t.req.lastServed = .setup
    ∧ (∀ u, (t.units.get u).state = .idle ∧ (t.units.get u).haltTold = false
        ∧ (t.units.get u).stacked = false ∧ (t.units.get u).sense.reason = .none)
    ∧ t.drs.state = .free ∧ t.drs.serving = none ∧ t.drs.target = none ∧ t.drs.waitingUnits = []
    ∧ t.link.slot = none ∧ t.link.attention = Attention.empty

/-- No block has work that waits for nothing but its turn, whatever the controller state: no unit waits,
nothing is asked of the Direct Read Slot or the Vote Unit. -/
def nothingAsked (s : State) : Prop :=
  (∀ u, (s.units.get u).state ≠ .wait) ∧ s.drs.waitingUnits = [] ∧ s.vote.requests = []

/-- The payload lengths, the group and the KIND that the request table gives each archive request (R166
case 3, R167), with the TAG and payload it carries. -/
def requestRow : Instr → Option (Byte × Byte × List Nat × RequestGroup × List Byte)
  | .identify g p => some (0x01, g, [0], .always, p)
  | .attention g p => some (0x02, g, [0], .notStoreFailed, p)
  | .setLimits g p => some (0x03, g, [7], .readyOnly, p)
  | .storeState g p => some (0x04, g, [1], .readyOnly, p)
  | .defineDrive g p => some (0x05, g, [12], .readyOnly, p)
  | .withdrawDrive g p => some (0x06, g, [1], .readyOnly, p)
  | .restoreDrive g p => some (0x07, g, [1], .readyOnly, p)
  | .clearDriveFault g p => some (0x08, g, [1], .readyOnly, p)
  | .driveState g p => some (0x09, g, [1], .notStoreFailed, p)
  | .trackRecord g p => some (0x0A, g, [6], .readyOnly, p)
  | .listTracks g p => some (0x0B, g, [3], .readyOnly, p)
  | .pull g p => some (0x0C, g, [8], .readyOnly, p)
  | .pushSector g p => some (0x0D, g, [136, 264, 520], .readyOnly, p)
  | .lockTrack g p => some (0x0E, g, [6], .readyOnly, p)
  | .unlockTrack g p => some (0x0F, g, [6], .readyOnly, p)
  | .markExported g p => some (0x10, g, [8], .readyOnly, p)
  | .releaseTrack g p => some (0x11, g, [7], .readyOnly, p)
  | .queueTrack g p => some (0x12, g, [4], .readyOnly, p)
  | .retryTrack g p => some (0x13, g, [6], .readyOnly, p)
  | .sweepStart g p => some (0x14, g, [3], .readyOnly, p)
  | .sweepStop g p => some (0x15, g, [1], .readyOnly, p)
  | .setLadder g p => some (0x16, g, [5, 9, 13, 17, 21, 25, 29, 33, 37, 41, 45, 49], .readyOnly, p)
  | .holdEnter g p => some (0x17, g, [0], .readyOnly, p)
  | .holdExit g p => some (0x18, g, [0], .notStoreFailed, p)
  | .resetController g p => some (0x19, g, [0], .notStoreFailed, p)
  | _ => none

/-- The table of R167: what a request of a group is answered in a controller state that does not perform it. -/
def notPerformed : RequestGroup → CtlState → Option Result
  | .always, _ => none
  | _, .ready => none
  | _, .storeFailed => some .storeError
  | .notStoreFailed, .starting => none
  | .notStoreFailed, .resuming => none
  | .notStoreFailed, .draining => none
  | .notStoreFailed, .hold => none
  | .readyOnly, .starting => some .starting
  | .readyOnly, .resuming => some .starting
  | .readyOnly, .draining => some .holding
  | .readyOnly, .hold => some .holding

/-- A response is placed in the slot with this KIND, TAG, RESULT and payload: PREVIOUS_LOST tells whether
the slot held one before, ATTENTION_SET whether the attention set is not empty (R165, R166). -/
def answered (before after : State) (kind tag : Byte) (result : Result) (payload : List Byte) : Prop :=
  ∃ r, after.link.slot = some r ∧ r.kind = kind ∧ r.tag = tag ∧ r.result = result ∧ r.payload = payload
    ∧ r.previousLost = before.link.slot.isSome
    ∧ (r.attentionSet = true ↔ after.link.attention ≠ Attention.empty)

/-- The store as it was, but for the claims that wait and the self-refresh that they end (R124, R125). -/
def onlyAsks (x y : StoreRec) : Prop :=
  ∃ a b c, y = { x with asks := a, selfRefresh := b, timerRunning := c }

/-- A request has changed no more of the link than its response slot and the bytes driven out, and no
more of the store than the claims that wait. -/
def requestFrame (s m : State) : Prop :=
  m.link.attention = s.link.attention ∧ m.link.rstLine = s.link.rstLine ∧ onlyAsks s.store m.store

/-- The link takes requests, and the controller is READY. -/
def linkReady (s : State) : Prop := s.link.rstLine = false ∧ s.ctl.state = .ready

/-- The changes of the controller STATE that R173 to R176 name, each with the command that makes it; a
request may also come as its bytes (UNKNOWN_REQUEST judges them, log entry 31). -/
def controllerMove : Instr → CtlState → CtlState → Prop
  | .powerOn _, _, .starting => True
  | .storeCheckEnd _ _, .starting, .storeFailed => True
  | .discoveryPhaseEnd, .starting, .ready => True
  | .holdEntry, .draining, .hold => True
  | .resumingEnd, .resuming, .ready => True
  | .holdEnter _ _, .ready, .draining => True
  | .holdExit _ _, .draining, .ready => True
  | .holdExit _ _, .hold, .resuming => True
  | .resetController _ _, x, .starting => x ≠ .storeFailed
  | .unknownRequest _, .ready, .draining => True
  | .unknownRequest _, .draining, .ready => True
  | .unknownRequest _, .hold, .resuming => True
  | .unknownRequest _, x, .starting => x ≠ .storeFailed
  | _, _, _ => False

/-- A STALLED sweep returns to RUNNING (R76). -/
def sweepResumed (w : SweepRec) : SweepRec :=
  match w.state with
  | .stalled => { w with state := .running }
  | .off => w
  | .running => w
  | .done => w

/-- The answer of the first test of R135 that applies: the unit's drive cannot take work, the unit's status
is pending, the unit is busy or a setup fetch runs, or ACCEPTED. -/
def workAnswer (s : State) (u : Fin 4) : Answer :=
  if s.ctl.state ≠ .ready ∨ (s.drives.get u).state = .absent ∨ (s.drives.get u).state = .withdrawn
      ∨ s.geometry.get u = none then .unavailable
  else if (s.units.get u).state = .pending then .statusPending
  else if (s.units.get u).state ≠ .idle ∨ s.port.setupFetch ≠ none then .busy
  else .accepted

/-- The requester with a burst of a unit before it (R140). -/
def unitAsks (q : Requester) (u : Fin 4) (b : Burst) : Requester :=
  { q with unitWaiting := q.unitWaiting.set u (some b) }

/-- A unit is in ENDING and its 16-byte status record, with this COMPLETION, conditions, residual count,
order address and count of guesses, begins its store at STATUS_BASE + 16 × unit with the unit's KEY; no other
unit and no other claimant's burst has changed (R160). -/
def statusStoring (s m : State) (u : Fin 4) (completion : Completion) (conditions : List Condition)
    (residual orderAddress guessed : Nat) : Prop :=
  let out := wordsToBytes
    (statusWords completion conditions (s.drives.get u).state residual orderAddress guessed)
  let base := s.port.settings.statusBase + 16 * u.val
  (m.units.get u).state = .ending ∧ (m.units.get u).conditions = conditions
    ∧ (m.units.get u).transfer = some { kind := .statusStore, key := s.port.settings.key.get u,
                                        addr := base, left := 16, out := out, got := [] }
    ∧ m.req = unitAsks s.req u
        { claimant := .unit u, direction := .store, addr := base,
          count := min s.port.settings.burst 8, key := s.port.settings.key.get u,
          words := busWords (out.take (2 * min s.port.settings.burst 8)) }
    ∧ (∀ v, v ≠ u → m.units.get v = s.units.get v)

/-- A unit's list has ended: what it held is gone, and its status record begins its store with the residual
count, order address and count of guesses it had (R149, R160). -/
def listEnds (s m : State) (u : Fin 4) (completion : Completion) (conditions : List Condition) : Prop :=
  statusStoring s m u completion conditions (s.units.get u).residual (s.units.get u).orderAddress
      (s.units.get u).guessed
    ∧ (m.units.get u).order = none ∧ (m.units.get u).prefetched = .absent
    ∧ (m.units.get u).haltTold = false ∧ (m.units.get u).waitOn = none ∧ (m.units.get u).patience = none

/-- The settings that eight words of a setup block spell, or none when one lies outside its range (R138,
spec/12): STATUS_BASE even and at most 0xFFFFC0, PATIENCE 50 to 10000, BURST 1 to 8, every ROUTE 0 to 4. -/
def settingsOf (ws : List Word16) : Option Settings :=
  let w (i : Nat) : Nat := (ws.getD i 0).toNat
  let base := w 0 % 256 * 65536 + w 1
  let route (i : Nat) : Nat := w 3 / 8 ^ i % 8
  let level (n : Nat) : Option (Fin 4) := if n = 4 then none else some (Fin.ofNat 4 n)
  if base % 2 = 0 ∧ base ≤ 0xFFFFC0 ∧ 50 ≤ w 4 ∧ w 4 ≤ 10000 ∧ 1 ≤ w 5 ∧ w 5 ≤ 8
      ∧ (∀ i : Fin 5, route i.val ≤ 4) then
    some { statusBase := base
           key := ⟨w 2 % 16, w 2 / 16 % 16, w 2 / 256 % 16, w 2 / 4096 % 16⟩
           unitRoute := ⟨level (route 0), level (route 1), level (route 2), level (route 3)⟩
           controllerRoute := level (route 4)
           patience := w 4
           burst := w 5 }
  else none

/-- A unit is offered its drive's new status (R146, R163): while system clear is asserted nothing happens; a
unit that is not IDLE holds it stacked, and an IDLE unit begins the store of its UNSOLICITED record at once. -/
def statusOffered (s m : State) (d : Fin 4) : Prop :=
  (s.port.clearLine = true → m.units = s.units ∧ m.req = s.req)
    ∧ (s.port.clearLine = false → (s.units.get d).state ≠ .idle →
        m.units = s.units.set d { s.units.get d with stacked := true } ∧ m.req = s.req)
    ∧ (s.port.clearLine = false → (s.units.get d).state = .idle →
        statusStoring s m d .unsolicited [] 0 0 0
          ∧ m.units.get d = { s.units.get d with
              state := .ending, conditions := [], transfer := (m.units.get d).transfer })

/-- A unit waits on a sector of a track, or on its lock (R47). -/
def waitsOn (r : UnitRec) (n : Nat) : Prop := (∃ k, r.waitOn = some (.sector n k)) ∨ r.waitOn = some (.lock n)

/-- The units that wait on one of some tracks have been notified, and no other unit has changed (R47, R56). -/
def notifiedOn (s m : State) (on : Nat → Prop) : Prop :=
  ∀ u, ((∃ n, on n ∧ waitsOn (s.units.get u) n) →
        m.units.get u = { s.units.get u with notified := true })
    ∧ ((∀ n, on n → ¬ waitsOn (s.units.get u) n) → m.units.get u = s.units.get u)

/-- A claimant's number in the order unit 0, 1, 2, 3, setup (R140). -/
def claimantNumber : BusClaimant → Nat
  | .unit u => u.val
  | .setup => 4

/-- How far a claimant comes after the one last served, going round (R140): 1 the next, 5 itself. -/
def cyclePlace (last cl : BusClaimant) : Nat := (claimantNumber cl + 4 - claimantNumber last) % 5 + 1

/-- The failures that the memory itself signals (R141). -/
def memoryFailure : MemoryOutcome → Option PortOutcome
  | .done => none
  | .addressInvalid => some .addressInvalid
  | .keyViolation => some .keyViolation
  | .parity => some .parity

/-- The STORE_SIZE strap in MiB (R173). -/
def mibOf : StoreSize → Nat
  | .mib8 => 8
  | .mib16 => 16
  | .mib32 => 32

/-- The five bytes that name a word's owner: its kind, the slot, context or drive, the candidate position and the
sector, 0xFF where there is none (spec/12). -/
def ownerCode : WordOwner → List Byte
  | .nobody => [0, 0xFF, 0xFF, 0xFF, 0xFF]
  | .trackSector n k => [1, BitVec.ofNat 8 (n / 256), BitVec.ofNat 8 n, 0xFF, BitVec.ofNat 8 k]
  | .candidate c p k => [2, 0, BitVec.ofNat 8 c.val, BitVec.ofNat 8 p, BitVec.ofNat 8 k]
  | .capture c k => [3, 0, BitVec.ofNat 8 c.val, 0xFF, BitVec.ofNat 8 k]
  | .trackRecord n => [4, BitVec.ofNat 8 (n / 256), BitVec.ofNat 8 n, 0xFF, 0xFF]
  | .geometry d => [5, 0, BitVec.ofNat 8 d.val, 0xFF, 0xFF]
  | .sweepRecord d => [6, 0, BitVec.ofNat 8 d.val, 0xFF, 0xFF]

/-- The twelve LAST_UNCORRECTED bytes of STORE_STATE (R131, R132, spec/12). -/
def lostBytes : Option LastUncorrected → List Byte
  | none => [0, 0xFF, 0xFF, 0xFF, 0xFF, 0xFF, 0xFF, 0xFF, 0xFF, 0xFF, 0xFF, 0xFF]
  | some x =>
    [1, BitVec.ofNat 8 x.region.code, BitVec.ofNat 8 (x.frame / 256), BitVec.ofNat 8 x.frame,
      BitVec.ofNat 8 (x.offset / 256), BitVec.ofNat 8 x.offset, BitVec.ofNat 8 x.foundBy.code]
      ++ ownerCode x.owner

/-- A window holds a request frame: KIND, TAG, LENGTH, at most 544 payload bytes and their CHECK (R164). -/
def isFrame (w : List Byte) (kind tag : Byte) (payload : List Byte) : Prop :=
  payload.length ≤ 544 ∧ w = withCheck 0xFFFF
    ([kind, tag, BitVec.ofNat 8 (payload.length / 256), BitVec.ofNat 8 payload.length] ++ payload)

/-- A request has been answered without a payload, and nothing but the link's slot and the bytes driven out
has changed (R166, cases 1 to 4). -/
def turnedAwayWith (s t : State) (kind tag : Byte) (r : Result) : Prop :=
  t = { s with link := { s.link with slot := t.link.slot, out := t.link.out } }
    ∧ ∃ x, t.link.slot = some x ∧ x.kind = kind ∧ x.tag = tag ∧ x.result = r ∧ x.payload = []
      ∧ x.previousLost = s.link.slot.isSome
      ∧ (x.attentionSet = true ↔ s.link.attention ≠ Attention.empty)

/-- The four bytes of a ladder step (R81, spec/12). -/
def stepBytes (st : LadderStep) : List Byte :=
  [match st.strobe with
    | .early => 0
    | .nominal => 1
    | .late => 2,
   match st.offset with
    | .centre => 0
    | .inward => 1
    | .outward => 2,
   BitVec.ofNat 8 st.revs, if st.blind then 1 else 0]

/-- The payload that spells a ladder table (spec/12). -/
def ladderBytes (steps : List LadderStep) : List Byte :=
  BitVec.ofNat 8 steps.length :: (steps.map stepBytes).flatten

/-- A ladder table as R80 allows it. -/
def ladderGood (steps : List LadderStep) : Prop :=
  1 ≤ steps.length ∧ steps.length ≤ 12 ∧ ∀ st ∈ steps, 1 ≤ st.revs ∧ st.revs ≤ 15

/-- The two-byte field at a byte of a payload, high byte first (R178). -/
def word2 (p : List Byte) (i : Nat) : Nat := (p.getD i 0).toNat * 256 + (p.getD (i + 1) 0).toNat

/-- The cylinder and head lie within the drive's geometry, where it is defined (R57). -/
def withinGeometry (s : State) (d : Fin 4) (cyl head : Nat) : Prop :=
  ∀ g, s.geometry.get d = some g → cyl < g.cylinders ∧ head < g.heads

/-- A track operand names the record in a slot: by its slot number, or by the address that this record
alone holds (R57). -/
def names (s : State) (p : List Byte) (n : Nat) : Prop :=
  ((p.getD 0 0).toNat = 1 ∧ word2 p 1 = n ∧ n < s.usable ∧ (s.track n).state ≠ .free)
    ∨ ((p.getD 0 0).toNat = 0 ∧ ∃ d : Fin 4, (p.getD 1 0).toNat = d.val
        ∧ withinGeometry s d (word2 p 2) (p.getD 4 0).toNat
        ∧ ∀ k, (s.track k).holds ⟨d, word2 p 2, (p.getD 4 0).toNat⟩ = true ↔ k = n)

/-- A track operand is refused: RANGE for its form, drive, address or slot, NO_SUCH_TRACK where no record is
found (R57, R178). -/
def operandRefused (s : State) (p : List Byte) (r : Result) : Prop :=
  let form := (p.getD 0 0).toNat
  let drive := (p.getD 1 0).toNat
  let cyl := word2 p 2
  let head := (p.getD 4 0).toNat
  (r = .range ∧ (1 < form ∨ (form = 1 ∧ s.usable ≤ word2 p 1)
      ∨ (form = 0 ∧ (3 < drive ∨ ∃ d : Fin 4, drive = d.val ∧ ¬ withinGeometry s d cyl head))))
    ∨ (r = .noSuchTrack ∧ ((form = 1 ∧ word2 p 1 < s.usable ∧ (s.track (word2 p 1)).state = .free)
      ∨ (form = 0 ∧ ∃ d : Fin 4, drive = d.val ∧ withinGeometry s d cyl head
        ∧ ∀ k, (s.track k).holds ⟨d, cyl, head⟩ = false)))

/-- The requests that name a track (R55 to R63, R78). -/
def namesATrack : Instr → Bool
  | .trackRecord _ _ => true
  | .pull _ _ => true
  | .pushSector _ _ => true
  | .lockTrack _ _ => true
  | .unlockTrack _ _ => true
  | .markExported _ _ => true
  | .releaseTrack _ _ => true
  | .retryTrack _ _ => true
  | _ => false

/-- A request has been answered and has changed nothing but the link's slot and the claims on the store
that its reads made. -/
def onlyAnswered (s m : State) (kind tag : Byte) (r : Result) (payload : List Byte) : Prop :=
  answered s m kind tag r payload ∧ requestFrame s m ∧ m = { s with link := m.link, store := m.store }

/-- The request is performed with this answer and no other effect. -/
def onlyAnswers (c : Instr) (s : State) (kind tag : Byte) (r : Result) (payload : List Byte) : Prop :=
  ∃ m : State, exec c s = .next m.finish ∧ onlyAnswered s m kind tag r payload

/-- A record's sector list says that a sector is still to be recovered (R41). -/
def unresolved (r : TrackRec) : Prop := ∃ x ∈ r.sectors, x.status = .pending ∨ x.status = .damaged

/-- A change of one slot's record, and of no other. -/
def onlyTrack (s m : State) (n : Nat) (r : TrackRec) : Prop :=
  m.track n = r ∧ ∀ k, k ≠ n → m.track k = s.track k

/-- The 22 bytes of DRIVE_STATE (R37, spec/12). -/
def driveBytes (r : DriveRec) (d : Fin 4) (g : Option Geometry) : List Byte :=
  [BitVec.ofNat 8 d.val, if r.fitted then 1 else 0, BitVec.ofNat 8 r.state.code,
    BitVec.ofNat 8 ((r.faultKind.map FaultKind.code).getD 0xFF), if r.discovery.isSome then 1 else 0]
    ++ be2 (r.cylAt.getD 0xFFFF)
    ++ [BitVec.ofNat 8 ((r.offsetAt.map Offset.code).getD 0xFF),
        (match r.claim with
          | some (.ctx c) => BitVec.ofNat 8 c.val
          | some .drs => 4
          | none => 0xFF),
        BitVec.ofNat 8 r.observedSectors, if r.seekRetried then 1 else 0]
    ++ (match g with
        | none => [0, 0, 0, 0, 0, 0, 0, 0, 0, 0, 0]
        | some g => [1] ++ be2 g.cylinders ++ [BitVec.ofNat 8 g.heads, BitVec.ofNat 8 g.sectors]
            ++ be2 g.sectorBytes ++ [BitVec.ofNat 8 g.interleave, BitVec.ofNat 8 g.period]
            ++ be2 g.checkSeed.toNat)

/-- The 20-byte header of TRACK_RECORD (R58, spec/12). -/
def trackHeader (n : Nat) (r : TrackRec) : List Byte :=
  be2 n
    ++ [BitVec.ofNat 8 r.state.code, BitVec.ofNat 8 ((r.cls.map TrackClass.code).getD 0xFF),
        BitVec.ofNat 8 ((r.addr.map (fun a => a.drive.val)).getD 0xFF),
        BitVec.ofNat 8 ((r.addr.map (·.head)).getD 0xFF)]
    ++ be2 ((r.addr.map (·.cyl)).getD 0xFFFF)
    ++ [BitVec.ofNat 8 ((if r.origins.system then 1 else 0) + (if r.origins.archive then 2 else 0)
          + (if r.origins.sweep then 4 else 0)),
        BitVec.ofNat 8 r.nextStep, BitVec.ofNat 8 r.stepRevs,
        BitVec.ofNat 8 ((r.context.map (·.val)).getD 0xFF), BitVec.ofNat 8 ((r.lock.map (·.val)).getD 0xFF),
        BitVec.ofNat 8 r.waiters,
        BitVec.ofNat 8 ((if r.diverged then 1 else 0) + (if r.exported then 2 else 0)),
        BitVec.ofNat 8 r.sectors.length]
    ++ be2 r.totalRevs ++ be2 r.revision.toNat

/-- The 12-byte entry of a sector in TRACK_RECORD (R58, spec/12). -/
def trackEntry (x : SectorRec) (candidates : Nat) : List Byte :=
  [BitVec.ofNat 8 x.status.code, BitVec.ofNat 8 x.attempts, BitVec.ofNat 8 x.checkFails,
    BitVec.ofNat 8 x.syncMisses, BitVec.ofNat 8 x.headerFaults, BitVec.ofNat 8 (x.resolvedStep.getD 0xFF),
    BitVec.ofNat 8 ((if x.blind then 1 else 0) + (if x.headerFlag.isSome then 2 else 0)),
    x.headerFlag.getD 0]
    ++ be2 (x.uncertain.getD 0xFFFF) ++ [BitVec.ofNat 8 x.guess.code, BitVec.ofNat 8 candidates]

/-- The 7 bytes of a record in LIST_TRACKS (R59, spec/12). -/
def listedBytes (n : Nat) (r : TrackRec) : List Byte :=
  be2 n ++ [BitVec.ofNat 8 r.state.code, BitVec.ofNat 8 ((r.addr.map (fun a => a.drive.val)).getD 0xFF)]
    ++ be2 ((r.addr.map (·.cyl)).getD 0xFFFF) ++ [BitVec.ofNat 8 ((r.addr.map (·.head)).getD 0xFF)]

/-- A geometry that R1 allows. -/
def geometryGood (g : Geometry) : Prop :=
  1 ≤ g.cylinders ∧ g.cylinders ≤ 1024 ∧ 1 ≤ g.heads ∧ g.heads ≤ 8 ∧ 8 ≤ g.sectors ∧ g.sectors ≤ 32
    ∧ (g.sectorBytes = 128 ∨ g.sectorBytes = 256 ∨ g.sectorBytes = 512)
    ∧ 1 ≤ g.interleave ∧ g.interleave ≤ 4 ∧ 10 ≤ g.period ∧ g.period ≤ 60
    ∧ (g.checkSeed = 0x0000 ∨ g.checkSeed = 0xFFFF) ∧ g.sectors * g.sectorBytes ≤ 12288
    ∧ Nat.Coprime g.interleave g.sectors

/-- A record is a QUEUED track of the drive. -/
def queuedOn (r : TrackRec) (d : Fin 4) : Bool := r.state = .queued && (r.addr.map (·.drive)) = some d

/-- A record is a PENDING track of the drive. -/
def pendingOn (r : TrackRec) (d : Fin 4) : Prop := r.state = .pending ∧ (r.addr.map (·.drive)) = some d

/-- Nothing is in progress on a drive for another block: no context is bound to a track of it, no direct
read aims at it or waits for it, its unit waits on no track, and the read path is free with nobody waiting. -/
def driveAlone (s : State) (d : Fin 4) : Prop :=
  (∀ c n, (s.ctxs.get c).track = some n → ((s.track n).addr.map (·.drive)) ≠ some d)
    ∧ s.drs.target = none ∧ (s.drives.get d).drsWaiting = false ∧ (s.units.get d).waitOn = none
    ∧ s.path.grant = none ∧ (∀ c, (s.ctxs.get c).state ≠ .waitPath) ∧ s.drs.state ≠ .waitPath

/-- The ready and fault lines of a fitted drive are watched (R21). -/
def linesWatched (s : State) (d : Fin 4) : Prop :=
  (s.drives.get d).fitted = true ∧ s.ctl.state ≠ .hold ∧ s.ctl.state ≠ .storeFailed
    ∧ s.ctl.phase ≠ some .storeCheck ∧ s.ctl.phase ≠ some .format

/-- A change of one drive's record and of nothing else. -/
def onlyDrive (s : State) (d : Fin 4) (r : DriveRec) : State := { s with drives := s.drives.set d r }

/-- A drive's record has become another one, as its lines and its discovery show it, and no other drive's
has; DRIVE_CHANGE is set when STATE differs or the change is announced anyhow (R19, R23). Where the drive is
unclaimed and stands alone, that is all but for the status that its unit is offered when STATE differs (R163). -/
def driveChanged (s m : State) (d : Fin 4) (r : DriveRec) (anyhow : Bool) : Prop :=
  (m.drives.get d).state = r.state ∧ (m.drives.get d).faultKind = r.faultKind
    ∧ (m.drives.get d).discovery = r.discovery ∧ (m.drives.get d).observedSectors = r.observedSectors
    ∧ (m.drives.get d).readyLine = r.readyLine ∧ (m.drives.get d).faultHeld = r.faultHeld
    ∧ (∀ e, e ≠ d → (m.drives.get e).state = (s.drives.get e).state
        ∧ (m.drives.get e).faultKind = (s.drives.get e).faultKind
        ∧ (m.drives.get e).discovery = (s.drives.get e).discovery)
    ∧ (r.state ≠ (s.drives.get d).state ∨ anyhow = true → m.link.attention.driveChange.get d = true)
    ∧ m.ctl = s.ctl ∧ m.ladder = s.ladder ∧ m.limits = s.limits ∧ m.link.slot = s.link.slot
    ∧ m.port.settings = s.port.settings
    ∧ ((s.drives.get d).claim = none → driveAlone s d → s.port.settings.statusBase ≤ 0xFFFFC0 →
        (r.state ≠ (s.drives.get d).state → statusOffered (onlyDrive s d r) m d)
        ∧ (r.state = (s.drives.get d).state → m.units = s.units ∧ m.req = s.req)
        ∧ m = { onlyDrive s d r with
          units := m.units
          req := m.req
          link := if r.state ≠ (s.drives.get d).state ∨ anyhow = true then
              { s.link with attention :=
                { s.link.attention with driveChange := s.link.attention.driveChange.set d true } }
            else s.link })

/-- A drive record after an accepted define form: discovery begins (again) on a drive that is ABSENT, NOT_READY,
READY, or FAULTED with a discovery running; the start makes an unclaimed FAULTED drive NOT_READY (R15, R18,
R20; log entry 54). -/
def rediscovered (r : DriveRec) : DriveRec :=
  let begun : DriveRec := { r with discovery := some { skipRecalibration := false, stage := .awaitAnswer } }
  match r.state with
  | .absent => begun
  | .notReady => begun
  | .ready => begun
  | .faulted =>
    if r.discovery = none then r else begun
  | .withdrawn => r

/-- A drive record that latches a fault (R22). -/
def latched (r : DriveRec) (kind : FaultKind) : DriveRec :=
  { r with state := .faulted, faultKind := some kind, cylAt := none, offsetAt := none, positioning := none
           discovery := none }

/-- A drive record whose discovery ends with a fault (R19, R22). -/
def discoveryFault (r : DriveRec) (kind : FaultKind) : DriveRec :=
  { r with discovery := none, state := .faulted, faultKind := some kind, cylAt := none, offsetAt := none }

/-- A drive record whose discovery ends with no fault (R19). -/
def discoveryEnds (r : DriveRec) (st : DriveState) : DriveRec :=
  { r with discovery := none, state := st, faultKind := none }

/-- A drive record at a stage of its discovery (R19). -/
def atStage (r : DriveRec) (skip : Bool) (stage : DiscoveryStage) : DriveRec :=
  { r with discovery := some { skipRecalibration := skip, stage := stage } }

/-- The sectors of a record that are still to be recovered, ascending (R41, R87). -/
def openSectors (r : TrackRec) : List Nat :=
  (List.range r.sectors.length).filter (fun k =>
    (r.sectors.getD k SectorRec.fresh).status = .pending ∨ (r.sectors.getD k SectorRec.fresh).status = .damaged)

/-- The heads stand where a positioning wanted them: it ends, and the claim holder waits for the read path or,
with the path free, is granted it, a context only while its track has a sector left to read (R24, R30, R31,
R86, R87, R157). Said with nobody else waiting for the path. -/
def positioned (s m : State) (d : Fin 4) (r : DriveRec) : Prop :=
  let there := onlyDrive s d { r with positioning := none }
  (r.claim = none → m = there)
    ∧ ((∀ c, (s.ctxs.get c).state ≠ .waitPath) → s.drs.state ≠ .waitPath →
      (∀ c, r.claim = some (.ctx c) →
        (s.path.grant ≠ none →
          m = { there with ctxs := s.ctxs.set c { s.ctxs.get c with state := .waitPath } })
        ∧ (∀ n st a, s.path.grant = none → (s.ctxs.get c).track = some n → (s.ctxs.get c).step = some st →
            (s.track n).addr = some a →
          (unresolved (s.track n) → m = { there with
            path := { s.path with
              grant := some { holder := .ctx c, addr := a, strobe := st.step.strobe, blind := st.step.blind
                              opened := false }
              lastGranted := c
              passedOver := s.path.passedOver.set c 0 }
            ctxs := s.ctxs.set c { s.ctxs.get c with state := .reading, wanted := openSectors (s.track n) } })
          ∧ (¬ unresolved (s.track n) →
            m = { there with ctxs := s.ctxs.set c { s.ctxs.get c with state := .waitPath } })))
      ∧ (r.claim = some .drs →
        (s.path.grant ≠ none → m = { there with drs := { s.drs with state := .waitPath } })
        ∧ (∀ t, s.path.grant = none → s.drs.target = some t →
          m = { there with
            path := { s.path with
              grant := some { holder := .drs, addr := t.addr, strobe := .nominal, blind := false
                              opened := false } }
            drs := { s.drs with state := .reading } })))

/-- A granted revolution is open on a drive with this geometry (R30). -/
def openRevolution (s : State) (g : Grant) (geo : Geometry) : Prop :=
  s.path.grant = some g ∧ g.opened = true ∧ s.geometry.get g.addr.drive = some geo

/-- The header result of a header field that began in the slot's window (R5, R7, R8). -/
def headerIs (seed : Word16) (a : TrackAddr) (h : HeaderBytes) : HeaderResult :=
  if [h.cylHigh, h.cylLow, h.head, h.sector, h.flag, h.checkHigh, h.checkLow]
      ≠ withCheck seed [h.cylHigh, h.cylLow, h.head, h.sector, h.flag] then .headerCheck
  else if h.cylHigh.toNat * 256 + h.cylLow.toNat ≠ a.cyl ∨ h.head.toNat ≠ a.head then .wrongAddress
  else .addressed h.flag

/-- A sector is wanted by the holder of the read path (R12). -/
def wantedNow (s : State) (h : Holder) (k : Nat) : Prop :=
  match h with
  | .ctx c => k ∈ (s.ctxs.get c).wanted
  | .drs => ∃ t, s.drs.target = some t ∧ t.sector = k

/-- A header result that makes the attempt of a blind step blind (R10). -/
def blindHeader (x : HeaderResult) : Prop := x = .noHeader ∨ x = .headerCheck

/-- The slot's attempt looks for a data field: an addressed header, or a blind attempt (R9, R10). -/
def looks (g : Grant) (x : HeaderResult) : Prop := (∃ f, x = .addressed f) ∨ (g.blind = true ∧ blindHeader x)

/-- The outcome that a header result other than addressed gives (R9). -/
def headerOutcome : HeaderResult → AttemptOutcome
  | .noHeader => .noHeader
  | .headerCheck => .headerCheck
  | .wrongAddress => .wrongAddress
  | .addressed _ => .noSync

/-- The revolution in progress replaced, and nothing else. -/
def onlyRev (s : State) (v : Revolution) : State := { s with path := { s.path with rev := v } }

/-- The next slot's window opens (R4, R8). -/
def nextSlot (v : Revolution) : Revolution := { v with slot := v.slot + 1, header := .noHeader, data := none }

/-- A sector record whose word was found uncorrectable (R126). -/
def sectorHit (x : SectorRec) : SectorRec :=
  let fresh := { x with resolvedStep := none, blind := false, uncertain := none, guess := Guess.none }
  match x.status with
  | .clean => { fresh with status := .damaged }
  | .voted => { fresh with status := .damaged }
  | .written => { fresh with status := .lost }
  | .replaced => { fresh with status := .lost }
  | .failed => if x.guess = .damaged then x else { fresh with guess := .damaged }
  | .pending => x
  | .damaged => x
  | .marked => x
  | .lost => x

/-- The bytes of the candidates at some positions of a sector, as they lie in the context's eight frames of the
candidate region (R38, R84). -/
def bytesAt (s : State) (c : Fin 4) (sectorBytes k : Nat) (positions : List Nat) : List (List Byte) :=
  positions.map (fun p => readBytes s.store.mem
    ((s.usable + 32 + 8 * c.val + p) * 16384 + k * ((sectorBytes + 2 + 7) / 8 * 8)) (sectorBytes + 2))

/-- The positions a service has named and not yet read whose candidates are in the list still (R109). -/
def stillListed (s : State) (q : VoteRequest) (sv : VoteService) (left : List Nat) : List Nat :=
  left.filter (fun p => ((s.ctxs.get q.context).candidates.getD sv.sector []).contains p)

/-- A sector that a request works on: unresolved, with three candidates or more for an IN_LADDER request, of
the final set for a FINAL one (R108, R114). -/
def votable (s : State) (q : VoteRequest) (sv : VoteService) (k : Nat) : Prop :=
  k < (s.track q.track).sectors.length
    ∧ (((s.track q.track).sectors.getD k SectorRec.fresh).status = .pending
      ∨ ((s.track q.track).sectors.getD k SectorRec.fresh).status = .damaged)
    ∧ (q.kind = .inLadder → 3 ≤ ((s.ctxs.get q.context).candidates.getD k []).length)
    ∧ (q.kind = .final → k ∈ sv.finalSet)

/-- The Vote Unit's bursts that the store has yet to serve. -/
def voteBurstsLeft (x : StoreRec) : Nat := x.asks.count .vote + if x.burst = some .vote then 1 else 0

/-- The Vote Unit has turned to these positions of a sector, with these candidates read: the first is read when
the bursts asked so far have ended (R109, log entry 55). -/
def turnsTo (m : State) (sv : VoteService) (k : Nat) (left : List Nat) (got : List (List Byte)) : VoteService :=
  { sv with sector := k, left := left, got := got
            bursts := if left = [] then 0 else voteBurstsLeft m.store }

/-- A sector worked on has been resolved with this record and these frame bytes: REVISION is up by one, EXPORTED
cleared, and its candidates are gone (R48, R49, R97). -/
def sectorResolved (s m : State) (c : Fin 4) (n k : Nat) (y : SectorRec) (data : List Byte) : Prop :=
  let r := s.track n
  let base := n * 16384 + k * r.sectorBytes
  onlyTrack s m n { r with revision := r.revision + 1, exported := false, sectors := r.sectors.set k y }
    ∧ m.ctxs = s.ctxs.set c { s.ctxs.get c with
        candidates := (s.ctxs.get c).candidates.set k []
        wanted := (s.ctxs.get c).wanted.filter (· ≠ k) }
    ∧ readBytes m.store.mem base data.length = data
    ∧ (∀ i, i < base ∨ base + data.length ≤ i → readByte m.store.mem i = readByte s.store.mem i)

/-- What a vote from these candidates does to the sector worked on: an IN_LADDER request makes it VOTED when
three or more candidates give an image that verifies within the limit, and else leaves it (R113); a FINAL one
makes it VOTED, or FAILED with the voted image as its guess, or FAILED without one (R115). -/
def sectorVoted (s m : State) (q : VoteRequest) (sv : VoteService) (seed : Word16) (cs : List (List Byte)) :
    Prop :=
  let k := sv.sector
  let b := (s.track q.track).sectorBytes
  let x := (s.track q.track).sectors.getD k SectorRec.fresh
  let image := votedImage (b + 2) cs
  let verified := image = withCheck seed (image.take b)
  let flag := (q.flags.getD k none).or x.headerFlag
  let voted (step : Option Nat) : SectorRec :=
    { x with status := .voted, uncertain := some (uncertainCount (b + 2) cs), resolvedStep := step
             blind := false, guess := .none, headerFlag := flag }
  let resolved (y : SectorRec) (data : List Byte) := sectorResolved s m q.context q.track k y data
  let accepted := 3 ≤ cs.length ∧ verified ∧ uncertainCount (b + 2) cs ≤ sv.limit
  (q.kind = .inLadder → accepted → resolved (voted q.step) (image.take b))
    ∧ (q.kind = .inLadder → ¬ accepted → m.tracks = s.tracks ∧ m.ctxs = s.ctxs ∧ m.store.mem = s.store.mem)
    ∧ (q.kind = .final → cs ≠ [] → verified → resolved (voted none) (image.take b))
    ∧ (q.kind = .final → cs ≠ [] → ¬ verified → resolved
        { voted none with status := .failed, guess := .present } (image.take b))
    ∧ (q.kind = .final → cs = [] → resolved
        { voted none with status := .failed, uncertain := none } (List.replicate b 0))

/-- The drive record when a positioning to a cylinder and offset has begun: a recalibration from a place UNKNOWN,
a seek to another cylinder, or the settle of another offset (R24, R25). -/
def positioningBegun (r : DriveRec) (cyl : Nat) (offset : Offset) : DriveRec :=
  match r.cylAt with
  | none => { r with
      seekRetried := true
      positioning := some { cyl := cyl, offset := offset, stage := .recalibrating false } }
  | some at_ =>
    if at_ = cyl then
      { r with offsetAt := none, positioning := some { cyl := cyl, offset := offset, stage := .settling } }
    else { r with cylAt := none, positioning := some { cyl := cyl, offset := offset, stage := .seeking } }

/-- The read path is free, and no holder but perhaps one context waits for it. -/
def pathOpenFor (s : State) (c : Fin 4) : Prop :=
  s.path.grant = none ∧ s.drs.state ≠ .waitPath ∧ ∀ e, e ≠ c → (s.ctxs.get e).state ≠ .waitPath

/-- A context has prepared a revolution of its track under a step: with the heads in place it waits for the path
and, the path being free, is granted it; else the positioning of its drive has begun (R31, R86, R87). -/
def prepares (s m : State) (c : Fin 4) (n : Nat) (a : TrackAddr) (st : LadderStep) : Prop :=
  let r := s.drives.get a.drive
  let there := r.cylAt = some a.cyl ∧ r.offsetAt = some st.offset
  (there → m = { s with
      path := { s.path with
        grant := some { holder := .ctx c, addr := a, strobe := st.strobe, blind := st.blind, opened := false }
        lastGranted := c
        passedOver := s.path.passedOver.set c 0 }
      ctxs := s.ctxs.set c { s.ctxs.get c with state := .reading, wanted := openSectors (s.track n) } })
    ∧ (¬ there → m = { s with
      ctxs := s.ctxs.set c { s.ctxs.get c with state := .positioning }
      drives := s.drives.set a.drive (positioningBegun r a.cyl st.offset) })

/-- A context has been unbound from a track, whose record is now this one, and has given its drive up (R98). -/
def unboundAs (s m : State) (c : Fin 4) (n : Nat) (d : Fin 4) (r : TrackRec) : Prop :=
  onlyTrack s m n r ∧ m.ctxs = s.ctxs.set c CtxRec.free
    ∧ (m.drives.get d).claim = none ∧ (m.drives.get d).seekRetried = false
    ∧ (m.drives.get d).positioning = none ∧ (m.drives.get d).state = (s.drives.get d).state
    ∧ (∀ e, e ≠ d → m.drives.get e = s.drives.get e)
    ∧ m.vote.requests = s.vote.requests.filter (fun q => q.context ≠ c)
    ∧ m = { s with tracks := m.tracks, ctxs := m.ctxs, drives := m.drives, vote := m.vote, queue := m.queue
                   path := { s.path with passedOver := s.path.passedOver.set c 0 }
                   store := m.store, link := m.link }

/-- SETTLED attention is set when the workstation has named the track (R43). -/
def settledSeen (s m : State) (r : TrackRec) : Prop :=
  m.link = if r.origins.archive then
      { s.link with attention := { s.link.attention with settled := true } }
    else s.link

/-- A record that a claim of a unit has made its own and waits on: SYSTEM joins ORIGINS, WAITERS is up by one, and
a record in recovery, or PENDING, is of CLASS DEMAND (R40, R47, R67). -/
def demanded (r : TrackRec) : TrackRec :=
  let named : TrackRec := { r with origins := { r.origins with system := true }, waiters := r.waiters + 1 }
  match r.state with
  | .pending => { named with state := .queued, cls := some .demand }
  | .queued => { named with cls := some .demand }
  | .active => { named with cls := some .demand }
  | .settled => named
  | .broken => named
  | .free => named

/-- The queue once a track is demanded: a PENDING one joins the tail of the DEMAND group, and so does a QUEUED one
of a lower class, leaving its place (R66, R67). -/
def queueDemanded (q : RecoveryQueue) (r : TrackRec) (n : Nat) : RecoveryQueue :=
  if r.state = .pending then { q with demand := q.demand ++ [n] }
  else if r.state = .queued ∧ r.cls ≠ some .demand then
    { demand := q.demand.filter (· ≠ n) ++ [n], archive := q.archive.filter (· ≠ n)
      sweep := q.sweep.filter (· ≠ n) }
  else q

/-- A unit has begun a demand wait on a track, its timer started or running on (R47, R155). -/
def waitBegins (s m : State) (u : Fin 4) (n : Nat) (on : WaitOn) (r : TrackRec) : Prop :=
  m.units = s.units.set u { s.units.get u with
      state := .wait, waitOn := some on
      patience := some ((s.units.get u).patience.getD s.port.settings.patience) }
    ∧ onlyTrack s m n (demanded r) ∧ m.queue = queueDemanded s.queue r n
    ∧ m = { s with units := m.units, tracks := m.tracks, queue := m.queue, store := m.store }

/-- A unit holds a sector's bytes in its buffer, and the first burst of its share goes to system memory (R153). -/
def delivering (s m : State) (u : Fin 4) (bytes : List Byte) (guess : Bool) : Prop :=
  let r := s.units.get u
  let share := min r.residual bytes.length
  let n := min s.port.settings.burst ((share + 1) / 2)
  m.units = s.units.set u { r with
      state := .run, waitOn := none, patience := none, buffer := bytes, guess := guess
      transfer := some { kind := .deliver, key := s.port.settings.key.get u, addr := r.dataAt, left := share
                         out := bytes.take share, got := [] } }
    ∧ m.req = unitAsks s.req u { claimant := .unit u, direction := .store, addr := r.dataAt, count := n
                                 key := s.port.settings.key.get u
                                 words := busWords ((bytes.take share).take (2 * n)) }

/-- A record allocated for an address (R40, R41, R52). -/
def freshRecord (a : TrackAddr) (g : Geometry) (origins : Origins) : TrackRec :=
  { state := .pending, addr := some a, cls := none, origins := origins, nextStep := 0, stepRevs := 0
    totalRevs := 0, context := none, lock := none, waiters := 0, diverged := false, exported := false
    revision := 0, sectorBytes := g.sectorBytes
    sectors := List.replicate g.sectors
      { status := .pending, attempts := 0, checkFails := 0, syncMisses := 0, headerFaults := 0
        resolvedStep := none, blind := false, uncertain := none, guess := .none, headerFlag := none } }

/-- The sweep record after its cursor has moved on, with DONE after the last track (R75, R76, log entry 41). -/
def cursorMoved (w : SweepRec) (g : Geometry) : SweepRec :=
  if w.head + 1 < g.heads then { w with head := w.head + 1 }
  else if w.cyl + 1 < g.cylinders then { w with cyl := w.cyl + 1, head := 0 }
  else { w with state := .done }

/-- SWEEP attention is set (R76), or the link is as it was. -/
def sweepTold (s m : State) (told : Bool) : Prop :=
  m.link = if told then { s.link with attention := { s.link.attention with sweep := true } } else s.link

/-- A sector record with the report of one attempt counted (R88). -/
def attemptCounted (x : SectorRec) (p : Report) : SectorRec :=
  let one (b : Bool) : Nat := if b then 1 else 0
  let failed := p.outcome = .noHeader ∨ p.outcome = .headerCheck ∨ p.outcome = .wrongAddress
  { x with
    attempts := min 255 (x.attempts + 1)
    checkFails := if p.outcome = .checkFail then min 255 (x.checkFails + 1) else x.checkFails
    syncMisses := if p.outcome = .noSync then min 255 (x.syncMisses + 1) else x.syncMisses
    headerFaults := min 255 (x.headerFaults + (one failed + one p.blind)) }

/-- The report of a blind attempt: its data outcome, and the header result that made it blind (R10, R12). -/
def blindReport (k : Nat) (v : Revolution) : Report :=
  { sector := k, outcome := v.data.getD .noSync, blind := true
    headerResult := some (headerOutcome v.header), flag := none }

/-- The report of an attempt whose data field was taken whole (R9 to R12). -/
def takenReport (k : Nat) (x : HeaderResult) (outcome : AttemptOutcome) (blindStep : Bool) : Report :=
  match x with
  | .addressed f => { sector := k, outcome := outcome, blind := false, headerResult := none, flag := some f }
  | .wrongAddress =>
    { sector := k, outcome := .wrongAddress, blind := false, headerResult := none, flag := none }
  | .noHeader =>
    if blindStep then
      { sector := k, outcome := outcome, blind := true, headerResult := some .noHeader, flag := none }
    else { sector := k, outcome := .noHeader, blind := false, headerResult := none, flag := none }
  | .headerCheck =>
    if blindStep then
      { sector := k, outcome := outcome, blind := true, headerResult := some .headerCheck, flag := none }
    else { sector := k, outcome := .headerCheck, blind := false, headerResult := none, flag := none }

/-- The request for an IN_LADDER evaluation of a context's track (R92, R107). -/
def ladderRequest (s : State) (c : Fin 4) (n : Nat) : VoteRequest :=
  { context := c, track := n, kind := .inLadder, step := (s.ctxs.get c).step.map (·.index)
    flags := (s.ctxs.get c).lastFlags }

/-- A sector record with one more attempt, and one more header fault (R88). -/
def headerFaultCounted (x : SectorRec) : SectorRec :=
  { x with attempts := min 255 (x.attempts + 1), headerFaults := min 255 (x.headerFaults + 1) }

/-- A context with a candidate of a sector gone from its list (R127). -/
def candidateLost (x : CtxRec) (p k : Nat) : CtxRec :=
  { x with candidates := x.candidates.set k ((x.candidates.getD k []).filter (· ≠ p)) }

/-- Nobody works on the record of the table region that a word belongs to: a track record lies PENDING or
SETTLED without a lock and no unit waits, a drive's record has no context and no waiting unit. The record of a
track whose sector is hit has no bit error of its own, since the change of it reads it (R120). -/
def ownerQuiet (s : State) : WordOwner → Prop
  | .trackSector n _ => ∀ w, s.wordOwner w = .trackRecord n → assocFind w s.store.flips = none
  | .trackRecord n => ((s.track n).state = .pending ∨ (s.track n).state = .settled) ∧ (s.track n).lock = none
      ∧ ∀ u, (s.units.get u).waitOn = none
  | .geometry d => (∀ c n, (s.ctxs.get c).track = some n → ((s.track n).addr.map (·.drive)) ≠ some d)
      ∧ (s.units.get d).waitOn = none
  | _ => True

/-- The region of a frame (R119). -/
def regionAt (s : State) (frame : Nat) : Region :=
  if frame < s.usable then .frame else if frame < s.usable + 32 then .table else .candidate

/-- FOUND_BY for the claimant whose burst read a word (R131, log entry 24). -/
def finderOf : StoreClaimant → FoundBy
  | .capture => .recovery
  | .ctx _ => .recovery
  | .unit _ => .unit
  | .link => .link
  | .vote => .vote
  | .table => .table
  | .scrub => .scrub

/-- An uncorrectable word has been counted, recorded and announced, and rewritten with zero data where its
region holds data, at the end of the burst that read it; a record of the table region that it belonged to is
rewritten whole, and every other bit error is as it was (R122). -/
def wordLost (s m : State) (cl : StoreClaimant) (w : Nat) : Prop :=
  let region := regionAt s (w / 2048)
  onlyAsks { s.store with
      burst := none, refreshDue := false, uncorrected := min 65535 (s.store.uncorrected + 1)
      lastUncorrected := some
        { region := region, frame := w / 2048, offset := w % 2048 * 8, owner := s.wordOwner w
          foundBy := finderOf cl }
      flips := m.store.flips, mem := m.store.mem } m.store
    ∧ (∀ v, assocFind v m.store.flips =
        if v = w ∨ (region = .table ∧ s.wordOwner w ≠ .nobody ∧ s.wordOwner v = s.wordOwner w) then none
        else assocFind v s.store.flips)
    ∧ m.link = { s.link with attention := { s.link.attention with store := true } }
    ∧ m.port = { s.port with storeError := true }
    ∧ (region = .table → m.store.mem = s.store.mem)
    ∧ (region ≠ .table → readBytes m.store.mem (w * 8) 8 = List.replicate 8 0)
    ∧ (∀ a, a < w * 8 ∨ w * 8 + 8 ≤ a → readByte m.store.mem a = readByte s.store.mem a)

/-- The owner of an uncorrectable word has taken its effect, and nothing else of the record's keepers has
changed (R126 to R129); DIVERGED of a record that becomes BROKEN is kept when the word that holds it can be
read (R53, log entry 7). -/
def ownerHit (s m : State) (o : WordOwner) : Prop :=
  (∀ n k, o = .trackSector n k → k < (s.track n).sectors.length →
      let r := s.track n
      let x := r.sectors.getD k SectorRec.fresh
      let hit := { r with sectors := r.sectors.set k (sectorHit x), exported := false
                          revision := r.revision + 1 }
      let read := x.status = .clean ∨ x.status = .voted
      (x.status = .pending ∨ x.status = .damaged ∨ x.status = .marked ∨ x.status = .lost
          ∨ (x.status = .failed ∧ x.guess = .damaged) →
          m.tracks = s.tracks ∧ m.queue = s.queue)
      ∧ (x.status = .written ∨ x.status = .replaced ∨ (x.status = .failed ∧ x.guess ≠ .damaged)
            ∨ (read ∧ r.state ≠ .settled) →
          onlyTrack s m n hit ∧ m.queue = s.queue)
      ∧ (read → r.state = .settled →
          onlyTrack s m n { hit with state := .queued, cls := some .archive, nextStep := 0, stepRevs := 0 }
            ∧ m.queue = { s.queue with archive := s.queue.archive ++ [n] }))
    ∧ (∀ n, o = .trackRecord n →
        onlyTrack s m n (TrackRec.broken ((s.track n).diverged
            && assocFind (s.divergedAt n) s.store.flips ≠ some .uncorrectable))
          ∧ m.queue = s.queue)
    ∧ (∀ c p k, o = .candidate c p k → m.ctxs = s.ctxs.set c (candidateLost (s.ctxs.get c) p k))
    ∧ (∀ d, o = .geometry d → m.geometry = s.geometry.set d none)
    ∧ (∀ d, o = .sweepRecord d → m.sweeps = s.sweeps.set d { state := .off, cyl := 0, head := 0, depth := 2 })
    ∧ ((∀ n k, o ≠ .trackSector n k) → (∀ n, o ≠ .trackRecord n) → m.tracks = s.tracks ∧ m.queue = s.queue)
    ∧ ((∀ c p k, o ≠ .candidate c p k) → m.ctxs = s.ctxs)
    ∧ ((∀ d, o ≠ .geometry d) → m.geometry = s.geometry)
    ∧ ((∀ d, o ≠ .sweepRecord d) → m.sweeps = s.sweeps)
    ∧ m = { s with tracks := m.tracks, queue := m.queue, ctxs := m.ctxs, geometry := m.geometry
                   sweeps := m.sweeps, store := m.store, link := m.link, port := m.port }

/-- A claimant's place in the order of R125, the lowest first: capture writes, the units in turn after the one
last served, the link, the contexts and then the Vote Unit's turn after the one last served, the scrubber. -/
def storePlace (x : StoreRec) : StoreClaimant → Nat
  | .capture => 0
  | .unit u => 10 + (u.val + 3 - x.lastUnit.val) % 4
  | .link => 20
  | .ctx c => 30 + (c.val + 4 - x.lastRecovery.val) % 5
  | .vote => 30 + (8 - x.lastRecovery.val) % 5
  | .table => 30 + (8 - x.lastRecovery.val) % 5
  | .scrub => 40

end Sys2Proof.Stated

section Core

open Sys2Proof Sys2Proof.Machine Sys2Proof.Stated

/-! ## The queue of commands -/

/-- One step takes the command at the front of the queue and runs it on the state with the queue's rest; with
no command waiting the block idles, which is the model's choice (log entry 2). -/
def Obligations.StepRunsFrontCommand : Prop :=
  (∀ (c : Instr) (rest : List Instr) (s : State),
    step { s with pending := c :: rest } = exec c { s with pending := rest })
  ∧ ∀ s : State, s.pending = [] → step s = .next s

/-- Every command completes in every state, one that its block does not await without effect (log entry 1). It
leaves the queue of commands as it was, the fitted positions too but for POWER_ON, the drives' ready lines too but
for READY_LINE_FALL and READY_LINE_RISE, and the fault levels held but for FAULT_LINE_RISE and DRIVE_ANSWER; that
POWER_ON leaves both is log entry 13. -/
def Obligations.EveryCommandCompletes : Prop :=
  ∀ (c : Instr) (s : State), ∃ t, exec c s = .next t ∧ t.pending = s.pending
    ∧ ((∀ straps, c ≠ .powerOn straps) → ∀ d, (t.drives.get d).fitted = (s.drives.get d).fitted)
    ∧ ((∀ d, c ≠ .readyLineFall d) → (∀ d, c ≠ .readyLineRise d) →
        ∀ d, (t.drives.get d).readyLine = (s.drives.get d).readyLine)
    ∧ ((∀ d, c ≠ .faultLineRise d) → (∀ d, c ≠ .driveAnswer d) →
        ∀ d, (t.drives.get d).faultHeld = (s.drives.get d).faultHeld)

/-! ## Reset and power-on -/

/-- The machine right after reset holds the power-on values of every block, with the straps of log entry 3, and
the invariant that every step keeps holds there. -/
def Obligations.ResetIsPoweredOn : Prop :=
  recoveryPoweredOn { storeSize := .mib8, profile := 0, drives := 1, ioBase := 0 } State.reset
    ∧ portsPoweredOn State.reset ∧ State.reset.pending = [] ∧ State.reset.Sound

/-- The store and the track table stay in canonical form, and every record of settings stays in the
range its rule gives it, at every step. -/
def Obligations.StepKeepsSound : Prop :=
  ∀ s t : State, s.Sound → step s = .next t → t.Sound

/-- POWER_ON samples the straps and gives every block its power-on values; the levels of the input pins
are what drives them (log entries 13 and 34). -/
def Obligations.PowerOnResetsEveryBlock : Prop :=
  ∀ (straps : Straps) (s : State), ∃ t, exec (.powerOn straps) s = .next t
    ∧ recoveryPoweredOn straps t ∧ portsPoweredOn t
    ∧ (∀ d, (t.drives.get d).readyLine = (s.drives.get d).readyLine
        ∧ (t.drives.get d).faultHeld = (s.drives.get d).faultHeld)
    ∧ t.port.clearLine = s.port.clearLine ∧ t.link.rstLine = s.link.rstLine

/-! ## Controller states -/

/-- The controller STATE changes only as R173 to R176 say, STRAPS at POWER_ON only, STORE_CHECK and
SIZE_IN_USE at POWER_ON and at the end of the store check only, and a change to READY, HOLD or
STORE_FAILED sets STATE_CHANGE. A request that comes as its bytes makes the same changes (log entry 31). -/
def Obligations.ControllerMovesAsRuled : Prop :=
  ∀ (c : Instr) (s t : State), exec c s = .next t →
    (t.ctl.state = s.ctl.state ∨ controllerMove c s.ctl.state t.ctl.state)
    ∧ ((∀ x, c ≠ .powerOn x) → t.ctl.straps = s.ctl.straps)
    ∧ ((∀ x, c ≠ .powerOn x) → (∀ x y, c ≠ .storeCheckEnd x y) →
        t.ctl.storeCheck = s.ctl.storeCheck ∧ t.ctl.sizeInUse = s.ctl.sizeInUse)
    ∧ (t.ctl.state ≠ s.ctl.state → (t.ctl.state = .ready ∨ t.ctl.state = .hold ∨ t.ctl.state = .storeFailed) →
        t.port.stateChange = true)

/-- STORE_CHECK_END at the store check's end gives the outcome that R173 states for what failed, and
FORMAT follows, or STORE_FAILED with STATE_CHANGE; at any other time it changes nothing, which is the model's
choice (log entries 1 and 10). -/
def Obligations.StoreCheckOutcome : Prop :=
  ∀ (lower upper : Bool) (s : State),
    (s.ctl.state = .starting → s.ctl.phase = some .storeCheck →
      (lower = false → upper = false →
        exec (.storeCheckEnd lower upper) s = .next ({ s with
          store := { s.store with flips := [] }
          ctl := { s.ctl with state := .starting, phase := some .format, storeCheck := .passed,
                              sizeInUse := (match s.ctl.straps.storeSize with
                                | .mib8 => 8
                                | .mib16 => 16
                                | .mib32 => 32) } } : State).finish)
      ∧ (lower = false → upper = true → s.ctl.straps.storeSize ≠ .mib8 →
        exec (.storeCheckEnd lower upper) s = .next ({ s with
          store := { s.store with flips := [] }
          ctl := { s.ctl with state := .starting, phase := some .format, storeCheck := .upperFailed,
                              sizeInUse := if s.ctl.straps.storeSize = .mib16 then 8 else 16 } } : State).finish)
      ∧ (lower = true ∨ (upper = true ∧ s.ctl.straps.storeSize = .mib8) →
        exec (.storeCheckEnd lower upper) s = .next ({ s with
          store := { s.store with flips := [] }
          port := { s.port with stateChange := true }
          ctl := { s.ctl with state := .storeFailed, phase := none, storeCheck := .lowerFailed,
                              sizeInUse := 0 } } : State).finish))
    ∧ (¬ (s.ctl.state = .starting ∧ s.ctl.phase = some .storeCheck) →
        exec (.storeCheckEnd lower upper) s = .next s)

/-- FORMAT_END frees every track record, forms the free list ascending, gives each fitted position the
strapped profile, makes every sweep record OFF, and starts the discovery of every fitted position that
is not FAULTED or WITHDRAWN (a start-up has none such in this phase). -/
def Obligations.FormatAndDiscoveryBegin : Prop :=
  ∀ s : State, s.ctl.state = .starting → s.ctl.phase = some .format →
    (∀ d, (s.drives.get d).fitted = true →
      (s.drives.get d).state ≠ DriveState.faulted ∧ (s.drives.get d).state ≠ DriveState.withdrawn) →
    ∃ m : State, exec .formatEnd s = .next m.finish
      ∧ m.ctl = { s.ctl with phase := some .discovery }
      ∧ m.tracks = [] ∧ m.freeList = List.range (s.ctl.sizeInUse * 64 - 64)
      ∧ (∀ d, m.geometry.get d
          = if (s.drives.get d).fitted then profileGeometry s.ctl.straps.profile else none)
      ∧ (∀ d, m.sweeps.get d = { state := .off, cyl := 0, head := 0, depth := 2 })
      ∧ (∀ d, m.drives.get d = if (s.drives.get d).fitted then
            { s.drives.get d with discovery := some { skipRecalibration := false, stage := .awaitAnswer } }
          else s.drives.get d)
      ∧ m.store.mem = s.store.mem ∧ (∀ e, e ∈ m.store.flips ↔
            e ∈ s.store.flips ∧ s.wordOwner e.1 = .nobody)
      ∧ m = { s with ctl := m.ctl, tracks := m.tracks, freeList := m.freeList, geometry := m.geometry,
                     sweeps := m.sweeps, drives := m.drives, store := { s.store with flips := m.store.flips } }

/-- The DISCOVERY phase ends once no fitted drive is discovering: READY, PHASE absent, STARTED and
STATE_CHANGE set, STALLED sweeps RUNNING; while one is, DISCOVERY_PHASE_END changes nothing (log entry 10).
RESUMING ends in READY in the same way for the fitted drives that are not WITHDRAWN, without STARTED. The
changes are said with no bit error in the store. -/
def Obligations.StartUpEndsInReady : Prop :=
  ∀ s : State,
    (s.ctl.state = .starting → s.ctl.phase = some .discovery → s.store.flips = [] →
      (∀ d, (s.drives.get d).fitted = true → (s.drives.get d).discovery = none) →
      ∃ m : State, exec .discoveryPhaseEnd s = .next m.finish ∧ onlyAsks s.store m.store
        ∧ m = { s with
          ctl := { s.ctl with state := .ready, phase := none }
          port := { s.port with stateChange := true }
          link := { s.link with attention := { s.link.attention with started := true } }
          sweeps := s.sweeps.map sweepResumed
          store := m.store })
    ∧ ((∃ d, (s.drives.get d).fitted = true ∧ (s.drives.get d).discovery ≠ none)
        ∨ ¬ (s.ctl.state = .starting ∧ s.ctl.phase = some .discovery) →
      exec .discoveryPhaseEnd s = .next s)
    ∧ (s.ctl.state = .resuming → s.store.flips = [] →
      (∀ d, (s.drives.get d).fitted = true → (s.drives.get d).state ≠ DriveState.withdrawn →
        (s.drives.get d).discovery = none) →
      ∃ m : State, exec .resumingEnd s = .next m.finish ∧ onlyAsks s.store m.store
        ∧ m = { s with
          ctl := { s.ctl with state := .ready, phase := none }
          port := { s.port with stateChange := true }
          sweeps := s.sweeps.map sweepResumed
          store := m.store })
    ∧ ((∃ d, (s.drives.get d).fitted = true ∧ (s.drives.get d).state ≠ DriveState.withdrawn
        ∧ (s.drives.get d).discovery ≠ none) ∨ s.ctl.state ≠ .resuming →
      exec .resumingEnd s = .next s)

/-- A drain that finds every context FREE enters HOLD with STATE_CHANGE, and the store then enters
self-refresh with its timer stopped unless it is asked for; else HOLD_ENTRY changes nothing, which is the
model's choice (log entries 1 and 10), as it is that STATE is HOLD at once while a store burst runs (log
entry 60). -/
def Obligations.HoldEntered : Prop :=
  ∀ s : State,
    (s.ctl.state = .draining → (∀ c, (s.ctxs.get c).state = .free) →
      exec .holdEntry s = .next ({ s with
        ctl := { s.ctl with state := .hold }
        port := { s.port with stateChange := true } } : State).finish
      ∧ (nothingAsked s → s.store.burst = none → s.store.asks = [] →
          ∃ t, exec .holdEntry s = .next t ∧ t.ctl.state = .hold ∧ t.store.selfRefresh = true
            ∧ t.store.timerRunning = false))
    ∧ (s.ctl.state ≠ .draining ∨ (∃ c, (s.ctxs.get c).state ≠ .free) →
      exec .holdEntry s = .next s)

end Core

section ControllerRequests

open Sys2Proof Sys2Proof.Machine Sys2Proof.Stated

/-- HOLD_ENTER in READY is refused with UNITS_BUSY while a unit is neither IDLE nor PENDING or the Direct
Read Slot is not FREE; otherwise it is ACCEPTED and the controller is DRAINING, with no drive's STATE,
ladder, limit or setting changed, and nothing at all when no context is to be unbound at once. -/
def Obligations.HoldEnterDrains : Prop :=
  ∀ (tag : Byte) (s : State), linkReady s →
    ((∃ u, (s.units.get u).state ≠ .idle ∧ (s.units.get u).state ≠ .pending) ∨ s.drs.state ≠ .free →
      ∃ m : State, exec (.holdEnter tag []) s = .next m.finish
        ∧ answered s m 0x17 tag .unitsBusy [] ∧ requestFrame s m ∧ m = { s with link := m.link })
    ∧ ((∀ u, (s.units.get u).state = .idle ∨ (s.units.get u).state = .pending) → s.drs.state = .free →
      ∃ m : State, exec (.holdEnter tag []) s = .next m.finish
        ∧ answered s m 0x17 tag .accepted [] ∧ m.ctl = { s.ctl with state := .draining }
        ∧ (∀ d, (m.drives.get d).state = (s.drives.get d).state)
        ∧ m.ladder = s.ladder ∧ m.limits = s.limits ∧ m.port.settings = s.port.settings
        ∧ ((∀ c, (s.ctxs.get c).state ≠ .positioning ∧ (s.ctxs.get c).state ≠ .waitPath
              ∧ (s.ctxs.get c).state ≠ .faultHold) →
            m = { s with ctl := { s.ctl with state := .draining }, link := m.link }))

/-- A context that is unbound to the queue (R69), holding its drive with no direct read waiting for it and no
holder waiting for the path, becomes FREE and gives its drive up; its track is QUEUED at the head of its
class's group, ahead of every entry that stood there, with CONTEXT absent and all else kept. -/
def Obligations.UnboundTrackLeadsItsClass : Prop :=
  ∀ (c : Fin 4) (n : Nat) (a : TrackAddr) (cls : TrackClass) (s : State),
    (s.ctxs.get c).track = some n → (s.track n).cls = some cls → (s.track n).state = .active →
    (s.track n).addr = some a → (s.drives.get a.drive).claim = some (.ctx c) →
    (s.drives.get a.drive).drsWaiting = false →
    s.path.grant = none → s.drs.state ≠ .waitPath → (∀ e, e ≠ c → (s.ctxs.get e).state ≠ .waitPath) →
    (s.returnTrack c).ctxs.get c = CtxRec.free
      ∧ (∀ e, e ≠ c → (s.returnTrack c).ctxs.get e = s.ctxs.get e)
      ∧ (s.returnTrack c).track n = { s.track n with state := .queued, context := none }
      ∧ (∀ k, k ≠ n → (s.returnTrack c).track k = s.track k)
      ∧ (s.returnTrack c).queue = (match cls with
          | .demand => { s.queue with demand := n :: s.queue.demand }
          | .archive => { s.queue with archive := n :: s.queue.archive }
          | .sweep => { s.queue with sweep := n :: s.queue.sweep })
      ∧ ((s.returnTrack c).drives.get a.drive).claim = none
      ∧ ((s.returnTrack c).drives.get a.drive).seekRetried = false
      ∧ ((s.returnTrack c).drives.get a.drive).positioning = none
      ∧ ((s.returnTrack c).drives.get a.drive).state = (s.drives.get a.drive).state
      ∧ (∀ d, d ≠ a.drive → (s.returnTrack c).drives.get d = s.drives.get d)
      ∧ (s.returnTrack c).store = s.store ∧ (s.returnTrack c).locks = s.locks
      ∧ (s.returnTrack c).units = s.units

/-- HOLD_EXIT acts by the controller STATE: DRAINING becomes READY and HOLD becomes RESUMING, with
discovery on every fitted drive that is not WITHDRAWN, the store leaving self-refresh (said of the states
with no FAULTED drive to report); in the other states it changes nothing. The end of DRAINING is said with no
bit error in the store. -/
def Obligations.HoldExitByState : Prop :=
  ∀ (tag : Byte) (s : State), s.link.rstLine = false →
    (s.ctl.state = .draining → s.store.flips = [] → ∃ m : State, exec (.holdExit tag []) s = .next m.finish
      ∧ answered s m 0x18 tag .ok [] ∧ requestFrame s m
      ∧ m = { s with ctl := { s.ctl with state := .ready, phase := none }
                     port := { s.port with stateChange := true }
                     sweeps := s.sweeps.map sweepResumed, link := m.link, store := m.store })
    ∧ (s.ctl.state = .hold → ∃ m : State, exec (.holdExit tag []) s = .next m.finish
      ∧ answered s m 0x18 tag .accepted [] ∧ m.ctl = { s.ctl with state := .resuming }
      ∧ (∀ d, (s.drives.get d).fitted = true → (s.drives.get d).state ≠ DriveState.withdrawn →
          (m.drives.get d).discovery = some { skipRecalibration := false, stage := .awaitAnswer })
      ∧ (∀ d, (s.drives.get d).fitted = false ∨ (s.drives.get d).state = DriveState.withdrawn →
          (m.drives.get d).discovery = (s.drives.get d).discovery
            ∧ (m.drives.get d).state = (s.drives.get d).state)
      ∧ m.ladder = s.ladder ∧ m.limits = s.limits ∧ m.port.settings = s.port.settings
      ∧ ((∀ d, (s.drives.get d).state ≠ DriveState.faulted) →
          m = { s with ctl := { s.ctl with state := .resuming }, drives := m.drives, link := m.link
                       store := { s.store with selfRefresh := false, timerRunning := true } }))
    ∧ (s.ctl.state = .starting ∨ s.ctl.state = .resuming ∨ s.ctl.state = .ready →
      ∃ m : State, exec (.holdExit tag []) s = .next m.finish
        ∧ answered s m 0x18 tag .ok [] ∧ requestFrame s m ∧ m = { s with link := m.link })

/-- RESET_CONTROLLER in the STORE_CHECK and FORMAT phases is answered STARTING and changes nothing; else
it is ACCEPTED and, in one step, gives the units, the Direct Read Slot, the contexts, the Vote Unit, the
Path Arbiter, the System Port, the lock table, the ladder, the limits and the attention set the values of
R174; the track of a bound context is QUEUED again, and every track keeps its sectors. That a drive keeps its
STATE until its discovery starts is log entry 21, and that a track that was not bound keeps WAITERS and LOCK
until the rescan is log entry 38, both the model's reading. Said with no bit error in the store. -/
def Obligations.ResetControllerRestartsFromRescan : Prop :=
  ∀ (tag : Byte) (s : State), s.Sound → s.store.flips = [] → s.link.rstLine = false →
    s.ctl.state ≠ .storeFailed →
    (s.ctl.phase = some .storeCheck ∨ s.ctl.phase = some .format →
      ∃ m : State, exec (.resetController tag []) s = .next m.finish
        ∧ answered s m 0x19 tag .starting [] ∧ requestFrame s m ∧ m = { s with link := m.link })
    ∧ (s.ctl.phase ≠ some .storeCheck → s.ctl.phase ≠ some .format →
      ∃ m : State, exec (.resetController tag []) s = .next m.chooseBurst.grantStore
        ∧ answered s m 0x19 tag .accepted []
        ∧ m.ctl = { s.ctl with state := .starting, phase := some .rescan }
        ∧ (∀ d, (m.drives.get d).state = (s.drives.get d).state ∧ (m.drives.get d).faultKind = none
            ∧ (m.drives.get d).readyLine = (s.drives.get d).readyLine
            ∧ (m.drives.get d).faultHeld = (s.drives.get d).faultHeld
            ∧ (m.drives.get d).observedSectors = (s.drives.get d).observedSectors
            ∧ (m.drives.get d).discovery = none ∧ (m.drives.get d).positioning = none
            ∧ (m.drives.get d).claim = none ∧ (m.drives.get d).displacedContext = none
            ∧ (m.drives.get d).drsWaiting = false ∧ (m.drives.get d).seekRetried = false)
        ∧ (∀ d, m.sweeps.get d = { s.sweeps.get d with depth := 2 })
        ∧ (∀ e, m.locks.get e = none)
        ∧ m.ladder.map (fun st => (st.strobe, st.offset, st.revs, st.blind))
            = [(.nominal, .centre, 2, false), (.early, .centre, 2, false), (.late, .centre, 2, false),
               (.nominal, .inward, 3, false), (.nominal, .outward, 3, false), (.early, .inward, 2, false),
               (.late, .outward, 2, false), (.nominal, .centre, 4, true)]
        ∧ (∀ c, m.ctxs.get c = CtxRec.free)
        ∧ m.path.grant = none ∧ m.path.lastGranted = 3 ∧ (∀ c, m.path.passedOver.get c = 0)
        ∧ m.vote.requests = [] ∧ m.vote.serving = none
        ∧ m.limits = { uncertainty := 4, starvation := 4 } ∧ m.store.scrubPeriod = 20
        ∧ m.store.selfRefresh = false ∧ m.store.timerRunning = true
        ∧ m.store.mem = s.store.mem ∧ m.store.flips = s.store.flips ∧ m.geometry = s.geometry
        ∧ m.port.address = 0 ∧ m.port.answer = .nothing ∧ m.port.setupFetch = none
        ∧ m.port.storeError = false ∧ m.port.setupFailed = false ∧ m.port.stateChange = false
        ∧ m.port.statusLost = false
        ∧ m.port.settings = { statusBase := 0x200, key := Four.all 0, unitRoute := Four.all (some 1),
                              controllerRoute := some 1, patience := 3000, burst := 4 }
        ∧ m.req.lastServed = .setup ∧ m.req.setupWaiting = none ∧ (∀ u, m.req.unitWaiting.get u = none)
        ∧ (m.req.state = if s.req.state = .inCycle ∨ s.req.state = .finishing then .finishing else .free)
        ∧ (∀ u, m.units.get u = UnitRec.reset)
        ∧ m.drs.state = .free ∧ m.drs.serving = none ∧ m.drs.waitingUnits = []
        ∧ m.link.attention = Attention.empty
        ∧ (∀ n, (m.track n).sectors = (s.track n).sectors ∧ (m.track n).addr = (s.track n).addr
            ∧ (m.track n).nextStep = (s.track n).nextStep ∧ (m.track n).stepRevs = (s.track n).stepRevs
            ∧ (m.track n).revision = (s.track n).revision)
        ∧ (∀ c n cls, (s.ctxs.get c).track = some n → (s.track n).cls = some cls →
            (m.track n).state = .queued ∧ (m.track n).cls = some cls ∧ (m.track n).context = none
              ∧ n ∈ m.queue.order)
        ∧ (∀ n, (∀ c, (s.ctxs.get c).track ≠ some n) → m.track n = s.track n))

/-- The rescan after RESET_CONTROLLER, with no bit error in the store, no address held twice, no unit or
context holding a track: a record whose check fails becomes BROKEN, every other one that is not FREE
keeps its sectors and loses its waiters, lock and context, CLASS DEMAND becoming ARCHIVE; the queue holds
the QUEUED ARCHIVE records and then the SWEEP records, each in ascending slot order, the free list the
FREE records in ascending order, and the DISCOVERY phase begins. -/
def Obligations.RescanPutsTracksInOrder : Prop :=
  ∀ (failed : List Nat) (s : State), s.ctl.state = .starting → s.ctl.phase = some .rescan →
    s.store.flips = [] → (∀ c, s.ctxs.get c = CtxRec.free) → (∀ u, s.units.get u = UnitRec.reset) →
    s.Sound → (∀ n, s.usable ≤ n → (s.track n).state = .free) →
    (∀ n k a, n ≠ k → (s.track n).holds a = true → (s.track k).holds a = false) →
    (∀ d, (s.drives.get d).state ≠ DriveState.faulted) →
    ∃ m : State, exec (.rescanEnd failed) s = .next m.finish
      ∧ m.ctl = { s.ctl with phase := some .discovery }
      ∧ (∀ n, n < s.usable → n ∈ failed → (s.track n).state ≠ .broken →
          m.track n = { TrackRec.free with state := .broken, diverged := (s.track n).diverged })
      ∧ (∀ n, n < s.usable → (s.track n).state = .broken → m.track n = s.track n)
      ∧ (∀ n, n < s.usable → n ∉ failed → (s.track n).state ≠ .broken → (s.track n).state ≠ .free →
          m.track n = { s.track n with
            cls := (if (s.track n).cls = some .demand then some .archive else (s.track n).cls)
            waiters := 0, lock := none, context := none })
      ∧ (∀ n, n < s.usable → n ∉ failed → (s.track n).state = .free → m.track n = s.track n)
      ∧ m.queue.demand = []
      ∧ m.queue.archive.Pairwise (· < ·) ∧ m.queue.sweep.Pairwise (· < ·)
      ∧ (∀ n, n ∈ m.queue.archive ↔ (m.track n).state = .queued ∧ (m.track n).cls = some .archive)
      ∧ (∀ n, n ∈ m.queue.sweep ↔ (m.track n).state = .queued ∧ (m.track n).cls = some .sweep)
      ∧ m.freeList.Pairwise (· < ·) ∧ (∀ n, n ∈ m.freeList ↔ n < s.usable ∧ (m.track n).state = .free)
      ∧ (∀ d, m.drives.get d
          = if (s.drives.get d).fitted ∧ (s.drives.get d).state ≠ DriveState.withdrawn then
              { s.drives.get d with discovery := some { skipRecalibration := false, stage := .awaitAnswer } }
            else s.drives.get d)
      ∧ m.geometry = s.geometry ∧ m.sweeps = s.sweeps ∧ m.units = s.units ∧ m.ctxs = s.ctxs
      ∧ m.store.mem = s.store.mem

end ControllerRequests

section SystemPort

open Sys2Proof Sys2Proof.Machine Sys2Proof.Stated

/-- ADDRESS_HI sets bits 23-16 of ADDRESS from the low byte of the word written and ADDRESS_LO sets bits
15-0; each leaves the other bits and all else unchanged. Writes of the other words but COMMAND change
nothing, and nor does any COMMAND write while the system clear line is asserted. PROBE answers UNAVAILABLE,
STATUS_PENDING, BUSY or ACCEPTED by the first of the tests of R135 that applies, and does nothing else; a START
that those tests, or an odd ADDRESS, turn away does the same; an undefined command code is answered ILLEGAL. The
answers of PROBE and START are said with no bit error in the store: that their first test reads the drive's
geometry record, in a burst of the unit, is log entry 24. -/
def Obligations.WindowWritesByWord : Prop :=
  (∀ (value : Word16) (s : State),
    (∃ t, exec (.addressHi value) s = .next t ∧ t = { s with port := { s.port with address := t.port.address } }
      ∧ t.port.address.toNat = value.toNat % 256 * 65536 + s.port.address.toNat % 65536)
    ∧ (∃ t, exec (.addressLo value) s = .next t ∧ t = { s with port := { s.port with address := t.port.address } }
      ∧ t.port.address.toNat = s.port.address.toNat / 65536 * 65536 + value.toNat)
    ∧ (∀ word, exec (.registerWriteIgnored word value) s = .next s)
    ∧ (s.port.clearLine = true →
        (∀ u, exec (.start u) s = .next s ∧ exec (.probe u) s = .next s ∧ exec (.halt u) s = .next s
          ∧ exec (.acknowledge u) s = .next s)
        ∧ exec .ackController s = .next s ∧ exec .setup s = .next s
        ∧ exec (.illegalCommand value) s = .next s))
  ∧ (∀ (u : Fin 4) (s : State), s.port.clearLine = false →
    (s.store.flips = [] → ∃ x : StoreRec, onlyAsks s.store x
      ∧ exec (.probe u) s = .next ({ s with
          store := x, port := { s.port with answer := workAnswer s u } } : State).finish
      ∧ (workAnswer s u ≠ .accepted → exec (.start u) s = .next ({ s with
          store := x, port := { s.port with answer := workAnswer s u } } : State).finish)
      ∧ (workAnswer s u = .accepted → s.port.address.toNat % 2 = 1 → exec (.start u) s = .next ({ s with
          store := x, port := { s.port with answer := .illegal } } : State).finish)
      ∧ (s.ctl.state ≠ .ready → x = s.store))
    ∧ (∀ value : Word16, value.toNat % 16 = 0 ∨ 6 < value.toNat % 16 →
        exec (.illegalCommand value) s = .next { s with port := { s.port with answer := .illegal } }))

/-- An accepted START puts the unit in FETCH at ADDRESS with its counts at zero, and asks for the first
burst of the 12-byte order block with the unit's KEY; no other unit changes. An order block that would pass
0xFFFFFF ends the list CHECK with ADDRESS_INVALID. Said with no bit error in the store; that the unit reads its
drive's geometry record for the first test is log entry 24. -/
def Obligations.StartFetchesFirstOrder : Prop :=
  ∀ (u : Fin 4) (s : State), s.port.clearLine = false → workAnswer s u = .accepted →
    s.port.address.toNat % 2 = 0 → s.store.flips = [] →
    let n := min s.port.settings.burst 6
    (s.port.address.toNat + 2 * n ≤ 0x1000000 → ∃ x : StoreRec, onlyAsks s.store x ∧
      exec (.start u) s = .next ({ s with
        store := x
        port := { s.port with answer := .accepted }
        units := s.units.set u { s.units.get u with
          state := .fetch, orderAddress := s.port.address.toNat, order := none, ordersDone := 0,
          residual := 0, guessed := 0, conditions := [], haltTold := false, position := ⟨0, 0, 0⟩,
          prefetched := .absent,
          transfer := some { kind := .orderFetch, key := s.port.settings.key.get u,
                             addr := s.port.address.toNat, left := 12, out := [], got := [] } }
        req := unitAsks s.req u
          { claimant := .unit u, direction := .load, addr := s.port.address.toNat, count := n,
            key := s.port.settings.key.get u, words := [] } } : State).finish)
    ∧ (0x1000000 < s.port.address.toNat + 2 * n → s.port.settings.statusBase ≤ 0xFFFFC0 →
      ∃ m : State, exec (.start u) s = .next m.finish
        ∧ m.port.answer = .accepted
        ∧ listEnds { s with units := s.units.set u { s.units.get u with
              residual := 0, orderAddress := s.port.address.toNat, guessed := 0 } }
            m u .check [.port .addressInvalid]
        ∧ (m.units.get u).sense.reason = .port
        ∧ (m.units.get u).sense.portOutcome = some .addressInvalid)

/-- HALT finds NOTHING on a unit in IDLE, ENDING or PENDING; a unit in FETCH or RUN is told and goes on to
its next boundary; a unit in WAIT ends HALTED at once, its wait withdrawn (said with no bit error in the
store). -/
def Obligations.HaltByUnitState : Prop :=
  ∀ (u : Fin 4) (s : State), s.port.clearLine = false →
    ((s.units.get u).state = .idle ∨ (s.units.get u).state = .ending ∨ (s.units.get u).state = .pending →
      exec (.halt u) s = .next { s with port := { s.port with answer := .nothing } })
    ∧ ((s.units.get u).state = .fetch ∨ (s.units.get u).state = .run →
      exec (.halt u) s = .next ({ s with
        port := { s.port with answer := .accepted }
        units := s.units.set u { s.units.get u with haltTold := true } } : State).finish)
    ∧ ((s.units.get u).state = .wait → s.port.settings.statusBase ≤ 0xFFFFC0 → s.drs.serving ≠ some u →
        s.store.flips = [] →
      ∃ m : State, exec (.halt u) s = .next m.finish ∧ m.port.answer = .accepted
        ∧ listEnds s m u .halted []
        ∧ (m.units.get u).sense = (s.units.get u).sense
        ∧ (∀ n, waitsOn (s.units.get u) n →
            (s.units.get u).writeTrack = none → (s.track n).state ≠ .free →
            m.track n = { s.track n with waiters := (s.track n).waiters - 1 }
              ∧ (∀ k, k ≠ n → m.track k = s.track k) ∧ m.drs = s.drs)
        ∧ ((s.units.get u).waitOn = some .drs →
            m.drs = { s.drs with waitingUnits := s.drs.waitingUnits.filter (· ≠ u) }))

/-- ACKNOWLEDGE makes a PENDING unit IDLE, or has it store its stacked UNSOLICITED record, and finds
NOTHING on any other. ACK_CONTROLLER clears the attention reasons and STATUS_LOST, and finds NOTHING when
none is set. -/
def Obligations.AcknowledgedStatusIsCleared : Prop :=
  ∀ (u : Fin 4) (s : State), s.port.clearLine = false →
    ((s.units.get u).state = .pending → (s.units.get u).stacked = false →
      exec (.acknowledge u) s = .next ({ s with
        port := { s.port with answer := .accepted }
        units := s.units.set u { s.units.get u with state := .idle } } : State).finish)
    ∧ ((s.units.get u).state = .pending → (s.units.get u).stacked = true →
        s.port.settings.statusBase ≤ 0xFFFFC0 →
      ∃ m : State, exec (.acknowledge u) s = .next m.finish ∧ m.port.answer = .accepted
        ∧ (m.units.get u).stacked = false
        ∧ statusStoring s m u .unsolicited [] 0 0 0)
    ∧ ((s.units.get u).state ≠ .pending →
      exec (.acknowledge u) s = .next { s with port := { s.port with answer := .nothing } })
    ∧ (s.port.storeError = true ∨ s.port.setupFailed = true ∨ s.port.stateChange = true
          ∨ s.port.statusLost = true →
      exec .ackController s = .next { s with port := { s.port with
        answer := .accepted, storeError := false, setupFailed := false, stateChange := false,
        statusLost := false } })
    ∧ (s.port.storeError = false → s.port.setupFailed = false → s.port.stateChange = false →
        s.port.statusLost = false →
      exec .ackController s = .next { s with port := { s.port with answer := .nothing } })

/-- SETUP is BUSY while a unit is not IDLE or a setup fetch runs, ILLEGAL at an odd ADDRESS; accepted, it
asks with KEY 0 for the first burst of the 16 bytes at ADDRESS, or sets SETUP_FAILED when they would pass
0xFFFFFF. A setup fetch whose last burst is DONE installs the eight words' settings when each lies in its range,
and keeps the old ones with SETUP_FAILED when one does not; a burst that fails sets SETUP_FAILED. -/
def Obligations.SetupFetchInstallsOrFails : Prop :=
  (∀ s : State, s.port.clearLine = false →
    ((∃ u, (s.units.get u).state ≠ .idle) ∨ s.port.setupFetch ≠ none →
      exec .setup s = .next { s with port := { s.port with answer := .busy } })
    ∧ ((∀ u, (s.units.get u).state = .idle) → s.port.setupFetch = none →
      (s.port.address.toNat % 2 = 1 →
        exec .setup s = .next { s with port := { s.port with answer := .illegal } })
      ∧ (s.port.address.toNat % 2 = 0 →
        s.port.address.toNat + 2 * min s.port.settings.burst 8 ≤ 0x1000000 →
        exec .setup s = .next ({ s with
          port := { s.port with answer := .accepted
                                setupFetch := some { addr := s.port.address.toNat, got := [] } }
          req := { s.req with
            setupWaiting := some { claimant := .setup, direction := .load, addr := s.port.address.toNat,
                                   count := min s.port.settings.burst 8, key := 0,
                                   words := [] } } } : State).chooseBurst)
      ∧ (s.port.address.toNat % 2 = 0 →
        0x1000000 < s.port.address.toNat + 2 * min s.port.settings.burst 8 →
        exec .setup s = .next ({ s with
          port := { s.port with answer := .accepted, setupFailed := true } } : State).chooseBurst)))
  ∧ (∀ (s : State) (b : Burst) (f : SetupFetch), s.req.current = some b → b.claimant = .setup →
    s.port.setupFetch = some f →
    (∀ words : List Word16, s.req.state = .inCycle → f.got.length + b.count = 8 → b.count ≤ words.length →
      let block := f.got ++ words.take b.count
      (∀ x, settingsOf block = some x →
        exec (.busAdvance .done words) s = .next ({ s with
          req := { s.req with state := .free, current := none }
          port := { s.port with setupFetch := none, settings := x } } : State).finish)
      ∧ (settingsOf block = none →
        exec (.busAdvance .done words) s = .next ({ s with
          req := { s.req with state := .free, current := none }
          port := { s.port with setupFetch := none, setupFailed := true } } : State).finish))
    ∧ (∀ words, s.req.state = .inCycle →
        (∀ o, o ≠ .done → exec (.busAdvance o words) s = .next ({ s with
          req := { s.req with state := .free, current := none }
          port := { s.port with setupFetch := none, setupFailed := true } } : State).finish)
        ∧ exec .advanceTimeout s = .next ({ s with
          req := { s.req with state := .free, current := none }
          port := { s.port with setupFetch := none, setupFailed := true } } : State).finish)
    ∧ (s.req.state = .requesting →
        exec .grantTimeout s = .next ({ s with
          req := { s.req with state := .free, current := none }
          port := { s.port with setupFetch := none, setupFailed := true } } : State).finish))

/-- A free requester serves the claimant that waits and comes first in the cycle unit 0, 1, 2, 3, setup after
LAST_SERVED. It moves from REQUESTING at the grant to PRESENTING, and from PRESENTING at the accept to IN_CYCLE;
a FINISHING burst's end frees it and nothing more. Each signal in another state changes nothing: for a late
grant and advance R142 says so, for the rest it is the model's choice (log entries 1 and 47). -/
def Obligations.BusHandshake : Prop :=
  (∀ s : State,
    (s.req.state ≠ .free ∨ (∀ cl, s.req.waiting cl = none) → s.chooseBurst = s)
    ∧ (s.req.state = .free → ∀ cl b, s.req.waiting cl = some b →
        (∀ cl', s.req.waiting cl' ≠ none →
          cyclePlace s.req.lastServed cl ≤ cyclePlace s.req.lastServed cl') →
        s.chooseBurst.req.state = .requesting ∧ s.chooseBurst.req.current = some b
          ∧ s.chooseBurst.req.lastServed = cl ∧ s.chooseBurst.req.waiting cl = none
          ∧ (∀ cl', cl' ≠ cl → s.chooseBurst.req.waiting cl' = s.req.waiting cl')
          ∧ s.chooseBurst = { s with req := s.chooseBurst.req }))
  ∧ (∀ (o : MemoryOutcome) (words : List Word16) (s : State),
    (s.req.state = .requesting →
      exec .busGrant s = .next { s with req := { s.req with state := .presenting } })
    ∧ (s.req.state ≠ .requesting → exec .busGrant s = .next s ∧ exec .grantTimeout s = .next s)
    ∧ (s.req.state = .presenting →
      exec .busAccept s = .next { s with req := { s.req with state := .inCycle } })
    ∧ (s.req.state ≠ .presenting → exec .busAccept s = .next s)
    ∧ (s.req.state = .finishing →
      exec (.busAdvance o words) s
        = .next ({ s with req := { s.req with state := .free, current := none } } : State).finish
      ∧ exec .advanceTimeout s
        = .next ({ s with req := { s.req with state := .free, current := none } } : State).finish)
    ∧ (s.req.state ≠ .inCycle → s.req.state ≠ .finishing →
      exec (.busAdvance o words) s = .next s ∧ exec .advanceTimeout s = .next s))

/-- The last burst of a unit's status record makes the unit PENDING; one that fails does so too, with
STATUS_LOST and STATE_CHANGE set. -/
def Obligations.StatusStoredMakesPending : Prop :=
  ∀ (u : Fin 4) (s : State) (b : Burst) (x : Transfer), s.req.current = some b → b.claimant = .unit u →
    (s.units.get u).transfer = some x → x.kind = .statusStore →
    (∀ words, s.req.state = .inCycle → x.left ≤ 2 * b.count →
      exec (.busAdvance .done words) s = .next ({ s with
        req := { s.req with state := .free, current := none }
        units := s.units.set u { s.units.get u with state := .pending, transfer := none } } : State).finish)
    ∧ (s.req.state = .inCycle →
      (∀ o words, o ≠ .done → exec (.busAdvance o words) s = .next ({ s with
        req := { s.req with state := .free, current := none }
        port := { s.port with statusLost := true, stateChange := true }
        units := s.units.set u { s.units.get u with state := .pending, transfer := none } } : State).finish)
      ∧ exec .advanceTimeout s = .next ({ s with
        req := { s.req with state := .free, current := none }
        port := { s.port with statusLost := true, stateChange := true }
        units := s.units.set u { s.units.get u with state := .pending, transfer := none } } : State).finish)
    ∧ (s.req.state = .requesting → exec .grantTimeout s = .next ({ s with
        req := { s.req with state := .free, current := none }
        port := { s.port with statusLost := true, stateChange := true }
        units := s.units.set u { s.units.get u with state := .pending, transfer := none } } : State).finish)

/-- The end of an order block's fetch: a failed burst ends the list CHECK with its outcome as the port
condition, and a block with an undefined OP or, but for POSITION, an odd data address ends it CHECK with
ORDER_FAULT; the sense record tells which. Said with no bit error in the store. -/
def Obligations.OrderBlockJudged : Prop :=
  ∀ (u : Fin 4) (s : State) (b : Burst) (x : Transfer), s.req.current = some b → b.claimant = .unit u →
    (s.units.get u).transfer = some x → x.kind = .orderFetch → (s.units.get u).haltTold = false →
    s.port.settings.statusBase ≤ 0xFFFFC0 → s.store.flips = [] →
    (∀ o words p, s.req.state = .inCycle → memoryFailure o = some p →
      ∃ m : State, exec (.busAdvance o words) s = .next m.finish
        ∧ listEnds { s with req := { s.req with state := .free, current := none } } m u .check [.port p]
        ∧ (m.units.get u).sense.reason = .port ∧ (m.units.get u).sense.portOutcome = some p)
    ∧ (s.req.state = .inCycle →
      ∃ m : State, exec .advanceTimeout s = .next m.finish
        ∧ listEnds { s with req := { s.req with state := .free, current := none } } m u .check
            [.port .noResponse]
        ∧ (m.units.get u).sense.reason = .port ∧ (m.units.get u).sense.portOutcome = some .noResponse)
    ∧ (s.req.state = .requesting →
      ∃ m : State, exec .grantTimeout s = .next m.finish
        ∧ listEnds { s with req := { s.req with state := .free, current := none } } m u .check
            [.port .noResponse]
        ∧ (m.units.get u).sense.reason = .port ∧ (m.units.get u).sense.portOutcome = some .noResponse)
    ∧ (∀ words, s.req.state = .inCycle → x.left = 2 * b.count → b.count ≤ words.length →
        x.got.length + b.count = 6 →
      let block := x.got ++ words.take b.count
      let op := (block.getD 0 0).toNat % 16
      (op = 0 ∨ 5 < op →
        ∃ m : State, exec (.busAdvance .done words) s = .next m.finish
          ∧ listEnds { s with req := { s.req with state := .free, current := none } } m u .check [.orderFault]
          ∧ (m.units.get u).sense.reason = .unknownOp)
      ∧ (2 ≤ op → op ≤ 5 → (block.getD 3 0).toNat % 2 = 1 →
        ∃ m : State, exec (.busAdvance .done words) s = .next m.finish
          ∧ listEnds { s with req := { s.req with state := .free, current := none } } m u .check [.orderFault]
          ∧ (m.units.get u).sense.reason = .oddAddress))

/-- A READ whose last burst delivers the last of its count, with no further order in the list, ends NORMAL:
the residual count is 0, POSITION is the sector after the one delivered, and a guess delivered is counted. -/
def Obligations.LastSectorEndsTheList : Prop :=
  ∀ (u : Fin 4) (s : State) (b : Burst) (x : Transfer) (o : Order) (g : Geometry) (words : List Word16),
    s.req.current = some b → b.claimant = .unit u → s.req.state = .inCycle →
    (s.units.get u).transfer = some x → x.kind = .deliver → x.left ≤ 2 * b.count →
    (s.units.get u).order = some o → o.chained = false → (s.units.get u).haltTold = false →
    (s.units.get u).writeTrack = none → (s.units.get u).residual ≤ (s.units.get u).buffer.length →
    s.geometry.get u = some g → s.port.settings.statusBase ≤ 0xFFFFC0 →
    let p := (s.units.get u).position
    ∃ m : State, exec (.busAdvance .done words) s = .next m.finish
      ∧ listEnds { s with
          req := { s.req with state := .free, current := none }
          units := s.units.set u { s.units.get u with
            residual := 0
            guessed := if (s.units.get u).guess then min 65535 ((s.units.get u).guessed + 1)
                       else (s.units.get u).guessed } } m u .normal []
      ∧ (m.units.get u).ordersDone = (s.units.get u).ordersDone + 1
      ∧ (m.units.get u).position
          = (if p.sector + 1 < g.sectors then ⟨p.cyl, p.head, p.sector + 1⟩
             else if p.head + 1 < g.heads then ⟨p.cyl, p.head + 1, 0⟩ else ⟨p.cyl + 1, 0, 0⟩)
      ∧ (m.units.get u).sense = (s.units.get u).sense
      ∧ m.tracks = s.tracks ∧ m.store = s.store ∧ m.drives = s.drives ∧ m.port = s.port

/-- A unit's patience that runs out in WAIT ends its list CHECK: with NOT_READY while its drive is not
READY, else with RECOVERING, the sense REASON LOCKED when it waited for a lock; the wait is withdrawn (said with
no bit error in the store). A timer that does not run, or another unit state, changes nothing, which is the
model's choice (log entry 1). -/
def Obligations.PatienceEndsTheWait : Prop :=
  ∀ (u : Fin 4) (s : State), s.port.settings.statusBase ≤ 0xFFFFC0 →
    ((s.units.get u).state = .wait → (s.units.get u).patience ≠ none → s.store.flips = [] →
      ∃ m : State, exec (.patienceTimerExpiry u) s = .next m.finish
        ∧ listEnds s m u .check
            [if (s.drives.get u).state = DriveState.ready then .recovering else .notReady]
        ∧ (m.units.get u).sense.reason
            = (if (s.drives.get u).state ≠ DriveState.ready then .notReady
               else match (s.units.get u).waitOn with
                 | some (.lock _) => .locked
                 | _ => .recovering)
        ∧ (m.units.get u).sense.position = (s.units.get u).position
        ∧ (m.units.get u).sense.driveStatus = (s.drives.get u).state
        ∧ (m.units.get u).sense.faultKind = (s.drives.get u).faultKind
        ∧ m.drs.waitingUnits = s.drs.waitingUnits.filter (· ≠ u)
        ∧ (∀ n, waitsOn (s.units.get u) n →
            (s.units.get u).writeTrack = none → (s.track n).state ≠ .free →
            m.track n = { s.track n with waiters := (s.track n).waiters - 1 }
              ∧ (∀ k, k ≠ n → m.track k = s.track k)))
    ∧ ((s.units.get u).state ≠ .wait ∨ (s.units.get u).patience = none →
      exec (.patienceTimerExpiry u) s = .next s)

/-- System clear makes every unit IDLE with its record at its reset values, withdraws every wait, lowers
CLASS DEMAND to ARCHIVE, ends a running direct read and empties its slot, withdraws or lets finish the
requester's burst, gives window, settings and attention their power-on values, sets SYSCLEAR, and leaves the
store's contents, the ladder, the limits and the locks alone (said with no bit error in the store). A direct
read gives its drive back to the context it displaced, if that is still bound, and else to nobody. Three points
are the model's choice: that the line asserted again changes nothing, and its release only releases it (log entry
27); that a WRITE order discarded here enqueues nothing, so the track it wrote stays as it lies (log entry 48);
and that CAPTURE of the emptied slot is empty (log entry 52). So is what a unit's sense record holds beside REASON
NONE (log entry 66). What giving the drive back does to SEEK_RETRIED and
to the heads' place is log entry 58. -/
def Obligations.SystemClearResetsSystemSide : Prop :=
  ∀ s : State,
    (s.port.clearLine = false → s.store.flips = [] →
      ∃ m : State, exec .systemClear s = .next m.finish
        ∧ (∀ u, m.units.get u = UnitRec.reset)
        ∧ m.tracks = s.tracks.map (fun e => (e.1, { e.2 with
            waiters := 0, cls := if e.2.cls = some .demand then some .archive else e.2.cls }))
        ∧ m.queue = { demand := [], archive := s.queue.demand ++ s.queue.archive, sweep := s.queue.sweep }
        ∧ m.drs = DrsRec.reset
        ∧ (s.drs.target = none → m.drives = s.drives ∧ m.path = s.path ∧ m.ctxs = s.ctxs)
        ∧ (∀ t, s.drs.target = some t →
            let r := s.drives.get t.addr.drive
            let back (c : Fin 4) := r.displacedContext = some c ∧ (s.ctxs.get c).state = .displaced
              ∧ ∃ n a, (s.ctxs.get c).track = some n ∧ (s.track n).addr = some a ∧ a.drive = t.addr.drive
            (m.path.grant.map (·.holder)) ≠ some .drs
            ∧ (m.drives.get t.addr.drive).drsWaiting = false
            ∧ (r.claim ≠ some .drs → (m.drives.get t.addr.drive).claim = r.claim)
            ∧ (∀ c, r.claim = some .drs → back c → (m.drives.get t.addr.drive).claim = some (.ctx c))
            ∧ (r.claim = some .drs → (¬ ∃ c, back c) → (m.drives.get t.addr.drive).claim = none)
            ∧ (∀ d, (m.drives.get d).state = (s.drives.get d).state)
            ∧ (∀ d, d ≠ t.addr.drive → m.drives.get d = s.drives.get d))
        ∧ m.req.lastServed = .setup ∧ m.req.setupWaiting = none ∧ (∀ u, m.req.unitWaiting.get u = none)
        ∧ (m.req.state = if s.req.state = .inCycle ∨ s.req.state = .finishing then .finishing else .free)
        ∧ m.port.address = 0 ∧ m.port.answer = .nothing ∧ m.port.setupFetch = none
        ∧ m.port.storeError = false ∧ m.port.setupFailed = false ∧ m.port.stateChange = false
        ∧ m.port.statusLost = false ∧ m.port.clearLine = true
        ∧ m.port.settings = { statusBase := 0x200, key := Four.all 0, unitRoute := Four.all (some 1),
                              controllerRoute := some 1, patience := 3000, burst := 4 }
        ∧ m.link = { s.link with attention := { s.link.attention with sysclear := true } }
        ∧ onlyAsks s.store m.store
        ∧ m = { s with units := m.units, tracks := m.tracks, queue := m.queue, drs := m.drs, req := m.req,
                       port := m.port, link := m.link, store := m.store, drives := m.drives, path := m.path
                       ctxs := m.ctxs })
    ∧ (s.port.clearLine = true → exec .systemClear s = .next s)
    ∧ exec .systemClearRelease s = .next { s with port := { s.port with clearLine := false } }

/-- An interrupt line is asserted exactly while a pending source is routed to it: a unit in PENDING, or the
controller with an attention reason. ATTN is asserted exactly while LINK_RST is released and the slot holds a
response or the attention set is not empty. The window's words follow the state: ADDRESS, ANSWER, the STATE of
each unit in three bits, and the controller's STATE, setup fetch and attention reasons; words 2, 6 and 7 read
zero. Under system clear ANSWER reads NOTHING, every unit IDLE, no reason stands, and the controller STATE is
the one that the clear found (R134, R146); that it is the whole STATE, and that an interrupt line follows its
sources also then, is the model's choice (log entry 45). -/
def Obligations.LinesFollowTheirSources : Prop :=
  ∀ s : State,
    (∀ level, s.intLine level = true ↔
      (∃ u, (s.units.get u).state = .pending ∧ s.port.settings.unitRoute.get u = some level)
        ∨ ((s.port.storeError = true ∨ s.port.setupFailed = true ∨ s.port.stateChange = true)
          ∧ s.port.settings.controllerRoute = some level))
    ∧ (s.attnLine = true ↔ s.link.rstLine = false
        ∧ (s.link.slot ≠ none ∨ s.link.attention ≠ Attention.empty))
    ∧ s.windowRead 0 = BitVec.ofNat 16 (s.port.address.toNat / 65536)
    ∧ s.windowRead 1 = BitVec.ofNat 16 (s.port.address.toNat % 65536)
    ∧ s.windowRead 3 = (if s.port.clearLine then 4 else BitVec.ofNat 16 s.port.answer.code)
    ∧ (∀ u : Fin 4, (s.windowRead 4).toNat / 8 ^ u.val % 8
        = (if s.port.clearLine then 0 else (s.units.get u).state.code))
    ∧ (s.windowRead 4).toNat < 4096
    ∧ (let bit (b : Bool) (n : Nat) : Nat := if b then n else 0
       (s.windowRead 5).toNat = (if s.port.clearLine then s.port.heldCtl.code
         else s.ctl.state.code + bit s.port.setupFetch.isSome 8 + bit s.port.storeError 16
           + bit s.port.setupFailed 32 + bit s.port.stateChange 64 + bit s.port.statusLost 128))
    ∧ s.windowRead 2 = 0 ∧ s.windowRead 6 = 0 ∧ s.windowRead 7 = 0

end SystemPort

section ArchiveLink

open Sys2Proof Sys2Proof.Machine Sys2Proof.Stated

/-- Every archive request is ignored while LINK_RST is asserted. Otherwise a payload above 544 bytes is
answered FRAME_CHECK, one of a length the request table does not give BAD_LENGTH, and a request that the
controller state does not perform as the table of R167 says; each of these changes the response slot alone. A
window given as its bytes is judged from them (log entry 31): one that is no frame whose CHECK verifies is
answered FRAME_CHECK, a frame whose KIND is above 0x19 UNKNOWN_REQUEST, and any other frame is the request that
its KIND, TAG and PAYLOAD spell. -/
def Obligations.RequestFrameJudged : Prop :=
  (∀ (c : Instr) (kind tag : Byte) (lengths : List Nat) (group : RequestGroup) (payload : List Byte) (s : State),
    requestRow c = some (kind, tag, lengths, group, payload) →
    (s.link.rstLine = true → exec c s = .next s)
    ∧ (s.link.rstLine = false → ∀ r,
        (if 544 < payload.length then some Result.frameCheck
         else if payload.length ∉ lengths then some .badLength
         else notPerformed group s.ctl.state) = some r →
        ∃ t, exec c s = .next t ∧ turnedAwayWith s t kind tag r))
  ∧ (∀ (w : List Byte) (s : State), w ≠ [] → w.getD 0 0 ≠ 0 →
    (s.link.rstLine = true → exec (.unknownRequest w) s = .next s)
    ∧ (s.link.rstLine = false →
      ((¬ ∃ kind tag payload, isFrame w kind tag payload) →
        ∃ t, exec (.unknownRequest w) s = .next t
          ∧ turnedAwayWith s t (w.getD 0 0) (w.getD 1 0) .frameCheck)
      ∧ (∀ kind tag payload, isFrame w kind tag payload → 0x19 < kind.toNat →
        ∃ t, exec (.unknownRequest w) s = .next t ∧ turnedAwayWith s t kind tag .unknownRequest))
    ∧ (∀ c kind tag lengths group payload, isFrame w kind tag payload →
        requestRow c = some (kind, tag, lengths, group, payload) → exec (.unknownRequest w) s = exec c s))

/-- A read window drives out 0xFF and then the held response's frame, or the NO_RESPONSE frame, filled up
with 0xFF; the slot becomes empty exactly when every byte of the frame was sent. LINK_RST makes it deaf. -/
def Obligations.ReadWindowSendsTheSlot : Prop :=
  ∀ (n : Nat) (s : State), 1 ≤ n →
    let frame := match s.link.slot with
      | some r => withCheck 0xFFFF ([r.kind, r.tag, BitVec.ofNat 8 r.result.code,
          BitVec.ofNat 8 ((if r.previousLost then 1 else 0) + (if r.attentionSet then 2 else 0)),
          BitVec.ofNat 8 (r.payload.length / 256), BitVec.ofNat 8 r.payload.length] ++ r.payload)
      | none => withCheck 0xFFFF [0, 0, 0, if s.link.attention = Attention.empty then 0 else 2, 0, 0]
    (s.link.rstLine = false →
      exec (.readWindow n) s = .next { s with link := { s.link with
        out := ((0xFF#8 :: frame) ++ List.replicate n 0xFF#8).take n
        slot := if frame.length + 1 ≤ n then none else s.link.slot } })
    ∧ (s.link.rstLine = true → exec (.readWindow n) s = .next s)

/-- LINK_RST empties the response slot, leaves the attention set STARTED alone, releases every lock in the lock table and
notifies the units that wait on the tracks unlocked, changing nothing else itself (said with no bit error in the store).
That the line asserted again changes nothing and its release only releases it is log entry 27, and the bytes
driven out, none after it, are those of log entry 32. The locks are those of the lock table: after a
RESET_CONTROLLER that has emptied it a record keeps its LOCK until the rescan (log entry 38). -/
def Obligations.LinkResetReleasesLocks : Prop :=
  ∀ s : State,
    (s.link.rstLine = false → s.store.flips = [] → s.Sound → ∃ m : State, exec .linkRst s = .next m.finish
      ∧ m.link = { slot := none, rstLine := true, out := []
                   attention := { driveChange := Four.all false, settled := false, sweep := false,
                                  store := false, sysclear := false, started := true } }
      ∧ (∀ e, m.locks.get e = none)
      ∧ (∀ n, (∃ e, s.locks.get e = some n) → m.track n = { s.track n with lock := none })
      ∧ (∀ n, (∀ e, s.locks.get e ≠ some n) → m.track n = s.track n)
      ∧ notifiedOn s m (fun n => ∃ e, s.locks.get e = some n) ∧ onlyAsks s.store m.store
      ∧ m = { s with link := m.link, locks := m.locks, tracks := m.tracks, units := m.units, store := m.store })
    ∧ (s.link.rstLine = true → exec .linkRst s = .next s)
    ∧ exec .linkRstRelease s = .next { s with link := { s.link with rstLine := false } }

/-- IDENTIFY is answered OK in every controller state with the part's codes, straps and size in use;
STORE_STATE in READY with the store counts as they stood, which its clear bit then zeroes. Neither changes
anything else. -/
def Obligations.IdentifyAndStoreStateReported : Prop :=
  ∀ (tag flags : Byte) (s : State), s.link.rstLine = false →
    (∃ t, exec (.identify tag []) s = .next t ∧ requestFrame s t ∧ t = { s with link := t.link }
      ∧ answered s t 0x01 tag .ok
          ([0x3A, 0x17, 0x04, 0x10, 2,
            BitVec.ofNat 8 (mibOf s.ctl.straps.storeSize),
            BitVec.ofNat 8 s.ctl.straps.profile.val, BitVec.ofNat 8 s.ctl.straps.drives,
            BitVec.ofNat 8 s.ctl.straps.ioBase.val, BitVec.ofNat 8 s.ctl.sizeInUse,
            BitVec.ofNat 8 ((s.ctl.sizeInUse * 64 - 64) / 256),
            BitVec.ofNat 8 (s.ctl.sizeInUse * 64 - 64), BitVec.ofNat 8 s.ctl.storeCheck.code,
            BitVec.ofNat 8 s.ctl.state.code, BitVec.ofNat 8 ((s.ctl.phase.map Phase.code).getD 0xFF)]))
    ∧ (s.ctl.state = .ready →
      ∃ t, exec (.storeState tag [flags]) s = .next t
        ∧ t = { s with link := t.link
                       store := if flags.toNat % 2 = 1 then { s.store with corrected := 0, uncorrected := 0 }
                                else s.store }
        ∧ t.link.attention = s.link.attention ∧ t.link.rstLine = s.link.rstLine
        ∧ answered s t 0x04 tag .ok
            ([BitVec.ofNat 8 s.ctl.sizeInUse, BitVec.ofNat 8 (s.store.corrected / 256),
              BitVec.ofNat 8 s.store.corrected, BitVec.ofNat 8 (s.store.uncorrected / 256),
              BitVec.ofNat 8 s.store.uncorrected] ++ lostBytes s.store.lastUncorrected
              ++ be4 s.store.scrubCursor ++ be2 s.store.passes.toNat ++ [BitVec.ofNat 8 s.store.scrubPeriod]))

/-- ATTENTION reports the attention set, the controller STATE and PHASE and the four SWEEP_STATEs, and
empties the set; its response shows the set empty. Said with no bit error in the store. -/
def Obligations.AttentionReportsAndEmpties : Prop :=
  ∀ (tag : Byte) (s : State), s.link.rstLine = false → s.ctl.state ≠ .storeFailed → s.store.flips = [] →
    let a := s.link.attention
    let bit (b : Bool) (n : Nat) : Nat := if b then n else 0
    ∃ m : State, exec (.attention tag []) s = .next m.finish
      ∧ answered s m 0x02 tag .ok
          [BitVec.ofNat 8 (bit (a.driveChange.get 0) 1 + bit (a.driveChange.get 1) 2
              + bit (a.driveChange.get 2) 4 + bit (a.driveChange.get 3) 8 + bit a.settled 16
              + bit a.sweep 32 + bit a.store 64 + bit a.sysclear 128),
            BitVec.ofNat 8 (bit a.started 1), BitVec.ofNat 8 s.ctl.state.code,
            BitVec.ofNat 8 ((s.ctl.phase.map Phase.code).getD 0xFF),
            BitVec.ofNat 8 (s.sweeps.get 0).state.code, BitVec.ofNat 8 (s.sweeps.get 1).state.code,
            BitVec.ofNat 8 (s.sweeps.get 2).state.code, BitVec.ofNat 8 (s.sweeps.get 3).state.code]
      ∧ m.link.attention = Attention.empty ∧ m.link.rstLine = false
      ∧ onlyAsks s.store m.store ∧ m = { s with link := m.link, store := m.store }

/-- SET_LIMITS with a value outside its range is answered RANGE and changes nothing; else, with no bit error
in the store, it installs all seven values together and answers them back. -/
def Obligations.LimitsInstalledTogether : Prop :=
  ∀ (tag v0 v1 v2 v3 v4 v5 v6 : Byte) (s : State), linkReady s →
    let p := [v0, v1, v2, v3, v4, v5, v6]
    let good := v0.toNat ≤ 64 ∧ 1 ≤ v1.toNat ∧ v1.toNat ≤ 16 ∧ (∀ v ∈ [v2, v3, v4, v5], 1 ≤ v.toNat ∧ v.toNat ≤ 8)
      ∧ v6.toNat ≤ 60
    (¬ good → ∃ m : State, exec (.setLimits tag p) s = .next m.finish
      ∧ answered s m 0x03 tag .range [] ∧ requestFrame s m ∧ m = { s with link := m.link })
    ∧ (good → s.store.flips = [] → ∃ m : State, exec (.setLimits tag p) s = .next m.finish
      ∧ answered s m 0x03 tag .ok p
      ∧ m.limits = { uncertainty := v0.toNat, starvation := v1.toNat }
      ∧ m.sweeps = ⟨{ s.sweeps.n0 with depth := v2.toNat }, { s.sweeps.n1 with depth := v3.toNat },
                    { s.sweeps.n2 with depth := v4.toNat }, { s.sweeps.n3 with depth := v5.toNat }⟩
      ∧ onlyAsks { s.store with scrubPeriod := v6.toNat } m.store
      ∧ m.link.attention = s.link.attention ∧ m.link.rstLine = s.link.rstLine
      ∧ m = { s with limits := m.limits, sweeps := m.sweeps, store := m.store, link := m.link })

/-- SET_LADDER with the bytes of 1 to 12 steps of 1 to 15 revolutions replaces the ladder table whole and is
answered with the number of steps and the sum of their revolutions; every other payload of a SET_LADDER's
length is answered RANGE and changes nothing. -/
def Obligations.LadderReplacedWhole : Prop :=
  ∀ (tag : Byte) (p : List Byte) (s : State), linkReady s → (∃ k, k < 12 ∧ p.length = 5 + 4 * k) →
    (∀ steps, ladderBytes steps = p → ladderGood steps →
      ∃ t, exec (.setLadder tag p) s = .next t
        ∧ answered s t 0x16 tag .ok
            [BitVec.ofNat 8 steps.length, BitVec.ofNat 8 ((steps.map LadderStep.revs).sum / 256),
              BitVec.ofNat 8 (steps.map LadderStep.revs).sum]
        ∧ requestFrame s t ∧ t = { s with ladder := steps, link := t.link })
    ∧ ((¬ ∃ steps, ladderBytes steps = p ∧ ladderGood steps) →
      ∃ t, exec (.setLadder tag p) s = .next t
        ∧ answered s t 0x16 tag .range [] ∧ requestFrame s t ∧ t = { s with link := t.link })

end ArchiveLink

section TrackRequests

open Sys2Proof Sys2Proof.Machine Sys2Proof.Stated

/-- Each of the eight requests that name a track is refused by R57 when its operand is out of range or finds
no record, before any other test, and then changes nothing. Said with no bit error in the store. -/
def Obligations.TrackOperandRefused : Prop :=
  ∀ (c : Instr) (kind tag : Byte) (lengths : List Nat) (group : RequestGroup) (p : List Byte) (s : State)
    (r : Result), namesATrack c = true → requestRow c = some (kind, tag, lengths, group, p) →
    p.length ∈ lengths → linkReady s → s.Sound → s.store.flips = [] → operandRefused s p r →
    onlyAnswers c s kind tag r []

/-- DRIVE_STATE returns a drive's record and geometry, TRACK_RECORD a track's record with a 12-byte entry for
each of its sectors, and LIST_TRACKS up to 32 records in ascending slot order from a start, each with its
STATE in the filter, and the slot to go on from; none changes anything. That byte 7 of a sector's entry is 0 when
HEADER_FLAG is absent is the model's choice (log entry 51). Said with no bit error in the store. -/
def Obligations.RecordsReported : Prop :=
  ∀ (tag : Byte) (s : State), s.link.rstLine = false → s.store.flips = [] →
    (∀ b : Byte, s.ctl.state ≠ .storeFailed →
      (3 < b.toNat → onlyAnswers (.driveState tag [b]) s 0x09 tag .range [])
      ∧ (∀ d : Fin 4, b.toNat = d.val → onlyAnswers (.driveState tag [b]) s 0x09 tag .ok
          (driveBytes (s.drives.get d) d (s.geometry.get d))))
    ∧ (s.ctl.state = .ready → s.Sound →
      (∀ p n, p.length = 6 → names s p n → onlyAnswers (.trackRecord tag p) s 0x0A tag .ok
        (trackHeader n (s.track n)
          ++ ((List.range (s.track n).sectors.length).map
                (fun k => trackEntry ((s.track n).sectors.getD k SectorRec.fresh)
                  (match (s.track n).context with
                    | none => 0
                    | some c => ((s.ctxs.get c).candidates.getD k []).length))).flatten))
      ∧ (∀ hi lo f : Byte,
          let start := hi.toNat * 256 + lo.toNat
          let found := (((List.range s.usable).drop start).filter
            (fun n => (f.toNat % 64).testBit (s.track n).state.code)).take 32
          let last := found.getLastD 0
          (s.usable ≤ start ∨ f.toNat % 64 = 0 →
            onlyAnswers (.listTracks tag [hi, lo, f]) s 0x0B tag .range [])
          ∧ (start < s.usable → f.toNat % 64 ≠ 0 →
            onlyAnswers (.listTracks tag [hi, lo, f]) s 0x0B tag .ok
              (be2 (if found.length = 32 ∧ last + 1 < s.usable then last + 1 else 0xFFFF)
                ++ [BitVec.ofNat 8 found.length]
                ++ (found.map (fun n => listedBytes n (s.track n))).flatten))))

/-- PULL of a named track is refused TRACK_BROKEN or RANGE, or answered OK with the sector's STATUS, GUESS,
UNCERTAIN and REVISION and, from IMAGE, the frame's bytes where the STATUS says that it holds an image, or
from a candidate the candidate's bytes; it changes nothing. Said with no bit error in the store. -/
def Obligations.PullReturnsTheSector : Prop :=
  ∀ (tag : Byte) (p : List Byte) (n : Nat) (s : State), p.length = 8 → linkReady s → s.Sound →
    s.store.flips = [] → names s p n →
    let r := s.track n
    let k := (p.getD 6 0).toNat
    let source := (p.getD 7 0).toNat
    let x := r.sectors.getD k SectorRec.fresh
    let answer (bytes : List Byte) : List Byte :=
      [BitVec.ofNat 8 x.status.code, BitVec.ofNat 8 x.guess.code] ++ be2 (x.uncertain.getD 0xFFFF)
        ++ be2 r.revision.toNat ++ be2 bytes.length ++ bytes
    (r.state = .broken → onlyAnswers (.pull tag p) s 0x0C tag .trackBroken [])
    ∧ (r.state ≠ .broken → r.sectors.length ≤ k → onlyAnswers (.pull tag p) s 0x0C tag .range [])
    ∧ (r.state ≠ .broken → k < r.sectors.length →
      (source = 0 → (x.status = .clean ∨ x.status = .voted ∨ x.status = .written ∨ x.status = .replaced
          ∨ (x.status = .failed ∧ x.guess ≠ .damaged)) →
        onlyAnswers (.pull tag p) s 0x0C tag .ok
          (answer (readBytes s.store.mem (n * 16384 + k * r.sectorBytes) r.sectorBytes)))
      ∧ (source = 0 → (x.status = .pending ∨ x.status = .damaged ∨ x.status = .marked ∨ x.status = .lost
          ∨ (x.status = .failed ∧ x.guess = .damaged)) →
        onlyAnswers (.pull tag p) s 0x0C tag .ok (answer []))
      ∧ (∀ c entry, 1 ≤ source → r.context = some c →
          ((s.ctxs.get c).candidates.getD k [])[source - 1]? = some entry →
        onlyAnswers (.pull tag p) s 0x0C tag .ok
          (answer (readBytes s.store.mem
            ((s.usable + 32 + 8 * c.val + entry) * 16384 + k * ((r.sectorBytes + 2 + 7) / 8 * 8))
            (r.sectorBytes + 2))))
      ∧ (1 ≤ source → (∀ c, r.context = some c →
          ((s.ctxs.get c).candidates.getD k []).length < source) →
        onlyAnswers (.pull tag p) s 0x0C tag .range []))

/-- PUSH_SECTOR on a named track is refused by the first test of R61 that applies and then changes nothing;
accepted on a locked track, it writes the sector's bytes into the frame and no others, makes the sector
REPLACED with its resolution fields afresh, counts REVISION, clears EXPORTED and keeps DIVERGED, and settles
a PENDING or QUEUED track whose last unresolved sector it was; a push to a sector of a track that has none
unresolved settles nothing. -/
def Obligations.PushReplacesTheSector : Prop :=
  ∀ (tag : Byte) (p : List Byte) (n : Nat) (s : State), (p.length = 136 ∨ p.length = 264 ∨ p.length = 520) →
    linkReady s → s.Sound → s.store.flips = [] → names s p n →
    let r := s.track n
    let k := (p.getD 6 0).toNat
    let data := p.drop 8
    let x := r.sectors.getD k SectorRec.fresh
    let base := n * 16384 + k * r.sectorBytes
    (r.state = .broken → onlyAnswers (.pushSector tag p) s 0x0D tag .trackBroken [])
    ∧ (r.state ≠ .broken → r.sectors.length ≤ k → onlyAnswers (.pushSector tag p) s 0x0D tag .range [])
    ∧ (r.state ≠ .broken → k < r.sectors.length →
      (data.length ≠ r.sectorBytes → onlyAnswers (.pushSector tag p) s 0x0D tag .badLength [])
      ∧ (data.length = r.sectorBytes → r.lock = none →
          onlyAnswers (.pushSector tag p) s 0x0D tag .notLocked [])
      ∧ (data.length = r.sectorBytes → r.lock ≠ none → x.status = .marked →
          onlyAnswers (.pushSector tag p) s 0x0D tag .marked [])
      ∧ (data.length = r.sectorBytes → r.lock ≠ none → x.status ≠ .marked → r.context = none →
          r.state ≠ .active →
        let pushed : TrackRec := { r with
          revision := r.revision + 1, exported := false
          sectors := r.sectors.set k { x with
            status := .replaced, resolvedStep := none, blind := false, uncertain := none, guess := .none } }
        ∃ m : State, exec (.pushSector tag p) s = .next m.finish
          ∧ answered s m 0x0D tag .ok (be2 (r.revision + 1).toNat)
          ∧ onlyAsks { s.store with mem := m.store.mem } m.store
          ∧ readBytes m.store.mem base data.length = data
          ∧ (∀ a, a < base ∨ base + data.length ≤ a → readByte m.store.mem a = readByte s.store.mem a)
          ∧ ((unresolved pushed ∨ ¬ unresolved r ∨ r.state = .settled) →
              onlyTrack s m n pushed ∧ m.queue = s.queue ∧ m.link.attention = s.link.attention)
          ∧ (unresolved r → ¬ unresolved pushed → r.state = .pending ∨ r.state = .queued →
              onlyTrack s m n { pushed with state := .settled }
              ∧ (r.state = .queued → m.queue.order = s.queue.order.filter (· ≠ n))
              ∧ (r.state = .pending → m.queue = s.queue)
              ∧ m.link.attention = (if r.origins.archive then { s.link.attention with settled := true }
                                    else s.link.attention))
          ∧ m = { s with tracks := m.tracks, queue := m.queue, link := m.link, store := m.store }))

/-- LOCK_TRACK of a named track is refused by the first test of R55 that applies, or takes the lowest-numbered
empty entry of the lock table; UNLOCK_TRACK is refused NOT_LOCKED, or empties the track's entry and notifies the
units that wait on the track. Said with no bit error in the store. -/
def Obligations.LocksGivenAndReleased : Prop :=
  ∀ (tag : Byte) (p : List Byte) (n : Nat) (s : State), p.length = 6 → linkReady s → s.Sound →
    s.store.flips = [] → names s p n →
    let r := s.track n
    (r.state = .active → onlyAnswers (.lockTrack tag p) s 0x0E tag .trackActive [])
    ∧ (r.state = .broken → onlyAnswers (.lockTrack tag p) s 0x0E tag .trackBroken [])
    ∧ (r.state ≠ .active → r.state ≠ .broken →
      (r.lock ≠ none → onlyAnswers (.lockTrack tag p) s 0x0E tag .locked [])
      ∧ (r.lock = none → (∀ e, s.locks.get e ≠ none) →
          onlyAnswers (.lockTrack tag p) s 0x0E tag .locksExhausted [])
      ∧ (∀ e, r.lock = none → s.locks.get e = none → (∀ e', e' < e → s.locks.get e' ≠ none) →
          ∃ m : State, exec (.lockTrack tag p) s = .next m.finish
            ∧ answered s m 0x0E tag .ok [BitVec.ofNat 8 e.val] ∧ requestFrame s m
            ∧ onlyTrack s m n { r with lock := some e } ∧ m.locks = s.locks.set e (some n)
            ∧ m = { s with tracks := m.tracks, locks := m.locks, link := m.link, store := m.store }))
    ∧ (r.lock = none → onlyAnswers (.unlockTrack tag p) s 0x0F tag .notLocked [])
    ∧ (∀ e, r.lock = some e →
          ∃ m : State, exec (.unlockTrack tag p) s = .next m.finish
            ∧ answered s m 0x0F tag .ok [] ∧ requestFrame s m
            ∧ onlyTrack s m n { r with lock := none } ∧ m.locks = s.locks.set e none
            ∧ notifiedOn s m (fun k => k = n)
            ∧ m = { s with tracks := m.tracks, locks := m.locks, units := m.units, link := m.link
                           store := m.store })

/-- MARK_EXPORTED of a named track is refused TRACK_BROKEN, or answered STALE with the current REVISION when
its revision differs, or sets EXPORTED in any other STATE, leaving a track already exported as it was. The
next resolution of one of the track's sectors (resolveSector, the change that every claim of R44 makes)
counts in REVISION and clears the mark. -/
def Obligations.ExportMarkedAtItsRevision : Prop :=
  (∀ (tag : Byte) (p : List Byte) (n : Nat) (s : State), p.length = 8 → linkReady s → s.Sound →
    s.store.flips = [] →
    (∀ r, operandRefused s p r → onlyAnswers (.markExported tag p) s 0x10 tag r [])
    ∧ (names s p n →
      let r := s.track n
      (r.state = .broken → onlyAnswers (.markExported tag p) s 0x10 tag .trackBroken [])
      ∧ (r.state ≠ .broken → word2 p 6 ≠ r.revision.toNat →
          onlyAnswers (.markExported tag p) s 0x10 tag .stale (be2 r.revision.toNat))
      ∧ (r.state ≠ .broken → word2 p 6 = r.revision.toNat →
          ∃ m : State, exec (.markExported tag p) s = .next m.finish
            ∧ answered s m 0x10 tag .ok [] ∧ requestFrame s m
            ∧ onlyTrack s m n { r with exported := true } ∧ (r.exported = true → m.track n = r)
            ∧ m = { s with tracks := m.tracks, link := m.link, store := m.store })))
  ∧ (∀ (s : State) (n k : Nat) (f : SectorRec → SectorRec), s.Sound → (s.track n).state ≠ .free →
      ((s.resolveSector n k f).track n).exported = false
      ∧ ((s.resolveSector n k f).track n).revision = (s.track n).revision + 1)

/-- RELEASE_TRACK of a named track is refused by the first test of R63 that applies; accepted, the record is
FREE with every field empty, leaves the queue, its slot joins the tail of the free list, and STALLED sweeps
run again. Said with no bit error in the store. -/
def Obligations.ReleaseGivesTheFrameBack : Prop :=
  ∀ (tag : Byte) (p : List Byte) (n : Nat) (s : State), p.length = 7 → linkReady s → s.Sound →
    s.store.flips = [] → names s p n →
    let r := s.track n
    let force := (p.getD 6 0).toNat % 2 = 1
    (r.state = .active → onlyAnswers (.releaseTrack tag p) s 0x11 tag .trackActive [])
    ∧ (r.state ≠ .active → r.lock ≠ none → onlyAnswers (.releaseTrack tag p) s 0x11 tag .locked [])
    ∧ (r.state ≠ .active → r.lock = none → 0 < r.waiters →
        onlyAnswers (.releaseTrack tag p) s 0x11 tag .trackInUse [])
    ∧ (r.state ≠ .active → r.lock = none → r.waiters = 0 →
      (r.state ≠ .broken → r.exported = false → ¬ force →
        onlyAnswers (.releaseTrack tag p) s 0x11 tag .notExported [])
      ∧ (r.state = .broken ∨ r.exported = true ∨ force →
        ∃ m : State, exec (.releaseTrack tag p) s = .next m.finish
          ∧ answered s m 0x11 tag .ok [] ∧ requestFrame s m
          ∧ onlyTrack s m n TrackRec.free ∧ m.freeList = s.freeList ++ [n]
          ∧ m.queue.order = s.queue.order.filter (· ≠ n) ∧ m.sweeps = s.sweeps.map sweepResumed
          ∧ m = { s with tracks := m.tracks, queue := m.queue, freeList := m.freeList, sweeps := m.sweeps,
                         link := m.link, store := m.store }))

/-- QUEUE_TRACK is refused by the first test of R77 that applies, or makes its allocation claim with origin
ARCHIVE and enqueues or promotes the record it finds or allocates, answering its slot and disposition. Said
with no bit error in the store. -/
def Obligations.QueueTrackByRecord : Prop :=
  ∀ (tag b hi lo head : Byte) (s : State), linkReady s → s.Sound → s.store.flips = [] →
    let c : Instr := .queueTrack tag [b, hi, lo, head]
    let cyl := hi.toNat * 256 + lo.toNat
    ((∀ d : Fin 4, b.toNat = d.val → (s.drives.get d).fitted = false) →
      onlyAnswers c s 0x12 tag .range [])
    ∧ (∀ d : Fin 4, b.toNat = d.val → (s.drives.get d).fitted = true →
      (s.geometry.get d = none → onlyAnswers c s 0x12 tag .driveCondition [])
      ∧ (∀ g, s.geometry.get d = some g →
        (g.cylinders ≤ cyl ∨ g.heads ≤ head.toNat → onlyAnswers c s 0x12 tag .range [])
        ∧ (cyl < g.cylinders → head.toNat < g.heads →
          (∀ n, (∀ k, (s.track k).holds ⟨d, cyl, head.toNat⟩ = true ↔ k = n) →
            let r := s.track n
            let claimed : TrackRec := { r with origins := { r.origins with archive := true } }
            (r.state = .settled → onlyAnswers c s 0x12 tag .settled [])
            ∧ (r.state = .pending → ∃ m : State, exec c s = .next m.finish
              ∧ answered s m 0x12 tag .ok (be2 n ++ [1]) ∧ requestFrame s m
              ∧ onlyTrack s m n { claimed with state := .queued, cls := some .archive }
              ∧ m.queue = { s.queue with archive := s.queue.archive ++ [n] }
              ∧ m = { s with tracks := m.tracks, queue := m.queue, link := m.link, store := m.store })
            ∧ (r.state = .queued → r.cls = some .sweep → ∃ m : State, exec c s = .next m.finish
              ∧ answered s m 0x12 tag .ok (be2 n ++ [2]) ∧ requestFrame s m
              ∧ onlyTrack s m n { claimed with cls := some .archive }
              ∧ m.queue = { demand := s.queue.demand.filter (· ≠ n)
                            archive := s.queue.archive.filter (· ≠ n) ++ [n]
                            sweep := s.queue.sweep.filter (· ≠ n) }
              ∧ m = { s with tracks := m.tracks, queue := m.queue, link := m.link, store := m.store })
            ∧ (r.state = .active → r.cls = some .sweep → ∃ m : State, exec c s = .next m.finish
              ∧ answered s m 0x12 tag .ok (be2 n ++ [2]) ∧ requestFrame s m
              ∧ onlyTrack s m n { claimed with cls := some .archive }
              ∧ m = { s with tracks := m.tracks, link := m.link, store := m.store })
            ∧ (r.state = .queued ∨ r.state = .active → r.cls ≠ some .sweep →
              ∃ m : State, exec c s = .next m.finish
              ∧ answered s m 0x12 tag .ok (be2 n ++ [3]) ∧ requestFrame s m
              ∧ onlyTrack s m n claimed
              ∧ m = { s with tracks := m.tracks, link := m.link, store := m.store }))
          ∧ ((∀ k, (s.track k).holds ⟨d, cyl, head.toNat⟩ = false) →
            (s.freeList = [] → onlyAnswers c s 0x12 tag .poolFull [])
            ∧ (∀ n rest, s.freeList = n :: rest → ∃ m : State, exec c s = .next m.finish
              ∧ answered s m 0x12 tag .ok (be2 n ++ [0]) ∧ requestFrame s m
              ∧ onlyTrack s m n
                  { state := .queued, addr := some ⟨d, cyl, head.toNat⟩, cls := some .archive
                    origins := { system := false, archive := true, sweep := false }
                    nextStep := 0, stepRevs := 0, totalRevs := 0, context := none, lock := none
                    waiters := 0, diverged := false, exported := false, revision := 0
                    sectorBytes := g.sectorBytes
                    sectors := List.replicate g.sectors
                      { status := .pending, attempts := 0, checkFails := 0, syncMisses := 0
                        headerFaults := 0, resolvedStep := none, blind := false, uncertain := none
                        guess := .none, headerFlag := none } }
              ∧ m.freeList = rest ∧ m.queue = { s.queue with archive := s.queue.archive ++ [n] }
              ∧ m = { s with tracks := m.tracks, queue := m.queue, freeList := m.freeList, link := m.link
                             store := m.store })))))

/-- RETRY_TRACK of a named track is refused by the first test of R78 that applies; accepted, each FAILED
sector is PENDING with its resolution fields afresh and its counters kept, each counted in REVISION, and the
track is QUEUED ARCHIVE from step 0 at the tail. Said with no bit error in the store. -/
def Obligations.RetryRequeuesFailedSectors : Prop :=
  ∀ (tag : Byte) (p : List Byte) (n : Nat) (s : State), p.length = 6 → linkReady s → s.Sound →
    s.store.flips = [] → names s p n →
    let r := s.track n
    let failed := (r.sectors.filter (fun x => x.status = .failed)).length
    (r.state = .broken → onlyAnswers (.retryTrack tag p) s 0x13 tag .trackBroken [])
    ∧ (r.state = .active ∨ r.state = .queued ∨ r.state = .pending →
        onlyAnswers (.retryTrack tag p) s 0x13 tag .trackActive [])
    ∧ (r.state = .settled → failed = 0 → onlyAnswers (.retryTrack tag p) s 0x13 tag .nothingFailed [])
    ∧ (r.state = .settled → failed ≠ 0 → ∃ m : State, exec (.retryTrack tag p) s = .next m.finish
        ∧ answered s m 0x13 tag .ok
            ([BitVec.ofNat 8 failed] ++ be2 (r.revision + BitVec.ofNat 16 failed).toNat)
        ∧ requestFrame s m
        ∧ onlyTrack s m n { r with
            state := .queued, cls := some .archive, nextStep := 0, stepRevs := 0, exported := false
            revision := r.revision + BitVec.ofNat 16 failed
            origins := { r.origins with archive := true }
            sectors := r.sectors.map (fun x => if x.status = .failed then
              { x with status := .pending, resolvedStep := none, blind := false, uncertain := none
                       guess := .none } else x) }
        ∧ m.queue = { s.queue with archive := s.queue.archive ++ [n] }
        ∧ m = { s with tracks := m.tracks, queue := m.queue, link := m.link, store := m.store })

end TrackRequests

section DriveRequests

open Sys2Proof Sys2Proof.Machine Sys2Proof.Stated

/-- SWEEP_START is refused RANGE or DRIVE_CONDITION, or sets the sweep RUNNING with its cursor at the cylinder
given, head 0; SWEEP_STOP makes it OFF with its cursor kept. Both keep DEPTH, answer the sweep record, and
change no other sweep. Said with no bit error in the store. -/
def Obligations.SweepsStartAndStop : Prop :=
  ∀ (tag b hi lo : Byte) (s : State), linkReady s → s.store.flips = [] →
    let cyl := hi.toNat * 256 + lo.toNat
    ((∀ d : Fin 4, b.toNat = d.val → (s.drives.get d).fitted = false) →
      onlyAnswers (.sweepStart tag [b, hi, lo]) s 0x14 tag .range []
        ∧ onlyAnswers (.sweepStop tag [b]) s 0x15 tag .range [])
    ∧ (∀ d : Fin 4, b.toNat = d.val → (s.drives.get d).fitted = true →
      let w := s.sweeps.get d
      (s.geometry.get d = none → onlyAnswers (.sweepStart tag [b, hi, lo]) s 0x14 tag .driveCondition [])
      ∧ (∀ g, s.geometry.get d = some g →
        (g.cylinders ≤ cyl → onlyAnswers (.sweepStart tag [b, hi, lo]) s 0x14 tag .range [])
        ∧ (cyl < g.cylinders → ∃ m : State, exec (.sweepStart tag [b, hi, lo]) s = .next m.finish
          ∧ answered s m 0x14 tag .accepted ([b, 1] ++ be2 cyl ++ [0, BitVec.ofNat 8 w.depth])
          ∧ requestFrame s m
          ∧ m.sweeps = s.sweeps.set d { state := .running, cyl := cyl, head := 0, depth := w.depth }
          ∧ m = { s with sweeps := m.sweeps, link := m.link, store := m.store }))
      ∧ (∃ m : State, exec (.sweepStop tag [b]) s = .next m.finish
          ∧ answered s m 0x15 tag .ok
              ([b, 0] ++ be2 w.cyl ++ [BitVec.ofNat 8 w.head, BitVec.ofNat 8 w.depth])
          ∧ requestFrame s m ∧ m.sweeps = s.sweeps.set d { w with state := .off }
          ∧ m = { s with sweeps := m.sweeps, link := m.link, store := m.store }))

/-- DEFINE_DRIVE is refused RANGE or DRIVE_IN_USE, or replaces the drive's geometry whole and makes its sweep
OFF at cylinder 0, head 0: the define form restarts discovery on an ABSENT, NOT_READY or READY drive, and the
discovery that runs on a FAULTED one, whose fault stays latched (R15, R20; log entry 54); the undefine form only
abandons one. Said with no bit error in the store. That a BROKEN record, which has no drive,
does not make the drive in use is log entry 42. -/
def Obligations.DefineDriveByForm : Prop :=
  ∀ (tag : Byte) (p : List Byte) (s : State), p.length = 12 → linkReady s → s.store.flips = [] →
    let g : Geometry :=
      { cylinders := word2 p 1, heads := (p.getD 3 0).toNat, sectors := (p.getD 4 0).toNat
        sectorBytes := word2 p 5, interleave := (p.getD 7 0).toNat, period := (p.getD 8 0).toNat
        checkSeed := BitVec.ofNat 16 (word2 p 9) }
    let undefine := ∀ i, 1 ≤ i → i ≤ 10 → p.getD i 0 = 0
    let c : Instr := .defineDrive tag p
    ((∀ d : Fin 4, (p.getD 0 0).toNat = d.val → (s.drives.get d).fitted = false) →
      onlyAnswers c s 0x05 tag .range [])
    ∧ (∀ d : Fin 4, (p.getD 0 0).toNat = d.val → (s.drives.get d).fitted = true →
      let inUse := (∃ e ∈ s.tracks, e.2.state ≠ .free ∧ ∃ a, e.2.addr = some a ∧ a.drive = d)
        ∨ (s.drives.get d).claim = some .drs ∨ (s.drives.get d).drsWaiting = true
        ∨ (∃ t, s.drs.target = some t ∧ t.addr.drive = d)
        ∨ ((s.units.get d).state ≠ .idle ∧ (s.units.get d).state ≠ .pending)
      (¬ undefine → ¬ geometryGood g → onlyAnswers c s 0x05 tag .range [])
      ∧ (undefine ∨ geometryGood g → inUse → onlyAnswers c s 0x05 tag .driveInUse [])
      ∧ (undefine → ¬ inUse → ∃ m : State, exec c s = .next m.finish
          ∧ answered s m 0x05 tag .ok [] ∧ requestFrame s m
          ∧ m.geometry = s.geometry.set d none
          ∧ m.sweeps = s.sweeps.set d { s.sweeps.get d with state := .off, cyl := 0, head := 0 }
          ∧ m.drives = s.drives.set d { s.drives.get d with discovery := none }
          ∧ m = { s with geometry := m.geometry, sweeps := m.sweeps, drives := m.drives, link := m.link
                         store := m.store })
      ∧ (¬ undefine → geometryGood g → ¬ inUse →
        ∃ m : State, exec c s = .next m.finish
          ∧ answered s m 0x05 tag .accepted [] ∧ requestFrame s m
          ∧ m.geometry = s.geometry.set d (some g)
          ∧ m.sweeps = s.sweeps.set d { s.sweeps.get d with state := .off, cyl := 0, head := 0 }
          ∧ m.drives = s.drives.set d (rediscovered (s.drives.get d))
          ∧ m = { s with geometry := m.geometry, sweeps := m.sweeps, drives := m.drives, link := m.link
                         store := m.store }))

/-- WITHDRAW_DRIVE is refused RANGE, answered OK without effect on a WITHDRAWN drive, and else takes the drive
out of service: its record, the QUEUED tracks that become PENDING with CLASS absent and leave the queue, the
attention and the unit's UNSOLICITED status are those of R34 and R69 (said of a drive that no context, grant,
direct read or wait of its unit is on, with the path free and nobody waiting for it, and with no bit error in
the store). -/
def Obligations.WithdrawDriveEndsItsWork : Prop :=
  ∀ (tag b : Byte) (s : State), linkReady s →
    ((∀ d : Fin 4, b.toNat = d.val → (s.drives.get d).fitted = false) →
      onlyAnswers (.withdrawDrive tag [b]) s 0x06 tag .range [])
    ∧ (∀ d : Fin 4, b.toNat = d.val → (s.drives.get d).fitted = true →
      ((s.drives.get d).state = DriveState.withdrawn → onlyAnswers (.withdrawDrive tag [b]) s 0x06 tag .ok [])
      ∧ ((s.drives.get d).state ≠ DriveState.withdrawn → driveAlone s d → s.store.flips = [] →
          s.port.settings.statusBase ≤ 0xFFFFC0 →
        ∃ m : State, exec (.withdrawDrive tag [b]) s = .next m.finish
          ∧ answered s m 0x06 tag .ok []
          ∧ m.drives = s.drives.set d { s.drives.get d with
              state := .withdrawn, faultKind := none, discovery := none, positioning := none
              cylAt := none, offsetAt := none, claim := none, displacedContext := none
              drsWaiting := false, seekRetried := false }
          ∧ m.tracks = s.tracks.map (fun e => if queuedOn e.2 d then
              (e.1, { e.2 with state := .pending, cls := none }) else e)
          ∧ m.queue = { demand := s.queue.demand.filter (fun n => ¬ queuedOn (s.track n) d)
                        archive := s.queue.archive.filter (fun n => ¬ queuedOn (s.track n) d)
                        sweep := s.queue.sweep.filter (fun n => ¬ queuedOn (s.track n) d) }
          ∧ statusOffered { s with drives := m.drives } m d
          ∧ m.link.attention
              = { s.link.attention with driveChange := s.link.attention.driveChange.set d true }
          ∧ onlyAsks s.store m.store
          ∧ m = { s with drives := m.drives, tracks := m.tracks, queue := m.queue, units := m.units
                         link := m.link, req := m.req, store := m.store }))

/-- RESTORE_DRIVE is refused RANGE, or DRIVE_CONDITION on a drive not WITHDRAWN, and else starts discovery with
recalibration from NOT_READY and enqueues the drive's PENDING records by their ORIGINS. CLEAR_DRIVE_FAULT is
refused on a drive not FAULTED, and else acts by the ready line and the claim as the table of R36 says. A
change of the drive's STATE is offered to its unit as a status (R23, R163). The restoring is said with no bit
error in the store. -/
def Obligations.RestoreAndFaultClearing : Prop :=
  ∀ (tag b : Byte) (s : State), linkReady s → s.Sound →
    ((∀ d : Fin 4, b.toNat = d.val → (s.drives.get d).fitted = false) →
      onlyAnswers (.restoreDrive tag [b]) s 0x07 tag .range []
        ∧ onlyAnswers (.clearDriveFault tag [b]) s 0x08 tag .range [])
    ∧ (∀ d : Fin 4, b.toNat = d.val → (s.drives.get d).fitted = true →
      ((s.drives.get d).state ≠ DriveState.withdrawn →
        onlyAnswers (.restoreDrive tag [b]) s 0x07 tag .driveCondition [])
      ∧ ((s.drives.get d).state = DriveState.withdrawn → driveAlone s d → (s.drives.get d).claim = none →
          s.store.flips = [] →
        ∃ m : State, exec (.restoreDrive tag [b]) s = .next m.finish
          ∧ answered s m 0x07 tag .accepted []
          ∧ (m.drives.get d).state = .notReady ∧ (m.drives.get d).faultKind = none
          ∧ (m.drives.get d).discovery = some { skipRecalibration := false, stage := .awaitAnswer }
          ∧ (∀ e, e ≠ d → m.drives.get e = s.drives.get e)
          ∧ m.link.attention
              = { s.link.attention with driveChange := s.link.attention.driveChange.set d true }
          ∧ (∀ n, pendingOn (s.track n) d → m.track n = { s.track n with
              state := .queued
              cls := some (if (s.track n).origins.archive ∨ (s.track n).origins.system then .archive
                           else .sweep) })
          ∧ (∀ n, ¬ pendingOn (s.track n) d → m.track n = s.track n)
          ∧ m.queue.demand = s.queue.demand
          ∧ (∃ l, m.queue.archive = s.queue.archive ++ l ∧ l.Pairwise (· < ·)
              ∧ ∀ n, n ∈ l ↔ pendingOn (s.track n) d
                  ∧ ((s.track n).origins.archive = true ∨ (s.track n).origins.system = true))
          ∧ (∃ l, m.queue.sweep = s.queue.sweep ++ l ∧ l.Pairwise (· < ·)
              ∧ ∀ n, n ∈ l ↔ pendingOn (s.track n) d
                  ∧ (s.track n).origins.archive = false ∧ (s.track n).origins.system = false)
          ∧ onlyAsks s.store m.store ∧ m.geometry = s.geometry ∧ m.locks = s.locks ∧ m.ctxs = s.ctxs
          ∧ (s.port.settings.statusBase ≤ 0xFFFFC0 → statusOffered { s with drives := m.drives } m d
              ∧ m = { s with drives := m.drives, tracks := m.tracks, queue := m.queue, units := m.units
                             link := m.link, req := m.req, store := m.store }))
      ∧ ((s.drives.get d).state ≠ DriveState.faulted →
        onlyAnswers (.clearDriveFault tag [b]) s 0x08 tag .driveCondition [])
      ∧ ((s.drives.get d).state = DriveState.faulted →
        ((s.drives.get d).claim ≠ none → (s.drives.get d).readyLine = false →
          ∃ m : State, exec (.clearDriveFault tag [b]) s = .next m.finish
            ∧ answered s m 0x08 tag .ok [] ∧ requestFrame s m
            ∧ m = { s with link := m.link
                           drives := s.drives.set d { s.drives.get d with
                             seekRetried := false, faultKind := some .readyDrop } })
        ∧ ((s.drives.get d).claim ≠ none → (s.drives.get d).readyLine = true →
          ∃ m : State, exec (.clearDriveFault tag [b]) s = .next m.finish
            ∧ answered s m 0x08 tag .accepted [] ∧ requestFrame s m
            ∧ m = { s with link := m.link
                           drives := s.drives.set d { s.drives.get d with
                             seekRetried := false
                             discovery := some { skipRecalibration := true, stage := .awaitAnswer } } })
        ∧ ((s.drives.get d).claim = none → driveAlone s d →
          ∃ m : State, exec (.clearDriveFault tag [b]) s = .next m.finish
            ∧ answered s m 0x08 tag (if (s.drives.get d).readyLine then .accepted else .ok) []
            ∧ m.drives = s.drives.set d { s.drives.get d with
                state := .notReady, faultKind := none, seekRetried := false
                discovery := if (s.drives.get d).readyLine then
                    some { skipRecalibration := true, stage := .awaitAnswer }
                  else (s.drives.get d).discovery }
            ∧ m.link.attention
                = { s.link.attention with driveChange := s.link.attention.driveChange.set d true }
            ∧ m.tracks = s.tracks ∧ m.queue = s.queue ∧ m.store = s.store ∧ m.ctxs = s.ctxs
            ∧ (s.port.settings.statusBase ≤ 0xFFFFC0 → statusOffered { s with drives := m.drives } m d
                ∧ m = { s with drives := m.drives, units := m.units, link := m.link, req := m.req }))))

end DriveRequests


section DriveSide

open Sys2Proof Sys2Proof.Machine Sys2Proof.Stated

/-- A fall or rise of a drive's ready line and a rise of its fault line act as R20 to R22 say where the lines
are watched and the drive is fitted, and else change no more than the level noted: an unwatched rise of the fault
line is held for the discovery that finds it (R21; log entry 13). That a fault rise ends the discovery that runs on
a FAULTED drive is the model's reading of R20 (log entry 64). -/
def Obligations.DriveLinesWatched : Prop :=
  ∀ (d : Fin 4) (s : State),
    let r := s.drives.get d
    let low : DriveRec := { r with readyLine := false }
    let high : DriveRec := { r with readyLine := true }
    let resting := r.state = DriveState.notReady ∨ r.state = DriveState.absent
    (¬ linesWatched s d ∨ r.state = DriveState.withdrawn
          ∨ (r.state ≠ DriveState.ready ∧ r.discovery = none) →
      exec (.readyLineFall d) s = .next (onlyDrive s d low).finish)
    ∧ (linesWatched s d → r.state = DriveState.faulted → r.discovery ≠ none → r.claim ≠ none →
      exec (.readyLineFall d) s = .next (onlyDrive s d { low with discovery := none }).finish)
    ∧ (linesWatched s d → r.state = DriveState.ready ∨ (resting ∧ r.discovery ≠ none) → r.claim ≠ none →
      ∃ m : State, exec (.readyLineFall d) s = .next m.finish
        ∧ driveChanged s m d (latched low .readyDrop) false)
    ∧ (linesWatched s d → r.state ≠ DriveState.withdrawn → r.state = DriveState.ready ∨ r.discovery ≠ none →
        r.claim = none →
      ∃ m : State, exec (.readyLineFall d) s = .next m.finish
        ∧ driveChanged s m d { low with state := .notReady, faultKind := none, discovery := none } false)
    ∧ (¬ linesWatched s d ∨ ¬ resting ∨ r.discovery ≠ none →
      exec (.readyLineRise d) s = .next (onlyDrive s d high).finish)
    ∧ (linesWatched s d → resting → r.discovery = none →
      exec (.readyLineRise d) s = .next (onlyDrive s d (atStage high false .awaitAnswer)).finish)
    ∧ (¬ linesWatched s d → exec (.faultLineRise d) s = .next (onlyDrive s d { r with faultHeld := true }).finish)
    ∧ (linesWatched s d → r.state = DriveState.withdrawn →
      exec (.faultLineRise d) s = .next (onlyDrive s d { r with faultHeld := false }).finish)
    ∧ (linesWatched s d → r.state = DriveState.faulted →
      exec (.faultLineRise d) s = .next (onlyDrive s d { r with discovery := none, faultHeld := false }).finish)
    ∧ (linesWatched s d → r.state ≠ DriveState.faulted → r.state ≠ DriveState.withdrawn →
      ∃ m : State, exec (.faultLineRise d) s = .next m.finish
        ∧ driveChanged s m d (latched { r with faultHeld := false } .driveSignalled) false)

/-- A discovery goes through its stages as R19 orders them: the answer line, the recalibration and its one
repeat, the pulses counted from one index to the next; it ends with the outcome that R19 gives, and an index
missed outside it latches a READY drive (R22). A fault level that rose while the lines were not watched is found
when the drive answers, before its ready line is looked at, and found once (R21; log entry 13). The index is that
of a drive with no revolution granted, and the count's comparison with the geometry, which it reads (log entry 24),
is said with no bit error in the store. An event that no stage awaits changes nothing, which is the model's choice
(log entry 1). -/
def Obligations.DiscoveryByStages : Prop :=
  ∀ (d : Fin 4) (s : State),
    let r := s.drives.get d
    let counted (n : Nat) : Bool := (s.geometry.get d).any (fun g => g.sectors ≠ min 63 n)
    let begun := ∃ skip, r.discovery = some { skipRecalibration := skip, stage := .awaitAnswer }
    let counting := (∃ skip, r.discovery = some { skipRecalibration := skip, stage := .awaitIndex })
      ∨ ∃ skip n, r.discovery = some { skipRecalibration := skip, stage := .counting n }
    (¬ begun → exec (.driveAnswer d) s = .next s.finish ∧ exec (.answerTimeout d) s = .next s.finish)
    ∧ (∀ skip, r.discovery = some { skipRecalibration := skip, stage := .awaitAnswer } →
      (r.faultHeld = true → ∃ m : State, exec (.driveAnswer d) s = .next m.finish
          ∧ driveChanged s m d (discoveryFault { r with faultHeld := false } .driveSignalled) false)
      ∧ (r.faultHeld = false → r.readyLine = true → exec (.driveAnswer d) s = .next (onlyDrive s d
          (atStage r skip (if skip then .awaitIndex else .recalibrating false))).finish)
      ∧ (r.faultHeld = false → r.readyLine = false → ∃ m : State, exec (.driveAnswer d) s = .next m.finish
          ∧ driveChanged s m d
              (if r.claim = none then discoveryEnds r .notReady else discoveryFault r .readyDrop) false)
      ∧ (∃ m : State, exec (.answerTimeout d) s = .next m.finish
          ∧ driveChanged s m d
              (if r.claim = none then discoveryEnds r .absent else discoveryFault r .readyDrop) false))
    ∧ (∀ skip again, r.discovery = some { skipRecalibration := skip, stage := .recalibrating again } →
      exec (.seekDone d) s = .next (onlyDrive s d
          { atStage r skip .awaitIndex with cylAt := some 0, offsetAt := some .centre }).finish
      ∧ (again = false → exec (.recalibrationTimeout d) s
          = .next (onlyDrive s d (atStage r skip (.recalibrating true))).finish)
      ∧ (again = true → ∃ m : State, exec (.recalibrationTimeout d) s = .next m.finish
          ∧ driveChanged s m d (discoveryFault r .seekFail) false))
    ∧ (∀ skip, r.discovery = some { skipRecalibration := skip, stage := .awaitIndex } →
      ((∀ g, s.path.grant = some g → g.addr.drive ≠ d) →
        exec (.index d) s = .next (onlyDrive s d (atStage r skip (.counting 0))).finish)
      ∧ exec (.markPulse d) s = .next s)
    ∧ (∀ skip n, r.discovery = some { skipRecalibration := skip, stage := .counting n } →
      exec (.markPulse d) s = .next (onlyDrive s d (atStage r skip (.counting (min 63 (n + 1)))))
      ∧ ((∀ g, s.path.grant = some g → g.addr.drive ≠ d) → s.store.flips = [] →
        ∃ (m : State) (x : StoreRec), exec (.index d) s = .next m.finish ∧ onlyAsks s.store x
          ∧ driveChanged { s with store := x } m d
              (discoveryEnds { r with observedSectors := min 63 n } .ready) (counted n)))
    ∧ (¬ counting → exec (.markPulse d) s = .next s)
    ∧ (counting → ∃ m : State, exec (.indexLost d) s = .next m.finish
        ∧ driveChanged s m d (discoveryFault r .indexLost) false)
    ∧ (¬ counting → linesWatched s d → r.state = DriveState.ready →
        ∃ m : State, exec (.indexLost d) s = .next m.finish
          ∧ driveChanged s m d (latched r .indexLost) false)
    ∧ (¬ counting → ¬ linesWatched s d ∨ r.state ≠ DriveState.ready →
        exec (.indexLost d) s = .next s.finish)

/-- A positioning goes through its stages as R24 and R25 order them: a seek ends at its cylinder, one that runs
out of time is made again once after a recalibration, and the offset settles last; a second failure latches
SEEK_FAIL. Said of a drive that is in no recalibration of a discovery and that no direct read waits for. An
event that the positioning does not await changes nothing, which is the model's choice (log entry 1). -/
def Obligations.PositioningByStages : Prop :=
  ∀ (d : Fin 4) (s : State),
    let r := s.drives.get d
    (∀ skip again, r.discovery ≠ some { skipRecalibration := skip, stage := .recalibrating again }) →
    (r.positioning = none →
      exec (.seekDone d) s = .next s.finish ∧ exec (.seekTimeout d) s = .next s.finish
        ∧ exec (.recalibrationTimeout d) s = .next s.finish ∧ exec (.settleEnd d) s = .next s.finish)
    ∧ (∀ cyl offset, r.drsWaiting = false →
      (r.positioning = some { cyl := cyl, offset := offset, stage := .seeking } →
        (r.offsetAt ≠ some offset → exec (.seekDone d) s = .next (onlyDrive s d
            { r with cylAt := some cyl, offsetAt := none
                     positioning := some { cyl := cyl, offset := offset, stage := .settling } }).finish)
        ∧ (r.offsetAt = some offset → ∃ m : State, exec (.seekDone d) s = .next m.finish
            ∧ positioned s m d { r with cylAt := some cyl })
        ∧ (r.seekRetried = false → exec (.seekTimeout d) s = .next (onlyDrive s d
            { r with seekRetried := true
                     positioning := some { cyl := cyl, offset := offset, stage := .recalibrating true } }).finish)
        ∧ (r.seekRetried = true → r.fitted = true → r.state = DriveState.ready →
            ∃ m : State, exec (.seekTimeout d) s = .next m.finish
              ∧ driveChanged s m d (latched r .seekFail) false)
        ∧ exec (.recalibrationTimeout d) s = .next s.finish ∧ exec (.settleEnd d) s = .next s.finish)
      ∧ (∀ again, r.positioning = some { cyl := cyl, offset := offset, stage := .recalibrating again } →
        (again = true ∨ cyl ≠ 0 → exec (.seekDone d) s = .next (onlyDrive s d
            { r with cylAt := none, offsetAt := some .centre
                     positioning := some { cyl := cyl, offset := offset, stage := .seeking } }).finish)
        ∧ (again = false → cyl = 0 → offset ≠ .centre → exec (.seekDone d) s = .next (onlyDrive s d
            { r with cylAt := some 0, offsetAt := none
                     positioning := some { cyl := cyl, offset := offset, stage := .settling } }).finish)
        ∧ (again = false → cyl = 0 → offset = .centre → ∃ m : State, exec (.seekDone d) s = .next m.finish
            ∧ positioned s m d { r with cylAt := some 0, offsetAt := some .centre })
        ∧ (r.fitted = true → r.state = DriveState.ready →
            ∃ m : State, exec (.recalibrationTimeout d) s = .next m.finish
              ∧ driveChanged s m d (latched r .seekFail) false)
        ∧ exec (.seekTimeout d) s = .next s.finish ∧ exec (.settleEnd d) s = .next s.finish)
      ∧ (r.positioning = some { cyl := cyl, offset := offset, stage := .settling } →
        (∃ m : State, exec (.settleEnd d) s = .next m.finish
            ∧ positioned s m d { r with offsetAt := some offset })
        ∧ exec (.seekDone d) s = .next s.finish ∧ exec (.seekTimeout d) s = .next s.finish
        ∧ exec (.recalibrationTimeout d) s = .next s.finish))

end DriveSide

section ReadPath

open Sys2Proof Sys2Proof.Machine Sys2Proof.Stated

/-- Each slot of a track holds exactly one logical sector: the slot of sector k is k × INTERLEAVE modulo
SECTORS, and an attempt in a slot is credited to the one sector whose slot it is. -/
def Obligations.SlotHoldsOneSector : Prop :=
  ∀ g : Geometry, g.valid = true →
    (∀ k, g.slotOf k = k * g.interleave % g.sectors)
    ∧ g.slotOf 0 = 0
    ∧ (∀ k, k + 1 < g.sectors → g.slotOf (k + 1) = (g.slotOf k + g.interleave) % g.sectors)
    ∧ (∀ slot, slot < g.sectors → g.sectorAt slot < g.sectors ∧ g.slotOf (g.sectorAt slot) = slot)
    ∧ (∀ j k, j < g.sectors → k < g.sectors → g.slotOf j = g.slotOf k → j = k)

/-- Within an open revolution HEADER_FIELD gives the slot its first header's result, DATA_FIELD takes the data
field of a wanted slot that looks for one, writes it to the holder's capture and judges its check, and
BLIND_WINDOW_CLOSE leaves a blind attempt without a field NO_SYNC. A field that is still being taken when its
slot's window has closed is taken whole at its DATA_FIELD: its sector's attempt, if wanted still, is captured
and its report delivered. Fields outside a window change nothing (log entry 1), a header belongs to the slot
whose window is open (log entry 14), and bytes that a field lacks read as 0 (log entry 26). That an addressed header
after a blind field of the same window leaves that field no attempt's is log entry 63, and that the geometry record
is read at the opening index, not at each field, is log entry 24. -/
def Obligations.FieldsTakenInTheirWindow : Prop :=
  ∀ (h : HeaderBytes) (inBlind : Bool) (bytes : List Byte) (s : State),
    ((∀ g geo, ¬ openRevolution s g geo) →
      exec (.headerField h) s = .next s ∧ exec (.dataField inBlind bytes) s = .next s.finish
        ∧ exec .blindWindowClose s = .next s)
    ∧ (∀ g geo, openRevolution s g geo →
      let v := s.path.rev
      let x := headerIs geo.checkSeed g.addr h
      let k := geo.sectorAt v.slot
      let field := (bytes ++ List.replicate (geo.sectorBytes + 2) 0).take (geo.sectorBytes + 2)
      let judged : AttemptOutcome :=
        if field = withCheck geo.checkSeed (field.take geo.sectorBytes) then .good else .checkFail
      let takes := v.slot < geo.sectors ∧ v.data = none ∧ wantedNow s g.holder k
        ∧ ((∃ f, v.header = .addressed f) ∨ (g.blind = true ∧ inBlind = true ∧ blindHeader v.header))
      (geo.sectors ≤ v.slot ∨ v.taking ≠ none ∨ v.header ≠ .noHeader → exec (.headerField h) s = .next s)
      ∧ (v.slot < geo.sectors → v.taking = none → v.header = .noHeader →
        exec (.headerField h) s = .next (onlyRev s
          { v with header := x, data := if x = .headerCheck then v.data else none
                   anyVerified := v.anyVerified || decide (x ≠ .headerCheck)
                   anyAddressed := v.anyAddressed || decide (x = .addressed h.flag) }))
      ∧ (∀ f, v.taking = some f → ¬ wantedNow s g.holder (geo.sectorAt f.slot) →
        exec (.dataField inBlind bytes) s = .next (onlyRev s { v with taking := none }).finish)
      ∧ (∀ f, v.taking = some f → wantedNow s g.holder (geo.sectorAt f.slot) →
        let report := takenReport (geo.sectorAt f.slot) f.header judged g.blind
        (g.holder = .drs → exec (.dataField inBlind bytes) s = .next
          (({ onlyRev s { v with taking := none } with
              drs := { s.drs with capture := field } } : State).deliverReport .drs report).finish)
        ∧ (∀ c, g.holder = .ctx c → s.Sound → s.store.flips = [] →
          let base := (s.usable + 32 + 8 * c.val) * 16384
            + geo.sectorAt f.slot * ((geo.sectorBytes + 2 + 7) / 8 * 8)
          ∃ m : State, exec (.dataField inBlind bytes) s = .next (m.deliverReport (.ctx c) report).finish
            ∧ readBytes m.store.mem base (geo.sectorBytes + 2) = field
            ∧ (∀ a, a < base ∨ base + (geo.sectorBytes + 2) ≤ a →
                readByte m.store.mem a = readByte s.store.mem a)
            ∧ onlyAsks { s.store with mem := m.store.mem } m.store
            ∧ m = { onlyRev s { v with taking := none } with store := m.store }))
      ∧ (v.taking = none → ¬ takes → exec (.dataField inBlind bytes) s = .next s.finish)
      ∧ (v.taking = none → takes → g.holder = .drs → exec (.dataField inBlind bytes) s
          = .next ({ onlyRev s { v with data := some judged } with
              drs := { s.drs with capture := field } } : State).finish)
      ∧ (∀ c, v.taking = none → takes → g.holder = .ctx c → s.Sound → s.store.flips = [] →
        let base := (s.usable + 32 + 8 * c.val) * 16384 + k * ((geo.sectorBytes + 2 + 7) / 8 * 8)
        ∃ m : State, exec (.dataField inBlind bytes) s = .next m.finish
          ∧ readBytes m.store.mem base (geo.sectorBytes + 2) = field
          ∧ (∀ a, a < base ∨ base + (geo.sectorBytes + 2) ≤ a →
              readByte m.store.mem a = readByte s.store.mem a)
          ∧ onlyAsks { s.store with mem := m.store.mem } m.store
          ∧ m = { onlyRev s { v with data := some judged } with store := m.store })
      ∧ (v.slot < geo.sectors → g.blind = true → blindHeader v.header → v.data = none → v.taking = none →
        exec .blindWindowClose s = .next (onlyRev s { v with data := some .noSync }))
      ∧ (geo.sectors ≤ v.slot ∨ g.blind = false ∨ ¬ blindHeader v.header ∨ v.data ≠ none ∨ v.taking ≠ none →
        exec .blindWindowClose s = .next s))

/-- PITCH_WINDOW_CLOSE opens the next slot's window: an attempt whose field is still being taken is left to end,
and any other one of a wanted sector is classified by its header and data and its report delivered; a blind
one is held to the end of the revolution, and the failed header of a step that is not blind is counted in the
sector's record. INDEX opens a granted revolution, and closes it: COMPLETE it counts for a context and asks for
the evaluation, and grants the Direct Read Slot its next revolution or ends the read after the third; as a
MIS_SEEK it counts nothing and recalibrates the drive, or latches SEEK_FAIL (outside DRAINING). The index is said
with no bit error in the store (the opening one reads the geometry record, log entry 24), and closing with nobody
waiting for the path or the drive and no report held. Left out: a MIS_SEEK
of the Direct Read Slot with SEEK_RETRIED yes, and the closing index while the controller drains. The model's
choices are that `taking` is told by the sender, that with nothing open nothing happens (log entries 1, 14 and
43), and that at the closing index an attempt whose field is still being taken, or whose slot's window has not
closed, gives no report (log entry 15). -/
def Obligations.AttemptsClassifiedAtTheClose : Prop :=
  ∀ (taking : Bool) (s : State),
    ((∀ g geo, ¬ openRevolution s g geo) → exec (.pitchWindowClose taking) s = .next s.finish)
    ∧ (∀ g geo, openRevolution s g geo →
      let v := s.path.rev
      let k := geo.sectorAt v.slot
      let still := taking = true ∧ v.taking = none ∧ v.data = none ∧ looks g v.header
      (geo.sectors ≤ v.slot → exec (.pitchWindowClose taking) s = .next s.finish)
      ∧ (v.slot < geo.sectors → ¬ wantedNow s g.holder k → ¬ still →
        exec (.pitchWindowClose taking) s = .next (onlyRev s (nextSlot v)).finish)
      ∧ (v.slot < geo.sectors → still →
        exec (.pitchWindowClose taking) s = .next (onlyRev s
          { nextSlot v with taking := some { slot := v.slot, header := v.header } }).finish)
      ∧ (v.slot < geo.sectors → wantedNow s g.holder k → ¬ still →
        exec (.pitchWindowClose taking) s = .next ((onlyRev s (nextSlot v)).deliverReport g.holder
          (takenReport k v.header (v.data.getD .noSync) g.blind)).finish)
      ∧ (v.slot < geo.sectors → wantedNow s g.holder k → ¬ still → g.blind = true → blindHeader v.header →
        exec (.pitchWindowClose taking) s = .next (onlyRev s
          { nextSlot v with
            held := v.held ++ [blindReport k v] }).finish)
      ∧ (∀ c n, v.slot < geo.sectors → wantedNow s g.holder k →
          (v.header = .wrongAddress ∨ (g.blind = false ∧ blindHeader v.header)) → g.holder = .ctx c →
          (s.ctxs.get c).track = some n → s.Sound → s.store.flips = [] → (s.track n).state ≠ .free →
        let x := (s.track n).sectors.getD k SectorRec.fresh
        ∃ m : State, exec (.pitchWindowClose taking) s = .next m.finish
          ∧ onlyTrack s m n { s.track n with
              sectors := (s.track n).sectors.set k (headerFaultCounted x) }
          ∧ onlyAsks s.store m.store
          ∧ m = { onlyRev s (nextSlot v) with tracks := m.tracks, store := m.store })
      ∧ (v.slot < geo.sectors → wantedNow s g.holder k →
          (v.header = .wrongAddress ∨ (g.blind = false ∧ blindHeader v.header)) → g.holder = .drs →
        exec (.pitchWindowClose taking) s = .next ({ onlyRev s (nextSlot v) with
          drs := { s.drs with attempts := min 255 (s.drs.attempts + 1) } } : State).finish))
    ∧ (∀ (d : Fin 4) (g : Grant), (s.drives.get d).discovery = none → s.path.grant = some g →
        g.addr.drive = d →
      (g.opened = false → s.store.flips = [] → ∃ x : StoreRec, onlyAsks s.store x
        ∧ exec (.index d) s = .next ({ s with
          store := x
          path := { s.path with
            grant := some { g with opened := true }
            rev := { slot := 0, header := .noHeader, data := none, taking := none, anyVerified := false
                     anyAddressed := false, held := [] } } } : State).finish)
      ∧ (g.opened = true → s.path.rev.held = [] → s.store.flips = [] → (s.drives.get d).drsWaiting = false →
          (∀ c', (s.ctxs.get c').state ≠ .waitPath) → s.drs.state ≠ .waitPath →
        let r := s.drives.get d
        let found := s.path.rev.anyVerified = false ∨ s.path.rev.anyAddressed = true
        let open_ : PathRec := { s.path with grant := none, rev := Revolution.start }
        (∀ c n, found → g.holder = .ctx c → (s.ctxs.get c).track = some n →
            (s.ctxs.get c).state = .reading → s.Sound → (s.track n).state ≠ .free →
          ∃ m : State, exec (.index d) s = .next m.finish
            ∧ onlyTrack s m n { s.track n with totalRevs := min 65535 ((s.track n).totalRevs + 1) }
            ∧ m.drives = s.drives.set d { r with seekRetried := false }
            ∧ m.path.grant = none
            ∧ m.ctxs = s.ctxs.set c { s.ctxs.get c with
                state := .evaluating, evaluation := .inLadder, wanted := [] }
            ∧ m.vote = { s.vote with requests := s.vote.requests ++ [ladderRequest s c n] }
            ∧ onlyAsks s.store m.store
            ∧ m = { s with tracks := m.tracks, drives := m.drives, path := m.path, ctxs := m.ctxs
                           vote := m.vote, store := m.store })
        ∧ (∀ x, found → g.holder = .drs → s.drs.target = some x → s.drs.revsTried < 2 →
          exec (.index d) s = .next ({ s with
            drives := s.drives.set d { r with seekRetried := false }
            path := { open_ with
              grant := some { holder := .drs, addr := x.addr, strobe := .nominal, blind := false
                              opened := false } }
            drs := { s.drs with revsTried := s.drs.revsTried + 1, state := .reading } } : State).finish)
        ∧ (∀ u, found → g.holder = .drs → s.drs.serving = some u → 2 ≤ s.drs.revsTried →
            s.port.settings.statusBase ≤ 0xFFFFC0 →
          ∃ m : State, exec (.index d) s = .next m.finish
            ∧ listEnds s m u .check [.dataCheck] ∧ (m.units.get u).sense.reason = .directFailed
            ∧ (m.units.get u).sense.attempts = s.drs.attempts
            ∧ (m.units.get u).sense.checkFails = s.drs.checkFails
            ∧ m.drs = { DrsRec.reset with waitingUnits := s.drs.waitingUnits })
        ∧ (∀ c n st a, ¬ found → g.holder = .ctx c → (s.ctxs.get c).track = some n →
            (s.ctxs.get c).step = some st → (s.track n).addr = some a → a.drive = d →
            s.ctl.state ≠ .draining →
          let lost : CtxRec := { s.ctxs.get c with wanted := [] }
          (r.seekRetried = false → exec (.index d) s = .next ({ s with
              path := open_
              ctxs := s.ctxs.set c { lost with state := .positioning }
              drives := s.drives.set d { r with
                cylAt := none, seekRetried := true
                positioning := some { cyl := a.cyl, offset := st.step.offset, stage := .recalibrating false } }
              } : State).finish)
          ∧ (r.seekRetried = true → r.fitted = true → r.state = DriveState.ready → r.claim = some (.ctx c) →
            ∃ m : State, exec (.index d) s = .next m.finish
              ∧ m.drives = s.drives.set d (latched r .seekFail)
              ∧ m.ctxs = s.ctxs.set c { lost with state := .faultHold } ∧ m.path = open_
              ∧ m.link.attention.driveChange.get d = true ∧ m.tracks = s.tracks ∧ m.vote = s.vote))
        ∧ (∀ x, ¬ found → g.holder = .drs → s.drs.target = some x → x.addr.drive = d →
            r.seekRetried = false →
          exec (.index d) s = .next ({ s with
            path := open_
            drs := { s.drs with state := .positioning }
            drives := s.drives.set d { r with
              cylAt := none, seekRetried := true
              positioning := some { cyl := x.addr.cyl, offset := .centre, stage := .recalibrating false } }
            } : State).finish)))

/-- A blind report is held to the end of the revolution, any other one is handed over at once; one whose sector is
wanted no more is dropped (R12). A context counts a report in the sector's record and notes its FLAG (R88): a
FLAG of 0x80 or above makes the sector MARKED, GOOD makes it CLEAN with the captured bytes in its frame (R89),
CHECK_FAIL makes the captured bytes its newest candidate, in the place of the oldest of seven or at the lowest
position not in use (R90), and any other outcome is counted only. The Direct Read Slot counts it and ends its
unit's list on a marked header, or delivers the sector on GOOD (R157). Said of an unresolved sector of an ACTIVE
track, with no bit error in the store. -/
def Obligations.ReportsActOnTheSector : Prop :=
  ∀ (s : State) (p : Report),
    let marked := ∃ f, p.flag = some f ∧ 0x80 ≤ f.toNat
    (∀ h, p.blind = true →
      s.deliverReport h p = onlyRev s { s.path.rev with held := s.path.rev.held ++ [p] })
    ∧ (∀ h, p.blind = false → s.deliverReport h p = s.handOver h p)
    ∧ (∀ h, ¬ wantedNow s h p.sector → s.handOver h p = s)
    ∧ (∀ c n, wantedNow s (.ctx c) p.sector → (s.ctxs.get c).track = some n → s.Sound → s.store.flips = [] →
        (s.track n).state = .active → (s.track n).context = some c →
        p.sector < (s.track n).sectors.length →
        (((s.track n).sectors.getD p.sector SectorRec.fresh).status = .pending
          ∨ ((s.track n).sectors.getD p.sector SectorRec.fresh).status = .damaged) →
      let r := s.track n
      let k := p.sector
      let b := r.sectorBytes
      let entry (pos : Nat) : Nat := (s.usable + 32 + 8 * c.val + pos) * 16384 + k * ((b + 2 + 7) / 8 * 8)
      let x := attemptCounted (r.sectors.getD k SectorRec.fresh) p
      let told : CtxRec := { s.ctxs.get c with
        lastFlags := if p.flag = none then (s.ctxs.get c).lastFlags else (s.ctxs.get c).lastFlags.set k p.flag }
      let resolved : CtxRec := { told with
        candidates := told.candidates.set k [], wanted := told.wanted.filter (· ≠ k) }
      let captured := readBytes s.store.mem (entry 0) (b + 2)
      let list := told.candidates.getD k []
      let m := s.handOver (.ctx c) p
      (marked → onlyTrack s m n { r with
            revision := r.revision + 1, exported := false
            sectors := r.sectors.set k { x with status := .marked, headerFlag := p.flag } }
          ∧ m.ctxs = s.ctxs.set c resolved ∧ onlyAsks s.store m.store)
      ∧ (¬ marked → p.outcome = .good →
          onlyTrack s m n { r with
            revision := r.revision + 1, exported := false
            sectors := r.sectors.set k { x with
              status := .clean, resolvedStep := told.step.map (·.index), blind := p.blind
              headerFlag := told.lastFlags.getD k none } }
          ∧ m.ctxs = s.ctxs.set c resolved
          ∧ readBytes m.store.mem (n * 16384 + k * b) b = captured.take b
          ∧ (∀ a, a < n * 16384 + k * b ∨ n * 16384 + k * b + b ≤ a →
              readByte m.store.mem a = readByte s.store.mem a)
          ∧ onlyAsks { s.store with mem := m.store.mem } m.store)
      ∧ (¬ marked → p.outcome = .checkFail → ∃ pos,
          (7 ≤ list.length → list.head? = some pos)
          ∧ (list.length < 7 → 1 ≤ pos ∧ pos ≤ 7 ∧ pos ∉ list ∧ ∀ j, 1 ≤ j → j < pos → j ∈ list)
          ∧ onlyTrack s m n { r with sectors := r.sectors.set k x }
          ∧ m.ctxs = s.ctxs.set c { told with
              candidates := told.candidates.set k ((if 7 ≤ list.length then list.tail else list) ++ [pos]) }
          ∧ readBytes m.store.mem (entry pos) (b + 2) = captured
          ∧ (∀ a, a < entry pos ∨ entry pos + (b + 2) ≤ a →
              readByte m.store.mem a = readByte s.store.mem a)
          ∧ onlyAsks { s.store with mem := m.store.mem } m.store)
      ∧ (¬ marked → p.outcome ≠ .good → p.outcome ≠ .checkFail →
          onlyTrack s m n { r with sectors := r.sectors.set k x } ∧ m.ctxs = s.ctxs.set c told
          ∧ onlyAsks s.store m.store)
      ∧ m = { s with tracks := m.tracks, ctxs := m.ctxs, store := m.store })
    ∧ (∀ u, wantedNow s .drs p.sector → s.drs.serving = some u →
        s.port.settings.statusBase ≤ 0xFFFFC0 →
      let attempts := min 255 (s.drs.attempts + 1)
      let fails := if p.outcome = .checkFail then min 255 (s.drs.checkFails + 1) else s.drs.checkFails
      let r := s.units.get u
      let data := s.drs.capture.take (s.drs.capture.length - 2)
      let share := min r.residual data.length
      let n := min s.port.settings.burst ((share + 1) / 2)
      let m := s.handOver .drs p
      (¬ marked → p.outcome ≠ .good → m = { s with drs := { s.drs with attempts := attempts, checkFails := fails } })
      ∧ (marked → listEnds s m u .check [.dataCheck] ∧ (m.units.get u).sense.reason = .marked
          ∧ (m.units.get u).sense.attempts = attempts ∧ (m.units.get u).sense.checkFails = fails
          ∧ m.drs = { DrsRec.reset with waitingUnits := s.drs.waitingUnits })
      ∧ (¬ marked → p.outcome = .good → r.dataAt + 2 * n ≤ 0x1000000 →
          (m.units.get u).state = .run ∧ (m.units.get u).buffer = data
          ∧ (m.units.get u).guess = false ∧ (m.units.get u).waitOn = none
          ∧ (m.units.get u).transfer = some { kind := .deliver, key := s.port.settings.key.get u
                                              addr := r.dataAt, left := share, out := data.take share, got := [] }
          ∧ m.req = unitAsks s.req u { claimant := .unit u, direction := .store, addr := r.dataAt, count := n
                                       key := s.port.settings.key.get u
                                       words := busWords ((data.take share).take (2 * n)) }
          ∧ m.drs = { DrsRec.reset with waitingUnits := s.drs.waitingUnits }))

end ReadPath

section StoreSide

open Sys2Proof Sys2Proof.Machine Sys2Proof.Stated

/-- REFRESH_TIMER makes a refresh due only while a burst runs, STORE_BURST_END frees the store, performs the due
refresh and tests the words it read as R121, R122 and R126 say, a free store grants the waiting claimant that
comes first by the ranks and turns of R125, and SCRUB_GROUP advances the cursor by eight words and counts a pass
at the end of the store. With a burst of the Vote Unit its reading goes on (voteBurst, which VotesByPlurality
states). The model's choices: the bit errors are operands (log entry 6), a burst end with no burst changes nothing
(log entries 1 and 9), TABLE takes the Vote Unit's turn outside the walks too (log entry 37), the walk of FORMAT
and the rescan asks again as long as its phase lasts (log entry 57), and of LAST_UNCORRECTED the OWNER of a word
that nobody uses (log entry 25), FOUND_BY (log entry 24) and the word that holds DIVERGED (log entry 7). -/
def Obligations.StoreTimersAndBursts : Prop :=
  ∀ (s : State),
    let words := s.ctl.sizeInUse * 131072
    let ended : StoreRec := { s.store with burst := none, refreshDue := false }
    let running := s.ctl.state = .ready ∨ s.ctl.state = .draining
    (exec (.refreshTimer []) s
        = .next { s with store := { s.store with
            refreshDue := s.store.timerRunning && s.store.burst.isSome } })
    ∧ (∀ w kind, ∃ t, exec (.refreshTimer [(w, kind)]) s = .next t
        ∧ (w < words → assocFind w t.store.flips
            = some (if assocFind w s.store.flips = none then kind else .uncorrectable))
        ∧ (∀ u, u ≠ w ∨ words ≤ w → assocFind u t.store.flips = assocFind u s.store.flips)
        ∧ t = { s with store := { s.store with
            refreshDue := s.store.timerRunning && s.store.burst.isSome, flips := t.store.flips } })
    ∧ (∀ ws, s.store.burst = none → exec (.storeBurstEnd ws) s = .next s)
    ∧ (∀ cl, s.store.burst = some cl →
      let goesOn (t : State) : State := if cl = .vote then t.voteBurst else t
      (∀ ws, (∀ w ∈ ws, w < words → assocFind w s.store.flips = none) →
        exec (.storeBurstEnd ws) s = .next (goesOn { s with store := ended }).finish)
      ∧ (∀ w, w < words → assocFind w s.store.flips = some .single →
        exec (.storeBurstEnd [w]) s = .next (goesOn { s with store := { ended with
          flips := assocDel w s.store.flips, corrected := min 65535 (s.store.corrected + 1) } }).finish)
      ∧ (∀ w, w < words → assocFind w s.store.flips = some .uncorrectable → s.Sound →
        ∃ m : State, exec (.storeBurstEnd [w]) s = .next (goesOn m).finish
          ∧ m.link.attention.store = true ∧ m.port.storeError = true
          ∧ (ownerQuiet s (s.wordOwner w) → wordLost s m cl w ∧ ownerHit s m (s.wordOwner w))))
    ∧ (s.store.burst ≠ none → s.grantStore = s)
    ∧ (s.store.burst = none →
      let asks : List StoreClaimant :=
        if s.ctl.state = .starting ∧ (s.ctl.phase = some .format ∨ s.ctl.phase = some .rescan) then
          s.store.asks ++ [.table]
        else s.store.asks
      (∀ cl ∈ asks, (∀ cl' ∈ asks, storePlace s.store cl ≤ storePlace s.store cl') →
        ∃ b ∈ asks, storePlace s.store b = storePlace s.store cl
          ∧ s.grantStore = { s with store := { s.store with
              burst := some b
              asks := s.store.asks.erase b
              lastUnit := (match b with
                | .unit u => u
                | _ => s.store.lastUnit)
              lastRecovery := (match b with
                | .ctx c => ⟨c.val, by omega⟩
                | .vote => 4
                | .table => 4
                | _ => s.store.lastRecovery) } })
      ∧ (asks = [] → s.grantStore = (if s.ctl.state = .hold then
            { s with store := { s.store with selfRefresh := true, timerRunning := false } }
          else s)))
    ∧ (¬ running ∨ s.store.scrubPeriod = 0 → exec .scrubGroup s = .next s)
    ∧ (running → s.store.scrubPeriod ≠ 0 → s.store.flips = [] →
        ∃ m : State, exec .scrubGroup s = .next m.finish
          ∧ (s.store.scrubCursor + 64 < words * 8 →
              m.store.scrubCursor = s.store.scrubCursor + 64 ∧ m.store.passes = s.store.passes)
          ∧ (words * 8 ≤ s.store.scrubCursor + 64 →
              m.store.scrubCursor = 0 ∧ m.store.passes = s.store.passes + 1)
          ∧ onlyAsks { s.store with scrubCursor := m.store.scrubCursor, passes := m.store.passes } m.store
          ∧ m = { s with store := m.store })

/-- A vote takes at each position the value that most candidates hold, the newest candidate deciding a tie
(R110), and counts a position uncertain when the winner has at most half of them (R111). The Vote Unit reads a
sector's candidates one after another, oldest first, each with the last of its bursts, and passes over one that
has left the list (R109; log entry 55; after the bursts still to be served, log entry 59). VOTE_SECTOR votes the sector worked on from those read, the rest being
read then, as R113 says for an IN_LADDER request and R115 for a FINAL one, and goes on to the next sector worked
on, or ends the request with its notice (endNotice, which EvaluationEndsInAccounting states). With no request in
service it changes nothing (log entry 1). Said with no bit error in the store. -/
def Obligations.VotesByPlurality : Prop :=
  (∀ (len i : Nat) (cs : List (List Byte)), cs ≠ [] → i < len →
    let col := cs.map (fun c => c.getD i 0)
    let w := (votedImage len cs).getD i 0
    (∀ v ∈ col, col.count v ≤ col.count w)
      ∧ ∃ a b, col = a ++ w :: b ∧ ∀ v ∈ b, col.count v < col.count w)
  ∧ (∀ (len : Nat) (cs : List (List Byte)), uncertainCount len cs
      = ((List.range len).filter (fun i => 2 * (cs.map (fun c => c.getD i 0)).count
          ((votedImage len cs).getD i 0) ≤ cs.length)).length)
  ∧ (∀ s : State, s.vote.serving = none ∨ s.vote.requests = [] →
      exec .voteSector s = .next s.finish ∧ s.voteBurst = s)
  ∧ (∀ (s : State) (sv : VoteService) (q : VoteRequest) (rest : List VoteRequest),
    s.vote.serving = some sv → s.vote.requests = q :: rest → s.store.flips = [] →
    let b := (s.track q.track).sectorBytes
    (sv.bursts = 0 → s.voteBurst = s)
    ∧ (∀ n, sv.bursts = n + 2 →
        s.voteBurst = { s with vote := { s.vote with serving := some { sv with bursts := n + 1 } } })
    ∧ (sv.bursts = 1 →
        let got := sv.got ++ bytesAt s q.context b sv.sector (stillListed s q sv (sv.left.take 1))
        let m := s.voteBurst
        m.vote = { s.vote with
            serving := some (turnsTo m sv sv.sector (stillListed s q sv sv.left.tail) got) }
          ∧ onlyAsks s.store m.store ∧ m = { s with vote := m.vote, store := m.store }))
  ∧ (∀ (s : State) (sv : VoteService) (q : VoteRequest) (rest : List VoteRequest) (a : TrackAddr)
      (geo : Geometry),
    s.vote.serving = some sv → s.vote.requests = q :: rest → s.Sound →
    s.store.flips = [] → (s.track q.track).state = .active → (s.track q.track).context = some q.context →
    (s.track q.track).addr = some a → s.geometry.get a.drive = some geo → votable s q sv sv.sector →
    let cs := sv.got ++ bytesAt s q.context (s.track q.track).sectorBytes sv.sector (stillListed s q sv sv.left)
    (∀ next, sv.sector < next → votable s q sv next →
        (∀ j, sv.sector < j → j < next → ¬ votable s q sv j) →
      ∃ m : State, exec .voteSector s = .next m.finish
        ∧ m.vote = { s.vote with
            serving := some (turnsTo m sv next ((s.ctxs.get q.context).candidates.getD next []) []) }
        ∧ sectorVoted s m q sv geo.checkSeed cs
        ∧ onlyAsks { s.store with mem := m.store.mem } m.store
        ∧ m = { s with tracks := m.tracks, ctxs := m.ctxs, vote := m.vote, store := m.store })
    ∧ ((∀ j, sv.sector < j → ¬ votable s q sv j) →
      ∃ m : State, exec .voteSector s = .next (m.endNotice q.context q.kind).finish
        ∧ m.vote = { requests := rest, serving := none }
        ∧ sectorVoted s m q sv geo.checkSeed cs
        ∧ onlyAsks { s.store with mem := m.store.mem } m.store
        ∧ m = { s with tracks := m.tracks, ctxs := m.ctxs, vote := m.vote, store := m.store }))

/-- The end notice of an evaluation (R94 to R96). With no sector left unresolved the track SETTLES and the context
is unbound. Else an IN_LADDER evaluation counts the step's revolution under the ladder as it stands: the step
goes on, or the next one begins, up to 12. An exhausted ladder asks for the FINAL evaluation; in DRAINING the
track returns to the head of its group; a DISPLACED context stays so; with its drive FAULTED it holds; and
otherwise it prepares a revolution under the step. A FINAL evaluation that leaves a sector unresolved requeues
the track ARCHIVE from step 0. Said with nobody else waiting for the path and no bit error in the store, and the
unbindings of a context that holds its drive. -/
def Obligations.EvaluationEndsInAccounting : Prop :=
  ∀ (s : State) (c : Fin 4) (n : Nat) (a : TrackAddr), (s.ctxs.get c).track = some n →
    (s.track n).state = .active → (s.track n).addr = some a → (s.ctxs.get c).state ≠ .waitPath →
    pathOpenFor s c → s.Sound → s.store.flips = [] →
    let holds := (s.drives.get a.drive).claim = some (.ctx c) ∧ (s.drives.get a.drive).drsWaiting = false
    let x := s.ctxs.get c
    let r := s.track n
    let step := s.ladder[r.nextStep]?
    let goesOn := ∃ st, step = some st ∧ r.stepRevs + 1 < st.revs
    let unbound : TrackRec := { r with context := none }
    (∀ kind, holds → ¬ unresolved r →
        let m := s.endNotice c kind
        unboundAs s m c n a.drive { unbound with state := .settled } ∧ m.queue = s.queue ∧ settledSeen s m r
          ∧ onlyAsks s.store m.store)
    ∧ (holds → unresolved r →
        let m := s.endNotice c .final
        unboundAs s m c n a.drive
            { unbound with state := .queued, cls := some .archive, nextStep := 0, stepRevs := 0 }
          ∧ m.queue = { s.queue with archive := s.queue.archive ++ [n] }
          ∧ m.link = s.link ∧ onlyAsks s.store m.store)
    ∧ (∀ k revs, unresolved r → (goesOn → k = r.nextStep ∧ revs = r.stepRevs + 1) →
        (¬ goesOn → k = min 12 (r.nextStep + 1) ∧ revs = 0) →
      let counted : TrackRec := { r with nextStep := k, stepRevs := revs }
      let m := s.endNotice c .inLadder
      (s.ladder[k]? = none →
        onlyTrack s m n counted
          ∧ m.ctxs = s.ctxs.set c { x with
              step := none, evaluation := .final, wanted := []
              state := if x.state = .displaced then .displaced else .evaluating }
          ∧ m.vote = { s.vote with
              requests := s.vote.requests
                ++ [{ context := c, track := n, kind := .final, step := none, flags := x.lastFlags }] }
          ∧ onlyAsks s.store m.store
          ∧ m = { s with tracks := m.tracks, ctxs := m.ctxs, vote := m.vote, store := m.store })
      ∧ (∀ st, s.ladder[k]? = some st →
        let now : CtxRec := { x with evaluation := .none, step := some { index := k, step := st } }
        (∀ cls, holds → s.ctl.state = .draining → r.cls = some cls →
            unboundAs s m c n a.drive { counted with state := .queued, context := none }
              ∧ m.queue = (match cls with
                | .demand => { s.queue with demand := n :: s.queue.demand }
                | .archive => { s.queue with archive := n :: s.queue.archive }
                | .sweep => { s.queue with sweep := n :: s.queue.sweep })
              ∧ m.link = s.link ∧ onlyAsks s.store m.store)
        ∧ (s.ctl.state ≠ .draining → ∃ t : State,
            onlyTrack s t n counted ∧ t.ctxs = s.ctxs.set c now ∧ onlyAsks s.store t.store
            ∧ t = { s with tracks := t.tracks, ctxs := t.ctxs, store := t.store }
            ∧ (x.state = .displaced → m = t)
            ∧ (x.state ≠ .displaced → (s.drives.get a.drive).state = DriveState.faulted →
                m = { t with ctxs := s.ctxs.set c { now with state := .faultHold } })
            ∧ (x.state ≠ .displaced → (s.drives.get a.drive).state ≠ DriveState.faulted →
                prepares t m c n a st))))

end StoreSide

section Reactions

open Sys2Proof Sys2Proof.Machine Sys2Proof.Stated

/-- When the blocks that act before it are at rest (log entry 11) and a FREE context and a dispatchable entry are
there, the Dispatcher takes a decision: each FREE context, in ascending order, is offered once the first
dispatchable entry of the queue, from its head to its tail, whose drive the decision has bound no track of, and
when the record that the Dispatcher reads is uncorrectable it walks on for the same context. A binding makes the record ACTIVE with that CONTEXT and takes it
out of the queue, claims the drive, and the context settles a track without unresolved sectors, asks for the
FINAL evaluation of an exhausted one, or prepares a revolution. The binding is said with nobody waiting for the
path or the drive, and with no bit error in the store. -/
def Obligations.DispatcherBindsInOrder : Prop :=
  ∀ s : State,
    (∀ n, s.dispatchable n = true ↔ ∃ a, (s.track n).addr = some a
      ∧ (s.drives.get a.drive).state = DriveState.ready ∧ (s.drives.get a.drive).discovery = none
      ∧ s.geometry.get a.drive ≠ none ∧ (s.drives.get a.drive).claim = none
      ∧ (∀ c k, (s.ctxs.get c).track = some k → ((s.track k).addr.map (·.drive)) ≠ some a.drive)
      ∧ (s.track n).lock = none ∧ s.ctl.state = .ready)
    ∧ (∀ c n, s.nextBinding = some (c, n) ↔
      (s.ctxs.get c).state = .free ∧ (∀ e, e < c → (s.ctxs.get e).state ≠ .free)
      ∧ ∃ before after, s.queue.demand ++ s.queue.archive ++ s.queue.sweep = before ++ n :: after
        ∧ s.dispatchable n = true ∧ ∀ k ∈ before, s.dispatchable k = false)
    ∧ (∀ c n, s.settlingCtx = none → s.notifiedUnit = none → s.servedUnit = none → s.startedRequest = none →
        s.fedDrive = none → s.nextBinding = some (c, n) → s.reactOnce = some s.bindFree)
    ∧ (let turn (x : State × List (Fin 4)) (c : Fin 4) : State × List (Fin 4) := x.1.offer x.2 c
       s.bindFree = (turn (turn (turn (turn (s, []) 0) 1) 2) 3).1)
    ∧ (∀ bound n, s.offerable bound n = true ↔ s.dispatchable n = true
        ∧ ∀ a, (s.track n).addr = some a → a.drive ∉ bound)
    ∧ (∀ bound c, (s.ctxs.get c).state ≠ .free ∨ (∀ n ∈ s.queue.order, s.offerable bound n = false) →
        s.offer bound c = (s, bound))
    ∧ (∀ bound c n a, (s.ctxs.get c).state = .free → s.queue.order.find? (s.offerable bound) = some n →
        (s.track n).state = .queued → (s.track n).addr = some a → s.store.flips = [] →
        s.offer bound c = (s.dispatch c n, a.drive :: bound))
    ∧ (∀ bound c n k, s.queue.order.find? (s.offerable bound) = some n → (s.readEntry n).1 = none →
        s.offerEntries c bound (k + 1) = (s.dispatch c n).offerEntries c bound k)
    ∧ (∀ c n a, (s.track n).state = .queued → (s.track n).addr = some a → pathOpenFor s c →
        (s.drives.get a.drive).drsWaiting = false → s.Sound → s.store.flips = [] →
      let r := s.track n
      let step := s.ladder[r.nextStep]?
      let active : TrackRec := { r with state := .active, context := some c }
      let q : RecoveryQueue :=
        { demand := s.queue.demand.filter (· ≠ n), archive := s.queue.archive.filter (· ≠ n)
          sweep := s.queue.sweep.filter (· ≠ n) }
      let bound : CtxRec :=
        { state := .positioning, track := some n, step := step.map fun st => { index := r.nextStep, step := st }
          evaluation := .none, wanted := [], candidates := List.replicate r.sectors.length []
          lastFlags := List.replicate r.sectors.length none }
      let m := s.dispatch c n
      (¬ unresolved r → unboundAs s m c n a.drive { r with state := .settled, context := none }
        ∧ m.queue = q ∧ settledSeen s m r ∧ onlyAsks s.store m.store)
      ∧ (unresolved r → step = none →
        onlyTrack s m n active ∧ m.queue = q
        ∧ m.drives = s.drives.set a.drive { s.drives.get a.drive with claim := some (.ctx c) }
        ∧ m.ctxs = s.ctxs.set c { bound with state := .evaluating, evaluation := .final }
        ∧ m.vote = { s.vote with
            requests := s.vote.requests
              ++ [{ context := c, track := n, kind := .final, step := none, flags := bound.lastFlags }] }
        ∧ onlyAsks s.store m.store
        ∧ m = { s with tracks := m.tracks, queue := m.queue, drives := m.drives, ctxs := m.ctxs, vote := m.vote
                       store := m.store })
      ∧ (∀ st, unresolved r → step = some st → ∃ t : State,
        onlyTrack s t n active ∧ t.queue = q
        ∧ t.drives = s.drives.set a.drive { s.drives.get a.drive with claim := some (.ctx c) }
        ∧ t.ctxs = s.ctxs.set c bound ∧ onlyAsks s.store t.store
        ∧ t = { s with tracks := t.tracks, queue := t.queue, drives := t.drives, ctxs := t.ctxs
                       store := t.store }
        ∧ prepares t m c n a st))

/-- The Sweep Feeder feeds a drive that is open for work, whose sweep is RUNNING with fewer tracks in recovery than
DEPTH, in READY. It names the track at the cursor for the sweep: one that holds no record is allocated and
enqueued SWEEP, one that a record holds is passed over, and the cursor moves on, the sweep being DONE after the
last track; with no frame free the sweep is STALLED. DONE and STALLED set SWEEP attention. Said with no bit
error in the store. -/
def Obligations.SweepFeederFeedsInOrder : Prop :=
  ∀ (s : State) (d : Fin 4),
    (s.feeds d = true ↔ (s.sweeps.get d).state = .running
      ∧ (s.drives.get d).state = DriveState.ready ∧ (s.drives.get d).discovery = none
      ∧ s.geometry.get d ≠ none ∧ s.ctl.state = .ready
      ∧ (s.tracks.filter (fun e => (e.2.addr.map (·.drive)) = some d ∧ e.2.cls = some .sweep
          ∧ (e.2.state = .queued ∨ e.2.state = .active))).length < (s.sweeps.get d).depth)
    ∧ (s.settlingCtx = none → s.notifiedUnit = none → s.servedUnit = none → s.startedRequest = none →
        s.feeds d = true → (∀ e, e < d → s.feeds e = false) → s.reactOnce = some (s.feed d))
    ∧ (∀ g, s.feeds d = true → s.geometry.get d = some g → (s.sweeps.get d).cyl < g.cylinders →
        (s.sweeps.get d).head < g.heads → s.Sound → s.store.flips = [] →
      let w := s.sweeps.get d
      let a : TrackAddr := { drive := d, cyl := w.cyl, head := w.head }
      let swept : Origins := { system := false, archive := false, sweep := true }
      let done : Bool := g.heads ≤ w.head + 1 ∧ g.cylinders ≤ w.cyl + 1
      let m := s.feed d
      (∀ n, (∀ k, (s.track k).holds a = true ↔ k = n) →
        onlyTrack s m n { s.track n with origins := { (s.track n).origins with sweep := true } }
        ∧ m.sweeps = s.sweeps.set d (cursorMoved w g) ∧ sweepTold s m done ∧ onlyAsks s.store m.store
        ∧ m = { s with tracks := m.tracks, sweeps := m.sweeps, link := m.link, store := m.store })
      ∧ (∀ n rest, (∀ k, (s.track k).holds a = false) → s.freeList = n :: rest →
        onlyTrack s m n { freshRecord a g swept with state := .queued, cls := some .sweep }
        ∧ m.freeList = rest ∧ m.queue = { s.queue with sweep := s.queue.sweep ++ [n] }
        ∧ m.sweeps = s.sweeps.set d (cursorMoved w g) ∧ sweepTold s m done ∧ onlyAsks s.store m.store
        ∧ m = { s with tracks := m.tracks, freeList := m.freeList, queue := m.queue, sweeps := m.sweeps
                       link := m.link, store := m.store })
      ∧ ((∀ k, (s.track k).holds a = false) → s.freeList = [] →
        m.sweeps = s.sweeps.set d { w with state := .stalled } ∧ sweepTold s m true ∧ onlyAsks s.store m.store
        ∧ m = { s with sweeps := m.sweeps, link := m.link, store := m.store }))

/-- The claims of a unit on the track at its POSITION. A READ's load claim (R153, R154): a locked track or an
unresolved sector makes the unit wait and demands the track, a resolved sector's image or an accepted guess is
delivered, and any other sector ends the list with DATA_CHECK; with no record one is allocated and demanded, or
with no frame free the Direct Read Slot is asked. A WRITE's claim (R46, R158): a locked track, or a short share
of an unresolved sector, makes the unit wait, a MARKED sector ends the list, and any other claim is taken: the
sector is WRITTEN, a short share completed from the frame or with zeros, and the track is DIVERGED, and SETTLED
if the write has resolved its last unresolved sector; with no record and no frame free the list ends POOL_FULL. Said with no bit error
in the store and no halt told, the taken write of a track that no context is bound to. -/
def Obligations.UnitClaimsDecided : Prop :=
  ∀ (u : Fin 4) (s : State), s.Sound → s.store.flips = [] → (s.units.get u).haltTold = false →
    let y := s.units.get u
    let a : TrackAddr := { drive := u, cyl := y.position.cyl, head := y.position.head }
    let k := y.position.sector
    (∀ n, (∀ j, (s.track j).holds a = true ↔ j = n) →
      let r := s.track n
      let x := r.sectors.getD k SectorRec.fresh
      let open_ := x.status = .pending ∨ x.status = .damaged
      let imaged := x.status = .clean ∨ x.status = .voted ∨ x.status = .written ∨ x.status = .replaced
      let guessed := x.status = .failed ∧ x.guess = .present ∧ ∃ o, y.order = some o ∧ o.acceptGuess = true
      let frame := readBytes s.store.mem (n * 16384 + k * r.sectorBytes) r.sectorBytes
      let named : TrackRec := { r with origins := { r.origins with system := true } }
      let share := min y.residual r.sectorBytes
      let fits := y.dataAt + 2 * min s.port.settings.burst ((share + 1) / 2) ≤ 0x1000000
      let m := s.loadClaim u
      (r.cls ≠ none ∨ r.state = .pending ∨ r.state = .settled →
        (r.lock ≠ none → waitBegins s m u n (.lock n) r ∧ onlyAsks s.store m.store)
        ∧ (r.lock = none → open_ → waitBegins s m u n (.sector n k) r ∧ onlyAsks s.store m.store))
      ∧ (r.lock = none → imaged ∨ guessed → fits →
          delivering s m u frame (x.status = .failed) ∧ onlyTrack s m n named
          ∧ onlyAsks s.store m.store
          ∧ m = { s with units := m.units, req := m.req, tracks := m.tracks, store := m.store })
      ∧ (r.lock = none → s.port.settings.statusBase ≤ 0xFFFFC0 →
          (x.status = .marked ∨ x.status = .lost ∨ (x.status = .failed ∧ ¬ guessed)) →
          listEnds s m u .check [.dataCheck]
          ∧ (x.status = .marked → (m.units.get u).sense.reason = .marked)
          ∧ (x.status = .lost → (m.units.get u).sense.reason = .lost)
          ∧ (x.status = .failed → (m.units.get u).sense.reason = .failed)))
    ∧ (∀ g, s.geometry.get u = some g → y.position.cyl < g.cylinders → y.position.head < g.heads →
        (∀ j, (s.track j).holds a = false) →
      (∀ n rest, s.freeList = n :: rest →
        let m := s.loadClaim u
        m.units = s.units.set u { y with
            state := .wait, waitOn := some (.sector n k)
            patience := some (y.patience.getD s.port.settings.patience) }
        ∧ onlyTrack s m n { freshRecord a g { system := true, archive := false, sweep := false } with
            state := .queued, cls := some .demand, waiters := 1 }
        ∧ m.freeList = rest ∧ m.queue = { s.queue with demand := s.queue.demand ++ [n] }
        ∧ onlyAsks s.store m.store
        ∧ m = { s with units := m.units, tracks := m.tracks, freeList := m.freeList, queue := m.queue
                       store := m.store })
      ∧ (s.freeList = [] →
        (∃ z : StoreRec, onlyAsks s.store z ∧ s.loadClaim u = { s with
          store := z
          units := s.units.set u { y with
            state := .wait, waitOn := some .drs, patience := some s.port.settings.patience }
          drs := { s.drs with waitingUnits := s.drs.waitingUnits ++ [u] } })
        ∧ (s.port.settings.statusBase ≤ 0xFFFFC0 →
            listEnds s (s.writeClaim u) u .check [.poolFull]
            ∧ ((s.writeClaim u).units.get u).sense.reason = .poolFull)))
    ∧ (∀ n, (∀ j, (s.track j).holds a = true ↔ j = n) → (s.track n).state ≠ .active →
        (s.track n).context = none → k < (s.track n).sectors.length → y.buffer.length ≤ (s.track n).sectorBytes →
      let r := s.track n
      let x := r.sectors.getD k SectorRec.fresh
      let open_ := x.status = .pending ∨ x.status = .damaged
      let whole := y.buffer.length = r.sectorBytes
      let base := n * 16384 + k * r.sectorBytes
      let old := if x.status = .failed ∨ x.status = .lost then List.replicate r.sectorBytes 0
        else readBytes s.store.mem base r.sectorBytes
      let data := y.buffer ++ old.drop y.buffer.length
      let writing : State := { s with units := s.units.set u { y with writeTrack := some a, waitOn := none } }
      let m := s.writeClaim u
      (r.state ≠ .queued ∨ r.cls ≠ none →
        (r.lock ≠ none → waitBegins writing m u n (.lock n) r ∧ onlyAsks s.store m.store)
        ∧ (r.lock = none → open_ → ¬ whole → waitBegins writing m u n (.sector n k) r ∧ onlyAsks s.store m.store))
      ∧ (r.lock = none → x.status = .marked → s.port.settings.statusBase ≤ 0xFFFFC0 →
          listEnds s m u .check [.marked] ∧ (m.units.get u).sense.reason = .marked)
      ∧ (r.lock = none → x.status ≠ .marked → whole ∨ ¬ open_ →
        let written : TrackRec := { r with
          origins := { r.origins with system := true }, revision := r.revision + 1, exported := false
          diverged := true
          sectors := r.sectors.set k { x with
            status := .written, resolvedStep := none, blind := false, uncertain := none, guess := .none } }
        ∃ t : State, m = t.sectorDone u
          ∧ readBytes t.store.mem base r.sectorBytes = data
          ∧ (∀ i, i < base ∨ base + r.sectorBytes ≤ i → readByte t.store.mem i = readByte s.store.mem i)
          ∧ onlyAsks { s.store with mem := t.store.mem } t.store
          ∧ (unresolved written ∨ ¬ unresolved r ∨ r.state = .settled →
              onlyTrack s t n written ∧ t.queue = s.queue ∧ t.link = s.link)
          ∧ (unresolved r → ¬ unresolved written → r.state = .pending ∨ r.state = .queued →
              onlyTrack s t n { written with state := .settled }
              ∧ (r.state = .queued → t.queue.order = s.queue.order.filter (· ≠ n))
              ∧ (r.state = .pending → t.queue = s.queue) ∧ settledSeen s t r)
          ∧ t = { writing with tracks := t.tracks, queue := t.queue, link := t.link, store := t.store }))

end Reactions
end

