-- ==== Sys2Proof/Laws/Check.lean ====
section
/-! SUPPORT. The check of R7: a field verifies exactly when its last two bytes are the check of the bytes before them. -/

set_option Elab.async false

namespace Sys2Proof.Machine

theorem crcShift_xor (x y : Word16) : crcShift (x ^^^ y) = crcShift x ^^^ crcShift y := by
  unfold crcShift
  have h : (x ^^^ y).getLsbD 15 = xor (x.getLsbD 15) (y.getLsbD 15) := by simp
  rw [h]
  have e : (x ^^^ y) <<< 1 = x <<< 1 ^^^ y <<< 1 := by ext i hi; simp; cases decide (i = 0) <;> simp
  rw [e]
  cases x.getLsbD 15 <;> cases y.getLsbD 15 <;> simp
  · rw [BitVec.xor_assoc]
  · ac_rfl
  · rw [show x <<< 1 ^^^ 4129#16 ^^^ (y <<< 1 ^^^ 4129#16) = x <<< 1 ^^^ y <<< 1 ^^^
      (4129#16 ^^^ 4129#16) by ac_rfl]
    simp

theorem crcShift_zero (x : Word16) (h : crcShift x = 0#16) : x = 0#16 := by
  unfold crcShift at h
  split at h
  · exfalso
    have := congrArg (fun v : Word16 => v.getLsbD 0) h
    simp at this
  · rename_i hb
    apply BitVec.eq_of_getLsbD_eq
    intro i hi
    simp only [BitVec.getLsbD_zero]
    by_cases h15 : i = 15
    · subst h15; simpa using hb
    · have := congrArg (fun v : Word16 => v.getLsbD (i + 1)) h
      simp at this
      exact this (by omega)

theorem crcShift_inj {x y : Word16} (h : crcShift x = crcShift y) : x = y := by
  have : crcShift (x ^^^ y) = 0#16 := by rw [crcShift_xor, h]; simp
  have := crcShift_zero _ this
  have e : x = (x ^^^ y) ^^^ y := by rw [BitVec.xor_assoc]; simp
  rw [e, this]; simp

theorem crcByte_inj {x y : Word16} (b : Byte) (h : crcByte x b = crcByte y b) : x = y := by
  unfold crcByte at h
  have := crcShift_inj
      (crcShift_inj (crcShift_inj (crcShift_inj (crcShift_inj (crcShift_inj (crcShift_inj (crcShift_inj h)))))))
  have e : ∀ z : Word16, z = (z ^^^ (b.zeroExtend 16 <<< 8)) ^^^ (b.zeroExtend 16 <<< 8) := by
    intro z
    rw [BitVec.xor_assoc]
    simp
  rw [e x, this, ← e y]

theorem crcShift_low (x : Word16) (h : x.getLsbD 15 = false) : crcShift x = x <<< 1 := by
  unfold crcShift; rw [h]; rfl

theorem crcByte_high (r : Word16) : crcByte r (highByte r) = r <<< 8 := by
  obtain ⟨z, hz⟩ : ∃ z, z = r ^^^ ((highByte r).zeroExtend 16 <<< 8) := ⟨_, rfl⟩
  have bit : ∀ i, z.getLsbD i = (decide (i < 8) && r.getLsbD i) := by
    intro i
    rw [hz]
    simp only [highByte, BitVec.getLsbD_xor, BitVec.getLsbD_shiftLeft, BitVec.getLsbD_setWidth,
        BitVec.getLsbD_ushiftRight]
    by_cases h8 : i < 8
    · simp [h8]
    · by_cases h16 : i < 16
      · have : 8 + (i - 8) = i := by omega
        simp [h8, h16, this, show i - 8 < 8 by omega, show i - 8 < 16 by omega]
      · simp [h8, h16]; exact BitVec.getLsbD_of_ge r i (by omega)
  have s : ∀ k, k < 8 → crcShift (z <<< k) = z <<< (k + 1) := by
    intro k hk
    rw [crcShift_low]
    · rw [BitVec.shiftLeft_add]
    · rw [BitVec.getLsbD_shiftLeft, bit]; simp; omega
  unfold crcByte
  rw [← hz]
  have e0 : z = z <<< 0 := by simp
  rw [e0, s 0 (by omega), s 1 (by omega), s 2 (by omega), s 3 (by omega), s 4 (by omega), s 5 (by omega), s 6
      (by omega), s 7 (by omega)]
  apply BitVec.eq_of_getLsbD_eq
  intro i hi
  rw [BitVec.getLsbD_shiftLeft, BitVec.getLsbD_shiftLeft, bit]
  by_cases h8 : i < 8
  · simp [h8]
  · simp [show i - 8 < 8 by omega]

theorem crc_append (r : Word16) (f g : List Byte) : crc r (f ++ g) = crc (crc r f) g := by
  induction f generalizing r with
  | nil => rfl
  | cons a t ih => exact ih _

/-- Two bytes leave the register at zero exactly when they are its halves, high half first. -/
theorem crc_two (r : Word16) (a b : Byte) : crc r [a, b] = 0#16 ↔ a = highByte r ∧ b = lowByte r := by
  have z : crcByte (r <<< 8) (lowByte r) = 0#16 := by
    have : lowByte r = highByte (r <<< 8) := by
      apply BitVec.eq_of_getLsbD_eq
      intro i hi
      simp only [highByte, lowByte, BitVec.getLsbD_setWidth, BitVec.getLsbD_ushiftRight,
          BitVec.getLsbD_shiftLeft]
      simp [hi, show 8 + i < 16 by omega]
    rw [this, crcByte_high]
    apply BitVec.eq_of_getLsbD_eq
    intro i hi
    simp
  show crcByte (crcByte r a) b = 0#16 ↔ _
  constructor
  · intro h
    have t8 : ∀ x : Word16, crcByte x 0 = 0#16 → x = 0#16 := by
      intro x hx
      refine crcByte_inj 0 (hx.trans ?_)
      decide
    have c0 : ∀ (x : Word16) (c : Byte), crcByte x c = crcByte (x ^^^ (c.zeroExtend 16 <<< 8)) 0 := by
      intro x c
      show _ = crcShift (crcShift (crcShift (crcShift (crcShift (crcShift (crcShift (crcShift
        ((x ^^^ (c.zeroExtend 16 <<< 8)) ^^^ ((0 : Byte).zeroExtend 16 <<< 8)))))))))
      rw [show ((0 : Byte).zeroExtend 16 <<< 8 : Word16) = 0#16 by decide, BitVec.xor_zero]; rfl
    have h1 := t8 _ ((c0 _ _).symm.trans h)
    have h2 : crcByte r a = b.zeroExtend 16 <<< 8 := by
      have e : crcByte r a = (crcByte r a ^^^ (b.zeroExtend 16 <<< 8)) ^^^ (b.zeroExtend 16 <<< 8) := by
        rw [BitVec.xor_assoc]
        simp
      rw [e, h1]; simp
    have hw : highByte (b.zeroExtend 16) = 0 := by
      apply BitVec.eq_of_getLsbD_eq
      intro i hi
      simp [highByte]
    have h3 : crcByte (b.zeroExtend 16) 0 = b.zeroExtend 16 <<< 8 := by rw [← hw]; exact crcByte_high _
    have h4 : r ^^^ (a.zeroExtend 16 <<< 8) = b.zeroExtend 16 := crcByte_inj 0
        (((c0 r a).symm.trans h2).trans h3.symm)
    have h5 : r = b.zeroExtend 16 ^^^ (a.zeroExtend 16 <<< 8) := by
      rw [← h4, BitVec.xor_assoc]; simp
    refine ⟨?_, ?_⟩
    · apply BitVec.eq_of_getLsbD_eq
      intro i hi
      rw [h5]
      simp [highByte, hi, show 8 + i < 16 by omega]
    · apply BitVec.eq_of_getLsbD_eq
      intro i hi
      rw [h5]
      simp [lowByte, hi]
  · rintro ⟨rfl, rfl⟩
    rw [crcByte_high]; exact z

/-- Bytes verify exactly when they end with the check of the bytes before it (R7). -/
theorem verifies_iff (seed : Word16) (w : List Byte) (h : 2 ≤ w.length) :
    verifies seed w = true ↔ w = withCheck seed (w.take (w.length - 2)) := by
  obtain ⟨f, a, b, rfl⟩ : ∃ f a b, w = f ++ [a, b] := by
    refine ⟨w.take (w.length - 2), w[w.length - 2], w[w.length - 1], ?_⟩
    conv_lhs => rw [← List.take_append_drop (w.length - 2) w]
    congr 1
    rw [List.drop_eq_getElem_cons (by omega)]
    congr 1
    rw [List.drop_eq_getElem_cons (by omega)]
    have : w.length - 2 + 1 = w.length - 1 := by omega
    simp only [this]
    congr 1
    simp; omega
  unfold verifies
  rw [crc_append]
  simp only [decide_eq_true_eq]
  rw [crc_two]
  have : (f ++ [a, b]).take ((f ++ [a, b]).length - 2) = f := by simp
  rw [this]
  unfold withCheck
  constructor
  · rintro ⟨rfl, rfl⟩; rfl
  · intro h; simpa using h

theorem verifies_withCheck (seed : Word16) (f : List Byte) : verifies seed (withCheck seed f) = true := by
  rw [verifies_iff _ _ (by simp [withCheck])]
  simp [withCheck]

end Sys2Proof.Machine
end

