-- ==== Sys2Proof/Laws/Four.lean ====
section
/-! SUPPORT. What reading, replacing and building the four of a Four give. -/

set_option Elab.async false

namespace Sys2Proof.Four

variable {α β : Type}

@[simp] theorem get_all (x : α) (i : Fin 4) : (Four.all x).get i = x := by
  fin_cases i <;> rfl

@[simp] theorem get_map (f : Four α) (g : α → β) (i : Fin 4) : (f.map g).get i = g (f.get i) := by
  fin_cases i <;> rfl

@[simp] theorem get_ofFn (g : Fin 4 → α) (i : Fin 4) : (Four.ofFn g).get i = g i := by
  fin_cases i <;> rfl

@[simp] theorem get_set_self (f : Four α) (i : Fin 4) (x : α) : (f.set i x).get i = x := by
  fin_cases i <;> rfl

theorem get_set_ne (f : Four α) {i j : Fin 4} (x : α) (h : j ≠ i) : (f.set i x).get j = f.get j := by
  fin_cases i <;> fin_cases j <;> first | rfl | exact absurd rfl h

theorem get_set (f : Four α) (i j : Fin 4) (x : α) :
    (f.set i x).get j = if j = i then x else f.get j := by
  by_cases h : j = i
  · subst h; simp
  · simp [h, get_set_ne f x h]

theorem get_modify (f : Four α) (i j : Fin 4) (g : α → α) :
    (f.modify i g).get j = if j = i then g (f.get i) else f.get j := get_set f i j _

@[simp] theorem get_modify_self (f : Four α) (i : Fin 4) (g : α → α) :
    (f.modify i g).get i = g (f.get i) := by simp [get_modify]

theorem get_modify_ne (f : Four α) {i j : Fin 4} (g : α → α) (h : j ≠ i) :
    (f.modify i g).get j = f.get j := by simp [get_modify, h]

/-- Two fours with the same members are the same. -/
theorem ext_get {f g : Four α} (h : ∀ i, f.get i = g.get i) : f = g := by
  cases f; cases g
  simpa [get] using ⟨h 0, h 1, h 2, h 3⟩

theorem mem_toList (f : Four α) (x : α) : x ∈ f.toList ↔ ∃ i, f.get i = x := by
  constructor
  · intro h
    simp only [toList, List.mem_cons, List.not_mem_nil, or_false] at h
    rcases h with h | h | h | h
    · exact ⟨0, h.symm⟩
    · exact ⟨1, h.symm⟩
    · exact ⟨2, h.symm⟩
    · exact ⟨3, h.symm⟩
  · rintro ⟨i, rfl⟩
    fin_cases i <;> simp [toList, get]

end Sys2Proof.Four

namespace Sys2Proof

theorem mem_fourNumbers (i : Fin 4) : i ∈ fourNumbers := by
  fin_cases i <;> simp [fourNumbers]

/-- A search over the four numbers finds nothing exactly when none passes. -/
theorem find_fourNumbers_none (p : Fin 4 → Bool) :
    fourNumbers.find? p = none ↔ ∀ i, p i = false := by
  simp only [List.find?_eq_none, Bool.not_eq_true]
  exact ⟨fun h i => h i (mem_fourNumbers i), fun h i _ => h i⟩

end Sys2Proof
end

