-- ==== Sys2Proof/Laws/Memory.lean ====
section
/-! SUPPORT. The canonical form of keyed lists and of the store's bytes: every operation keeps it, and what a read gives after each write. -/

set_option Elab.async false

namespace Sys2Proof.Machine

variable {α : Type}

/-! ## Keyed lists -/

theorem keysRiseFrom_mono {l : List (Nat × α)} {a b : Nat} (h : keysRiseFrom b l = true) (hab : a ≤ b) :
    keysRiseFrom a l = true := by
  cases l with
  | nil => rfl
  | cons e rest =>
    simp only [keysRiseFrom, Bool.and_eq_true, decide_eq_true_eq] at h ⊢
    exact ⟨le_trans hab h.1, h.2⟩

theorem assocPut_rises (l : List (Nat × α)) (b k : Nat) (v : α) (h : keysRiseFrom b l = true)
    (hk : b ≤ k) : keysRiseFrom b (assocPut k v l) = true := by
  induction l generalizing b with
  | nil => simp [assocPut, keysRiseFrom, hk]
  | cons e rest ih =>
    obtain ⟨j, w⟩ := e
    simp only [keysRiseFrom, Bool.and_eq_true, decide_eq_true_eq] at h
    simp only [assocPut]
    split
    · rename_i hlt
      simp only [keysRiseFrom, Bool.and_eq_true, decide_eq_true_eq]
      exact ⟨hk, hlt, h.2⟩
    · split
      · rename_i heq
        subst heq
        simp only [keysRiseFrom, Bool.and_eq_true, decide_eq_true_eq]
        exact h
      · rename_i h1 h2
        simp only [keysRiseFrom, Bool.and_eq_true, decide_eq_true_eq]
        exact ⟨h.1, ih (j + 1) h.2 (by omega)⟩

theorem assocDel_rises (l : List (Nat × α)) (b k : Nat) (h : keysRiseFrom b l = true) :
    keysRiseFrom b (assocDel k l) = true := by
  induction l generalizing b with
  | nil => rfl
  | cons e rest ih =>
    obtain ⟨j, w⟩ := e
    simp only [keysRiseFrom, Bool.and_eq_true, decide_eq_true_eq] at h
    simp only [assocDel]
    split
    · exact keysRiseFrom_mono h.2 (by omega)
    · simp only [keysRiseFrom, Bool.and_eq_true, decide_eq_true_eq]
      exact ⟨h.1, ih (j + 1) h.2⟩

theorem assocFind_below {l : List (Nat × α)} {b k : Nat} (h : keysRiseFrom b l = true) (hk : k < b) :
    assocFind k l = none := by
  induction l generalizing b with
  | nil => rfl
  | cons e rest ih =>
    obtain ⟨j, w⟩ := e
    simp only [keysRiseFrom, Bool.and_eq_true, decide_eq_true_eq] at h
    simp only [assocFind]
    rw [if_neg (by omega)]
    exact ih h.2 (by omega)

@[simp] theorem assocFind_put_self (l : List (Nat × α)) (k : Nat) (v : α) :
    assocFind k (assocPut k v l) = some v := by
  induction l with
  | nil => simp [assocPut, assocFind]
  | cons e rest ih =>
    obtain ⟨j, w⟩ := e
    simp only [assocPut]
    split
    · simp [assocFind]
    · split
      · simp [assocFind]
      · rename_i h1 h2
        simp only [assocFind]
        rw [if_neg (by omega)]
        exact ih

theorem assocFind_put_ne (l : List (Nat × α)) {j k : Nat} (v : α) (h : j ≠ k) :
    assocFind j (assocPut k v l) = assocFind j l := by
  induction l with
  | nil => simp [assocPut, assocFind, Ne.symm h]
  | cons e rest ih =>
    obtain ⟨i, w⟩ := e
    simp only [assocPut]
    split
    · simp [assocFind, Ne.symm h]
    · split
      · rename_i h1 h2
        subst h2
        simp [assocFind, Ne.symm h]
      · simp only [assocFind, ih]

theorem assocFind_del_self {l : List (Nat × α)} {b k : Nat} (h : keysRiseFrom b l = true) :
    assocFind k (assocDel k l) = none := by
  induction l generalizing b with
  | nil => rfl
  | cons e rest ih =>
    obtain ⟨j, w⟩ := e
    simp only [keysRiseFrom, Bool.and_eq_true, decide_eq_true_eq] at h
    simp only [assocDel]
    split
    · rename_i hj
      subst hj
      exact assocFind_below h.2 (by omega)
    · rename_i hj
      simp only [assocFind]
      rw [if_neg hj]
      exact ih h.2

theorem assocFind_del_ne (l : List (Nat × α)) {j k : Nat} (h : j ≠ k) :
    assocFind j (assocDel k l) = assocFind j l := by
  induction l with
  | nil => rfl
  | cons e rest ih =>
    obtain ⟨i, w⟩ := e
    simp only [assocDel]
    split
    · rename_i hi
      subst hi
      simp [assocFind, Ne.symm h]
    · simp only [assocFind, ih]

theorem assocPut_all (l : List (Nat × α)) (k : Nat) (v : α) (p : Nat × α → Bool)
    (h : l.all p = true) (hv : p (k, v) = true) : (assocPut k v l).all p = true := by
  induction l with
  | nil => simp [assocPut, hv]
  | cons e rest ih =>
    obtain ⟨j, w⟩ := e
    simp only [List.all_cons, Bool.and_eq_true] at h
    simp only [assocPut]
    split
    · simp [hv, h.1, h.2]
    · split
      · simp [hv, h.2]
      · simp [h.1, ih h.2]

theorem assocDel_all (l : List (Nat × α)) (k : Nat) (p : Nat × α → Bool) (h : l.all p = true) :
    (assocDel k l).all p = true := by
  induction l with
  | nil => rfl
  | cons e rest ih =>
    obtain ⟨j, w⟩ := e
    simp only [List.all_cons, Bool.and_eq_true] at h
    simp only [assocDel]
    split
    · exact h.2
    · simp [h.1, ih h.2]

/-! ## The store's bytes -/

theorem Memory.wf_nil : Memory.wf [] = true := rfl

theorem Memory.wf_writeByte (m : List Host.Cell) (a : Nat) (b : Byte) (h : Memory.wf m = true) :
    Memory.wf (writeByte m a b) = true := by
  simp only [Memory.wf, Bool.and_eq_true] at h ⊢
  unfold writeByte
  split
  · exact ⟨assocDel_rises m 0 a h.1, assocDel_all m a _ h.2⟩
  · rename_i hb
    exact ⟨assocPut_rises m 0 a b h.1 (Nat.zero_le a), assocPut_all m a b _ h.2 (by simpa using hb)⟩

theorem Memory.wf_writeBytes (bytes : List Byte) (m : List Host.Cell) (a : Nat)
    (h : Memory.wf m = true) : Memory.wf (writeBytes m a bytes) = true := by
  induction bytes generalizing m a with
  | nil => exact h
  | cons b rest ih => exact ih _ _ (Memory.wf_writeByte m a b h)

theorem readByte_writeByte_self (m : List Host.Cell) (a : Nat) (b : Byte) (h : Memory.wf m = true) :
    readByte (writeByte m a b) a = b := by
  simp only [Memory.wf, Bool.and_eq_true] at h
  unfold readByte writeByte
  split
  · rename_i hb
    rw [assocFind_del_self h.1]
    simp [hb]
  · simp

theorem readByte_writeByte_ne (m : List Host.Cell) {a c : Nat} (b : Byte) (h : c ≠ a) :
    readByte (writeByte m a b) c = readByte m c := by
  unfold readByte writeByte
  split
  · rw [assocFind_del_ne m h]
  · rw [assocFind_put_ne m b h]

/-- A write changes no byte outside the bytes written. -/
theorem readByte_writeBytes_outside (bytes : List Byte) (m : List Host.Cell) (a c : Nat)
    (h : c < a ∨ a + bytes.length ≤ c) : readByte (writeBytes m a bytes) c = readByte m c := by
  induction bytes generalizing m a with
  | nil => rfl
  | cons b rest ih =>
    simp only [List.length_cons] at h
    simp only [writeBytes]
    rw [ih _ _ (by omega), readByte_writeByte_ne m b (by omega)]

/-- A byte written reads as written. -/
theorem readByte_writeBytes_inside (bytes : List Byte) (m : List Host.Cell) (a i : Nat)
    (hw : Memory.wf m = true) (h : i < bytes.length) :
    readByte (writeBytes m a bytes) (a + i) = bytes.getD i 0 := by
  induction bytes generalizing m a i with
  | nil => simp at h
  | cons b rest ih =>
    simp only [writeBytes]
    cases i with
    | zero =>
      have := readByte_writeBytes_outside rest (writeByte m a b) (a + 1) a (by omega)
      exact this.trans (readByte_writeByte_self m a b hw)
    | succ i =>
      have := ih (writeByte m a b) (a + 1) i (Memory.wf_writeByte m a b hw) (by simpa using h)
      rw [show a + (i + 1) = a + 1 + i by omega, this]
      simp

@[simp] theorem readBytes_length (m : List Host.Cell) (a n : Nat) : (readBytes m a n).length = n := by
  induction n generalizing a with
  | zero => rfl
  | succ n ih => simp [readBytes, ih]

/-- Bytes read back after they were written whole. -/
theorem readBytes_writeBytes (bytes : List Byte) (m : List Host.Cell) (a : Nat)
    (hw : Memory.wf m = true) : readBytes (writeBytes m a bytes) a bytes.length = bytes := by
  induction bytes generalizing m a with
  | nil => rfl
  | cons b rest ih =>
    simp only [List.length_cons, readBytes, writeBytes]
    rw [ih _ _ (Memory.wf_writeByte m a b hw), readByte_writeBytes_outside _ _ _ _ (by omega),
      readByte_writeByte_self m a b hw]

end Sys2Proof.Machine
end

