-- ==== Sys2Proof/Laws/State.lean ====
section
/-! SUPPORT. What each update of a record leaves as it was: one lemma per field per update, each by definition. -/

set_option Elab.async false

namespace Sys2Proof.Machine

variable (s : State)

section
variable (d : Fin 4) (f : DriveRec → DriveRec)
@[simp] theorem modDrive_ctl : (s.modDrive d f).ctl = s.ctl := rfl
@[simp] theorem modDrive_geometry : (s.modDrive d f).geometry = s.geometry := rfl
@[simp] theorem modDrive_sweeps : (s.modDrive d f).sweeps = s.sweeps := rfl
@[simp] theorem modDrive_tracks : (s.modDrive d f).tracks = s.tracks := rfl
@[simp] theorem modDrive_freeList : (s.modDrive d f).freeList = s.freeList := rfl
@[simp] theorem modDrive_locks : (s.modDrive d f).locks = s.locks := rfl
@[simp] theorem modDrive_queue : (s.modDrive d f).queue = s.queue := rfl
@[simp] theorem modDrive_ladder : (s.modDrive d f).ladder = s.ladder := rfl
@[simp] theorem modDrive_ctxs : (s.modDrive d f).ctxs = s.ctxs := rfl
@[simp] theorem modDrive_path : (s.modDrive d f).path = s.path := rfl
@[simp] theorem modDrive_vote : (s.modDrive d f).vote = s.vote := rfl
@[simp] theorem modDrive_limits : (s.modDrive d f).limits = s.limits := rfl
@[simp] theorem modDrive_store : (s.modDrive d f).store = s.store := rfl
@[simp] theorem modDrive_port : (s.modDrive d f).port = s.port := rfl
@[simp] theorem modDrive_req : (s.modDrive d f).req = s.req := rfl
@[simp] theorem modDrive_units : (s.modDrive d f).units = s.units := rfl
@[simp] theorem modDrive_drs : (s.modDrive d f).drs = s.drs := rfl
@[simp] theorem modDrive_link : (s.modDrive d f).link = s.link := rfl
@[simp] theorem modDrive_pending : (s.modDrive d f).pending = s.pending := rfl
end

section
variable (c : Fin 4) (f : CtxRec → CtxRec)
@[simp] theorem modCtx_ctl : (s.modCtx c f).ctl = s.ctl := rfl
@[simp] theorem modCtx_drives : (s.modCtx c f).drives = s.drives := rfl
@[simp] theorem modCtx_geometry : (s.modCtx c f).geometry = s.geometry := rfl
@[simp] theorem modCtx_sweeps : (s.modCtx c f).sweeps = s.sweeps := rfl
@[simp] theorem modCtx_tracks : (s.modCtx c f).tracks = s.tracks := rfl
@[simp] theorem modCtx_freeList : (s.modCtx c f).freeList = s.freeList := rfl
@[simp] theorem modCtx_locks : (s.modCtx c f).locks = s.locks := rfl
@[simp] theorem modCtx_queue : (s.modCtx c f).queue = s.queue := rfl
@[simp] theorem modCtx_ladder : (s.modCtx c f).ladder = s.ladder := rfl
@[simp] theorem modCtx_path : (s.modCtx c f).path = s.path := rfl
@[simp] theorem modCtx_vote : (s.modCtx c f).vote = s.vote := rfl
@[simp] theorem modCtx_limits : (s.modCtx c f).limits = s.limits := rfl
@[simp] theorem modCtx_store : (s.modCtx c f).store = s.store := rfl
@[simp] theorem modCtx_port : (s.modCtx c f).port = s.port := rfl
@[simp] theorem modCtx_req : (s.modCtx c f).req = s.req := rfl
@[simp] theorem modCtx_units : (s.modCtx c f).units = s.units := rfl
@[simp] theorem modCtx_drs : (s.modCtx c f).drs = s.drs := rfl
@[simp] theorem modCtx_link : (s.modCtx c f).link = s.link := rfl
@[simp] theorem modCtx_pending : (s.modCtx c f).pending = s.pending := rfl
end

section
variable (u : Fin 4) (f : UnitRec → UnitRec)
@[simp] theorem modUnit_ctl : (s.modUnit u f).ctl = s.ctl := rfl
@[simp] theorem modUnit_drives : (s.modUnit u f).drives = s.drives := rfl
@[simp] theorem modUnit_geometry : (s.modUnit u f).geometry = s.geometry := rfl
@[simp] theorem modUnit_sweeps : (s.modUnit u f).sweeps = s.sweeps := rfl
@[simp] theorem modUnit_tracks : (s.modUnit u f).tracks = s.tracks := rfl
@[simp] theorem modUnit_freeList : (s.modUnit u f).freeList = s.freeList := rfl
@[simp] theorem modUnit_locks : (s.modUnit u f).locks = s.locks := rfl
@[simp] theorem modUnit_queue : (s.modUnit u f).queue = s.queue := rfl
@[simp] theorem modUnit_ladder : (s.modUnit u f).ladder = s.ladder := rfl
@[simp] theorem modUnit_ctxs : (s.modUnit u f).ctxs = s.ctxs := rfl
@[simp] theorem modUnit_path : (s.modUnit u f).path = s.path := rfl
@[simp] theorem modUnit_vote : (s.modUnit u f).vote = s.vote := rfl
@[simp] theorem modUnit_limits : (s.modUnit u f).limits = s.limits := rfl
@[simp] theorem modUnit_store : (s.modUnit u f).store = s.store := rfl
@[simp] theorem modUnit_port : (s.modUnit u f).port = s.port := rfl
@[simp] theorem modUnit_req : (s.modUnit u f).req = s.req := rfl
@[simp] theorem modUnit_drs : (s.modUnit u f).drs = s.drs := rfl
@[simp] theorem modUnit_link : (s.modUnit u f).link = s.link := rfl
@[simp] theorem modUnit_pending : (s.modUnit u f).pending = s.pending := rfl
end

section
variable (d : Fin 4) (f : SweepRec → SweepRec)
@[simp] theorem modSweep_ctl : (s.modSweep d f).ctl = s.ctl := rfl
@[simp] theorem modSweep_drives : (s.modSweep d f).drives = s.drives := rfl
@[simp] theorem modSweep_geometry : (s.modSweep d f).geometry = s.geometry := rfl
@[simp] theorem modSweep_tracks : (s.modSweep d f).tracks = s.tracks := rfl
@[simp] theorem modSweep_freeList : (s.modSweep d f).freeList = s.freeList := rfl
@[simp] theorem modSweep_locks : (s.modSweep d f).locks = s.locks := rfl
@[simp] theorem modSweep_queue : (s.modSweep d f).queue = s.queue := rfl
@[simp] theorem modSweep_ladder : (s.modSweep d f).ladder = s.ladder := rfl
@[simp] theorem modSweep_ctxs : (s.modSweep d f).ctxs = s.ctxs := rfl
@[simp] theorem modSweep_path : (s.modSweep d f).path = s.path := rfl
@[simp] theorem modSweep_vote : (s.modSweep d f).vote = s.vote := rfl
@[simp] theorem modSweep_limits : (s.modSweep d f).limits = s.limits := rfl
@[simp] theorem modSweep_store : (s.modSweep d f).store = s.store := rfl
@[simp] theorem modSweep_port : (s.modSweep d f).port = s.port := rfl
@[simp] theorem modSweep_req : (s.modSweep d f).req = s.req := rfl
@[simp] theorem modSweep_units : (s.modSweep d f).units = s.units := rfl
@[simp] theorem modSweep_drs : (s.modSweep d f).drs = s.drs := rfl
@[simp] theorem modSweep_link : (s.modSweep d f).link = s.link := rfl
@[simp] theorem modSweep_pending : (s.modSweep d f).pending = s.pending := rfl
end

section
variable (d : Fin 4) (g : Option Geometry)
@[simp] theorem setGeometry_ctl : (s.setGeometry d g).ctl = s.ctl := rfl
@[simp] theorem setGeometry_drives : (s.setGeometry d g).drives = s.drives := rfl
@[simp] theorem setGeometry_sweeps : (s.setGeometry d g).sweeps = s.sweeps := rfl
@[simp] theorem setGeometry_tracks : (s.setGeometry d g).tracks = s.tracks := rfl
@[simp] theorem setGeometry_freeList : (s.setGeometry d g).freeList = s.freeList := rfl
@[simp] theorem setGeometry_locks : (s.setGeometry d g).locks = s.locks := rfl
@[simp] theorem setGeometry_queue : (s.setGeometry d g).queue = s.queue := rfl
@[simp] theorem setGeometry_ladder : (s.setGeometry d g).ladder = s.ladder := rfl
@[simp] theorem setGeometry_ctxs : (s.setGeometry d g).ctxs = s.ctxs := rfl
@[simp] theorem setGeometry_path : (s.setGeometry d g).path = s.path := rfl
@[simp] theorem setGeometry_vote : (s.setGeometry d g).vote = s.vote := rfl
@[simp] theorem setGeometry_limits : (s.setGeometry d g).limits = s.limits := rfl
@[simp] theorem setGeometry_store : (s.setGeometry d g).store = s.store := rfl
@[simp] theorem setGeometry_port : (s.setGeometry d g).port = s.port := rfl
@[simp] theorem setGeometry_req : (s.setGeometry d g).req = s.req := rfl
@[simp] theorem setGeometry_units : (s.setGeometry d g).units = s.units := rfl
@[simp] theorem setGeometry_drs : (s.setGeometry d g).drs = s.drs := rfl
@[simp] theorem setGeometry_link : (s.setGeometry d g).link = s.link := rfl
@[simp] theorem setGeometry_pending : (s.setGeometry d g).pending = s.pending := rfl
end

section
variable (n : Nat) (r : TrackRec)
@[simp] theorem setTrack_ctl : (s.setTrack n r).ctl = s.ctl := rfl
@[simp] theorem setTrack_drives : (s.setTrack n r).drives = s.drives := rfl
@[simp] theorem setTrack_geometry : (s.setTrack n r).geometry = s.geometry := rfl
@[simp] theorem setTrack_sweeps : (s.setTrack n r).sweeps = s.sweeps := rfl
@[simp] theorem setTrack_freeList : (s.setTrack n r).freeList = s.freeList := rfl
@[simp] theorem setTrack_locks : (s.setTrack n r).locks = s.locks := rfl
@[simp] theorem setTrack_queue : (s.setTrack n r).queue = s.queue := rfl
@[simp] theorem setTrack_ladder : (s.setTrack n r).ladder = s.ladder := rfl
@[simp] theorem setTrack_ctxs : (s.setTrack n r).ctxs = s.ctxs := rfl
@[simp] theorem setTrack_path : (s.setTrack n r).path = s.path := rfl
@[simp] theorem setTrack_vote : (s.setTrack n r).vote = s.vote := rfl
@[simp] theorem setTrack_limits : (s.setTrack n r).limits = s.limits := rfl
@[simp] theorem setTrack_store : (s.setTrack n r).store = s.store := rfl
@[simp] theorem setTrack_port : (s.setTrack n r).port = s.port := rfl
@[simp] theorem setTrack_req : (s.setTrack n r).req = s.req := rfl
@[simp] theorem setTrack_units : (s.setTrack n r).units = s.units := rfl
@[simp] theorem setTrack_drs : (s.setTrack n r).drs = s.drs := rfl
@[simp] theorem setTrack_link : (s.setTrack n r).link = s.link := rfl
@[simp] theorem setTrack_pending : (s.setTrack n r).pending = s.pending := rfl
end

section
variable (n : Nat) (f : TrackRec → TrackRec)
@[simp] theorem modTrack_ctl : (s.modTrack n f).ctl = s.ctl := rfl
@[simp] theorem modTrack_drives : (s.modTrack n f).drives = s.drives := rfl
@[simp] theorem modTrack_geometry : (s.modTrack n f).geometry = s.geometry := rfl
@[simp] theorem modTrack_sweeps : (s.modTrack n f).sweeps = s.sweeps := rfl
@[simp] theorem modTrack_freeList : (s.modTrack n f).freeList = s.freeList := rfl
@[simp] theorem modTrack_locks : (s.modTrack n f).locks = s.locks := rfl
@[simp] theorem modTrack_queue : (s.modTrack n f).queue = s.queue := rfl
@[simp] theorem modTrack_ladder : (s.modTrack n f).ladder = s.ladder := rfl
@[simp] theorem modTrack_ctxs : (s.modTrack n f).ctxs = s.ctxs := rfl
@[simp] theorem modTrack_path : (s.modTrack n f).path = s.path := rfl
@[simp] theorem modTrack_vote : (s.modTrack n f).vote = s.vote := rfl
@[simp] theorem modTrack_limits : (s.modTrack n f).limits = s.limits := rfl
@[simp] theorem modTrack_store : (s.modTrack n f).store = s.store := rfl
@[simp] theorem modTrack_port : (s.modTrack n f).port = s.port := rfl
@[simp] theorem modTrack_req : (s.modTrack n f).req = s.req := rfl
@[simp] theorem modTrack_units : (s.modTrack n f).units = s.units := rfl
@[simp] theorem modTrack_drs : (s.modTrack n f).drs = s.drs := rfl
@[simp] theorem modTrack_link : (s.modTrack n f).link = s.link := rfl
@[simp] theorem modTrack_pending : (s.modTrack n f).pending = s.pending := rfl
end

section
variable (f : TrackRec → TrackRec)
@[simp] theorem mapTracks_ctl : (s.mapTracks f).ctl = s.ctl := rfl
@[simp] theorem mapTracks_drives : (s.mapTracks f).drives = s.drives := rfl
@[simp] theorem mapTracks_geometry : (s.mapTracks f).geometry = s.geometry := rfl
@[simp] theorem mapTracks_sweeps : (s.mapTracks f).sweeps = s.sweeps := rfl
@[simp] theorem mapTracks_freeList : (s.mapTracks f).freeList = s.freeList := rfl
@[simp] theorem mapTracks_locks : (s.mapTracks f).locks = s.locks := rfl
@[simp] theorem mapTracks_queue : (s.mapTracks f).queue = s.queue := rfl
@[simp] theorem mapTracks_ladder : (s.mapTracks f).ladder = s.ladder := rfl
@[simp] theorem mapTracks_ctxs : (s.mapTracks f).ctxs = s.ctxs := rfl
@[simp] theorem mapTracks_path : (s.mapTracks f).path = s.path := rfl
@[simp] theorem mapTracks_vote : (s.mapTracks f).vote = s.vote := rfl
@[simp] theorem mapTracks_limits : (s.mapTracks f).limits = s.limits := rfl
@[simp] theorem mapTracks_store : (s.mapTracks f).store = s.store := rfl
@[simp] theorem mapTracks_port : (s.mapTracks f).port = s.port := rfl
@[simp] theorem mapTracks_req : (s.mapTracks f).req = s.req := rfl
@[simp] theorem mapTracks_units : (s.mapTracks f).units = s.units := rfl
@[simp] theorem mapTracks_drs : (s.mapTracks f).drs = s.drs := rfl
@[simp] theorem mapTracks_link : (s.mapTracks f).link = s.link := rfl
@[simp] theorem mapTracks_pending : (s.mapTracks f).pending = s.pending := rfl
end

section
variable (f : Attention → Attention)
@[simp] theorem modAttention_ctl : (s.modAttention f).ctl = s.ctl := rfl
@[simp] theorem modAttention_drives : (s.modAttention f).drives = s.drives := rfl
@[simp] theorem modAttention_geometry : (s.modAttention f).geometry = s.geometry := rfl
@[simp] theorem modAttention_sweeps : (s.modAttention f).sweeps = s.sweeps := rfl
@[simp] theorem modAttention_tracks : (s.modAttention f).tracks = s.tracks := rfl
@[simp] theorem modAttention_freeList : (s.modAttention f).freeList = s.freeList := rfl
@[simp] theorem modAttention_locks : (s.modAttention f).locks = s.locks := rfl
@[simp] theorem modAttention_queue : (s.modAttention f).queue = s.queue := rfl
@[simp] theorem modAttention_ladder : (s.modAttention f).ladder = s.ladder := rfl
@[simp] theorem modAttention_ctxs : (s.modAttention f).ctxs = s.ctxs := rfl
@[simp] theorem modAttention_path : (s.modAttention f).path = s.path := rfl
@[simp] theorem modAttention_vote : (s.modAttention f).vote = s.vote := rfl
@[simp] theorem modAttention_limits : (s.modAttention f).limits = s.limits := rfl
@[simp] theorem modAttention_store : (s.modAttention f).store = s.store := rfl
@[simp] theorem modAttention_port : (s.modAttention f).port = s.port := rfl
@[simp] theorem modAttention_req : (s.modAttention f).req = s.req := rfl
@[simp] theorem modAttention_units : (s.modAttention f).units = s.units := rfl
@[simp] theorem modAttention_drs : (s.modAttention f).drs = s.drs := rfl
@[simp] theorem modAttention_pending : (s.modAttention f).pending = s.pending := rfl
end

section
variable (d : Fin 4)
@[simp] theorem attnDrive_ctl : (s.attnDrive d).ctl = s.ctl := rfl
@[simp] theorem attnDrive_drives : (s.attnDrive d).drives = s.drives := rfl
@[simp] theorem attnDrive_geometry : (s.attnDrive d).geometry = s.geometry := rfl
@[simp] theorem attnDrive_sweeps : (s.attnDrive d).sweeps = s.sweeps := rfl
@[simp] theorem attnDrive_tracks : (s.attnDrive d).tracks = s.tracks := rfl
@[simp] theorem attnDrive_freeList : (s.attnDrive d).freeList = s.freeList := rfl
@[simp] theorem attnDrive_locks : (s.attnDrive d).locks = s.locks := rfl
@[simp] theorem attnDrive_queue : (s.attnDrive d).queue = s.queue := rfl
@[simp] theorem attnDrive_ladder : (s.attnDrive d).ladder = s.ladder := rfl
@[simp] theorem attnDrive_ctxs : (s.attnDrive d).ctxs = s.ctxs := rfl
@[simp] theorem attnDrive_path : (s.attnDrive d).path = s.path := rfl
@[simp] theorem attnDrive_vote : (s.attnDrive d).vote = s.vote := rfl
@[simp] theorem attnDrive_limits : (s.attnDrive d).limits = s.limits := rfl
@[simp] theorem attnDrive_store : (s.attnDrive d).store = s.store := rfl
@[simp] theorem attnDrive_port : (s.attnDrive d).port = s.port := rfl
@[simp] theorem attnDrive_req : (s.attnDrive d).req = s.req := rfl
@[simp] theorem attnDrive_units : (s.attnDrive d).units = s.units := rfl
@[simp] theorem attnDrive_drs : (s.attnDrive d).drs = s.drs := rfl
@[simp] theorem attnDrive_pending : (s.attnDrive d).pending = s.pending := rfl
end

section
@[simp] theorem attnSettled_ctl : (s.attnSettled).ctl = s.ctl := rfl
@[simp] theorem attnSettled_drives : (s.attnSettled).drives = s.drives := rfl
@[simp] theorem attnSettled_geometry : (s.attnSettled).geometry = s.geometry := rfl
@[simp] theorem attnSettled_sweeps : (s.attnSettled).sweeps = s.sweeps := rfl
@[simp] theorem attnSettled_tracks : (s.attnSettled).tracks = s.tracks := rfl
@[simp] theorem attnSettled_freeList : (s.attnSettled).freeList = s.freeList := rfl
@[simp] theorem attnSettled_locks : (s.attnSettled).locks = s.locks := rfl
@[simp] theorem attnSettled_queue : (s.attnSettled).queue = s.queue := rfl
@[simp] theorem attnSettled_ladder : (s.attnSettled).ladder = s.ladder := rfl
@[simp] theorem attnSettled_ctxs : (s.attnSettled).ctxs = s.ctxs := rfl
@[simp] theorem attnSettled_path : (s.attnSettled).path = s.path := rfl
@[simp] theorem attnSettled_vote : (s.attnSettled).vote = s.vote := rfl
@[simp] theorem attnSettled_limits : (s.attnSettled).limits = s.limits := rfl
@[simp] theorem attnSettled_store : (s.attnSettled).store = s.store := rfl
@[simp] theorem attnSettled_port : (s.attnSettled).port = s.port := rfl
@[simp] theorem attnSettled_req : (s.attnSettled).req = s.req := rfl
@[simp] theorem attnSettled_units : (s.attnSettled).units = s.units := rfl
@[simp] theorem attnSettled_drs : (s.attnSettled).drs = s.drs := rfl
@[simp] theorem attnSettled_pending : (s.attnSettled).pending = s.pending := rfl
end

section
@[simp] theorem attnSweep_ctl : (s.attnSweep).ctl = s.ctl := rfl
@[simp] theorem attnSweep_drives : (s.attnSweep).drives = s.drives := rfl
@[simp] theorem attnSweep_geometry : (s.attnSweep).geometry = s.geometry := rfl
@[simp] theorem attnSweep_sweeps : (s.attnSweep).sweeps = s.sweeps := rfl
@[simp] theorem attnSweep_tracks : (s.attnSweep).tracks = s.tracks := rfl
@[simp] theorem attnSweep_freeList : (s.attnSweep).freeList = s.freeList := rfl
@[simp] theorem attnSweep_locks : (s.attnSweep).locks = s.locks := rfl
@[simp] theorem attnSweep_queue : (s.attnSweep).queue = s.queue := rfl
@[simp] theorem attnSweep_ladder : (s.attnSweep).ladder = s.ladder := rfl
@[simp] theorem attnSweep_ctxs : (s.attnSweep).ctxs = s.ctxs := rfl
@[simp] theorem attnSweep_path : (s.attnSweep).path = s.path := rfl
@[simp] theorem attnSweep_vote : (s.attnSweep).vote = s.vote := rfl
@[simp] theorem attnSweep_limits : (s.attnSweep).limits = s.limits := rfl
@[simp] theorem attnSweep_store : (s.attnSweep).store = s.store := rfl
@[simp] theorem attnSweep_port : (s.attnSweep).port = s.port := rfl
@[simp] theorem attnSweep_req : (s.attnSweep).req = s.req := rfl
@[simp] theorem attnSweep_units : (s.attnSweep).units = s.units := rfl
@[simp] theorem attnSweep_drs : (s.attnSweep).drs = s.drs := rfl
@[simp] theorem attnSweep_pending : (s.attnSweep).pending = s.pending := rfl
end

section
@[simp] theorem attnStore_ctl : (s.attnStore).ctl = s.ctl := rfl
@[simp] theorem attnStore_drives : (s.attnStore).drives = s.drives := rfl
@[simp] theorem attnStore_geometry : (s.attnStore).geometry = s.geometry := rfl
@[simp] theorem attnStore_sweeps : (s.attnStore).sweeps = s.sweeps := rfl
@[simp] theorem attnStore_tracks : (s.attnStore).tracks = s.tracks := rfl
@[simp] theorem attnStore_freeList : (s.attnStore).freeList = s.freeList := rfl
@[simp] theorem attnStore_locks : (s.attnStore).locks = s.locks := rfl
@[simp] theorem attnStore_queue : (s.attnStore).queue = s.queue := rfl
@[simp] theorem attnStore_ladder : (s.attnStore).ladder = s.ladder := rfl
@[simp] theorem attnStore_ctxs : (s.attnStore).ctxs = s.ctxs := rfl
@[simp] theorem attnStore_path : (s.attnStore).path = s.path := rfl
@[simp] theorem attnStore_vote : (s.attnStore).vote = s.vote := rfl
@[simp] theorem attnStore_limits : (s.attnStore).limits = s.limits := rfl
@[simp] theorem attnStore_store : (s.attnStore).store = s.store := rfl
@[simp] theorem attnStore_req : (s.attnStore).req = s.req := rfl
@[simp] theorem attnStore_units : (s.attnStore).units = s.units := rfl
@[simp] theorem attnStore_drs : (s.attnStore).drs = s.drs := rfl
@[simp] theorem attnStore_pending : (s.attnStore).pending = s.pending := rfl
end

section
@[simp] theorem stateChange_ctl : (s.stateChange).ctl = s.ctl := rfl
@[simp] theorem stateChange_drives : (s.stateChange).drives = s.drives := rfl
@[simp] theorem stateChange_geometry : (s.stateChange).geometry = s.geometry := rfl
@[simp] theorem stateChange_sweeps : (s.stateChange).sweeps = s.sweeps := rfl
@[simp] theorem stateChange_tracks : (s.stateChange).tracks = s.tracks := rfl
@[simp] theorem stateChange_freeList : (s.stateChange).freeList = s.freeList := rfl
@[simp] theorem stateChange_locks : (s.stateChange).locks = s.locks := rfl
@[simp] theorem stateChange_queue : (s.stateChange).queue = s.queue := rfl
@[simp] theorem stateChange_ladder : (s.stateChange).ladder = s.ladder := rfl
@[simp] theorem stateChange_ctxs : (s.stateChange).ctxs = s.ctxs := rfl
@[simp] theorem stateChange_path : (s.stateChange).path = s.path := rfl
@[simp] theorem stateChange_vote : (s.stateChange).vote = s.vote := rfl
@[simp] theorem stateChange_limits : (s.stateChange).limits = s.limits := rfl
@[simp] theorem stateChange_store : (s.stateChange).store = s.store := rfl
@[simp] theorem stateChange_req : (s.stateChange).req = s.req := rfl
@[simp] theorem stateChange_units : (s.stateChange).units = s.units := rfl
@[simp] theorem stateChange_drs : (s.stateChange).drs = s.drs := rfl
@[simp] theorem stateChange_link : (s.stateChange).link = s.link := rfl
@[simp] theorem stateChange_pending : (s.stateChange).pending = s.pending := rfl
end

section
variable (n : Nat)
@[simp] theorem leaveQueue_ctl : (s.leaveQueue n).ctl = s.ctl := rfl
@[simp] theorem leaveQueue_drives : (s.leaveQueue n).drives = s.drives := rfl
@[simp] theorem leaveQueue_geometry : (s.leaveQueue n).geometry = s.geometry := rfl
@[simp] theorem leaveQueue_sweeps : (s.leaveQueue n).sweeps = s.sweeps := rfl
@[simp] theorem leaveQueue_tracks : (s.leaveQueue n).tracks = s.tracks := rfl
@[simp] theorem leaveQueue_freeList : (s.leaveQueue n).freeList = s.freeList := rfl
@[simp] theorem leaveQueue_locks : (s.leaveQueue n).locks = s.locks := rfl
@[simp] theorem leaveQueue_ladder : (s.leaveQueue n).ladder = s.ladder := rfl
@[simp] theorem leaveQueue_ctxs : (s.leaveQueue n).ctxs = s.ctxs := rfl
@[simp] theorem leaveQueue_path : (s.leaveQueue n).path = s.path := rfl
@[simp] theorem leaveQueue_vote : (s.leaveQueue n).vote = s.vote := rfl
@[simp] theorem leaveQueue_limits : (s.leaveQueue n).limits = s.limits := rfl
@[simp] theorem leaveQueue_store : (s.leaveQueue n).store = s.store := rfl
@[simp] theorem leaveQueue_port : (s.leaveQueue n).port = s.port := rfl
@[simp] theorem leaveQueue_req : (s.leaveQueue n).req = s.req := rfl
@[simp] theorem leaveQueue_units : (s.leaveQueue n).units = s.units := rfl
@[simp] theorem leaveQueue_drs : (s.leaveQueue n).drs = s.drs := rfl
@[simp] theorem leaveQueue_link : (s.leaveQueue n).link = s.link := rfl
@[simp] theorem leaveQueue_pending : (s.leaveQueue n).pending = s.pending := rfl
end

section
variable (n : Nat) (k : TrackClass)
@[simp] theorem queueTail_ctl : (s.queueTail n k).ctl = s.ctl := rfl
@[simp] theorem queueTail_drives : (s.queueTail n k).drives = s.drives := rfl
@[simp] theorem queueTail_geometry : (s.queueTail n k).geometry = s.geometry := rfl
@[simp] theorem queueTail_sweeps : (s.queueTail n k).sweeps = s.sweeps := rfl
@[simp] theorem queueTail_freeList : (s.queueTail n k).freeList = s.freeList := rfl
@[simp] theorem queueTail_locks : (s.queueTail n k).locks = s.locks := rfl
@[simp] theorem queueTail_ladder : (s.queueTail n k).ladder = s.ladder := rfl
@[simp] theorem queueTail_ctxs : (s.queueTail n k).ctxs = s.ctxs := rfl
@[simp] theorem queueTail_path : (s.queueTail n k).path = s.path := rfl
@[simp] theorem queueTail_vote : (s.queueTail n k).vote = s.vote := rfl
@[simp] theorem queueTail_limits : (s.queueTail n k).limits = s.limits := rfl
@[simp] theorem queueTail_store : (s.queueTail n k).store = s.store := rfl
@[simp] theorem queueTail_port : (s.queueTail n k).port = s.port := rfl
@[simp] theorem queueTail_req : (s.queueTail n k).req = s.req := rfl
@[simp] theorem queueTail_units : (s.queueTail n k).units = s.units := rfl
@[simp] theorem queueTail_drs : (s.queueTail n k).drs = s.drs := rfl
@[simp] theorem queueTail_link : (s.queueTail n k).link = s.link := rfl
@[simp] theorem queueTail_pending : (s.queueTail n k).pending = s.pending := rfl
end

section
variable (n : Nat)
@[simp] theorem queueHead_ctl : (s.queueHead n).ctl = s.ctl := rfl
@[simp] theorem queueHead_drives : (s.queueHead n).drives = s.drives := rfl
@[simp] theorem queueHead_geometry : (s.queueHead n).geometry = s.geometry := rfl
@[simp] theorem queueHead_sweeps : (s.queueHead n).sweeps = s.sweeps := rfl
@[simp] theorem queueHead_freeList : (s.queueHead n).freeList = s.freeList := rfl
@[simp] theorem queueHead_locks : (s.queueHead n).locks = s.locks := rfl
@[simp] theorem queueHead_ladder : (s.queueHead n).ladder = s.ladder := rfl
@[simp] theorem queueHead_ctxs : (s.queueHead n).ctxs = s.ctxs := rfl
@[simp] theorem queueHead_path : (s.queueHead n).path = s.path := rfl
@[simp] theorem queueHead_vote : (s.queueHead n).vote = s.vote := rfl
@[simp] theorem queueHead_limits : (s.queueHead n).limits = s.limits := rfl
@[simp] theorem queueHead_store : (s.queueHead n).store = s.store := rfl
@[simp] theorem queueHead_port : (s.queueHead n).port = s.port := rfl
@[simp] theorem queueHead_req : (s.queueHead n).req = s.req := rfl
@[simp] theorem queueHead_units : (s.queueHead n).units = s.units := rfl
@[simp] theorem queueHead_drs : (s.queueHead n).drs = s.drs := rfl
@[simp] theorem queueHead_link : (s.queueHead n).link = s.link := rfl
@[simp] theorem queueHead_pending : (s.queueHead n).pending = s.pending := rfl
end

section
variable (k : StoreClaimant) (n : Nat)
@[simp] theorem askStore_ctl : (s.askStore k n).ctl = s.ctl := rfl
@[simp] theorem askStore_drives : (s.askStore k n).drives = s.drives := rfl
@[simp] theorem askStore_geometry : (s.askStore k n).geometry = s.geometry := rfl
@[simp] theorem askStore_sweeps : (s.askStore k n).sweeps = s.sweeps := rfl
@[simp] theorem askStore_tracks : (s.askStore k n).tracks = s.tracks := rfl
@[simp] theorem askStore_freeList : (s.askStore k n).freeList = s.freeList := rfl
@[simp] theorem askStore_locks : (s.askStore k n).locks = s.locks := rfl
@[simp] theorem askStore_queue : (s.askStore k n).queue = s.queue := rfl
@[simp] theorem askStore_ladder : (s.askStore k n).ladder = s.ladder := rfl
@[simp] theorem askStore_ctxs : (s.askStore k n).ctxs = s.ctxs := rfl
@[simp] theorem askStore_path : (s.askStore k n).path = s.path := rfl
@[simp] theorem askStore_vote : (s.askStore k n).vote = s.vote := rfl
@[simp] theorem askStore_limits : (s.askStore k n).limits = s.limits := rfl
@[simp] theorem askStore_port : (s.askStore k n).port = s.port := rfl
@[simp] theorem askStore_req : (s.askStore k n).req = s.req := rfl
@[simp] theorem askStore_units : (s.askStore k n).units = s.units := rfl
@[simp] theorem askStore_drs : (s.askStore k n).drs = s.drs := rfl
@[simp] theorem askStore_link : (s.askStore k n).link = s.link := rfl
@[simp] theorem askStore_pending : (s.askStore k n).pending = s.pending := rfl
end

section
variable (u : Fin 4) (b : Burst)
@[simp] theorem putBurst_ctl : (s.putBurst u b).ctl = s.ctl := rfl
@[simp] theorem putBurst_drives : (s.putBurst u b).drives = s.drives := rfl
@[simp] theorem putBurst_geometry : (s.putBurst u b).geometry = s.geometry := rfl
@[simp] theorem putBurst_sweeps : (s.putBurst u b).sweeps = s.sweeps := rfl
@[simp] theorem putBurst_tracks : (s.putBurst u b).tracks = s.tracks := rfl
@[simp] theorem putBurst_freeList : (s.putBurst u b).freeList = s.freeList := rfl
@[simp] theorem putBurst_locks : (s.putBurst u b).locks = s.locks := rfl
@[simp] theorem putBurst_queue : (s.putBurst u b).queue = s.queue := rfl
@[simp] theorem putBurst_ladder : (s.putBurst u b).ladder = s.ladder := rfl
@[simp] theorem putBurst_ctxs : (s.putBurst u b).ctxs = s.ctxs := rfl
@[simp] theorem putBurst_path : (s.putBurst u b).path = s.path := rfl
@[simp] theorem putBurst_vote : (s.putBurst u b).vote = s.vote := rfl
@[simp] theorem putBurst_limits : (s.putBurst u b).limits = s.limits := rfl
@[simp] theorem putBurst_store : (s.putBurst u b).store = s.store := rfl
@[simp] theorem putBurst_port : (s.putBurst u b).port = s.port := rfl
@[simp] theorem putBurst_units : (s.putBurst u b).units = s.units := rfl
@[simp] theorem putBurst_drs : (s.putBurst u b).drs = s.drs := rfl
@[simp] theorem putBurst_link : (s.putBurst u b).link = s.link := rfl
@[simp] theorem putBurst_pending : (s.putBurst u b).pending = s.pending := rfl
end

section
@[simp] theorem chooseBurst_ctl : (s.chooseBurst).ctl = s.ctl := rfl
@[simp] theorem chooseBurst_drives : (s.chooseBurst).drives = s.drives := rfl
@[simp] theorem chooseBurst_geometry : (s.chooseBurst).geometry = s.geometry := rfl
@[simp] theorem chooseBurst_sweeps : (s.chooseBurst).sweeps = s.sweeps := rfl
@[simp] theorem chooseBurst_tracks : (s.chooseBurst).tracks = s.tracks := rfl
@[simp] theorem chooseBurst_freeList : (s.chooseBurst).freeList = s.freeList := rfl
@[simp] theorem chooseBurst_locks : (s.chooseBurst).locks = s.locks := rfl
@[simp] theorem chooseBurst_queue : (s.chooseBurst).queue = s.queue := rfl
@[simp] theorem chooseBurst_ladder : (s.chooseBurst).ladder = s.ladder := rfl
@[simp] theorem chooseBurst_ctxs : (s.chooseBurst).ctxs = s.ctxs := rfl
@[simp] theorem chooseBurst_path : (s.chooseBurst).path = s.path := rfl
@[simp] theorem chooseBurst_vote : (s.chooseBurst).vote = s.vote := rfl
@[simp] theorem chooseBurst_limits : (s.chooseBurst).limits = s.limits := rfl
@[simp] theorem chooseBurst_store : (s.chooseBurst).store = s.store := rfl
@[simp] theorem chooseBurst_port : (s.chooseBurst).port = s.port := rfl
@[simp] theorem chooseBurst_units : (s.chooseBurst).units = s.units := rfl
@[simp] theorem chooseBurst_drs : (s.chooseBurst).drs = s.drs := rfl
@[simp] theorem chooseBurst_link : (s.chooseBurst).link = s.link := rfl
@[simp] theorem chooseBurst_pending : (s.chooseBurst).pending = s.pending := rfl
end

section
@[simp] theorem dropGrant_ctl : (s.dropGrant).ctl = s.ctl := rfl
@[simp] theorem dropGrant_drives : (s.dropGrant).drives = s.drives := rfl
@[simp] theorem dropGrant_geometry : (s.dropGrant).geometry = s.geometry := rfl
@[simp] theorem dropGrant_sweeps : (s.dropGrant).sweeps = s.sweeps := rfl
@[simp] theorem dropGrant_tracks : (s.dropGrant).tracks = s.tracks := rfl
@[simp] theorem dropGrant_freeList : (s.dropGrant).freeList = s.freeList := rfl
@[simp] theorem dropGrant_locks : (s.dropGrant).locks = s.locks := rfl
@[simp] theorem dropGrant_queue : (s.dropGrant).queue = s.queue := rfl
@[simp] theorem dropGrant_ladder : (s.dropGrant).ladder = s.ladder := rfl
@[simp] theorem dropGrant_ctxs : (s.dropGrant).ctxs = s.ctxs := rfl
@[simp] theorem dropGrant_vote : (s.dropGrant).vote = s.vote := rfl
@[simp] theorem dropGrant_limits : (s.dropGrant).limits = s.limits := rfl
@[simp] theorem dropGrant_store : (s.dropGrant).store = s.store := rfl
@[simp] theorem dropGrant_port : (s.dropGrant).port = s.port := rfl
@[simp] theorem dropGrant_req : (s.dropGrant).req = s.req := rfl
@[simp] theorem dropGrant_units : (s.dropGrant).units = s.units := rfl
@[simp] theorem dropGrant_drs : (s.dropGrant).drs = s.drs := rfl
@[simp] theorem dropGrant_link : (s.dropGrant).link = s.link := rfl
@[simp] theorem dropGrant_pending : (s.dropGrant).pending = s.pending := rfl
end

section
variable (r : Revolution)
@[simp] theorem setRev_ctl : (s.setRev r).ctl = s.ctl := rfl
@[simp] theorem setRev_drives : (s.setRev r).drives = s.drives := rfl
@[simp] theorem setRev_geometry : (s.setRev r).geometry = s.geometry := rfl
@[simp] theorem setRev_sweeps : (s.setRev r).sweeps = s.sweeps := rfl
@[simp] theorem setRev_tracks : (s.setRev r).tracks = s.tracks := rfl
@[simp] theorem setRev_freeList : (s.setRev r).freeList = s.freeList := rfl
@[simp] theorem setRev_locks : (s.setRev r).locks = s.locks := rfl
@[simp] theorem setRev_queue : (s.setRev r).queue = s.queue := rfl
@[simp] theorem setRev_ladder : (s.setRev r).ladder = s.ladder := rfl
@[simp] theorem setRev_ctxs : (s.setRev r).ctxs = s.ctxs := rfl
@[simp] theorem setRev_vote : (s.setRev r).vote = s.vote := rfl
@[simp] theorem setRev_limits : (s.setRev r).limits = s.limits := rfl
@[simp] theorem setRev_store : (s.setRev r).store = s.store := rfl
@[simp] theorem setRev_port : (s.setRev r).port = s.port := rfl
@[simp] theorem setRev_req : (s.setRev r).req = s.req := rfl
@[simp] theorem setRev_units : (s.setRev r).units = s.units := rfl
@[simp] theorem setRev_drs : (s.setRev r).drs = s.drs := rfl
@[simp] theorem setRev_link : (s.setRev r).link = s.link := rfl
@[simp] theorem setRev_pending : (s.setRev r).pending = s.pending := rfl
end

section
variable (q : VoteRequest)
@[simp] theorem queueVote_ctl : (s.queueVote q).ctl = s.ctl := rfl
@[simp] theorem queueVote_drives : (s.queueVote q).drives = s.drives := rfl
@[simp] theorem queueVote_geometry : (s.queueVote q).geometry = s.geometry := rfl
@[simp] theorem queueVote_sweeps : (s.queueVote q).sweeps = s.sweeps := rfl
@[simp] theorem queueVote_tracks : (s.queueVote q).tracks = s.tracks := rfl
@[simp] theorem queueVote_freeList : (s.queueVote q).freeList = s.freeList := rfl
@[simp] theorem queueVote_locks : (s.queueVote q).locks = s.locks := rfl
@[simp] theorem queueVote_queue : (s.queueVote q).queue = s.queue := rfl
@[simp] theorem queueVote_ladder : (s.queueVote q).ladder = s.ladder := rfl
@[simp] theorem queueVote_ctxs : (s.queueVote q).ctxs = s.ctxs := rfl
@[simp] theorem queueVote_path : (s.queueVote q).path = s.path := rfl
@[simp] theorem queueVote_limits : (s.queueVote q).limits = s.limits := rfl
@[simp] theorem queueVote_store : (s.queueVote q).store = s.store := rfl
@[simp] theorem queueVote_port : (s.queueVote q).port = s.port := rfl
@[simp] theorem queueVote_req : (s.queueVote q).req = s.req := rfl
@[simp] theorem queueVote_units : (s.queueVote q).units = s.units := rfl
@[simp] theorem queueVote_drs : (s.queueVote q).drs = s.drs := rfl
@[simp] theorem queueVote_link : (s.queueVote q).link = s.link := rfl
@[simp] theorem queueVote_pending : (s.queueVote q).pending = s.pending := rfl
end

section
variable (o : WordOwner)
@[simp] theorem clearFlips_ctl : (s.clearFlips o).ctl = s.ctl := rfl
@[simp] theorem clearFlips_drives : (s.clearFlips o).drives = s.drives := rfl
@[simp] theorem clearFlips_geometry : (s.clearFlips o).geometry = s.geometry := rfl
@[simp] theorem clearFlips_sweeps : (s.clearFlips o).sweeps = s.sweeps := rfl
@[simp] theorem clearFlips_tracks : (s.clearFlips o).tracks = s.tracks := rfl
@[simp] theorem clearFlips_freeList : (s.clearFlips o).freeList = s.freeList := rfl
@[simp] theorem clearFlips_locks : (s.clearFlips o).locks = s.locks := rfl
@[simp] theorem clearFlips_queue : (s.clearFlips o).queue = s.queue := rfl
@[simp] theorem clearFlips_ladder : (s.clearFlips o).ladder = s.ladder := rfl
@[simp] theorem clearFlips_ctxs : (s.clearFlips o).ctxs = s.ctxs := rfl
@[simp] theorem clearFlips_path : (s.clearFlips o).path = s.path := rfl
@[simp] theorem clearFlips_vote : (s.clearFlips o).vote = s.vote := rfl
@[simp] theorem clearFlips_limits : (s.clearFlips o).limits = s.limits := rfl
@[simp] theorem clearFlips_port : (s.clearFlips o).port = s.port := rfl
@[simp] theorem clearFlips_req : (s.clearFlips o).req = s.req := rfl
@[simp] theorem clearFlips_units : (s.clearFlips o).units = s.units := rfl
@[simp] theorem clearFlips_drs : (s.clearFlips o).drs = s.drs := rfl
@[simp] theorem clearFlips_link : (s.clearFlips o).link = s.link := rfl
@[simp] theorem clearFlips_pending : (s.clearFlips o).pending = s.pending := rfl
end

section
variable (w : Nat)
@[simp] theorem unflip_ctl : (s.unflip w).ctl = s.ctl := rfl
@[simp] theorem unflip_drives : (s.unflip w).drives = s.drives := rfl
@[simp] theorem unflip_geometry : (s.unflip w).geometry = s.geometry := rfl
@[simp] theorem unflip_sweeps : (s.unflip w).sweeps = s.sweeps := rfl
@[simp] theorem unflip_tracks : (s.unflip w).tracks = s.tracks := rfl
@[simp] theorem unflip_freeList : (s.unflip w).freeList = s.freeList := rfl
@[simp] theorem unflip_locks : (s.unflip w).locks = s.locks := rfl
@[simp] theorem unflip_queue : (s.unflip w).queue = s.queue := rfl
@[simp] theorem unflip_ladder : (s.unflip w).ladder = s.ladder := rfl
@[simp] theorem unflip_ctxs : (s.unflip w).ctxs = s.ctxs := rfl
@[simp] theorem unflip_path : (s.unflip w).path = s.path := rfl
@[simp] theorem unflip_vote : (s.unflip w).vote = s.vote := rfl
@[simp] theorem unflip_limits : (s.unflip w).limits = s.limits := rfl
@[simp] theorem unflip_port : (s.unflip w).port = s.port := rfl
@[simp] theorem unflip_req : (s.unflip w).req = s.req := rfl
@[simp] theorem unflip_units : (s.unflip w).units = s.units := rfl
@[simp] theorem unflip_drs : (s.unflip w).drs = s.drs := rfl
@[simp] theorem unflip_link : (s.unflip w).link = s.link := rfl
@[simp] theorem unflip_pending : (s.unflip w).pending = s.pending := rfl
end

section
variable (k : StoreClaimant) (a : Nat) (b : List Byte)
@[simp] theorem writeStore_ctl : (s.writeStore k a b).ctl = s.ctl := rfl
@[simp] theorem writeStore_drives : (s.writeStore k a b).drives = s.drives := rfl
@[simp] theorem writeStore_geometry : (s.writeStore k a b).geometry = s.geometry := rfl
@[simp] theorem writeStore_sweeps : (s.writeStore k a b).sweeps = s.sweeps := rfl
@[simp] theorem writeStore_tracks : (s.writeStore k a b).tracks = s.tracks := rfl
@[simp] theorem writeStore_freeList : (s.writeStore k a b).freeList = s.freeList := rfl
@[simp] theorem writeStore_locks : (s.writeStore k a b).locks = s.locks := rfl
@[simp] theorem writeStore_queue : (s.writeStore k a b).queue = s.queue := rfl
@[simp] theorem writeStore_ladder : (s.writeStore k a b).ladder = s.ladder := rfl
@[simp] theorem writeStore_ctxs : (s.writeStore k a b).ctxs = s.ctxs := rfl
@[simp] theorem writeStore_path : (s.writeStore k a b).path = s.path := rfl
@[simp] theorem writeStore_vote : (s.writeStore k a b).vote = s.vote := rfl
@[simp] theorem writeStore_limits : (s.writeStore k a b).limits = s.limits := rfl
@[simp] theorem writeStore_port : (s.writeStore k a b).port = s.port := rfl
@[simp] theorem writeStore_req : (s.writeStore k a b).req = s.req := rfl
@[simp] theorem writeStore_units : (s.writeStore k a b).units = s.units := rfl
@[simp] theorem writeStore_drs : (s.writeStore k a b).drs = s.drs := rfl
@[simp] theorem writeStore_link : (s.writeStore k a b).link = s.link := rfl
@[simp] theorem writeStore_pending : (s.writeStore k a b).pending = s.pending := rfl
end

section
variable (u : Fin 4)
@[simp] theorem leaveWaiting_ctl : (s.leaveWaiting u).ctl = s.ctl := rfl
@[simp] theorem leaveWaiting_drives : (s.leaveWaiting u).drives = s.drives := rfl
@[simp] theorem leaveWaiting_geometry : (s.leaveWaiting u).geometry = s.geometry := rfl
@[simp] theorem leaveWaiting_sweeps : (s.leaveWaiting u).sweeps = s.sweeps := rfl
@[simp] theorem leaveWaiting_tracks : (s.leaveWaiting u).tracks = s.tracks := rfl
@[simp] theorem leaveWaiting_freeList : (s.leaveWaiting u).freeList = s.freeList := rfl
@[simp] theorem leaveWaiting_locks : (s.leaveWaiting u).locks = s.locks := rfl
@[simp] theorem leaveWaiting_queue : (s.leaveWaiting u).queue = s.queue := rfl
@[simp] theorem leaveWaiting_ladder : (s.leaveWaiting u).ladder = s.ladder := rfl
@[simp] theorem leaveWaiting_ctxs : (s.leaveWaiting u).ctxs = s.ctxs := rfl
@[simp] theorem leaveWaiting_path : (s.leaveWaiting u).path = s.path := rfl
@[simp] theorem leaveWaiting_vote : (s.leaveWaiting u).vote = s.vote := rfl
@[simp] theorem leaveWaiting_limits : (s.leaveWaiting u).limits = s.limits := rfl
@[simp] theorem leaveWaiting_store : (s.leaveWaiting u).store = s.store := rfl
@[simp] theorem leaveWaiting_port : (s.leaveWaiting u).port = s.port := rfl
@[simp] theorem leaveWaiting_req : (s.leaveWaiting u).req = s.req := rfl
@[simp] theorem leaveWaiting_units : (s.leaveWaiting u).units = s.units := rfl
@[simp] theorem leaveWaiting_link : (s.leaveWaiting u).link = s.link := rfl
@[simp] theorem leaveWaiting_pending : (s.leaveWaiting u).pending = s.pending := rfl
end

section
variable (on : Nat → Bool)
@[simp] theorem notifyWaiters_ctl : (s.notifyWaiters on).ctl = s.ctl := rfl
@[simp] theorem notifyWaiters_drives : (s.notifyWaiters on).drives = s.drives := rfl
@[simp] theorem notifyWaiters_geometry : (s.notifyWaiters on).geometry = s.geometry := rfl
@[simp] theorem notifyWaiters_sweeps : (s.notifyWaiters on).sweeps = s.sweeps := rfl
@[simp] theorem notifyWaiters_tracks : (s.notifyWaiters on).tracks = s.tracks := rfl
@[simp] theorem notifyWaiters_freeList : (s.notifyWaiters on).freeList = s.freeList := rfl
@[simp] theorem notifyWaiters_locks : (s.notifyWaiters on).locks = s.locks := rfl
@[simp] theorem notifyWaiters_queue : (s.notifyWaiters on).queue = s.queue := rfl
@[simp] theorem notifyWaiters_ladder : (s.notifyWaiters on).ladder = s.ladder := rfl
@[simp] theorem notifyWaiters_ctxs : (s.notifyWaiters on).ctxs = s.ctxs := rfl
@[simp] theorem notifyWaiters_path : (s.notifyWaiters on).path = s.path := rfl
@[simp] theorem notifyWaiters_vote : (s.notifyWaiters on).vote = s.vote := rfl
@[simp] theorem notifyWaiters_limits : (s.notifyWaiters on).limits = s.limits := rfl
@[simp] theorem notifyWaiters_store : (s.notifyWaiters on).store = s.store := rfl
@[simp] theorem notifyWaiters_port : (s.notifyWaiters on).port = s.port := rfl
@[simp] theorem notifyWaiters_req : (s.notifyWaiters on).req = s.req := rfl
@[simp] theorem notifyWaiters_drs : (s.notifyWaiters on).drs = s.drs := rfl
@[simp] theorem notifyWaiters_link : (s.notifyWaiters on).link = s.link := rfl
@[simp] theorem notifyWaiters_pending : (s.notifyWaiters on).pending = s.pending := rfl
end

section
variable (u : Fin 4) (x : SenseRec)
@[simp] theorem setSense_ctl : (s.setSense u x).ctl = s.ctl := rfl
@[simp] theorem setSense_drives : (s.setSense u x).drives = s.drives := rfl
@[simp] theorem setSense_geometry : (s.setSense u x).geometry = s.geometry := rfl
@[simp] theorem setSense_sweeps : (s.setSense u x).sweeps = s.sweeps := rfl
@[simp] theorem setSense_tracks : (s.setSense u x).tracks = s.tracks := rfl
@[simp] theorem setSense_freeList : (s.setSense u x).freeList = s.freeList := rfl
@[simp] theorem setSense_locks : (s.setSense u x).locks = s.locks := rfl
@[simp] theorem setSense_queue : (s.setSense u x).queue = s.queue := rfl
@[simp] theorem setSense_ladder : (s.setSense u x).ladder = s.ladder := rfl
@[simp] theorem setSense_ctxs : (s.setSense u x).ctxs = s.ctxs := rfl
@[simp] theorem setSense_path : (s.setSense u x).path = s.path := rfl
@[simp] theorem setSense_vote : (s.setSense u x).vote = s.vote := rfl
@[simp] theorem setSense_limits : (s.setSense u x).limits = s.limits := rfl
@[simp] theorem setSense_store : (s.setSense u x).store = s.store := rfl
@[simp] theorem setSense_port : (s.setSense u x).port = s.port := rfl
@[simp] theorem setSense_req : (s.setSense u x).req = s.req := rfl
@[simp] theorem setSense_drs : (s.setSense u x).drs = s.drs := rfl
@[simp] theorem setSense_link : (s.setSense u x).link = s.link := rfl
@[simp] theorem setSense_pending : (s.setSense u x).pending = s.pending := rfl
end

section
variable (x : VoteService)
@[simp] theorem setService_ctl : (s.setService x).ctl = s.ctl := rfl
@[simp] theorem setService_drives : (s.setService x).drives = s.drives := rfl
@[simp] theorem setService_geometry : (s.setService x).geometry = s.geometry := rfl
@[simp] theorem setService_sweeps : (s.setService x).sweeps = s.sweeps := rfl
@[simp] theorem setService_tracks : (s.setService x).tracks = s.tracks := rfl
@[simp] theorem setService_freeList : (s.setService x).freeList = s.freeList := rfl
@[simp] theorem setService_locks : (s.setService x).locks = s.locks := rfl
@[simp] theorem setService_queue : (s.setService x).queue = s.queue := rfl
@[simp] theorem setService_ladder : (s.setService x).ladder = s.ladder := rfl
@[simp] theorem setService_ctxs : (s.setService x).ctxs = s.ctxs := rfl
@[simp] theorem setService_path : (s.setService x).path = s.path := rfl
@[simp] theorem setService_limits : (s.setService x).limits = s.limits := rfl
@[simp] theorem setService_store : (s.setService x).store = s.store := rfl
@[simp] theorem setService_port : (s.setService x).port = s.port := rfl
@[simp] theorem setService_req : (s.setService x).req = s.req := rfl
@[simp] theorem setService_units : (s.setService x).units = s.units := rfl
@[simp] theorem setService_drs : (s.setService x).drs = s.drs := rfl
@[simp] theorem setService_link : (s.setService x).link = s.link := rfl
@[simp] theorem setService_pending : (s.setService x).pending = s.pending := rfl
end

section
variable (k : StoreClaimant) (w : Nat)
@[simp] theorem noteUncorrectable_ctl : (s.noteUncorrectable k w).ctl = s.ctl := rfl
@[simp] theorem noteUncorrectable_drives : (s.noteUncorrectable k w).drives = s.drives := rfl
@[simp] theorem noteUncorrectable_geometry : (s.noteUncorrectable k w).geometry = s.geometry := rfl
@[simp] theorem noteUncorrectable_sweeps : (s.noteUncorrectable k w).sweeps = s.sweeps := rfl
@[simp] theorem noteUncorrectable_tracks : (s.noteUncorrectable k w).tracks = s.tracks := rfl
@[simp] theorem noteUncorrectable_freeList : (s.noteUncorrectable k w).freeList = s.freeList := rfl
@[simp] theorem noteUncorrectable_locks : (s.noteUncorrectable k w).locks = s.locks := rfl
@[simp] theorem noteUncorrectable_queue : (s.noteUncorrectable k w).queue = s.queue := rfl
@[simp] theorem noteUncorrectable_ladder : (s.noteUncorrectable k w).ladder = s.ladder := rfl
@[simp] theorem noteUncorrectable_ctxs : (s.noteUncorrectable k w).ctxs = s.ctxs := rfl
@[simp] theorem noteUncorrectable_path : (s.noteUncorrectable k w).path = s.path := rfl
@[simp] theorem noteUncorrectable_vote : (s.noteUncorrectable k w).vote = s.vote := rfl
@[simp] theorem noteUncorrectable_limits : (s.noteUncorrectable k w).limits = s.limits := rfl
@[simp] theorem noteUncorrectable_req : (s.noteUncorrectable k w).req = s.req := rfl
@[simp] theorem noteUncorrectable_units : (s.noteUncorrectable k w).units = s.units := rfl
@[simp] theorem noteUncorrectable_drs : (s.noteUncorrectable k w).drs = s.drs := rfl
@[simp] theorem noteUncorrectable_pending : (s.noteUncorrectable k w).pending = s.pending := rfl
end

section
variable (d : Fin 4) (x : DiscoveryStage)
@[simp] theorem setStage_ctl : (s.setStage d x).ctl = s.ctl := rfl
@[simp] theorem setStage_geometry : (s.setStage d x).geometry = s.geometry := rfl
@[simp] theorem setStage_sweeps : (s.setStage d x).sweeps = s.sweeps := rfl
@[simp] theorem setStage_tracks : (s.setStage d x).tracks = s.tracks := rfl
@[simp] theorem setStage_freeList : (s.setStage d x).freeList = s.freeList := rfl
@[simp] theorem setStage_locks : (s.setStage d x).locks = s.locks := rfl
@[simp] theorem setStage_queue : (s.setStage d x).queue = s.queue := rfl
@[simp] theorem setStage_ladder : (s.setStage d x).ladder = s.ladder := rfl
@[simp] theorem setStage_ctxs : (s.setStage d x).ctxs = s.ctxs := rfl
@[simp] theorem setStage_path : (s.setStage d x).path = s.path := rfl
@[simp] theorem setStage_vote : (s.setStage d x).vote = s.vote := rfl
@[simp] theorem setStage_limits : (s.setStage d x).limits = s.limits := rfl
@[simp] theorem setStage_store : (s.setStage d x).store = s.store := rfl
@[simp] theorem setStage_port : (s.setStage d x).port = s.port := rfl
@[simp] theorem setStage_req : (s.setStage d x).req = s.req := rfl
@[simp] theorem setStage_units : (s.setStage d x).units = s.units := rfl
@[simp] theorem setStage_drs : (s.setStage d x).drs = s.drs := rfl
@[simp] theorem setStage_link : (s.setStage d x).link = s.link := rfl
@[simp] theorem setStage_pending : (s.setStage d x).pending = s.pending := rfl
end

section
variable (d : Fin 4) (b : Bool)
@[simp] theorem setReadyLine_ctl : (s.setReadyLine d b).ctl = s.ctl := rfl
@[simp] theorem setReadyLine_geometry : (s.setReadyLine d b).geometry = s.geometry := rfl
@[simp] theorem setReadyLine_sweeps : (s.setReadyLine d b).sweeps = s.sweeps := rfl
@[simp] theorem setReadyLine_tracks : (s.setReadyLine d b).tracks = s.tracks := rfl
@[simp] theorem setReadyLine_freeList : (s.setReadyLine d b).freeList = s.freeList := rfl
@[simp] theorem setReadyLine_locks : (s.setReadyLine d b).locks = s.locks := rfl
@[simp] theorem setReadyLine_queue : (s.setReadyLine d b).queue = s.queue := rfl
@[simp] theorem setReadyLine_ladder : (s.setReadyLine d b).ladder = s.ladder := rfl
@[simp] theorem setReadyLine_ctxs : (s.setReadyLine d b).ctxs = s.ctxs := rfl
@[simp] theorem setReadyLine_path : (s.setReadyLine d b).path = s.path := rfl
@[simp] theorem setReadyLine_vote : (s.setReadyLine d b).vote = s.vote := rfl
@[simp] theorem setReadyLine_limits : (s.setReadyLine d b).limits = s.limits := rfl
@[simp] theorem setReadyLine_store : (s.setReadyLine d b).store = s.store := rfl
@[simp] theorem setReadyLine_port : (s.setReadyLine d b).port = s.port := rfl
@[simp] theorem setReadyLine_req : (s.setReadyLine d b).req = s.req := rfl
@[simp] theorem setReadyLine_units : (s.setReadyLine d b).units = s.units := rfl
@[simp] theorem setReadyLine_drs : (s.setReadyLine d b).drs = s.drs := rfl
@[simp] theorem setReadyLine_link : (s.setReadyLine d b).link = s.link := rfl
@[simp] theorem setReadyLine_pending : (s.setReadyLine d b).pending = s.pending := rfl
end

section
variable (k g : Byte) (r : Result) (p : List Byte)
@[simp] theorem place_ctl : (s.place k g r p).ctl = s.ctl := rfl
@[simp] theorem place_drives : (s.place k g r p).drives = s.drives := rfl
@[simp] theorem place_geometry : (s.place k g r p).geometry = s.geometry := rfl
@[simp] theorem place_sweeps : (s.place k g r p).sweeps = s.sweeps := rfl
@[simp] theorem place_tracks : (s.place k g r p).tracks = s.tracks := rfl
@[simp] theorem place_freeList : (s.place k g r p).freeList = s.freeList := rfl
@[simp] theorem place_locks : (s.place k g r p).locks = s.locks := rfl
@[simp] theorem place_queue : (s.place k g r p).queue = s.queue := rfl
@[simp] theorem place_ladder : (s.place k g r p).ladder = s.ladder := rfl
@[simp] theorem place_ctxs : (s.place k g r p).ctxs = s.ctxs := rfl
@[simp] theorem place_path : (s.place k g r p).path = s.path := rfl
@[simp] theorem place_vote : (s.place k g r p).vote = s.vote := rfl
@[simp] theorem place_limits : (s.place k g r p).limits = s.limits := rfl
@[simp] theorem place_store : (s.place k g r p).store = s.store := rfl
@[simp] theorem place_port : (s.place k g r p).port = s.port := rfl
@[simp] theorem place_req : (s.place k g r p).req = s.req := rfl
@[simp] theorem place_units : (s.place k g r p).units = s.units := rfl
@[simp] theorem place_drs : (s.place k g r p).drs = s.drs := rfl
@[simp] theorem place_pending : (s.place k g r p).pending = s.pending := rfl
end

section
variable (b : List Byte)
@[simp] theorem driveOut_ctl : (s.driveOut b).ctl = s.ctl := rfl
@[simp] theorem driveOut_drives : (s.driveOut b).drives = s.drives := rfl
@[simp] theorem driveOut_geometry : (s.driveOut b).geometry = s.geometry := rfl
@[simp] theorem driveOut_sweeps : (s.driveOut b).sweeps = s.sweeps := rfl
@[simp] theorem driveOut_tracks : (s.driveOut b).tracks = s.tracks := rfl
@[simp] theorem driveOut_freeList : (s.driveOut b).freeList = s.freeList := rfl
@[simp] theorem driveOut_locks : (s.driveOut b).locks = s.locks := rfl
@[simp] theorem driveOut_queue : (s.driveOut b).queue = s.queue := rfl
@[simp] theorem driveOut_ladder : (s.driveOut b).ladder = s.ladder := rfl
@[simp] theorem driveOut_ctxs : (s.driveOut b).ctxs = s.ctxs := rfl
@[simp] theorem driveOut_path : (s.driveOut b).path = s.path := rfl
@[simp] theorem driveOut_vote : (s.driveOut b).vote = s.vote := rfl
@[simp] theorem driveOut_limits : (s.driveOut b).limits = s.limits := rfl
@[simp] theorem driveOut_store : (s.driveOut b).store = s.store := rfl
@[simp] theorem driveOut_port : (s.driveOut b).port = s.port := rfl
@[simp] theorem driveOut_req : (s.driveOut b).req = s.req := rfl
@[simp] theorem driveOut_units : (s.driveOut b).units = s.units := rfl
@[simp] theorem driveOut_drs : (s.driveOut b).drs = s.drs := rfl
@[simp] theorem driveOut_pending : (s.driveOut b).pending = s.pending := rfl
end

section
variable (a : Answer)
@[simp] theorem answer_ctl : (s.answer a).ctl = s.ctl := rfl
@[simp] theorem answer_drives : (s.answer a).drives = s.drives := rfl
@[simp] theorem answer_geometry : (s.answer a).geometry = s.geometry := rfl
@[simp] theorem answer_sweeps : (s.answer a).sweeps = s.sweeps := rfl
@[simp] theorem answer_tracks : (s.answer a).tracks = s.tracks := rfl
@[simp] theorem answer_freeList : (s.answer a).freeList = s.freeList := rfl
@[simp] theorem answer_locks : (s.answer a).locks = s.locks := rfl
@[simp] theorem answer_queue : (s.answer a).queue = s.queue := rfl
@[simp] theorem answer_ladder : (s.answer a).ladder = s.ladder := rfl
@[simp] theorem answer_ctxs : (s.answer a).ctxs = s.ctxs := rfl
@[simp] theorem answer_path : (s.answer a).path = s.path := rfl
@[simp] theorem answer_vote : (s.answer a).vote = s.vote := rfl
@[simp] theorem answer_limits : (s.answer a).limits = s.limits := rfl
@[simp] theorem answer_store : (s.answer a).store = s.store := rfl
@[simp] theorem answer_req : (s.answer a).req = s.req := rfl
@[simp] theorem answer_units : (s.answer a).units = s.units := rfl
@[simp] theorem answer_drs : (s.answer a).drs = s.drs := rfl
@[simp] theorem answer_link : (s.answer a).link = s.link := rfl
@[simp] theorem answer_pending : (s.answer a).pending = s.pending := rfl
end

section
variable (a : BitVec 24)
@[simp] theorem setAddress_ctl : (s.setAddress a).ctl = s.ctl := rfl
@[simp] theorem setAddress_drives : (s.setAddress a).drives = s.drives := rfl
@[simp] theorem setAddress_geometry : (s.setAddress a).geometry = s.geometry := rfl
@[simp] theorem setAddress_sweeps : (s.setAddress a).sweeps = s.sweeps := rfl
@[simp] theorem setAddress_tracks : (s.setAddress a).tracks = s.tracks := rfl
@[simp] theorem setAddress_freeList : (s.setAddress a).freeList = s.freeList := rfl
@[simp] theorem setAddress_locks : (s.setAddress a).locks = s.locks := rfl
@[simp] theorem setAddress_queue : (s.setAddress a).queue = s.queue := rfl
@[simp] theorem setAddress_ladder : (s.setAddress a).ladder = s.ladder := rfl
@[simp] theorem setAddress_ctxs : (s.setAddress a).ctxs = s.ctxs := rfl
@[simp] theorem setAddress_path : (s.setAddress a).path = s.path := rfl
@[simp] theorem setAddress_vote : (s.setAddress a).vote = s.vote := rfl
@[simp] theorem setAddress_limits : (s.setAddress a).limits = s.limits := rfl
@[simp] theorem setAddress_store : (s.setAddress a).store = s.store := rfl
@[simp] theorem setAddress_req : (s.setAddress a).req = s.req := rfl
@[simp] theorem setAddress_units : (s.setAddress a).units = s.units := rfl
@[simp] theorem setAddress_drs : (s.setAddress a).drs = s.drs := rfl
@[simp] theorem setAddress_link : (s.setAddress a).link = s.link := rfl
@[simp] theorem setAddress_pending : (s.setAddress a).pending = s.pending := rfl
end

section
variable (b : Bool)
@[simp] theorem endSetup_ctl : (s.endSetup b).ctl = s.ctl := rfl
@[simp] theorem endSetup_drives : (s.endSetup b).drives = s.drives := rfl
@[simp] theorem endSetup_geometry : (s.endSetup b).geometry = s.geometry := rfl
@[simp] theorem endSetup_sweeps : (s.endSetup b).sweeps = s.sweeps := rfl
@[simp] theorem endSetup_tracks : (s.endSetup b).tracks = s.tracks := rfl
@[simp] theorem endSetup_freeList : (s.endSetup b).freeList = s.freeList := rfl
@[simp] theorem endSetup_locks : (s.endSetup b).locks = s.locks := rfl
@[simp] theorem endSetup_queue : (s.endSetup b).queue = s.queue := rfl
@[simp] theorem endSetup_ladder : (s.endSetup b).ladder = s.ladder := rfl
@[simp] theorem endSetup_ctxs : (s.endSetup b).ctxs = s.ctxs := rfl
@[simp] theorem endSetup_path : (s.endSetup b).path = s.path := rfl
@[simp] theorem endSetup_vote : (s.endSetup b).vote = s.vote := rfl
@[simp] theorem endSetup_limits : (s.endSetup b).limits = s.limits := rfl
@[simp] theorem endSetup_store : (s.endSetup b).store = s.store := rfl
@[simp] theorem endSetup_req : (s.endSetup b).req = s.req := rfl
@[simp] theorem endSetup_units : (s.endSetup b).units = s.units := rfl
@[simp] theorem endSetup_drs : (s.endSetup b).drs = s.drs := rfl
@[simp] theorem endSetup_link : (s.endSetup b).link = s.link := rfl
@[simp] theorem endSetup_pending : (s.endSetup b).pending = s.pending := rfl
end

section
variable (x : ReqState)
@[simp] theorem setReq_ctl : (s.setReq x).ctl = s.ctl := rfl
@[simp] theorem setReq_drives : (s.setReq x).drives = s.drives := rfl
@[simp] theorem setReq_geometry : (s.setReq x).geometry = s.geometry := rfl
@[simp] theorem setReq_sweeps : (s.setReq x).sweeps = s.sweeps := rfl
@[simp] theorem setReq_tracks : (s.setReq x).tracks = s.tracks := rfl
@[simp] theorem setReq_freeList : (s.setReq x).freeList = s.freeList := rfl
@[simp] theorem setReq_locks : (s.setReq x).locks = s.locks := rfl
@[simp] theorem setReq_queue : (s.setReq x).queue = s.queue := rfl
@[simp] theorem setReq_ladder : (s.setReq x).ladder = s.ladder := rfl
@[simp] theorem setReq_ctxs : (s.setReq x).ctxs = s.ctxs := rfl
@[simp] theorem setReq_path : (s.setReq x).path = s.path := rfl
@[simp] theorem setReq_vote : (s.setReq x).vote = s.vote := rfl
@[simp] theorem setReq_limits : (s.setReq x).limits = s.limits := rfl
@[simp] theorem setReq_store : (s.setReq x).store = s.store := rfl
@[simp] theorem setReq_port : (s.setReq x).port = s.port := rfl
@[simp] theorem setReq_units : (s.setReq x).units = s.units := rfl
@[simp] theorem setReq_drs : (s.setReq x).drs = s.drs := rfl
@[simp] theorem setReq_link : (s.setReq x).link = s.link := rfl
@[simp] theorem setReq_pending : (s.setReq x).pending = s.pending := rfl
end

section
@[simp] theorem freeReq_ctl : (s.freeReq).ctl = s.ctl := rfl
@[simp] theorem freeReq_drives : (s.freeReq).drives = s.drives := rfl
@[simp] theorem freeReq_geometry : (s.freeReq).geometry = s.geometry := rfl
@[simp] theorem freeReq_sweeps : (s.freeReq).sweeps = s.sweeps := rfl
@[simp] theorem freeReq_tracks : (s.freeReq).tracks = s.tracks := rfl
@[simp] theorem freeReq_freeList : (s.freeReq).freeList = s.freeList := rfl
@[simp] theorem freeReq_locks : (s.freeReq).locks = s.locks := rfl
@[simp] theorem freeReq_queue : (s.freeReq).queue = s.queue := rfl
@[simp] theorem freeReq_ladder : (s.freeReq).ladder = s.ladder := rfl
@[simp] theorem freeReq_ctxs : (s.freeReq).ctxs = s.ctxs := rfl
@[simp] theorem freeReq_path : (s.freeReq).path = s.path := rfl
@[simp] theorem freeReq_vote : (s.freeReq).vote = s.vote := rfl
@[simp] theorem freeReq_limits : (s.freeReq).limits = s.limits := rfl
@[simp] theorem freeReq_store : (s.freeReq).store = s.store := rfl
@[simp] theorem freeReq_port : (s.freeReq).port = s.port := rfl
@[simp] theorem freeReq_units : (s.freeReq).units = s.units := rfl
@[simp] theorem freeReq_drs : (s.freeReq).drs = s.drs := rfl
@[simp] theorem freeReq_link : (s.freeReq).link = s.link := rfl
@[simp] theorem freeReq_pending : (s.freeReq).pending = s.pending := rfl
end

section
variable (n : Nat) (e : Fin 4)
@[simp] theorem putLock_ctl : (s.putLock n e).ctl = s.ctl := rfl
@[simp] theorem putLock_drives : (s.putLock n e).drives = s.drives := rfl
@[simp] theorem putLock_geometry : (s.putLock n e).geometry = s.geometry := rfl
@[simp] theorem putLock_sweeps : (s.putLock n e).sweeps = s.sweeps := rfl
@[simp] theorem putLock_freeList : (s.putLock n e).freeList = s.freeList := rfl
@[simp] theorem putLock_queue : (s.putLock n e).queue = s.queue := rfl
@[simp] theorem putLock_ladder : (s.putLock n e).ladder = s.ladder := rfl
@[simp] theorem putLock_ctxs : (s.putLock n e).ctxs = s.ctxs := rfl
@[simp] theorem putLock_path : (s.putLock n e).path = s.path := rfl
@[simp] theorem putLock_vote : (s.putLock n e).vote = s.vote := rfl
@[simp] theorem putLock_limits : (s.putLock n e).limits = s.limits := rfl
@[simp] theorem putLock_store : (s.putLock n e).store = s.store := rfl
@[simp] theorem putLock_port : (s.putLock n e).port = s.port := rfl
@[simp] theorem putLock_req : (s.putLock n e).req = s.req := rfl
@[simp] theorem putLock_units : (s.putLock n e).units = s.units := rfl
@[simp] theorem putLock_drs : (s.putLock n e).drs = s.drs := rfl
@[simp] theorem putLock_link : (s.putLock n e).link = s.link := rfl
@[simp] theorem putLock_pending : (s.putLock n e).pending = s.pending := rfl
end

section
variable (p : List Byte)
@[simp] theorem installLimits_ctl : (s.installLimits p).ctl = s.ctl := rfl
@[simp] theorem installLimits_drives : (s.installLimits p).drives = s.drives := rfl
@[simp] theorem installLimits_geometry : (s.installLimits p).geometry = s.geometry := rfl
@[simp] theorem installLimits_tracks : (s.installLimits p).tracks = s.tracks := rfl
@[simp] theorem installLimits_freeList : (s.installLimits p).freeList = s.freeList := rfl
@[simp] theorem installLimits_locks : (s.installLimits p).locks = s.locks := rfl
@[simp] theorem installLimits_queue : (s.installLimits p).queue = s.queue := rfl
@[simp] theorem installLimits_ladder : (s.installLimits p).ladder = s.ladder := rfl
@[simp] theorem installLimits_ctxs : (s.installLimits p).ctxs = s.ctxs := rfl
@[simp] theorem installLimits_path : (s.installLimits p).path = s.path := rfl
@[simp] theorem installLimits_vote : (s.installLimits p).vote = s.vote := rfl
@[simp] theorem installLimits_port : (s.installLimits p).port = s.port := rfl
@[simp] theorem installLimits_req : (s.installLimits p).req = s.req := rfl
@[simp] theorem installLimits_units : (s.installLimits p).units = s.units := rfl
@[simp] theorem installLimits_drs : (s.installLimits p).drs = s.drs := rfl
@[simp] theorem installLimits_link : (s.installLimits p).link = s.link := rfl
@[simp] theorem installLimits_pending : (s.installLimits p).pending = s.pending := rfl
end

section
@[simp] theorem endBurst_ctl : (s.endBurst).ctl = s.ctl := rfl
@[simp] theorem endBurst_drives : (s.endBurst).drives = s.drives := rfl
@[simp] theorem endBurst_geometry : (s.endBurst).geometry = s.geometry := rfl
@[simp] theorem endBurst_sweeps : (s.endBurst).sweeps = s.sweeps := rfl
@[simp] theorem endBurst_tracks : (s.endBurst).tracks = s.tracks := rfl
@[simp] theorem endBurst_freeList : (s.endBurst).freeList = s.freeList := rfl
@[simp] theorem endBurst_locks : (s.endBurst).locks = s.locks := rfl
@[simp] theorem endBurst_queue : (s.endBurst).queue = s.queue := rfl
@[simp] theorem endBurst_ladder : (s.endBurst).ladder = s.ladder := rfl
@[simp] theorem endBurst_ctxs : (s.endBurst).ctxs = s.ctxs := rfl
@[simp] theorem endBurst_path : (s.endBurst).path = s.path := rfl
@[simp] theorem endBurst_vote : (s.endBurst).vote = s.vote := rfl
@[simp] theorem endBurst_limits : (s.endBurst).limits = s.limits := rfl
@[simp] theorem endBurst_port : (s.endBurst).port = s.port := rfl
@[simp] theorem endBurst_req : (s.endBurst).req = s.req := rfl
@[simp] theorem endBurst_units : (s.endBurst).units = s.units := rfl
@[simp] theorem endBurst_drs : (s.endBurst).drs = s.drs := rfl
@[simp] theorem endBurst_link : (s.endBurst).link = s.link := rfl
@[simp] theorem endBurst_pending : (s.endBurst).pending = s.pending := rfl
end

/-! ## What each update sets -/

@[simp] theorem modDrive_drives (d : Fin 4) (f : DriveRec → DriveRec) :
    (s.modDrive d f).drives = s.drives.modify d f := rfl
@[simp] theorem modCtx_ctxs (c : Fin 4) (f : CtxRec → CtxRec) :
    (s.modCtx c f).ctxs = s.ctxs.modify c f := rfl
@[simp] theorem modUnit_units (u : Fin 4) (f : UnitRec → UnitRec) :
    (s.modUnit u f).units = s.units.modify u f := rfl
@[simp] theorem modSweep_sweeps (d : Fin 4) (f : SweepRec → SweepRec) :
    (s.modSweep d f).sweeps = s.sweeps.modify d f := rfl
@[simp] theorem notifyWaiters_units (on : Nat → Bool) :
    (s.notifyWaiters on).units = s.units.map fun r => r.notify on := rfl
@[simp] theorem setService_vote (x : VoteService) :
    (s.setService x).vote = { s.vote with serving := some x } := rfl
@[simp] theorem setGeometry_geometry (d : Fin 4) (g : Option Geometry) :
    (s.setGeometry d g).geometry = s.geometry.set d g := rfl
@[simp] theorem leaveQueue_queue (n : Nat) : (s.leaveQueue n).queue = s.queue.leave n := rfl
@[simp] theorem modAttention_link (f : Attention → Attention) :
    (s.modAttention f).link = { s.link with attention := f s.link.attention } := rfl
@[simp] theorem chooseBurst_req : s.chooseBurst.req = s.req.choose := rfl
@[simp] theorem answer_port (a : Answer) : (s.answer a).port = { s.port with answer := a } := rfl
@[simp] theorem setAddress_port (a : BitVec 24) :
    (s.setAddress a).port = { s.port with address := a } := rfl
@[simp] theorem setReq_req (x : ReqState) : (s.setReq x).req = { s.req with state := x } := rfl
@[simp] theorem freeReq_req : s.freeReq.req = { s.req with state := .free, current := none } := rfl
@[simp] theorem dropGrant_path :
    s.dropGrant.path = { s.path with grant := none, rev := Revolution.start } := rfl
@[simp] theorem setRev_path (r : Revolution) : (s.setRev r).path = { s.path with rev := r } := rfl
@[simp] theorem driveOut_link (b : List Byte) : (s.driveOut b).link = { s.link with out := b } := rfl
@[simp] theorem unflip_flips (w : Nat) :
    (s.unflip w).store = { s.store with flips := assocDel w s.store.flips } := rfl
@[simp] theorem putLock_locks (n : Nat) (e : Fin 4) : (s.putLock n e).locks = s.locks.set e (some n) := rfl

/-! ## Track records -/

@[simp] theorem track_setTrack_self (n : Nat) (r : TrackRec) (h : r.state ≠ .free) :
    (s.setTrack n r).track n = r := by
  simp [State.setTrack, State.track, h]

theorem track_setTrack_ne {n m : Nat} (r : TrackRec) (h : m ≠ n) :
    (s.setTrack n r).track m = s.track m := by
  unfold State.setTrack State.track
  dsimp only
  split
  · rw [assocFind_del_ne _ h]
  · rw [assocFind_put_ne _ _ h]

theorem track_modTrack_self (n : Nat) (f : TrackRec → TrackRec) (h : (f (s.track n)).state ≠ .free) :
    (s.modTrack n f).track n = f (s.track n) := track_setTrack_self s n _ h

theorem track_modTrack_ne {n m : Nat} (f : TrackRec → TrackRec) (h : m ≠ n) :
    (s.modTrack n f).track m = s.track m := track_setTrack_ne s _ h

end Sys2Proof.Machine
end

