-- ==== Sys2Proof/Laws/Kept.lean ====
section
/-! SUPPORT. What the inner operations keep, as one relation between the state before and after: its parts, how it composes, and the record updates that have it. -/

set_option Elab.async false

namespace Sys2Proof.Machine

/-- Which of the stricter parts a chain of operations keeps: the drives' shown fields, all that only an
uncorrectable word changes, the records of units apart, and the requester's burst. -/
structure Keep where
  drives : Bool
  clean : Bool
  units : Bool
  req : Bool

/-- The System Port without the reasons that operations raise. -/
def SysPort.rest (p : SysPort) : SysPort :=
  { p with storeError := false, stateChange := false, statusLost := false }

/-- The link without its attention set. -/
def LinkRec.rest (l : LinkRec) : LinkRec := { l with attention := Attention.empty }

/-- Every member of an attention set is in another. -/
structure Attention.Within (a b : Attention) : Prop where
  driveChange : ∀ d, a.driveChange.get d = true → b.driveChange.get d = true
  settled : a.settled = true → b.settled = true
  sweep : a.sweep = true → b.sweep = true
  store : a.store = true → b.store = true
  sysclear : a.sysclear = true → b.sysclear = true
  started : a.started = true → b.started = true

/-- The drive's pins and straps as its record shows them. -/
def DriveRec.pins (r : DriveRec) : Bool × Bool × Bool := (r.fitted, r.readyLine, r.faultHeld)

/-- The fields that only a drive's own lines, its discovery and the requests on it change. -/
def DriveRec.shown (r : DriveRec) : DriveState × Option FaultKind × Option Discovery × Nat :=
  (r.state, r.faultKind, r.discovery, r.observedSectors)

/-- What only an uncorrectable word changes. -/
structure Clean (s t : State) : Prop where
  flips : t.store.flips = []
  geometry : t.geometry = s.geometry
  locks : t.locks = s.locks
  corrected : t.store.corrected = s.store.corrected
  uncorrected : t.store.uncorrected = s.store.uncorrected
  last : t.store.lastUncorrected = s.store.lastUncorrected
  depth : ∀ d, (t.sweeps.get d).depth = (s.sweeps.get d).depth

/-- What a chain of inner operations keeps between two states. -/
structure Kept (k : Keep) (s t : State) : Prop where
  pending : t.pending = s.pending
  ctl : t.ctl = s.ctl
  ladder : t.ladder = s.ladder
  limits : t.limits = s.limits
  port : t.port.rest = s.port.rest
  storeError : s.port.storeError = true → t.port.storeError = true
  stateChange : s.port.stateChange = true → t.port.stateChange = true
  statusLost : s.port.statusLost = true → t.port.statusLost = true
  link : t.link.rest = s.link.rest
  attention : s.link.attention.Within t.link.attention
  pins : ∀ d, (t.drives.get d).pins = (s.drives.get d).pins
  scrubCursor : t.store.scrubCursor = s.store.scrubCursor
  passes : t.store.passes = s.store.passes
  scrubPeriod : t.store.scrubPeriod = s.store.scrubPeriod
  sound : s.Sound → t.Sound
  drives : k.drives = true → ∀ d, (t.drives.get d).shown = (s.drives.get d).shown
  clean : k.clean = true → s.store.flips = [] → Clean s t
  units : k.units = true → ∀ u, s.Apart u → t.units.get u = s.units.get u ∧ t.Apart u
  req : k.req = true → t.req.state = s.req.state ∧ t.req.current = s.req.current
    ∧ t.req.lastServed = s.req.lastServed ∧ t.req.setupWaiting = s.req.setupWaiting

theorem Attention.Within.refl (a : Attention) : a.Within a :=
  ⟨fun _ h => h, id, id, id, id, id⟩

theorem Attention.Within.trans {a b c : Attention} (h : a.Within b) (g : b.Within c) : a.Within c :=
  ⟨fun d x => g.1 d (h.1 d x), g.2 ∘ h.2, g.3 ∘ h.3, g.4 ∘ h.4, g.5 ∘ h.5, g.6 ∘ h.6⟩

theorem Clean.trans {s t r : State} (h : Clean s t) (g : Clean t r) : Clean s r :=
  ⟨g.1, g.2.trans h.2, g.3.trans h.3, g.4.trans h.4, g.5.trans h.5, g.6.trans h.6,
    fun d => (g.7 d).trans (h.7 d)⟩

variable {k : Keep} {s t r : State}

theorem Kept.refl (k : Keep) (s : State) : Kept k s s :=
  { pending := rfl, ctl := rfl, ladder := rfl, limits := rfl, port := rfl, storeError := id,
    stateChange := id, statusLost := id, link := rfl, attention := Attention.Within.refl _,
    pins := fun _ => rfl, scrubCursor := rfl, passes := rfl, scrubPeriod := rfl, sound := id,
    drives := fun _ _ => rfl, clean := fun _ h => ⟨h, rfl, rfl, rfl, rfl, rfl, fun _ => rfl⟩,
    units := fun _ _ h => ⟨rfl, h⟩, req := fun _ => ⟨rfl, rfl, rfl, rfl⟩ }

theorem Kept.trans (h : Kept k s t) (g : Kept k t r) : Kept k s r :=
  { pending := g.pending.trans h.pending, ctl := g.ctl.trans h.ctl, ladder := g.ladder.trans h.ladder,
    limits := g.limits.trans h.limits, port := g.port.trans h.port,
    storeError := g.storeError ∘ h.storeError, stateChange := g.stateChange ∘ h.stateChange,
    statusLost := g.statusLost ∘ h.statusLost, link := g.link.trans h.link,
    attention := h.attention.trans g.attention, pins := fun d => (g.pins d).trans (h.pins d),
    scrubCursor := g.scrubCursor.trans h.scrubCursor, passes := g.passes.trans h.passes,
    scrubPeriod := g.scrubPeriod.trans h.scrubPeriod, sound := g.sound ∘ h.sound,
    drives := fun x d => (g.drives x d).trans (h.drives x d),
    clean := fun x y => (h.clean x y).trans (g.clean x (h.clean x y).flips),
    units := fun x u y =>
      ⟨(g.units x u (h.units x u y).2).1.trans (h.units x u y).1, (g.units x u (h.units x u y).2).2⟩,
    req := fun x =>
      ⟨(g.req x).1.trans (h.req x).1, (g.req x).2.1.trans (h.req x).2.1,
        (g.req x).2.2.1.trans (h.req x).2.2.1, (g.req x).2.2.2.trans (h.req x).2.2.2⟩ }

/-- A unit that is not apart now was not apart before. -/
theorem Kept.notApart {u : Fin 4} (h : Kept k s t) (g : k.units = true → ¬ t.Apart u) :
    k.units = true → ¬ s.Apart u := fun x y => g x (h.units x u y).2

/-- A bit error that stands now stood before. -/
theorem Kept.dirty (h : Kept k s t) (g : k.clean = true → t.store.flips ≠ []) :
    k.clean = true → s.store.flips ≠ [] := fun x y => g x (h.clean x y).flips

/-! ## Record updates -/

/-- Only the queue, the free list, the contexts, the read path and the Vote Unit changed. -/
theorem Kept.inner (h : Kept k s t) (pending : r.pending = t.pending) (ctl : r.ctl = t.ctl)
    (ladder : r.ladder = t.ladder) (limits : r.limits = t.limits) (port : r.port = t.port)
    (link : r.link = t.link) (drives : r.drives = t.drives) (store : r.store = t.store)
    (geometry : r.geometry = t.geometry) (sweeps : r.sweeps = t.sweeps) (tracks : r.tracks = t.tracks)
    (locks : r.locks = t.locks) (units : r.units = t.units) (drs : r.drs = t.drs) (req : r.req = t.req) :
    Kept k s r := by
  refine h.trans ?_
  cases t; cases r
  simp only at *
  subst pending ctl ladder limits port link drives store geometry sweeps tracks locks units drs req
  exact
    { pending := rfl, ctl := rfl, ladder := rfl, limits := rfl, port := rfl, storeError := id,
      stateChange := id, statusLost := id, link := rfl, attention := Attention.Within.refl _,
      pins := fun _ => rfl, scrubCursor := rfl, passes := rfl, scrubPeriod := rfl,
      sound := fun x => { x with }, drives := fun _ _ => rfl,
      clean := fun _ h => ⟨h, rfl, rfl, rfl, rfl, rfl, fun _ => rfl⟩,
      units := fun _ _ h => ⟨rfl, { h with }⟩, req := fun _ => ⟨rfl, rfl, rfl, rfl⟩ }

theorem Kept.modCtx (h : Kept k s t) (c : Fin 4) (f : CtxRec → CtxRec) : Kept k s (t.modCtx c f) :=
  h.inner rfl rfl rfl rfl rfl rfl rfl rfl rfl rfl rfl rfl rfl rfl rfl

theorem Kept.setPath (h : Kept k s t) (p : PathRec) : Kept k s { t with path := p } :=
  h.inner rfl rfl rfl rfl rfl rfl rfl rfl rfl rfl rfl rfl rfl rfl rfl

theorem Kept.setVote (h : Kept k s t) (v : VoteRec) : Kept k s { t with vote := v } :=
  h.inner rfl rfl rfl rfl rfl rfl rfl rfl rfl rfl rfl rfl rfl rfl rfl

theorem Kept.setQueue (h : Kept k s t) (q : RecoveryQueue) : Kept k s { t with queue := q } :=
  h.inner rfl rfl rfl rfl rfl rfl rfl rfl rfl rfl rfl rfl rfl rfl rfl

theorem Kept.setFreeList (h : Kept k s t) (l : List Nat) : Kept k s { t with freeList := l } :=
  h.inner rfl rfl rfl rfl rfl rfl rfl rfl rfl rfl rfl rfl rfl rfl rfl

theorem Kept.setTracks (h : Kept k s t) (l : List (Nat × TrackRec))
    (g : tracksSound t.tracks = true → tracksSound l = true) : Kept k s { t with tracks := l } :=
  h.trans { Kept.refl k t with
    sound := fun x => { x with tracks := g x.tracks }
    clean := fun _ h => ⟨h, rfl, rfl, rfl, rfl, rfl, fun _ => rfl⟩
    units := fun _ _ h => ⟨rfl, { h with }⟩ }

theorem Kept.setTrack (h : Kept k s t) (n : Nat) (x : TrackRec) : Kept k s (t.setTrack n x) := by
  refine h.setTracks _ fun g => ?_
  simp only [tracksSound, Bool.and_eq_true] at g ⊢
  split
  · exact ⟨assocDel_rises _ 0 n g.1, assocDel_all _ n _ g.2⟩
  · rename_i hx
    exact ⟨assocPut_rises _ 0 n x g.1 (Nat.zero_le n), assocPut_all _ n x _ g.2 (by simpa using hx)⟩

theorem Kept.modTrack (h : Kept k s t) (n : Nat) (f : TrackRec → TrackRec) : Kept k s (t.modTrack n f) :=
  h.setTrack n _

theorem keysRiseFrom_map {α β : Type} (l : List (Nat × α)) (f : α → β) (b : Nat) :
    keysRiseFrom b (l.map fun e => (e.1, f e.2)) = keysRiseFrom b l := by
  induction l generalizing b with
  | nil => rfl
  | cons e rest ih => simp [keysRiseFrom, ih]

theorem Kept.mapTracks (h : Kept k s t) (f : TrackRec → TrackRec)
    (g : ∀ x : TrackRec, x.state ≠ .free → (f x).state ≠ .free) : Kept k s (t.mapTracks f) := by
  refine h.setTracks _ fun x => ?_
  simp only [tracksSound, Bool.and_eq_true, keysRiseFrom_map] at x ⊢
  refine ⟨x.1, ?_⟩
  have := x.2
  simp only [List.all_map, List.all_eq_true, decide_eq_true_eq, Function.comp] at this ⊢
  exact fun e he => g _ (this e he)

/-- The drives changed: the pins never, the shown fields only where the chain does not keep them. -/
theorem Kept.setDrives (h : Kept k s t) (l : Four DriveRec) (p : ∀ d, (l.get d).pins = (t.drives.get d).pins)
    (g : k.drives = true → ∀ d, (l.get d).shown = (t.drives.get d).shown) :
    Kept k s { t with drives := l } :=
  h.trans { Kept.refl k t with
    pins := p
    drives := g
    sound := fun x => { x with fitted := fun d => (congrArg Prod.fst (p d)).trans (x.fitted d) }
    clean := fun _ h => ⟨h, rfl, rfl, rfl, rfl, rfl, fun _ => rfl⟩
    units := fun _ _ h => ⟨rfl, { h with }⟩ }

theorem Kept.modDrive (h : Kept k s t) (d : Fin 4) (f : DriveRec → DriveRec)
    (p : ∀ x, (f x).pins = x.pins := by intro; rfl)
    (g : k.drives = true → ∀ x, (f x).shown = x.shown := by intro _ _; rfl) :
    Kept k s (t.modDrive d f) := by
  refine h.setDrives _ (fun e => ?_) (fun hk e => ?_)
  · rw [Four.get_modify]; split
    · rename_i he; subst he; exact p _
    · rfl
  · rw [Four.get_modify]; split
    · rename_i he; subst he; exact g hk _
    · rfl

theorem DriveRec.abandonPositioning_pins (x : DriveRec) : x.abandonPositioning.pins = x.pins := by
  unfold DriveRec.abandonPositioning
  split
  · rfl
  · split <;> rfl

theorem DriveRec.abandonPositioning_shown (x : DriveRec) : x.abandonPositioning.shown = x.shown := by
  unfold DriveRec.abandonPositioning
  split
  · rfl
  · split <;> rfl

/-- The attention set gained members. -/
theorem Kept.modAttention (h : Kept k s t) (f : Attention → Attention) (g : ∀ a : Attention, a.Within (f a)) :
    Kept k s (t.modAttention f) :=
  h.trans { Kept.refl k t with
    attention := g _
    link := rfl
    sound := fun x => { x with }
    clean := fun _ h => ⟨h, rfl, rfl, rfl, rfl, rfl, fun _ => rfl⟩
    units := fun _ _ h => ⟨rfl, { h with }⟩ }

theorem Kept.attnDrive (h : Kept k s t) (d : Fin 4) : Kept k s (t.attnDrive d) :=
  h.modAttention _ fun a =>
    ⟨fun e he => by simp only [Four.get_set]; split <;> simp [he], id, id, id, id, id⟩

theorem Kept.attnSettled (h : Kept k s t) : Kept k s t.attnSettled :=
  h.modAttention _ fun _ => ⟨fun _ x => x, fun _ => rfl, id, id, id, id⟩

theorem Kept.attnSweep (h : Kept k s t) : Kept k s t.attnSweep :=
  h.modAttention _ fun _ => ⟨fun _ x => x, id, fun _ => rfl, id, id, id⟩

theorem Kept.attnStarted (h : Kept k s t) :
    Kept k s (t.modAttention fun a => { a with started := true }) :=
  h.modAttention _ fun _ => ⟨fun _ x => x, id, id, id, id, fun _ => rfl⟩

/-- The port changed in the three reasons that operations raise, each only upwards. -/
theorem Kept.setPort (h : Kept k s t) (p : SysPort) (g : p.rest = t.port.rest)
    (a : t.port.storeError = true → p.storeError = true)
    (b : t.port.stateChange = true → p.stateChange = true)
    (c : t.port.statusLost = true → p.statusLost = true) : Kept k s { t with port := p } :=
  h.trans { Kept.refl k t with
    port := g
    storeError := a
    stateChange := b
    statusLost := c
    sound := fun x => { x with settings :=
      (congrArg (fun q : SysPort => q.settings.sound) g).trans x.settings }
    clean := fun _ h => ⟨h, rfl, rfl, rfl, rfl, rfl, fun _ => rfl⟩
    units := fun _ _ h => ⟨rfl, { h with }⟩ }

theorem Kept.setStateChange (h : Kept k s t) : Kept k s t.stateChange :=
  h.setPort _ rfl id (fun _ => rfl) id

theorem Kept.attnStore (h : Kept k s t) : Kept k s t.attnStore :=
  (h.modAttention (fun a => { a with store := true })
    fun _ => ⟨fun _ x => x, id, id, fun _ => rfl, id, id⟩).setPort
      { t.port with storeError := true } rfl (fun _ => rfl) id id

/-- The store changed, its scrub fields kept. -/
theorem Kept.setStore (h : Kept k s t) (x : StoreRec) (g : t.store.sound = true → x.sound = true)
    (a : x.scrubCursor = t.store.scrubCursor) (b : x.passes = t.store.passes)
    (c : x.scrubPeriod = t.store.scrubPeriod)
    (e : k.clean = true → t.store.flips = [] → x.flips = [] ∧ x.corrected = t.store.corrected
      ∧ x.uncorrected = t.store.uncorrected ∧ x.lastUncorrected = t.store.lastUncorrected) :
    Kept k s { t with store := x } :=
  h.trans { Kept.refl k t with
    scrubCursor := a
    passes := b
    scrubPeriod := c
    sound := fun y => { y with store := g y.store }
    clean := fun y z => ⟨(e y z).1, rfl, rfl, (e y z).2.1, (e y z).2.2.1, (e y z).2.2.2, fun _ => rfl⟩
    units := fun _ _ h => ⟨rfl, { h with }⟩ }

theorem Kept.askStore (h : Kept k s t) (cl : StoreClaimant) (n : Nat) : Kept k s (t.askStore cl n) :=
  h.setStore _ id rfl rfl rfl fun _ x => ⟨x, rfl, rfl, rfl⟩

theorem Kept.grantStore (h : Kept k s t) : Kept k s t.grantStore := by
  unfold State.grantStore
  split
  · exact h
  · split
    · exact h.setStore _ id rfl rfl rfl fun _ x => ⟨x, rfl, rfl, rfl⟩
    · split
      · exact h.setStore _ id rfl rfl rfl fun _ x => ⟨x, rfl, rfl, rfl⟩
      · exact h

/-- The requester's waiting bursts changed. -/
theorem Kept.putBurst (h : Kept k s t) (u : Fin 4) (b : Burst) : Kept k s (t.putBurst u b) :=
  h.trans { Kept.refl k t with
    sound := fun x => { x with }
    clean := fun _ h => ⟨h, rfl, rfl, rfl, rfl, rfl, fun _ => rfl⟩
    units := fun _ _ h => ⟨rfl, { h with }⟩ }

theorem Kept.setReq (h : Kept k s t) (q : Requester) (g : k.req = false) : Kept k s { t with req := q } :=
  h.trans { Kept.refl k t with
    sound := fun x => { x with }
    clean := fun _ h => ⟨h, rfl, rfl, rfl, rfl, rfl, fun _ => rfl⟩
    units := fun _ _ h => ⟨rfl, { h with }⟩
    req := fun x => by simp [g] at x }

/-- A unit's record changed: only one that is not apart, where the chain keeps the others. -/
theorem Kept.modUnit (h : Kept k s t) (u : Fin 4) (f : UnitRec → UnitRec)
    (g : k.units = true → ¬ s.Apart u) : Kept k s (t.modUnit u f) := by
  refine { h with sound := fun x => { h.sound x with }, clean := fun x y => { h.clean x y with }, units := fun x v y => ?_ }
  have hv : v ≠ u := fun e => g x (e ▸ y)
  obtain ⟨a, b⟩ := h.units x v y
  have e : (t.modUnit u f).units.get v = t.units.get v := Four.get_modify_ne _ _ hv
  exact ⟨e.trans a, ⟨by rw [e]; exact b.waitOn, b.waiting, b.serving⟩⟩

/-- The Direct Read Slot changed: whom it serves and who waits for it are no unit apart. -/
theorem Kept.setDrs (h : Kept k s t) (x : DrsRec)
    (a : k.units = true → ∀ v ∈ x.waitingUnits, v ∈ t.drs.waitingUnits ∨ ¬ s.Apart v)
    (b : k.units = true → ∀ v, x.serving = some v → t.drs.serving = some v ∨ ¬ s.Apart v) :
    Kept k s { t with drs := x } := by
  refine { h with sound := fun y => { h.sound y with }, clean := fun y z => { h.clean y z with }, units := fun y v z => ?_ }
  obtain ⟨e, f⟩ := h.units y v z
  refine ⟨e, ⟨f.waitOn, fun m => ?_, fun m => ?_⟩⟩
  · rcases a y v m with m | m
    · exact f.waiting m
    · exact m z
  · rcases b y v m with m | m
    · exact f.serving m
    · exact m z

/-- The sweep records changed, every DEPTH kept. -/
theorem Kept.setSweeps (h : Kept k s t) (l : Four SweepRec)
    (g : ∀ d, (l.get d).depth = (t.sweeps.get d).depth) : Kept k s { t with sweeps := l } :=
  h.trans { Kept.refl k t with
    sound := fun x => { x with depth := fun d =>
      ⟨(x.depth d).1.trans_eq (g d).symm, (g d).trans_le (x.depth d).2⟩ }
    clean := fun _ h => ⟨h, rfl, rfl, rfl, rfl, rfl, g⟩
    units := fun _ _ h => ⟨rfl, { h with }⟩ }

theorem Kept.modSweep (h : Kept k s t) (d : Fin 4) (f : SweepRec → SweepRec)
    (g : ∀ w, (f w).depth = w.depth := by intro; rfl) : Kept k s (t.modSweep d f) := by
  refine h.setSweeps _ fun e => ?_
  rw [Four.get_modify]; split
  · rename_i he; subst he; exact g _
  · rfl

/-- Units that wait are notified: a unit apart waits on nothing. -/
theorem Kept.notifyWaiters (h : Kept k s t) (on : Nat → Bool) : Kept k s (t.notifyWaiters on) := by
  refine { h with sound := fun x => { h.sound x with }, clean := fun x y => { h.clean x y with }, units := fun x v y => ?_ }
  obtain ⟨a, b⟩ := h.units x v y
  have e : (t.notifyWaiters on).units.get v = t.units.get v := by
    have w : (t.units.get v).waitSlot = none := by simp [UnitRec.waitSlot, b.waitOn]
    simp [UnitRec.notify, w]
  exact ⟨e.trans a, ⟨by rw [e]; exact b.waitOn, b.waiting, b.serving⟩⟩

/-- A lock table entry emptied, where the chain allows it. -/
theorem Kept.setLocks (h : Kept k s t) (l : Four (Option Nat)) (g : k.clean = true → s.store.flips ≠ []) :
    Kept k s { t with locks := l } :=
  { h with
    sound := fun x => { h.sound x with }
    clean := fun x y => absurd y (g x)
    units := fun x u y => ⟨(h.units x u y).1, { (h.units x u y).2 with }⟩ }

theorem geometrySound_set_none (l : Four (Option Geometry)) (d e : Fin 4)
    (h : ∀ i, geometrySound (l.get i) = true) : geometrySound ((l.set d none).get e) = true := by
  rw [Four.get_set]; split
  · rfl
  · exact h e

/-- A geometry record lost, where the chain allows it. -/
theorem Kept.loseGeometryRecord (h : Kept k s t) (d : Fin 4) (g : k.clean = true → s.store.flips ≠ []) :
    Kept k s (t.setGeometry d none) :=
  { h with
    sound := fun x => { h.sound x with
      geometry := fun e => geometrySound_set_none _ d e (h.sound x).geometry }
    clean := fun x y => absurd y (g x)
    units := fun x u y => ⟨(h.units x u y).1, { (h.units x u y).2 with }⟩ }

end Sys2Proof.Machine
end

