-- ==== Sys2Proof/Laws/KeptInner.lean ====
section
/-! SUPPORT. What the operations on the queue, the bus, the read path, the claims, the contexts, the store and the track table keep. -/

set_option Elab.async false

namespace Sys2Proof.Machine

variable {k : Keep} {s t : State}

/-! ## Queue and track records -/

theorem Kept.leaveQueue (h : Kept k s t) (n : Nat) : Kept k s (t.leaveQueue n) := h.setQueue _

theorem Kept.queueTail (h : Kept k s t) (n : Nat) (cls : TrackClass) : Kept k s (t.queueTail n cls) :=
  (h.modTrack n _).setQueue _

theorem Kept.queueHead (h : Kept k s t) (n : Nat) : Kept k s (t.queueHead n) :=
  (h.modTrack n _).setQueue _

theorem Kept.enqueue (h : Kept k s t) (n : Nat) (cls : TrackClass) : Kept k s (t.enqueue n cls) := by
  unfold State.enqueue
  split
  · exact h.queueTail n cls
  · exact h

theorem Kept.promote (h : Kept k s t) (n : Nat) (cls : TrackClass) : Kept k s (t.promote n cls) := by
  unfold State.promote
  dsimp only
  split
  · exact h.enqueue n cls
  · split
    · exact (h.leaveQueue n).queueTail n cls
    · exact h
  · split
    · exact h.modTrack n _
    · exact h
  all_goals exact h

theorem Kept.settle (h : Kept k s t) (n : Nat) : Kept k s (t.settle n) := by
  unfold State.settle
  dsimp only
  split
  · exact (h.modTrack n _).attnSettled
  · exact h.modTrack n _

theorem Kept.demoteDemand (h : Kept k s t) : Kept k s t.demoteDemand :=
  (h.mapTracks TrackRec.demoted fun _ x => x).setQueue _

theorem Kept.releaseLock (h : Kept k s t) (n : Nat) (g : k.clean = true → s.store.flips ≠ []) :
    Kept k s (t.releaseLock n) := by
  unfold State.releaseLock
  split
  · exact h
  · exact ((h.modTrack n _).setLocks _ g).notifyWaiters _

theorem Kept.discardCandidates (h : Kept k s t) (n i : Nat) : Kept k s (t.discardCandidates n i) := by
  unfold State.discardCandidates
  split
  · exact h
  · exact h.modCtx _ _

theorem Kept.chooseBurst (h : Kept k s t) (g : k.req = false) : Kept k s t.chooseBurst := h.setReq _ g

/-! ## A unit's transfers and the ending of its list -/

variable {u : Fin 4}

theorem Kept.askTransfer {r : State} {x : Transfer} (h : Kept k s t) (g : k.units = true → ¬ s.Apart u)
    (e : t.askTransfer u x = some r) : Kept k s r := by
  unfold State.askTransfer at e
  split at e
  · cases e
  · cases e
    exact (h.modUnit u _ g).putBurst u _

theorem Kept.setStatusLost (h : Kept k s t) (g : k.units = true → ¬ s.Apart u) :
    Kept k s (t.statusLost u) :=
  (h.setPort { t.port with statusLost := true, stateChange := true } rfl id (fun _ => rfl)
    (fun _ => rfl)).modUnit u _ g

theorem Kept.storeStatus (h : Kept k s t) (g : k.units = true → ¬ s.Apart u) (c : Completion)
    (l : List Condition) (a b e : Nat) : Kept k s (t.storeStatus u c l a b e) := by
  unfold State.storeStatus
  dsimp only
  split
  · rename_i hr
    exact (h.modUnit u _ g).askTransfer g hr
  · exact (h.modUnit u _ g).setStatusLost g

theorem Kept.closeList (h : Kept k s t) (g : k.units = true → ¬ s.Apart u) (c : Completion)
    (l : List Condition) : Kept k s (t.closeList u c l) := (h.modUnit u _ g).storeStatus g _ _ _ _ _

theorem Kept.setSense (h : Kept k s t) (g : k.units = true → ¬ s.Apart u) (x : SenseRec) :
    Kept k s (t.setSense u x) := h.modUnit u _ g

theorem Kept.endDirect (h : Kept k s t) (g : k.units = true → ¬ s.Apart u) (c : Condition)
    (x : SenseReason) : Kept k s (t.endDirect u c x) := (h.setSense g _).closeList g _ _

theorem Kept.endBroken (h : Kept k s t) (g : k.units = true → ¬ s.Apart u) : Kept k s (t.endBroken u) :=
  (h.setSense g _).closeList g _ _

theorem Kept.withdrawWait (h : Kept k s t) : Kept k s (t.withdrawWait u) := by
  unfold State.withdrawWait
  split
  · exact h.modTrack _ _
  · exact h

/-! ## The read path -/

theorem Kept.setDrsState (h : Kept k s t) (x : DrsState) :
    Kept k s { t with drs := { t.drs with state := x } } :=
  h.setDrs _ (fun _ _ m => Or.inl m) (fun _ _ m => Or.inl m)

theorem Kept.grantDrs (h : Kept k s t) (x : DrsTarget) : Kept k s (t.grantDrs x) :=
  (h.setDrsState .reading).setPath (t.grantDrs x).path

theorem Kept.grantCtx (h : Kept k s t) (c : Fin 4) : Kept k s (t.grantCtx c) := by
  unfold State.grantCtx
  dsimp only
  split
  · split
    · exact (h.setPath _).modCtx c _
    · exact h
  · exact h

theorem Kept.grantPath (h : Kept k s t) : Kept k s t.grantPath := by
  unfold State.grantPath
  split
  · exact h
  · split
    · exact h.grantDrs _
    · split
      · exact h.grantCtx _
      · exact h

theorem Kept.dropGrant (h : Kept k s t) : Kept k s t.dropGrant := h.setPath _

theorem Kept.releaseGrant (h : Kept k s t) (x : Holder) : Kept k s (t.releaseGrant x) := by
  unfold State.releaseGrant
  split
  · exact h.dropGrant.grantPath
  · exact h

theorem Kept.enterWaitPath (h : Kept k s t) (c : Fin 4) : Kept k s (t.enterWaitPath c) :=
  (h.modCtx c _).grantPath

theorem Kept.tellPositioned (h : Kept k s t) (d : Fin 4) : Kept k s (t.tellPositioned d) := by
  unfold State.tellPositioned
  dsimp only
  split
  · exact (h.modDrive d _).enterWaitPath _
  · exact ((h.modDrive d _).setDrsState _).grantPath
  · exact h.modDrive d _

theorem Kept.offsetStage (h : Kept k s t) (d : Fin 4) (cyl : Nat) (o : Offset) :
    Kept k s (t.offsetStage d cyl o) := by
  unfold State.offsetStage
  split
  · exact h.tellPositioned d
  · exact h.modDrive d _

theorem Kept.beginSeek (h : Kept k s t) (d : Fin 4) (cyl : Nat) (o : Offset) :
    Kept k s (t.beginSeek d cyl o) := h.modDrive d _

theorem Kept.beginRecalibration (h : Kept k s t) (d : Fin 4) (cyl : Nat) (o : Offset) (b : Bool) :
    Kept k s (t.beginRecalibration d cyl o b) := h.modDrive d _

theorem Kept.beginPositioning (h : Kept k s t) (d : Fin 4) (cyl : Nat) (o : Offset) :
    Kept k s (t.beginPositioning d cyl o) := by
  unfold State.beginPositioning
  split
  · exact h.beginRecalibration d cyl o _
  · split
    · exact h.offsetStage d cyl o
    · exact h.beginSeek d cyl o

theorem Kept.prepareRevolution (h : Kept k s t) (c : Fin 4) : Kept k s (t.prepareRevolution c) := by
  unfold State.prepareRevolution
  dsimp only
  split
  · split
    · split
      · exact h.enterWaitPath c
      · exact (h.modCtx c _).beginPositioning _ _ _
    · exact h
  · exact h

/-! ## Claims on drives and the Direct Read Slot -/

theorem Kept.returnToContext (h : Kept k s t) (c d : Fin 4) : Kept k s (t.returnToContext c d) := by
  unfold State.returnToContext
  split
  · exact h.modCtx c _
  · split
    · exact h.prepareRevolution c
    · exact h.modCtx c _
    all_goals exact h

/-- A drive record changed as a claim on it ends. -/
theorem Kept.modAbandon (h : Kept k s t) (d : Fin 4) (f : DriveRec → DriveRec)
    (p : ∀ x, (f x).pins = x.abandonPositioning.pins := by intro; rfl)
    (g : ∀ x, (f x).shown = x.abandonPositioning.shown := by intro; rfl) :
    Kept k s (t.modDrive d f) :=
  h.modDrive d f (fun x => (p x).trans x.abandonPositioning_pins)
    fun _ x => (g x).trans x.abandonPositioning_shown

theorem Kept.drsGiveUp (h : Kept k s t) (d : Fin 4) : Kept k s (t.drsGiveUp d) := by
  unfold State.drsGiveUp
  dsimp only
  split
  · exact h.modAbandon d _
  · exact (h.modAbandon d _).returnToContext _ _

theorem Kept.freeDrs (h : Kept k s t) : Kept k s { t with drs := t.drs.freed } :=
  h.setDrs _ (fun _ _ m => Or.inl m) (fun _ _ m => by cases m)

theorem Kept.endRead (h : Kept k s t) : Kept k s t.endRead := by
  unfold State.endRead
  split
  · exact h.freeDrs
  · dsimp only
    split
    · exact ((h.freeDrs.modDrive _ _).releaseGrant _).drsGiveUp _
    · exact (h.freeDrs.modDrive _ _).releaseGrant _

theorem Kept.failRead (h : Kept k s t) : Kept k s t.failRead := by
  unfold State.failRead
  split
  · exact h
  · rename_i v hv
    exact (h.endDirect (h.notApart fun _ a => a.serving hv) _ _).endRead

theorem Kept.drsPosition (h : Kept k s t) (x : DrsTarget) : Kept k s (t.drsPosition x) :=
  (h.setDrsState _).beginPositioning _ _ _

theorem Kept.drsDecide (h : Kept k s t) (x : DrsTarget) : Kept k s (t.drsDecide x) := by
  unfold State.drsDecide
  dsimp only
  split
  · exact (h.modDrive _ _).drsPosition x
  · exact ((h.modAbandon _ _).modCtx _ _).drsPosition x
  · exact h.modDrive _ _
  · exact (h.modDrive _ _).failRead

theorem Kept.drsRecheck (h : Kept k s t) (d : Fin 4) : Kept k s (t.drsRecheck d) := by
  unfold State.drsRecheck
  split
  · split
    · split
      · exact h.drsDecide _
      · exact h
    · exact h
  · exact h

theorem Kept.ctxGiveUp (h : Kept k s t) (c d : Fin 4) : Kept k s (t.ctxGiveUp c d) := by
  unfold State.ctxGiveUp
  split
  · exact (h.modAbandon d _).drsRecheck d
  · exact h

theorem Kept.queueVote (h : Kept k s t) (q : VoteRequest) : Kept k s (t.queueVote q) := h.setVote _

theorem Kept.requestEvaluation (h : Kept k s t) (c : Fin 4) (x : VoteKind) :
    Kept k s (t.requestEvaluation c x) := by
  unfold State.requestEvaluation
  dsimp only
  split
  · exact h
  · exact (h.queueVote _).modCtx c _

/-! ## Contexts -/

theorem Kept.unbind (h : Kept k s t) (c : Fin 4) : Kept k s (t.unbind c) := by
  unfold State.unbind
  split
  · exact h
  · dsimp only
    have a := h.modCtx c fun _ => CtxRec.free
    have b := a.setVote (t.vote.withdraw c)
    have e := b.setPath { t.path with passedOver := t.path.passedOver.set c 0 }
    split
    · exact (e.modTrack _ _).releaseGrant _
    · exact ((e.modTrack _ _).releaseGrant _).ctxGiveUp c _

theorem Kept.settleBound (h : Kept k s t) (c : Fin 4) (n : Nat) : Kept k s (t.settleBound c n) :=
  (h.unbind c).settle n

theorem Kept.returnTrack (h : Kept k s t) (c : Fin 4) : Kept k s (t.returnTrack c) := by
  unfold State.returnTrack
  split
  · exact h
  · exact (h.unbind c).queueHead _

theorem Kept.requeueBound (h : Kept k s t) (c : Fin 4) (n : Nat) : Kept k s (t.requeueBound c n) :=
  ((h.unbind c).modTrack n _).queueTail n _

theorem Kept.requeueSettled (h : Kept k s t) (n : Nat) : Kept k s (t.requeueSettled n) :=
  (h.modTrack n _).queueTail n _

theorem Kept.settleIfResolved (h : Kept k s t) (n : Nat) (b : Bool) : Kept k s (t.settleIfResolved n b) := by
  unfold State.settleIfResolved
  dsimp only
  split
  · exact h
  · split
    · exact (h.leaveQueue n).settle n
    · exact h.settle n
    · split
      · exact h
      · split
        · exact h.settleBound _ n
        · exact h
    all_goals exact h

theorem apart_waitSlot {v : Fin 4} (a : t.Apart v) : (t.units.get v).waitSlot = none := by
  simp [UnitRec.waitSlot, a.waitOn]

theorem apart_waitsOnSlot {v : Fin 4} {n : Nat} (a : t.Apart v) (h : (t.units.get v).waitsOnSlot n = true) :
    False := by simp [UnitRec.waitsOnSlot, apart_waitSlot a] at h

theorem apart_waitsOnTrack {v : Fin 4} (a : t.Apart v) (h : (t.units.get v).waitsOnTrack = true) : False := by
  simp [UnitRec.waitsOnTrack, apart_waitSlot a] at h

theorem Kept.endWaitersBroken (h : Kept k s t) (n : Nat) : Kept k s (t.endWaitersBroken n) := by
  unfold State.endWaitersBroken
  generalize fourNumbers = l
  induction l generalizing t with
  | nil => exact h
  | cons v rest ih =>
    simp only [List.foldl_cons]
    apply ih
    split
    · rename_i hv
      exact h.endBroken (h.notApart fun _ a => apart_waitsOnSlot a hv)
    · exact h

theorem keysRiseFrom_filter {α : Type} (l : List (Nat × α)) (p : Nat × α → Bool) (b : Nat)
    (h : keysRiseFrom b l = true) : keysRiseFrom b (l.filter p) = true := by
  induction l generalizing b with
  | nil => rfl
  | cons e rest ih =>
    obtain ⟨j, w⟩ := e
    simp only [keysRiseFrom, Bool.and_eq_true, decide_eq_true_eq] at h
    simp only [List.filter_cons]
    split
    · simp only [keysRiseFrom, Bool.and_eq_true, decide_eq_true_eq]
      exact ⟨h.1, ih _ h.2⟩
    · exact ih _ (keysRiseFrom_mono h.2 (by omega))

theorem StoreRec.sound_iff (x : StoreRec) : x.sound = true ↔
    Memory.wf x.mem = true ∧ keysRiseFrom 0 x.flips = true ∧ x.corrected ≤ 65535
      ∧ x.uncorrected ≤ 65535 ∧ x.scrubPeriod ≤ 60 := by
  simp only [StoreRec.sound, Bool.and_eq_true, decide_eq_true_eq, and_assoc]

/-- The list of bit errors shortened. -/
theorem Kept.filterFlips (h : Kept k s t) (p : Nat × FlipKind → Bool) :
    Kept k s { t with store := { t.store with flips := t.store.flips.filter p } } := by
  refine h.setStore _ (fun g => ?_) rfl rfl rfl fun _ e => ⟨by rw [e]; rfl, rfl, rfl, rfl⟩
  rw [StoreRec.sound_iff] at g ⊢
  exact ⟨g.1, keysRiseFrom_filter _ _ _ g.2.1, g.2.2⟩

theorem Kept.clearFlips (h : Kept k s t) (o : WordOwner) : Kept k s (t.clearFlips o) := h.filterFlips _

theorem Kept.removeTrack (h : Kept k s t) (n : Nat) : Kept k s (t.removeTrack n) := by
  unfold State.removeTrack
  dsimp only
  split
  · exact h.leaveQueue n
  · split
    · exact h.unbind _
    · exact h
  · exact h.setFreeList _
  all_goals exact h

theorem Kept.breakTrack (h : Kept k s t) (n : Nat) (b : Bool) (g : k.clean = true → s.store.flips ≠ []) :
    Kept k s (t.breakTrack n b) :=
  (((((h.removeTrack n).releaseLock n g).endWaitersBroken n).setTrack n _).clearFlips _)

theorem Kept.leaveWaiting (h : Kept k s t) : Kept k s (t.leaveWaiting u) :=
  h.setDrs _ (fun _ _ m => Or.inl (List.mem_of_mem_filter m)) (fun _ _ m => Or.inl m)

/-! ## The test of a store word -/

/-- An owner's effect keeps what the chain keeps, where a bit error stands. -/
def OwnerEffect.Keeps (k : Keep) (s : State) (e : OwnerEffect) : Prop :=
  ∀ (t : State) (cl : StoreClaimant) (o : WordOwner), Kept k s t → (k.clean = true → s.store.flips ≠ []) →
    Kept k s (e t cl o)

theorem Kept.unflip (h : Kept k s t) (w : Nat) : Kept k s (t.unflip w) := by
  refine h.setStore _ (fun g => ?_) rfl rfl rfl fun _ e => ⟨by rw [e]; rfl, rfl, rfl, rfl⟩
  rw [StoreRec.sound_iff] at g ⊢
  exact ⟨g.1, assocDel_rises _ _ _ g.2.1, g.2.2⟩

theorem Kept.writeMem (h : Kept k s t) (a : Nat) (b : List Byte) :
    Kept k s { t with store := { t.store with mem := writeBytes t.store.mem a b } } := by
  refine h.setStore _ (fun g => ?_) rfl rfl rfl fun _ e => ⟨e, rfl, rfl, rfl⟩
  rw [StoreRec.sound_iff] at g ⊢
  exact ⟨Memory.wf_writeBytes _ _ _ g.1, g.2⟩

theorem Kept.zeroWord (h : Kept k s t) (w : Nat) : Kept k s (t.zeroWord w) := by
  unfold State.zeroWord
  split
  · exact h
  · exact h.writeMem _ _

theorem Kept.noteUncorrectable (h : Kept k s t) (cl : StoreClaimant) (w : Nat)
    (g : k.clean = true → s.store.flips ≠ []) : Kept k s (t.noteUncorrectable cl w) := by
  unfold State.noteUncorrectable
  refine Kept.attnStore ?_
  refine { h with sound := fun x => { h.sound x with store := ?_ }, clean := fun x y => absurd y (g x),
                  units := fun x u y => ⟨(h.units x u y).1, { (h.units x u y).2 with }⟩ }
  have y := (h.sound x).store
  rw [StoreRec.sound_iff] at y ⊢
  exact ⟨y.1, y.2.1, y.2.2.1, Nat.min_le_left _ _, y.2.2.2.2⟩

theorem Kept.testWord {e : OwnerEffect} (a : e.Keeps k s) (h : Kept k s t) (cl : StoreClaimant) (w : Nat) :
    Kept k s (t.testWord e cl w) := by
  unfold State.testWord
  split
  · exact h
  · rename_i e
    have g : k.clean = true → s.store.flips ≠ [] := h.dirty fun _ n => by
      rw [n] at e
      cases e
    have a := h.unflip w
    refine { a with sound := fun x => { a.sound x with store := ?_ }, clean := fun x y => absurd y (g x),
                    units := fun x u y => ⟨(a.units x u y).1, { (a.units x u y).2 with }⟩ }
    have y := (a.sound x).store
    rw [StoreRec.sound_iff] at y ⊢
    exact ⟨y.1, y.2.1, Nat.min_le_left _ _, y.2.2.2⟩
  · rename_i f
    have g : k.clean = true → s.store.flips ≠ [] := h.dirty fun _ n => by
      rw [n] at f
      cases f
    exact ((a _ cl _ (h.noteUncorrectable cl w g) g).unflip w).zeroWord w

theorem Kept.testWords {e : OwnerEffect} (a : e.Keeps k s) (h : Kept k s t) (cl : StoreClaimant)
    (ws : List Nat) : Kept k s (t.testWords e cl ws) := by
  unfold State.testWords
  induction ws generalizing t with
  | nil => exact h
  | cons w rest ih => exact ih (h.testWord a cl w)

/-! ## The test of a track record, and what ends with one -/

theorem Kept.trackLost (h : Kept k s t) (n : Nat) (g : k.clean = true → s.store.flips ≠ []) :
    Kept k s (t.trackLost n) := by
  unfold State.trackLost
  split
  · exact h.breakTrack _ _ g
  · exact h

theorem trackEffect_keeps (k : Keep) (s : State) : trackEffect.Keeps k s := fun t cl o h g => by
  unfold trackEffect
  split
  · exact h.trackLost _ g
  · exact h

theorem Kept.touchTrack (h : Kept k s t) (cl : StoreClaimant) (n : Nat) : Kept k s (t.touchTrack cl n) :=
  (h.testWords (trackEffect_keeps k s) cl _).askStore cl 1

theorem Kept.touchTracks (h : Kept k s t) (cl : StoreClaimant) (ns : List Nat) :
    Kept k s (t.touchTracks cl ns) := by
  unfold State.touchTracks
  induction ns generalizing t with
  | nil => exact h
  | cons n rest ih => exact ih (h.touchTrack cl n)

theorem Kept.leaveWrittenTrack (h : Kept k s t) (g : k.units = true → ¬ s.Apart u) :
    Kept k s (t.leaveWrittenTrack u) := by
  unfold State.leaveWrittenTrack
  split
  · exact h
  · dsimp only
    split
    · exact h.modUnit u _ g
    · split
      · exact ((h.modUnit u _ g).touchTrack _ _).enqueue _ _
      · exact (h.modUnit u _ g).touchTrack _ _

theorem Kept.endList (h : Kept k s t) (g : k.units = true → ¬ s.Apart u) (c : Completion)
    (l : List Condition) : Kept k s (t.endList u c l) := (h.leaveWrittenTrack g).closeList g _ _

theorem Kept.endNormal (h : Kept k s t) (g : k.units = true → ¬ s.Apart u) : Kept k s (t.endNormal u) :=
  h.endList g _ _

theorem Kept.endHalted (h : Kept k s t) (g : k.units = true → ¬ s.Apart u) : Kept k s (t.endHalted u) :=
  h.endList g _ _

theorem Kept.endCheck (h : Kept k s t) (g : k.units = true → ¬ s.Apart u) (c : Condition)
    (x : SenseReason) : Kept k s (t.endCheck u c x) := (h.setSense g _).endList g _ _

theorem Kept.endPort (h : Kept k s t) (g : k.units = true → ¬ s.Apart u) (o : PortOutcome) :
    Kept k s (t.endPort u o) := (h.setSense g _).endList g _ _

theorem Kept.endSensePort (h : Kept k s t) (g : k.units = true → ¬ s.Apart u) (o : PortOutcome) :
    Kept k s (t.endSensePort u o) := h.endList g _ _

theorem Kept.withdrawingWait (h : Kept k s t) (g : k.units = true → ¬ s.Apart u) (f : State → State)
    (hf : ∀ r, Kept k s r → Kept k s (f r)) : Kept k s (t.withdrawingWait u f) := by
  unfold State.withdrawingWait
  split
  · exact hf _ h
  · dsimp only
    split
    · exact hf _ ((h.touchTrack _ _).withdrawWait.modUnit u _ g)
    · exact h.touchTrack _ _

theorem Kept.returnRead (h : Kept k s t) (c : Fin 4) : Kept k s (t.returnRead c) := by
  unfold State.returnRead
  split
  · exact h
  · dsimp only
    split
    · exact (h.touchTrack _ _).returnTrack c
    · exact h.touchTrack _ _

theorem Kept.ctxFaulted (h : Kept k s t) (c : Fin 4) : Kept k s (t.ctxFaulted c) := by
  unfold State.ctxFaulted
  dsimp only
  have a := h.modCtx c fun x => { x with state := CtxState.faultHold, wanted := [] }
  split
  iterate 3
    · split
      · exact a.returnRead c
      · exact a
  all_goals exact h

theorem Kept.ctxReady (h : Kept k s t) (c : Fin 4) : Kept k s (t.ctxReady c) := by
  unfold State.ctxReady
  split
  · exact h.prepareRevolution c
  · exact h

/-- What a drive's holder does when told of its state. -/
theorem Kept.tellClaim (h : Kept k s t) (x : Option Holder) (st : DriveState) :
    Kept k s (match x with
      | some (.ctx c) =>
        match st with
        | .ready => t.ctxReady c
        | .faulted => t.ctxFaulted c
        | .absent => t
        | .notReady => t
        | .withdrawn => t
      | some .drs => if st = DriveState.ready then t else t.failRead
      | none => t) := by
  split
  · split
    · exact h.ctxReady _
    · exact h.ctxFaulted _
    all_goals exact h
  · split
    · exact h
    · exact h.failRead
  · exact h

theorem Kept.tellHolders (h : Kept k s t) (d : Fin 4) : Kept k s (t.tellHolders d) := by
  unfold State.tellHolders
  dsimp only
  split
  · exact ((h.dropGrant.tellClaim _ _).drsRecheck d).grantPath
  · exact (h.tellClaim _ _).drsRecheck d

/-! ## Geometry and sweep records lost -/

theorem Kept.releaseUnit (h : Kept k s t) (d : Fin 4) : Kept k s (t.releaseUnit d) := by
  unfold State.releaseUnit
  dsimp only
  split
  · rename_i hv
    have n : k.units = true → ¬ s.Apart d := h.notApart fun _ x => apart_waitsOnTrack x hv
    exact h.withdrawingWait n _ fun _ x => x.endCheck n _ _
  · split
    · rename_i hv
      have n : k.units = true → ¬ s.Apart d := h.notApart fun _ x => by
        rw [x.waitOn] at hv
        cases hv
      split
      · exact h.failRead
      · exact (h.leaveWaiting (u := d)).endCheck n _ _
    · exact h

theorem Kept.loseGeometry (h : Kept k s t) (d : Fin 4) (g : k.clean = true → s.store.flips ≠ []) :
    Kept k s (t.loseGeometry d) := by
  unfold State.loseGeometry
  refine Kept.releaseUnit ?_ d
  have a := (h.loseGeometryRecord d g).clearFlips (.geometry d)
  split
  · exact a.returnRead _
  · exact a

theorem depth_set_powerOn (l : Four SweepRec) (d e : Fin 4)
    (h : ∀ i, 1 ≤ (l.get i).depth ∧ (l.get i).depth ≤ 8) :
    1 ≤ ((l.modify d fun _ => SweepRec.powerOn).get e).depth
      ∧ ((l.modify d fun _ => SweepRec.powerOn).get e).depth ≤ 8 := by
  rw [Four.get_modify]
  split
  · decide
  · exact h e

theorem Kept.setSweepsDirty (h : Kept k s t) (d : Fin 4) (g : k.clean = true → s.store.flips ≠ []) :
    Kept k s (t.modSweep d fun _ => SweepRec.powerOn) :=
  { h with
    sound := fun x => { h.sound x with depth := fun e => depth_set_powerOn _ d e (h.sound x).depth }
    clean := fun x y => absurd y (g x)
    units := fun x u y => ⟨(h.units x u y).1, { (h.units x u y).2 with }⟩ }

theorem Kept.loseSweep (h : Kept k s t) (d : Fin 4) (g : k.clean = true → s.store.flips ≠ []) :
    Kept k s (t.loseSweep d) := (h.setSweepsDirty d g).clearFlips _

/-! ## The image store -/

theorem Kept.markSector (h : Kept k s t) (n i : Nat) : Kept k s (t.markSector n i) := by
  unfold State.markSector
  dsimp only
  have a := fun y => h.setTrack n y
  split
  iterate 2
    · split
      · exact (a _).requeueSettled n
      · exact a _
  iterate 2
    · exact a _
  · split
    · exact h
    · exact a _
  all_goals exact h

theorem Kept.damageSector (h : Kept k s t) (cl : StoreClaimant) (n i : Nat) :
    Kept k s (t.damageSector cl n i) := by
  unfold State.damageSector
  dsimp only
  split
  · exact h.touchTrack cl n
  · exact (h.touchTrack cl n).markSector n i

theorem Kept.dropCandidate (h : Kept k s t) (c : Fin 4) (p i : Nat) : Kept k s (t.dropCandidate c p i) :=
  h.modCtx c _

theorem ownerEffect_keeps (k : Keep) (s : State) : ownerEffect.Keeps k s := fun t cl o h g => by
  unfold ownerEffect
  split
  · exact h
  · exact h.damageSector _ _ _
  · exact h.dropCandidate _ _ _
  · exact h
  · exact h.trackLost _ g
  · exact h.loseGeometry _ g
  · exact h.loseSweep _ g

theorem Kept.readWord (h : Kept k s t) (cl : StoreClaimant) (w : Nat) : Kept k s (t.readWord cl w) :=
  h.testWord (ownerEffect_keeps k s) cl w

theorem Kept.readWords (h : Kept k s t) (cl : StoreClaimant) (ws : List Nat) :
    Kept k s (t.readWords cl ws) := h.testWords (ownerEffect_keeps k s) cl ws

theorem Kept.readAsked (h : Kept k s t) (cl : StoreClaimant) (a n : Nat) :
    Kept k s (t.readAsked cl a n).2 := h.readWords cl _

theorem Kept.readStore (h : Kept k s t) (cl : StoreClaimant) (a n : Nat) :
    Kept k s (t.readStore cl a n).2 := (h.readAsked cl a n).askStore cl _

theorem Kept.writeStore (h : Kept k s t) (cl : StoreClaimant) (a : Nat) (b : List Byte) :
    Kept k s (t.writeStore cl a b) := by
  have x := (h.writeMem a b).filterFlips fun e => !(a / 8 ≤ e.1 && e.1 < (a + b.length + 7) / 8)
  exact x.askStore cl _

theorem Kept.touchRecord (h : Kept k s t) (cl : StoreClaimant) (o : WordOwner) :
    Kept k s (t.touchRecord cl o) := (h.readWords cl _).askStore cl 1

theorem Kept.readFrame (h : Kept k s t) (cl : StoreClaimant) (n i : Nat) :
    Kept k s (t.readFrame cl n i).2 := h.readStore cl _ _

theorem Kept.writeFrame (h : Kept k s t) (cl : StoreClaimant) (n i : Nat) (b : List Byte) :
    Kept k s (t.writeFrame cl n i b) := h.writeStore cl _ b

theorem Kept.touchSweeps (h : Kept k s t) (p : Fin 4 → Bool) : Kept k s (t.touchSweeps p) := by
  unfold State.touchSweeps
  generalize fourNumbers.filter p = l
  induction l generalizing t with
  | nil => exact h
  | cons d rest ih => exact ih (h.touchRecord _ _)

theorem Kept.resumeSweeps (h : Kept k s t) : Kept k s t.resumeSweeps :=
  (h.touchSweeps _).setSweeps _ fun d => by simp

/-! ## Claims on track records -/

theorem Kept.addOrigin (h : Kept k s t) (n : Nat) (o : OriginKind) : Kept k s (t.addOrigin n o) :=
  h.modTrack n _

theorem Kept.takeFrame (h : Kept k s t) (cl : StoreClaimant) (a : TrackAddr) (g : Geometry)
    (o : OriginKind) (tries : Nat) : Kept k s (t.takeFrame cl a g o tries).2 := by
  induction tries generalizing t with
  | zero => exact h
  | succ m ih =>
    unfold State.takeFrame
    split
    · exact h
    · split
      · exact ih ((h.touchTrack cl _).setFreeList _)
      · exact (((h.touchTrack cl _).setFreeList _).setTrack _ _).addOrigin _ _

theorem Kept.claimTrack (h : Kept k s t) (cl : StoreClaimant) (a : TrackAddr) (o : OriginKind) :
    Kept k s (t.claimTrack cl a o).2 := by
  unfold State.claimTrack
  split
  · exact h
  · dsimp only
    split
    · exact (h.touchTrack cl _).addOrigin _ _
    · exact h.touchTrack cl _

theorem Kept.allocate (h : Kept k s t) (cl : StoreClaimant) (a : TrackAddr) (o : OriginKind) :
    Kept k s (t.allocate cl a o).2 := by
  unfold State.allocate
  dsimp only
  replace h := h.touchRecord cl (.geometry a.drive)
  revert h
  generalize t.touchRecord cl (.geometry a.drive) = t
  intro h
  split
  · exact h
  · split
    · exact h
    · have x := h.claimTrack cl a o
      split
      · rename_i e; rw [e] at x; exact x
      · rename_i e; rw [e] at x; exact x.takeFrame cl a _ o _

theorem Kept.resolveSector (h : Kept k s t) (n i : Nat) (f : SectorRec → SectorRec) :
    Kept k s (t.resolveSector n i f) := (h.setTrack n _).discardCandidates n i

theorem Kept.takeWrite (h : Kept k s t) (cl : StoreClaimant) (n i : Nat) (b : List Byte) :
    Kept k s (t.takeWrite cl n i b) :=
  (((h.writeFrame cl n i b).resolveSector n i _).modTrack n _).settleIfResolved n _

/-- A decision taken on the bytes of a frame sector, or on their loss. -/
theorem Kept.onFrame (h : Kept k s t) (cl : StoreClaimant) (n i : Nat)
    (f : List Byte → State → WriteDecision × State) (g : State → WriteDecision × State)
    (hf : ∀ b r, Kept k s r → Kept k s (f b r).2) (hg : ∀ r, Kept k s r → Kept k s (g r).2) :
    Kept k s (match t.readFrame cl n i with
      | (some old, r) => f old r
      | (none, r) => g r).2 := by
  have x := h.readFrame cl n i
  split
  · rename_i e
    rw [e] at x
    exact hf _ _ x
  · rename_i e
    rw [e] at x
    exact hg _ x

/-- A whole or completed share written. -/
theorem Kept.takenWrite (h : Kept k s t) (cl : StoreClaimant) (n i : Nat) (b : List Byte) :
    Kept k s (WriteDecision.taken, t.takeWrite cl n i b).2 := h.takeWrite cl n i b

/-- A short share completed from the frame, or left to wait. -/
theorem Kept.completeOrWait (h : Kept k s t) (cl : StoreClaimant) (n i : Nat) (b : List Byte) :
    Kept k s (match t.readFrame cl n i with
      | (some old, r) => (WriteDecision.taken, r.takeWrite cl n i (completed b old))
      | (none, r) => (.unresolved, r)).2 := by
  apply h.onFrame cl n i (fun old r => (.taken, r.takeWrite cl n i (completed b old)))
    (fun r => (.unresolved, r))
  · intro old r x
    exact x.takeWrite cl n i _
  · intro r x
    exact x

/-- A short share completed from the frame, or with zero bytes. -/
theorem Kept.completeOrZero (h : Kept k s t) (cl : StoreClaimant) (n i : Nat) (b z : List Byte) :
    Kept k s (match t.readFrame cl n i with
      | (some old, r) => (WriteDecision.taken, r.takeWrite cl n i (completed b old))
      | (none, r) => (.taken, r.takeWrite cl n i (completed b z))).2 := by
  apply h.onFrame cl n i (fun old r => (.taken, r.takeWrite cl n i (completed b old)))
    (fun r => (.taken, r.takeWrite cl n i (completed b z)))
  · intro old r x
    exact x.takeWrite cl n i _
  · intro r x
    exact x.takeWrite cl n i _

theorem Kept.shadowWrite (h : Kept k s t) (cl : StoreClaimant) (n i : Nat) (b : List Byte) :
    Kept k s (t.shadowWrite cl n i b).2 := by
  have whole := fun x => h.takenWrite cl n i x
  have wait := h.completeOrWait cl n i b
  have zero := fun z => h.completeOrZero cl n i b z
  unfold State.shadowWrite
  dsimp only
  by_cases a : (t.track n).lock.isSome = true
  · rw [if_pos a]; exact h
  rw [if_neg a]
  by_cases e : ((t.track n).sector i).status = .marked
  · rw [if_pos e]; exact h
  rw [if_neg e]
  by_cases l : b.length = (t.track n).sectorBytes
  · rw [if_pos l]; exact whole b
  rw [if_neg l]
  generalize ((t.track n).sector i).status = st
  cases st
  case failed => exact whole _
  case lost => exact whole _
  case clean => exact wait
  case voted => exact wait
  case written => exact zero _
  case replaced => exact zero _
  all_goals exact h

end Sys2Proof.Machine
end

