-- ==== Sys2Proof/Laws/KeptUnits.lean ====
section
/-! SUPPORT. What the unit sequencers' operations keep. -/

set_option Elab.async false

namespace Sys2Proof.Machine

variable {k : Keep} {s t : State} {u : Fin 4}

/-- What follows a claim on the record that holds a track. -/
theorem Kept.onClaim {α : Type} (h : Kept k s t) (cl : StoreClaimant) (a : TrackAddr) (o : OriginKind)
    (f : Nat → State → α) (g : State → α) (P : α → Prop) (hf : ∀ n r, Kept k s r → P (f n r))
    (hg : ∀ r, Kept k s r → P (g r)) :
    P (match t.claimTrack cl a o with
      | (some n, r) => f n r
      | (none, r) => g r) := by
  have x := h.claimTrack cl a o
  split
  · rename_i e
    rw [e] at x
    exact hf _ _ x
  · rename_i e
    rw [e] at x
    exact hg _ x

theorem Kept.fetchFromBus (h : Kept k s t) (g : k.units = true → ¬ s.Apart u) :
    Kept k s (t.fetchFromBus u) := by
  unfold State.fetchFromBus
  dsimp only
  split
  · rename_i e
    exact (h.modUnit u _ g).askTransfer g e
  · exact (h.modUnit u _ g).endPort g _

theorem Kept.advanceList (h : Kept k s t) (g : k.units = true → ¬ s.Apart u) (f : State → State)
    (hf : ∀ r, Kept k s r → Kept k s (f r)) : Kept k s (t.advanceList u f) := by
  unfold State.advanceList
  dsimp only
  have a := (h.leaveWrittenTrack g).modUnit u (fun r => { r with ordersDone := r.ordersDone + 1 }) g
  split
  · exact a.endHalted g
  · split
    · exact a.endNormal g
    · split
      · exact hf _ (a.modUnit u _ g)
      · exact (a.modUnit u _ g).endCheck g _ _

theorem Kept.completeOrder (h : Kept k s t) (g : k.units = true → ¬ s.Apart u) :
    Kept k s (t.completeOrder u) := h.advanceList g _ fun _ x => x.fetchFromBus g

theorem Kept.demandWait (h : Kept k s t) (g : k.units = true → ¬ s.Apart u) (n : Nat) (w : WaitOn) :
    Kept k s (t.demandWait u n w) := by
  unfold State.demandWait
  split
  · exact h.endHalted g
  · exact ((h.modUnit u _ g).modTrack n _).promote n _

theorem Kept.askDirect (h : Kept k s t) (g : k.units = true → ¬ s.Apart u) :
    Kept k s (t.askDirect u) := by
  unfold State.askDirect
  refine (h.modUnit u _ g).setDrs _ (fun x v m => ?_) fun _ v m => Or.inl m
  rcases List.mem_append.1 m with m | m
  · exact Or.inl m
  · rw [List.mem_singleton.1 m]
    exact Or.inr (g x)

theorem Kept.deliver (h : Kept k s t) (g : k.units = true → ¬ s.Apart u) (b : List Byte) (x : Bool) :
    Kept k s (t.deliver u b x) := by
  unfold State.deliver
  dsimp only
  split
  · rename_i e
    exact (h.modUnit u _ g).askTransfer g e
  · exact (h.modUnit u _ g).endPort g _

theorem Kept.loadLost (h : Kept k s t) (g : k.units = true → ¬ s.Apart u) (n i : Nat) :
    Kept k s (t.loadLost u n i) := by
  unfold State.loadLost
  split
  case h_1 => exact h.endCheck g _ _
  case h_2 => exact h.endCheck g _ _
  case h_7 => exact h.endCheck g _ _
  all_goals exact h.demandWait g _ _

theorem Kept.loadFrame (h : Kept k s t) (g : k.units = true → ¬ s.Apart u) (n i : Nat) (x : Bool) :
    Kept k s (t.loadFrame u n i x) := by
  unfold State.loadFrame
  have y := h.readFrame (.unit u) n i
  split
  · rename_i e
    rw [e] at y
    exact y.deliver g _ _
  · rename_i e
    rw [e] at y
    exact y.loadLost g _ _

theorem Kept.loadFrom (h : Kept k s t) (g : k.units = true → ¬ s.Apart u) (n : Nat) :
    Kept k s (t.loadFrom u n) := by
  unfold State.loadFrom
  dsimp only
  split
  · exact h.demandWait g _ _
  · generalize ((t.track n).sector (t.units.get u).position.sector).status = st
    cases st
    case failed =>
      dsimp only
      split
      · exact h.loadFrame g _ _ _
      · exact h.endCheck g _ _
    case clean => exact h.loadFrame g _ _ _
    case voted => exact h.loadFrame g _ _ _
    case written => exact h.loadFrame g _ _ _
    case replaced => exact h.loadFrame g _ _ _
    case marked => exact h.endCheck g _ _
    case lost => exact h.endCheck g _ _
    all_goals exact h.demandWait g _ _

theorem Kept.allocateForRead (h : Kept k s t) (g : k.units = true → ¬ s.Apart u) (f : State → State)
    (hf : ∀ r, Kept k s r → Kept k s (f r)) : Kept k s (t.allocateForRead u f) := by
  unfold State.allocateForRead
  have y := h.allocate (.unit u) (t.positionTrack u) .system
  split
  · rename_i e
    rw [e] at y
    exact (y.enqueue _ _).demandWait g _ _
  · rename_i e
    rw [e] at y
    exact y.loadFrom g _
  · rename_i e
    rw [e] at y
    exact hf _ y
  · rename_i e
    rw [e] at y
    exact y.endCheck g _ _

theorem Kept.loadClaim (h : Kept k s t) (g : k.units = true → ¬ s.Apart u) :
    Kept k s (t.loadClaim u) := by
  unfold State.loadClaim
  refine h.onClaim (.unit u) (t.positionTrack u) .system (fun n r => r.loadFrom u n)
    (fun r => r.allocateForRead u fun t => t.askDirect u) (Kept k s) (fun n r x => ?_) fun r x => ?_
  · exact x.loadFrom g n
  · exact x.allocateForRead g _ fun r y => y.askDirect g

theorem Kept.startGather (h : Kept k s t) (g : k.units = true → ¬ s.Apart u) (b : Nat) :
    Kept k s (t.startGather u b) := by
  unfold State.startGather
  dsimp only
  split
  · rename_i e
    exact h.askTransfer g e
  · exact h.endPort g _

theorem Kept.nextSector (h : Kept k s t) (g : k.units = true → ¬ s.Apart u) (f : State → State)
    (hf : ∀ r, Kept k s r → Kept k s (f r)) : Kept k s (t.nextSector u f) := by
  unfold State.nextSector
  dsimp only
  split
  · exact hf _ h
  · split
    · exact h.endHalted g
    · have a := h.touchRecord (.unit u) (.geometry u)
      split
      · exact a.endCheck g _ _
      · split
        · exact a.endCheck g _ _
        · split
          · exact a.loadClaim g
          · exact a.startGather g _
          all_goals exact a

theorem Kept.performPosition (h : Kept k s t) (g : k.units = true → ¬ s.Apart u) (o : Order) :
    Kept k s (t.performPosition u o) := by
  unfold State.performPosition
  dsimp only
  replace h := h.touchRecord (.unit u) (.geometry u)
  revert h
  generalize t.touchRecord (.unit u) (.geometry u) = t
  intro h
  split
  · exact h.endCheck g _ _
  · split
    · exact h.endCheck g _ _
    · have a := h.modUnit u
        (fun r => { r with position := { cyl := o.cyl, head := o.head, sector := o.sector } }) g
      have y := a.allocate (.unit u) ((t.modUnit u fun r =>
        { r with position := { cyl := o.cyl, head := o.head, sector := o.sector } }).positionTrack u) .system
      split
      · rename_i e
        rw [e] at y
        exact (y.enqueue _ _).completeOrder g
      · rename_i e
        rw [e] at y
        exact (y.promote _ _).completeOrder g
      · rename_i e
        rw [e] at y
        exact y.completeOrder g
      · rename_i e
        rw [e] at y
        exact y.completeOrder g

theorem Kept.storeDone (h : Kept k s t) (g : k.units = true → ¬ s.Apart u) :
    Kept k s (t.storeDone u) := by
  unfold State.storeDone
  split
  · exact h
  · dsimp only
    split
    · exact (h.modUnit u _ g).endCheck g _ _
    · exact (h.modUnit u _ g).completeOrder g

theorem Kept.startStore (h : Kept k s t) (g : k.units = true → ¬ s.Apart u) (o : Order)
    (x : TransferKind) (ws : List Word16) : Kept k s (t.startStore u o x ws) := by
  unfold State.startStore
  dsimp only
  split
  · exact h.storeDone g
  · split
    · rename_i e
      exact h.askTransfer g e
    · cases x
      case senseStore => exact h.endSensePort g _
      case summaryStore => exact h.endPort g _
      all_goals exact h

theorem Kept.readSummary (h : Kept k s t) : Kept k s (t.readSummary u).2 := by
  unfold State.readSummary
  dsimp only
  replace h := h.touchRecord (.unit u) (.geometry u)
  split
  · split
    · exact h.touchTrack _ _
    · exact h.touchTrack _ _
  · exact h

theorem Kept.beginOrder (h : Kept k s t) (g : k.units = true → ¬ s.Apart u) (o : Order) :
    Kept k s (t.beginOrder u o) := by
  unfold State.beginOrder
  split
  · exact h.performPosition g o
  · exact h.nextSector g _ fun _ x => x.completeOrder g
  · exact h.nextSector g _ fun _ x => x.completeOrder g
  · exact h.startStore g o _ _
  · exact h.readSummary.startStore g o _ _

theorem Kept.judgeBlock (h : Kept k s t) (g : k.units = true → ¬ s.Apart u) (ws : List Word16) :
    Kept k s (t.judgeBlock u ws) := by
  unfold State.judgeBlock
  dsimp only
  split
  · exact (h.modUnit u _ g).endCheck g _ _
  · split
    · exact (h.modUnit u _ g).endCheck g _ _
    · exact ((h.modUnit u _ g).modUnit u _ g).beginOrder g _

theorem Kept.fetchNext (h : Kept k s t) (g : k.units = true → ¬ s.Apart u) :
    Kept k s (t.fetchNext u) := by
  unfold State.fetchNext
  split
  · exact h.fetchFromBus g
  · exact (h.modUnit u _ g).judgeBlock g _
  · exact h.endPort g _

theorem Kept.completeTransferOrder (h : Kept k s t) (g : k.units = true → ¬ s.Apart u) :
    Kept k s (t.completeTransferOrder u) := h.advanceList g _ fun _ x => x.fetchNext g

theorem Kept.goOn (h : Kept k s t) (g : k.units = true → ¬ s.Apart u) : Kept k s (t.goOn u) :=
  h.nextSector g _ fun _ x => x.completeTransferOrder g

theorem Kept.startPrefetch (h : Kept k s t) (g : k.units = true → ¬ s.Apart u) :
    Kept k s (t.startPrefetch u) := by
  unfold State.startPrefetch
  dsimp only
  split
  · rename_i e
    exact h.askTransfer g e
  · exact (h.modUnit u _ g).goOn g

/-- The unit leaves the track its WRITE was on, when its position has moved off it. -/
theorem Kept.leaveIfMoved (h : Kept k s t) (g : k.units = true → ¬ s.Apart u) (p : Prop) [Decidable p] :
    Kept k s (if p then t else t.leaveWrittenTrack u) := by
  split
  · exact h
  · exact h.leaveWrittenTrack g

theorem Kept.afterSector (h : Kept k s t) (g : k.units = true → ¬ s.Apart u) (a b : Bool) :
    Kept k s (if a = true then t.endHalted u else if b = true then t.startPrefetch u else t.goOn u) := by
  split
  · exact h.endHalted g
  · split
    · exact h.startPrefetch g
    · exact h.goOn g

theorem Kept.sectorDone (h : Kept k s t) (g : k.units = true → ¬ s.Apart u) :
    Kept k s (t.sectorDone u) := by
  unfold State.sectorDone
  exact ((h.modUnit u _ g).leaveIfMoved g _).afterSector g _ _

theorem Kept.writeInto (h : Kept k s t) (g : k.units = true → ¬ s.Apart u) (n : Nat) :
    Kept k s (t.writeInto u n) := by
  unfold State.writeInto
  dsimp only
  have y := (h.modUnit u (fun r => { r with writeTrack := some (t.positionTrack u), waitOn := none })
    g).shadowWrite (.unit u) n (t.units.get u).position.sector (t.units.get u).buffer
  split
  · rename_i e
    rw [e] at y
    exact y.sectorDone g
  · rename_i e
    rw [e] at y
    exact y.demandWait g _ _
  · rename_i e
    rw [e] at y
    exact y.endCheck g _ _
  · rename_i e
    rw [e] at y
    exact y.demandWait g _ _

theorem Kept.writeAllocated (h : Kept k s t) (g : k.units = true → ¬ s.Apart u) :
    Kept k s (match t.allocate (.unit u) (t.positionTrack u) .system with
      | (.fresh n, t) => t.writeInto u n
      | (.found n, t) => t.writeInto u n
      | (.poolEmpty, t) => t.endCheck u .poolFull .poolFull
      | (.outOfRange, t) => t.endCheck u .notReady .notReady) := by
  have y := h.allocate (.unit u) (t.positionTrack u) .system
  split
  · rename_i e
    rw [e] at y
    exact y.writeInto g _
  · rename_i e
    rw [e] at y
    exact y.writeInto g _
  · rename_i e
    rw [e] at y
    exact y.endCheck g _ _
  · rename_i e
    rw [e] at y
    exact y.endCheck g _ _

theorem Kept.writeClaim (h : Kept k s t) (g : k.units = true → ¬ s.Apart u) :
    Kept k s (t.writeClaim u) := by
  unfold State.writeClaim
  have y := h.claimTrack (.unit u) (t.positionTrack u) .system
  split
  · rename_i e
    rw [e] at y
    exact y.writeInto g _
  · rename_i e
    rw [e] at y
    exact y.writeAllocated g

theorem Kept.claimAgain (h : Kept k s t) (g : k.units = true → ¬ s.Apart u) :
    Kept k s (t.claimAgain u) := by
  refine h.withdrawingWait g _ fun r x => ?_
  dsimp only
  split
  · exact (x.modUnit u _ g).writeClaim g
  · exact (x.modUnit u _ g).loadClaim g

/-! ## The end of a burst, and commands to a unit -/

theorem Kept.transferFailed (h : Kept k s t) (g : k.units = true → ¬ s.Apart u) (x : TransferKind)
    (o : PortOutcome) : Kept k s (t.transferFailed u x o) := by
  cases x
  case prefetch => exact (h.modUnit u _ g).goOn g
  case senseStore => exact h.endSensePort g o
  case statusStore => exact h.setStatusLost g
  all_goals exact h.endPort g o

theorem Kept.transferDone (h : Kept k s t) (g : k.units = true → ¬ s.Apart u) (x : Transfer) :
    Kept k s (t.transferDone u x) := by
  unfold State.transferDone
  split
  · exact h.judgeBlock g _
  · exact (h.modUnit u _ g).goOn g
  · exact h.sectorDone g
  · exact (h.modUnit u _ g).writeClaim g
  · exact h.storeDone g
  · exact h.storeDone g
  · exact h.modUnit u _ g

theorem Kept.unitBurstEnd (h : Kept k s t) (g : k.units = true → ¬ s.Apart u) (n : Nat)
    (o : BurstOutcome) (ws : List Word16) : Kept k s (t.unitBurstEnd u n o ws) := by
  unfold State.unitBurstEnd
  split
  · exact h
  · split
    · exact h.endHalted g
    · split
      · exact h.transferFailed g _ _
      · dsimp only
        split
        · exact h.transferDone g _
        · split
          · rename_i e
            exact h.askTransfer g e
          · exact h.transferFailed g _ _

theorem Kept.startList (h : Kept k s t) (g : k.units = true → ¬ s.Apart u) : Kept k s (t.startList u) :=
  (h.modUnit u _ g).fetchFromBus g

theorem Kept.haltUnit (h : Kept k s t) (g : k.units = true → ¬ s.Apart u) : Kept k s (t.haltUnit u) := by
  unfold State.haltUnit
  dsimp only
  split
  · split
    · exact h.withdrawingWait g _ fun r x => x.endHalted g
    · split
      · exact (h.endHalted g).endRead
      · exact (h.leaveWaiting (u := u)).endHalted g
  · exact h.modUnit u _ g

theorem Kept.patienceExpires (h : Kept k s t) (g : k.units = true → ¬ s.Apart u) :
    Kept k s (t.patienceExpires u) := by
  unfold State.patienceExpires
  exact h.withdrawingWait g _ fun r x => (x.leaveWaiting (u := u)).endCheck g _ _

theorem Kept.beginRead (h : Kept k s t) (g : k.units = true → ¬ s.Apart u) : Kept k s (t.beginRead u) := by
  unfold State.beginRead
  refine Kept.drsDecide (Kept.setDrs h _ ?_ ?_) _
  · intro _ v m
    exact Or.inl m
  · intro x v m
    cases m
    exact Or.inr (g x)

theorem Kept.serveUnit (h : Kept k s t) (g : k.units = true → ¬ s.Apart u) : Kept k s (t.serveUnit u) := by
  unfold State.serveUnit
  have a := (h.leaveWaiting (u := u)).modUnit u
    (fun r => { r with patience := none, state := .run, waitOn := none }) g
  refine a.onClaim (.unit u) _ .system (fun n t => t.loadFrom u n)
    (fun t => t.allocateForRead u fun t =>
      (t.modUnit u fun r => { r with state := .wait, waitOn := some .drs }).beginRead u)
    (Kept k s) (fun n r x => ?_) fun r x => ?_
  · exact x.loadFrom g n
  · exact x.allocateForRead g _ fun r y => (y.modUnit u _ g).beginRead g

end Sys2Proof.Machine
end

