-- ==== Sys2Proof/Laws/KeptReact.lean ====
section
/-! SUPPORT. What the Vote Unit, the Sweep Feeder, the Dispatcher and the run of all reactions keep. -/

set_option Elab.async false

namespace Sys2Proof.Machine

variable {k : Keep} {s t : State} {u : Fin 4}

/-! ## The Vote Unit -/

theorem Kept.setService (h : Kept k s t) (x : VoteService) : Kept k s (t.setService x) := h.setVote _

theorem Kept.askCandidate (h : Kept k s t) (q : VoteRequest) (sv : VoteService) :
    Kept k s (t.askCandidate q sv) := by
  unfold State.askCandidate
  split
  · exact h.setService _
  · exact (h.setService _).askStore _ _

theorem Kept.readCandidates (h : Kept k s t) (q : VoteRequest) (i : Nat) (ps : List Nat) :
    Kept k s (t.readCandidates q i ps).2 := by
  induction ps generalizing t with
  | nil => exact h
  | cons p rest ih =>
    unfold State.readCandidates
    split
    · have y := h.readAsked .vote (t.entryAddr q.context p (t.track q.track).sectorBytes i)
        (t.candidateBytes q)
      split
      · rename_i e
        rw [e] at y
        exact ih y
      · rename_i e
        rw [e] at y
        exact ih y
    · exact ih h

theorem Kept.voteBurst (h : Kept k s t) : Kept k s t.voteBurst := by
  unfold State.voteBurst
  split
  · split
    · exact h
    · split
      · exact (h.readCandidates _ _ _).askCandidate _ _
      · exact h.setService _
  · exact h

theorem Kept.readRest (h : Kept k s t) (q : VoteRequest) (sv : VoteService) :
    Kept k s (t.readRest q sv).2 := (h.readCandidates _ _ _).askStore _ _

theorem Kept.voteClaim (h : Kept k s t) (q : VoteRequest) (i : Nat) (b : List Byte)
    (f : SectorRec → SectorRec) : Kept k s (t.voteClaim q i b f) := by
  unfold State.voteClaim
  split
  · exact (h.writeFrame _ _ _ _).resolveSector _ _ _
  · exact h

theorem Kept.voteSector (h : Kept k s t) (q : VoteRequest) (i l : Nat) (cs : List (List Byte)) :
    Kept k s (t.voteSector q i l cs) := by
  unfold State.voteSector State.voteInLadder State.voteFinal
  dsimp only
  repeat' split
  all_goals first
    | exact h
    | exact h.voteClaim _ _ _ _

theorem Kept.afterAccounting (h : Kept k s t) (c : Fin 4) (n : Nat) : Kept k s (t.afterAccounting c n) := by
  unfold State.afterAccounting
  dsimp only
  split
  · exact h.requestEvaluation c _
  · split
    · exact h.returnTrack c
    · split
      · exact h
      · split
        · exact h.modCtx c _
        · exact h.prepareRevolution c

theorem Kept.accountStep (h : Kept k s t) (c : Fin 4) (n : Nat) : Kept k s (t.accountStep c n) := by
  unfold State.accountStep
  split
  · exact h.settleBound c n
  · exact ((h.modTrack n _).modCtx c _).afterAccounting c n

theorem Kept.finalStep (h : Kept k s t) (c : Fin 4) (n : Nat) : Kept k s (t.finalStep c n) := by
  unfold State.finalStep
  split
  · exact h.settleBound c n
  · exact h.requeueBound c n

theorem Kept.endNotice (h : Kept k s t) (c : Fin 4) (x : VoteKind) : Kept k s (t.endNotice c x) := by
  unfold State.endNotice
  split
  · exact h
  · dsimp only
    have a := (h.modCtx c fun x => { x with evaluation := .none }).touchTrack (.ctx c) ‹Nat›
    split
    · split
      · exact a.accountStep c _
      · exact a.finalStep c _
    · exact a

theorem Kept.continueService (h : Kept k s t) (q : VoteRequest) (sv : VoteService) (n : Nat) :
    Kept k s (t.continueService q sv n) := by
  unfold State.continueService
  split
  · exact h.askCandidate _ _
  · exact (h.setVote _).endNotice _ _

theorem Kept.startService (h : Kept k s t) (q : VoteRequest) : Kept k s (t.startService q) := by
  unfold State.startService
  dsimp only
  have a := h.touchTrack .vote q.track
  split
  · exact a.continueService q _ 0
  · exact a

theorem Kept.touchSeed (h : Kept k s t) (n : Nat) : Kept k s (t.touchSeed n) := by
  unfold State.touchSeed
  split
  · exact h
  · exact h.touchRecord _ _

theorem Kept.voteThenContinue (h : Kept k s t) (q : VoteRequest) (sv : VoteService) :
    Kept k s (if t.vote.serving.isNone then t else t.continueService q sv (sv.sector + 1)) := by
  split
  · exact h
  · exact h.continueService q sv _

theorem Kept.voteSectorStep (h : Kept k s t) : Kept k s t.voteSectorStep := by
  unfold State.voteSectorStep
  split
  · rename_i sv q _ _
    dsimp only
    have a := h.touchTrack .vote q.track
    split
    · exact a
    · have b := a.touchSeed q.track
      split
      · exact b
      · exact ((b.readRest q sv).voteSector q _ _ _).voteThenContinue q sv
  · exact h

/-! ## The Sweep Feeder -/

theorem Kept.advanceCursor (h : Kept k s t) (d : Fin 4) (g : Geometry) : Kept k s (t.advanceCursor d g) := by
  unfold State.advanceCursor
  dsimp only
  split
  · exact h.modSweep d _
  · split
    · exact h.modSweep d _
    · exact (h.modSweep d _).attnSweep

theorem Kept.feedStep (h : Kept k s t) (d : Fin 4) (g : Geometry) : Kept k s (t.feedStep d g) := by
  unfold State.feedStep
  dsimp only
  have y := h.allocate .table ⟨d, (t.sweeps.get d).cyl, (t.sweeps.get d).head⟩ .sweep
  split
  · rename_i e
    rw [e] at y
    exact (y.enqueue _ _).advanceCursor d g
  · rename_i e
    rw [e] at y
    exact y.advanceCursor d g
  · rename_i e
    rw [e] at y
    exact (y.modSweep d _).attnSweep
  · rename_i e
    rw [e] at y
    split
    · exact y.advanceCursor d g
    · exact y

theorem Kept.feed (h : Kept k s t) (d : Fin 4) : Kept k s (t.feed d) := by
  unfold State.feed
  dsimp only
  have a := h.touchRecord .table (.sweepRecord d)
  split
  · split
    · exact a.feedStep d _
    · exact a
  · exact a

/-! ## The Dispatcher -/

theorem Kept.startContext (h : Kept k s t) (c : Fin 4) (n : Nat) : Kept k s (t.startContext c n) := by
  unfold State.startContext
  dsimp only
  split
  · exact h.settleBound c n
  · split
    · exact h.requestEvaluation c _
    · exact (h.modCtx c _).prepareRevolution c

theorem Kept.bindTrack (h : Kept k s t) (c : Fin 4) (n : Nat) (d : Fin 4) : Kept k s (t.bindTrack c n d) :=
  ((((h.leaveQueue n).modTrack n _).modDrive d _).modCtx c _).startContext c n

theorem Kept.readEntry (h : Kept k s t) (n : Nat) : Kept k s (t.readEntry n).2 := by
  unfold State.readEntry
  dsimp only
  have a := h.touchTrack .table n
  split
  · exact a
  · exact a.touchRecord _ _

theorem Kept.dispatch (h : Kept k s t) (c : Fin 4) (n : Nat) : Kept k s (t.dispatch c n) := by
  unfold State.dispatch
  have y := h.readEntry n
  split
  · rename_i e
    rw [e] at y
    exact y.bindTrack c n _
  · rename_i e
    rw [e] at y
    exact y

theorem Kept.offerEntries (h : Kept k s t) (c : Fin 4) (bound : List (Fin 4)) (left : Nat) :
    Kept k s (t.offerEntries c bound left).1 := by
  induction left generalizing t with
  | zero => exact h
  | succ left ih =>
    unfold State.offerEntries
    split
    · exact h
    · rename_i n _
      have y := h.readEntry n
      split
      · rename_i e
        rw [e] at y
        exact y.bindTrack c n _
      · rename_i e
        rw [e] at y
        exact ih y

theorem Kept.offer (h : Kept k s t) (bound : List (Fin 4)) (c : Fin 4) : Kept k s (t.offer bound c).1 := by
  unfold State.offer
  split
  · exact h.offerEntries c bound _
  · exact h

theorem Kept.bindFree (h : Kept k s t) : Kept k s t.bindFree :=
  (((h.offer [] 0).offer _ 1).offer _ 2).offer _ 3

/-! ## Reads owed -/

theorem Kept.readGranted (h : Kept k s t) (c : Fin 4) : Kept k s (t.readGranted c) := by
  unfold State.readGranted
  dsimp only
  split
  · exact h.setPath _
  · exact (h.setPath _).touchTrack _ _

theorem Kept.readClaimed (h : Kept k s t) (u : Fin 4) : Kept k s (t.readClaimed u) :=
  (h.setDrs { t.drs with geometryRead := true } (fun _ _ m => Or.inl m) fun _ _ m => Or.inl m).touchRecord _ _

/-! ## All reactions -/

theorem Kept.settleCtx (h : Kept k s t) (c : Fin 4) : Kept k s (t.settleCtx c) := by
  unfold State.settleCtx
  split
  · exact h
  · dsimp only
    split
    · exact (h.touchTrack _ _).settleBound c _
    · exact h.touchTrack _ _

theorem Kept.reactOnce {r : State} (h : Kept k s t) (e : t.reactOnce = some r) : Kept k s r := by
  unfold State.reactOnce at e
  split at e
  · cases e
    exact h.settleCtx _
  · split at e
    · rename_i v hv
      cases e
      refine h.claimAgain (h.notApart fun _ a => ?_)
      have := List.find?_some hv
      simp only [State.waitOver, a.waitOn, Bool.and_eq_true, Bool.false_eq_true, and_false] at this
    · split at e
      · rename_i v hv
        cases e
        refine h.serveUnit (h.notApart fun _ a => a.waiting ?_)
        unfold State.servedUnit at hv
        split at hv
        · exact List.mem_of_mem_head? hv
        · cases hv
      · split at e
        · cases e
          exact h.startService _
        · split at e
          · cases e
            exact h.feed _
          · split at e
            · cases e
              exact h.bindFree
            · split at e
              · cases e
                exact h.readGranted _
              · obtain ⟨u, _, rfl⟩ := Option.map_eq_some_iff.1 e
                exact h.readClaimed u

theorem Kept.quiesce (h : Kept k s t) (fuel : Nat) : Kept k s (State.quiesce fuel t) := by
  induction fuel generalizing t with
  | zero => exact h
  | succ n ih =>
    unfold State.quiesce
    split
    · exact h
    · rename_i e
      exact ih (h.reactOnce e)

/-- What the end of a command keeps: all but the requester's choice. -/
theorem Kept.finish (h : Kept k s t) (g : k.req = false) : Kept k s t.finish :=
  ((h.quiesce reactFuel).chooseBurst g).grantStore

end Sys2Proof.Machine
end

