-- ==== Sys2Proof/Laws/KeptDrives.lean ====
section
/-! SUPPORT. What the Drive Supervisor's and the Read Path's operations keep. -/

set_option Elab.async false

namespace Sys2Proof.Machine

variable {k : Keep} {s t : State} {d : Fin 4}

/-! ## Reports and faults -/

theorem Kept.offerStatus (h : Kept k s t) (g : k.units = true → ¬ s.Apart d) :
    Kept k s (t.offerStatus d) := by
  unfold State.offerStatus
  split
  · exact h
  · split
    · exact h.storeStatus g _ _ _ _ _
    · exact h.modUnit d _ g

theorem Kept.reportDrive (h : Kept k s t) (g : k.units = true → ¬ s.Apart d) :
    Kept k s (t.reportDrive d) := ((h.attnDrive d).tellHolders d).offerStatus g

theorem Kept.latchFault (h : Kept k s t) (a : k.drives = false) (g : k.units = true → ¬ s.Apart d)
    (x : FaultKind) : Kept k s (t.latchFault d x) := by
  unfold State.latchFault
  dsimp only
  split
  · exact h
  · exact (h.modDrive d _ (g := fun x => by simp [a] at x)).reportDrive g

/-! ## Discovery -/

theorem Kept.reportIfChanged (h : Kept k s t) (g : k.units = true → ¬ s.Apart d) (x : DriveState) :
    Kept k s (t.reportIfChanged d x) := by
  unfold State.reportIfChanged
  split
  · exact h
  · exact h.reportDrive g

theorem Kept.startDiscovery (h : Kept k s t) (a : k.drives = false) (g : k.units = true → ¬ s.Apart d)
    (x : Bool) : Kept k s (t.startDiscovery d x) :=
  (h.modDrive d _ (g := fun x => by simp [a] at x)).reportIfChanged g _

theorem DriveRec.endDiscovery_pins (x : DriveRec) (o : DiscoveryOutcome) :
    (x.endDiscovery o).pins = x.pins := by
  unfold DriveRec.endDiscovery
  split <;> rfl

theorem Kept.readForOutcome (h : Kept k s t) (o : DiscoveryOutcome) : Kept k s (t.readForOutcome d o) := by
  unfold State.readForOutcome
  split
  · exact h.touchRecord _ _
  · exact h

theorem Kept.endDiscovery (h : Kept k s t) (a : k.drives = false) (g : k.units = true → ¬ s.Apart d)
    (o : DiscoveryOutcome) : Kept k s (t.endDiscovery d o) := by
  unfold State.endDiscovery
  replace h := h.readForOutcome (d := d) o
  generalize t.readForOutcome d o = t at h
  have b := (h.modDrive d (fun r => r.endDiscovery o) (fun x => x.endDiscovery_pins o)
    (fun x => by simp [a] at x)).reportIfChanged g (t.drives.get d).state
  refine Kept.drsRecheck ?_ d
  split
  · exact b.attnDrive d
  · exact b

theorem Kept.setStage (h : Kept k s t) (a : k.drives = false) (x : DiscoveryStage) :
    Kept k s (t.setStage d x) := h.modDrive d _ (g := fun x => by simp [a] at x)

theorem Kept.discoverAll (h : Kept k s t) (a : k.drives = false) (b : k.units = false)
    (p : DriveRec → Bool) : Kept k s (t.discoverAll p) := by
  unfold State.discoverAll
  generalize fourNumbers = l
  induction l generalizing t with
  | nil => exact h
  | cons e rest ih =>
    simp only [List.foldl_cons]
    apply ih
    split
    · exact h.startDiscovery a (fun x => by simp [b] at x) _
    · exact h

/-! ## The drives' lines -/

theorem Kept.dropToNotReady (h : Kept k s t) (a : k.drives = false) (g : k.units = true → ¬ s.Apart d) :
    Kept k s (t.dropToNotReady d) :=
  (h.modDrive d _ (g := fun x => by simp [a] at x)).reportIfChanged g _

theorem Kept.abandonDiscovery (h : Kept k s t) (a : k.drives = false) : Kept k s (t.abandonDiscovery d) :=
  h.modDrive d _ (g := fun x => by simp [a] at x)

theorem Kept.dropClaimed (h : Kept k s t) (a : k.drives = false) (g : k.units = true → ¬ s.Apart d) :
    Kept k s (t.dropClaimed d) := by
  unfold State.dropClaimed
  split
  · exact h.abandonDiscovery a
  · exact h.latchFault a g _

theorem Kept.readyFalls (h : Kept k s t) (a : k.drives = false) (g : k.units = true → ¬ s.Apart d) :
    Kept k s (t.readyFalls d) := by
  unfold State.readyFalls
  dsimp only
  split
  · exact h
  · split
    · split
      · exact h.dropClaimed a g
      · exact h.dropToNotReady a g
    · exact h

theorem Kept.readyRises (h : Kept k s t) (a : k.drives = false) (g : k.units = true → ¬ s.Apart d) :
    Kept k s (t.readyRises d) := by
  unfold State.readyRises
  dsimp only
  split
  · exact h.startDiscovery a g _
  · exact h

theorem Kept.faultRises (h : Kept k s t) (a : k.drives = false) (g : k.units = true → ¬ s.Apart d) :
    Kept k s (t.faultRises d) := by
  unfold State.faultRises
  split
  · exact h.abandonDiscovery a
  · exact h.latchFault a g _

/-- A rise of the fault line changes the level held of it, and else keeps what a watched rise keeps. -/
theorem faultLineRises_kept (a : k.drives = false) (s : State) :
    ∃ held, (k.units = true → ¬ (s.setFaultHeld d held).Apart d) →
      Kept k (s.setFaultHeld d held) (s.faultLineRises d) := by
  unfold State.faultLineRises
  split
  · exact ⟨false, fun g => (Kept.refl k _).faultRises a g⟩
  · exact ⟨true, fun _ => Kept.refl k _⟩

theorem Kept.countIndex (h : Kept k s t) (a : k.drives = false) (g : k.units = true → ¬ s.Apart d) :
    Kept k s (t.countIndex d) := by
  unfold State.countIndex
  split
  · exact h.setStage a _
  · exact (h.modDrive d _ (g := fun x => by simp [a] at x)).endDiscovery a g _
  all_goals exact h

theorem Kept.loseIndex (h : Kept k s t) (a : k.drives = false) (g : k.units = true → ¬ s.Apart d) :
    Kept k s (t.loseIndex d) := by
  unfold State.loseIndex
  split
  · exact h.endDiscovery a g _
  · exact h.endDiscovery a g _
  · split
    · exact h.latchFault a g _
    · exact h

theorem Kept.countPulse (h : Kept k s t) (a : k.drives = false) : Kept k s (t.countPulse d) := by
  unfold State.countPulse
  split
  · exact h.setStage a _
  all_goals exact h

/-- An answer of a drive with no fault level held. -/
theorem Kept.answers (h : Kept k s t) (a : k.drives = false) (g : k.units = true → ¬ s.Apart d)
    (f : (t.drives.get d).faultHeld = false) : Kept k s (t.answers d) := by
  unfold State.answers
  split
  · rw [if_neg (by simp [f])]
    split
    · exact h.endDiscovery a g _
    · split
      · exact h.setStage a _
      · exact h.setStage a _
  · exact h

/-- An answer of any drive: the level held is found and gone, or it is kept. -/
theorem answers_kept (a : k.drives = false) (s : State) :
    ∃ t, (t = s ∨ t = s.setFaultHeld d false) ∧ ((k.units = true → ¬ t.Apart d) → Kept k t (s.answers d)) := by
  cases f : (s.drives.get d).faultHeld with
  | false => exact ⟨s, Or.inl rfl, fun g => (Kept.refl k s).answers a g f⟩
  | true =>
    unfold State.answers
    split
    · rw [if_pos f]
      exact ⟨_, Or.inr rfl, fun g => (Kept.refl k _).endDiscovery a g _⟩
    · exact ⟨s, Or.inl rfl, fun _ => Kept.refl k s⟩

theorem Kept.noAnswer (h : Kept k s t) (a : k.drives = false) (g : k.units = true → ¬ s.Apart d) :
    Kept k s (t.noAnswer d) := by
  unfold State.noAnswer
  split
  · exact h.endDiscovery a g _
  · exact h

theorem Kept.headsRest (h : Kept k s t) (p : Positioning) (b : Bool) : Kept k s (t.headsRest d p b) := by
  unfold State.headsRest
  dsimp only
  have x := (h.modDrive d fun r => { r with positioning := none }).drsRecheck d
  split
  · exact x
  · split
    · exact x.beginSeek d _ _
    · exact x.offsetStage d _ _

theorem Kept.seekEnds (h : Kept k s t) (p : Positioning) : Kept k s (t.seekEnds d p) := by
  unfold State.seekEnds
  split
  · exact (h.modDrive d _).headsRest p _
  · exact (h.modDrive d _).headsRest p _
  · exact h

theorem Kept.seekDone (h : Kept k s t) (a : k.drives = false) : Kept k s (t.seekDone d) := by
  unfold State.seekDone
  split
  · exact (h.modDrive d _).setStage a _
  · exact h.seekEnds _
  · exact h

theorem Kept.seekTimesOut (h : Kept k s t) (a : k.drives = false) (g : k.units = true → ¬ s.Apart d) :
    Kept k s (t.seekTimesOut d) := by
  unfold State.seekTimesOut
  dsimp only
  split
  · exact h
  · split
    · exact h
    · split
      · exact h.latchFault a g _
      · exact h.beginRecalibration d _ _ _

theorem Kept.positioningFails (h : Kept k s t) (a : k.drives = false) (g : k.units = true → ¬ s.Apart d) :
    Kept k s (t.positioningFails d) := by
  unfold State.positioningFails
  split
  · exact h.latchFault a g _
  · exact h

theorem Kept.recalibrationTimesOut (h : Kept k s t) (a : k.drives = false)
    (g : k.units = true → ¬ s.Apart d) : Kept k s (t.recalibrationTimesOut d) := by
  unfold State.recalibrationTimesOut
  split
  · exact h.setStage a _
  · exact h.endDiscovery a g _
  all_goals exact h.positioningFails a g

theorem Kept.settles (h : Kept k s t) : Kept k s (t.settles d) := by
  unfold State.settles
  split
  · exact h
  · split
    · exact (h.modDrive d _).tellPositioned d
    · exact h

/-! ## One revolution -/

theorem Kept.setRev (h : Kept k s t) (r : Revolution) : Kept k s (t.setRev r) := h.setPath _

theorem Kept.takeHeader (h : Kept k s t) (b : HeaderBytes) : Kept k s (t.takeHeader b) := by
  unfold State.takeHeader
  split
  · exact h
  · dsimp only
    split
    · exact h
    · exact h.setRev _

theorem Kept.claimMarked (h : Kept k s t) (c : Fin 4) (n : Nat) (p : Report) :
    Kept k s (t.claimMarked c n p) := by
  unfold State.claimMarked
  split
  · exact h.resolveSector _ _ _
  · exact h

theorem Kept.readCapture (h : Kept k s t) (c : Fin 4) (n i : Nat) : Kept k s (t.readCapture c n i).2 :=
  h.readStore _ _ _

theorem Kept.claimClean (h : Kept k s t) (c : Fin 4) (n : Nat) (p : Report) (b : List Byte) :
    Kept k s (t.claimClean c n p b) := by
  unfold State.claimClean
  split
  · exact (h.writeFrame _ _ _ _).resolveSector _ _ _
  · exact h

theorem Kept.reportGood (h : Kept k s t) (c : Fin 4) (n : Nat) (p : Report) :
    Kept k s (t.reportGood c n p) := by
  unfold State.reportGood
  have y := h.readCapture c n p.sector
  split
  · rename_i e
    rw [e] at y
    exact y.claimClean c n p _
  · rename_i e
    rw [e] at y
    exact y

theorem Kept.joinCandidate (h : Kept k s t) (c : Fin 4) (n i : Nat) (b : List Byte) :
    Kept k s (t.joinCandidate c n i b) := (h.writeStore _ _ _).modCtx c _

theorem Kept.reportCheckFail (h : Kept k s t) (c : Fin 4) (n : Nat) (p : Report) :
    Kept k s (t.reportCheckFail c n p) := by
  unfold State.reportCheckFail
  split
  · have y := h.readCapture c n p.sector
    split
    · rename_i e
      rw [e] at y
      exact y.joinCandidate c n _ _
    · rename_i e
      rw [e] at y
      exact y
  · exact h

theorem Kept.reportTo (h : Kept k s t) (c : Fin 4) (n : Nat) (p : Report) : Kept k s (t.reportTo c n p) := by
  unfold State.reportTo
  dsimp only
  have a := (h.modTrack n fun r => r.setSector p.sector ((r.sector p.sector).counted p)).modCtx c
    fun x => { x with lastFlags := if p.flag.isSome then x.lastFlags.set p.sector p.flag else x.lastFlags }
  split
  · exact a.claimMarked c n p
  · split
    · exact a.reportGood c n p
    · exact a.reportCheckFail c n p
    all_goals exact a

theorem Kept.reportToContext (h : Kept k s t) (c : Fin 4) (p : Report) :
    Kept k s (t.reportToContext c p) := by
  unfold State.reportToContext
  split
  · exact h
  · dsimp only
    split
    · exact (h.touchTrack _ _).reportTo c _ p
    · exact h.touchTrack _ _

theorem Kept.directGood (h : Kept k s t) : Kept k s t.directGood := by
  unfold State.directGood
  split
  · exact h
  · rename_i v hv
    exact (h.deliver (h.notApart fun _ a => a.serving hv) _ _).endRead

theorem Kept.directFails (h : Kept k s t) (x : SenseReason) : Kept k s (t.directFails x) := by
  unfold State.directFails
  split
  · exact h
  · rename_i v hv
    exact (h.endDirect (h.notApart fun _ a => a.serving hv) _ _).endRead

theorem Kept.countDirect (h : Kept k s t) (a b : Nat) :
    Kept k s { t with drs := { t.drs with attempts := a, checkFails := b } } :=
  h.setDrs _ (fun _ _ m => Or.inl m) (fun _ _ m => Or.inl m)

theorem Kept.reportToDrs (h : Kept k s t) (p : Report) : Kept k s (t.reportToDrs p) := by
  unfold State.reportToDrs
  dsimp only
  have a := h.countDirect (satAdd 255 t.drs.attempts 1)
    (if p.outcome = .checkFail then satAdd 255 t.drs.checkFails 1 else t.drs.checkFails)
  split
  · exact a.directFails _
  · split
    · exact a.directGood
    · exact a

theorem Kept.handOver (h : Kept k s t) (x : Holder) (p : Report) : Kept k s (t.handOver x p) := by
  unfold State.handOver
  split
  · split
    · exact h.reportToContext _ p
    · exact h.reportToDrs p
  · exact h

theorem Kept.deliverReport (h : Kept k s t) (x : Holder) (p : Report) : Kept k s (t.deliverReport x p) := by
  unfold State.deliverReport
  split
  · exact h.setRev _
  · exact h.handOver x p

theorem Kept.setCapture (h : Kept k s t) (b : List Byte) :
    Kept k s { t with drs := { t.drs with capture := b } } :=
  h.setDrs _ (fun _ _ m => Or.inl m) (fun _ _ m => Or.inl m)

theorem Kept.writeCapture (h : Kept k s t) (x : Holder) (a i : Nat) (b : List Byte) :
    Kept k s (t.writeCapture x a i b) := by
  unfold State.writeCapture
  split
  · exact h.writeStore _ _ _
  · exact h.setCapture b

theorem Kept.finishTaken (h : Kept k s t) (g : Grant) (geo : Geometry) (f : TakenField) (b : List Byte) :
    Kept k s (t.finishTaken g geo f b) := by
  unfold State.finishTaken
  dsimp only
  split
  · exact ((h.setRev _).writeCapture _ _ _ _).deliverReport _ _
  · exact h.setRev _

theorem Kept.takeData (h : Kept k s t) (x : Bool) (b : List Byte) : Kept k s (t.takeData x b) := by
  unfold State.takeData
  split
  · exact h
  · dsimp only
    split
    · exact h.finishTaken _ _ _ _
    · split
      · exact (h.writeCapture _ _ _ _).setRev _
      · exact h

theorem Kept.closeBlindWindow (h : Kept k s t) : Kept k s t.closeBlindWindow := by
  unfold State.closeBlindWindow
  split
  · exact h
  · dsimp only
    split
    · exact h.setRev _
    · exact h

theorem Kept.closePitchWindow (h : Kept k s t) (x : Bool) : Kept k s (t.closePitchWindow x) := by
  unfold State.closePitchWindow
  split
  · exact h
  · dsimp only
    split
    · exact h
    · split
      · exact (h.setRev _).deliverReport _ _
      · exact h.setRev _

theorem Kept.handOverHeld (h : Kept k s t) (x : Holder) : Kept k s (t.handOverHeld x) := by
  unfold State.handOverHeld
  generalize t.path.rev.held = l
  induction l generalizing t with
  | nil => exact h
  | cons p rest ih => exact ih (h.handOver x p)

theorem Kept.ctxComplete (h : Kept k s t) (c e : Fin 4) : Kept k s (t.ctxComplete c e) := by
  unfold State.ctxComplete
  split
  · exact h
  · dsimp only
    split
    · exact ((((h.touchTrack _ _).modTrack _ _).requestEvaluation c _).drsRecheck e).dropGrant.grantPath
    · exact h.touchTrack _ _

theorem Kept.countRevs (h : Kept k s t) (n : Nat) :
    Kept k s { t with drs := { t.drs with revsTried := n } } :=
  h.setDrs _ (fun _ _ m => Or.inl m) (fun _ _ m => Or.inl m)

theorem Kept.drsComplete (h : Kept k s t) : Kept k s t.drsComplete := by
  unfold State.drsComplete
  have a := h.countRevs (t.drs.revsTried + 1)
  dsimp only
  split
  · exact (a.dropGrant.setDrsState .waitPath).grantPath
  · exact a.directFails _

theorem Kept.revolutionComplete (h : Kept k s t) (g : Grant) : Kept k s (t.revolutionComplete g) := by
  unfold State.revolutionComplete
  dsimp only
  have a := h.handOverHeld g.holder
  split
  · split
    · exact (a.modDrive _ _).ctxComplete _ _
    · exact (a.modDrive _ _).drsComplete
  · exact a

theorem Kept.ctxMisSeek (h : Kept k s t) (c e : Fin 4) : Kept k s (t.ctxMisSeek c e) := by
  unfold State.ctxMisSeek
  split
  · exact h.returnRead c
  · dsimp only
    split
    · exact h.drsRecheck e
    · exact (h.drsRecheck e).prepareRevolution c

theorem Kept.holderMisSeek (h : Kept k s t) (x : Holder) (e : Fin 4) : Kept k s (t.holderMisSeek x e) := by
  unfold State.holderMisSeek
  split
  · exact h.ctxMisSeek _ e
  · split
    · exact h.drsPosition _
    · exact h

theorem Kept.seekAgain (h : Kept k s t) (a : k.drives = false) (x : Holder)
    (g : k.units = true → ¬ s.Apart d) :
    Kept k s (if (t.drives.get d).seekRetried then t.latchFault d .seekFail
      else (t.modDrive d fun r => { r with cylAt := none }).holderMisSeek x d) := by
  split
  · exact h.latchFault a g _
  · exact (h.modDrive d _).holderMisSeek x d

theorem Kept.revolutionMisSeek (h : Kept k s t) (a : k.drives = false) (g : Grant)
    (b : k.units = true → ¬ s.Apart g.addr.drive) : Kept k s (t.revolutionMisSeek g) := by
  unfold State.revolutionMisSeek
  refine (Kept.seekAgain ?_ a g.holder b).grantPath
  split
  · exact h.dropGrant.modCtx _ _
  · exact h.dropGrant.setDrsState _

theorem Kept.closeRevolution (h : Kept k s t) (a : k.drives = false) (g : Grant)
    (b : k.units = true → ¬ s.Apart g.addr.drive) : Kept k s (t.closeRevolution g) := by
  unfold State.closeRevolution
  split
  · exact h.revolutionMisSeek a g b
  · exact h.revolutionComplete g

theorem Kept.openRevolution (h : Kept k s t) (g : Grant) : Kept k s (t.openRevolution g) := by
  unfold State.openRevolution
  replace h := h.touchRecord .table (.geometry g.addr.drive)
  generalize t.touchRecord .table (.geometry g.addr.drive) = t at h
  dsimp only
  split
  · exact h.setPath _
  · exact h

theorem Kept.revolutionIndex (h : Kept k s t) (a : k.drives = false) (b : k.units = true → ¬ s.Apart d) :
    Kept k s (t.revolutionIndex d) := by
  unfold State.revolutionIndex
  split
  · exact h
  · split
    · exact h
    · rename_i g _ e
      have e : g.addr.drive = d := by simpa using e
      split
      · exact h.closeRevolution a g (e ▸ b)
      · exact h.openRevolution g

theorem Kept.indexArrives (h : Kept k s t) (a : k.drives = false) (b : k.units = true → ¬ s.Apart d) :
    Kept k s (t.indexArrives d) := (h.revolutionIndex a b).countIndex a b

end Sys2Proof.Machine
end

