-- ==== Sys2Proof/Laws/Rest.lean ====
section
/-! SUPPORT. When the blocks stand still, what the end of a command does then, and what a chain of operations keeps, field by field. -/

set_option Elab.async false

namespace Sys2Proof.Machine

variable {k : Keep} {s t : State}

/-- The chain that keeps least. -/
def Keep.least : Keep := ⟨false, false, false, false⟩

/-- The chain that keeps all but the requester's choice. -/
def Keep.reactions : Keep := ⟨true, true, true, false⟩

/-! ## Rest -/

theorem State.resting_iff (s : State) : s.Resting ↔
    s.settlingCtx = none ∧ s.notifiedUnit = none ∧ s.servedUnit = none ∧ s.startedRequest = none ∧ s.fedDrive = none
      ∧ s.nextBinding = none ∧ s.unreadCtx = none ∧ s.unreadDrs = none := by
  unfold State.Resting State.reactOnce
  cases s.settlingCtx <;> cases s.notifiedUnit <;> cases s.servedUnit <;> cases s.startedRequest <;> cases s.fedDrive
    <;> cases s.nextBinding <;> cases s.unreadCtx <;> simp

theorem State.Resting.quiesce (h : s.Resting) (fuel : Nat) : State.quiesce fuel s = s := by
  cases fuel with
  | zero => rfl
  | succ n =>
    unfold State.quiesce
    rw [show s.reactOnce = none from h]

/-- The end of a command at rest: the requester and the store choose, and nothing else happens. -/
theorem State.Resting.finish (h : s.Resting) : s.finish = s.chooseBurst.grantStore := by
  unfold State.finish
  rw [h.quiesce]

theorem State.Still.resting (h : s.Still) : s.Resting := by
  have closed : ∀ d, s.ctl.state = .ready → s.openForWork d = false := fun d hc => by
    simp [State.openForWork, h.drives hc d]
  refine (State.resting_iff s).2 ⟨?_, ?_, ?_, ?_, ?_, ?_, ?_, ?_⟩
  · refine (find_fourNumbers_none _).2 fun c => ?_
    simp [h.ctxs c]
  · refine (find_fourNumbers_none _).2 fun u => ?_
    simp [State.waitOver, h.units u]
  · simp [State.servedUnit, h.drs]
  · simp [State.startedRequest, h.vote]
  · refine (find_fourNumbers_none _).2 fun d => ?_
    unfold State.feeds
    by_cases hc : s.ctl.state = .ready
    · simp [closed d hc]
    · simp [hc]
  · unfold State.nextBinding
    have : s.queue.order.find? s.dispatchable = none := by
      refine List.find?_eq_none.2 fun n _ => ?_
      unfold State.dispatchable
      dsimp only
      split
      · simp
      · rename_i a _
        by_cases hc : s.ctl.state = .ready
        · simp [closed a.drive hc]
        · simp [hc]
    rw [this]
    cases s.freeContext <;> rfl
  · unfold State.unreadCtx
    split
    · rfl
    · split
      · rw [if_neg (by simp [h.reading])]
      · rfl
  · unfold State.unreadDrs
    split
    · rfl
    · simp [h.units]

theorem State.Still.finish (h : s.Still) : s.finish = s.chooseBurst.grantStore := h.resting.finish

/-! ## The store's grant at the end of a command -/

section
variable (s : State)

theorem grantStore_same : ∃ x : StoreRec, s.grantStore = { s with store := x }
    ∧ x.mem = s.store.mem ∧ x.flips = s.store.flips := by
  unfold State.grantStore
  split
  · exact ⟨s.store, rfl, rfl, rfl⟩
  · split
    · exact ⟨_, rfl, rfl, rfl⟩
    · split
      · exact ⟨_, rfl, rfl, rfl⟩
      · exact ⟨s.store, rfl, rfl, rfl⟩
end

/-! ## Parts of what is kept -/

theorem Kept.slot (h : Kept k s t) : t.link.slot = s.link.slot := congrArg (fun l => l.slot) h.link
theorem Kept.rstLine (h : Kept k s t) : t.link.rstLine = s.link.rstLine :=
  congrArg (fun l => l.rstLine) h.link
theorem Kept.out (h : Kept k s t) : t.link.out = s.link.out := congrArg (fun l => l.out) h.link
theorem Kept.address (h : Kept k s t) : t.port.address = s.port.address :=
  congrArg (fun l => l.address) h.port
theorem Kept.answer (h : Kept k s t) : t.port.answer = s.port.answer :=
  congrArg (fun l => l.answer) h.port
theorem Kept.settings (h : Kept k s t) : t.port.settings = s.port.settings :=
  congrArg (fun l => l.settings) h.port
theorem Kept.setupFetch (h : Kept k s t) : t.port.setupFetch = s.port.setupFetch :=
  congrArg (fun l => l.setupFetch) h.port
theorem Kept.setupFailed (h : Kept k s t) : t.port.setupFailed = s.port.setupFailed :=
  congrArg (fun l => l.setupFailed) h.port
theorem Kept.clearLine (h : Kept k s t) : t.port.clearLine = s.port.clearLine :=
  congrArg (fun l => l.clearLine) h.port
theorem Kept.fitted (h : Kept k s t) (d : Fin 4) : (t.drives.get d).fitted = (s.drives.get d).fitted :=
  congrArg Prod.fst (h.pins d)
theorem Kept.readyLine (h : Kept k s t) (d : Fin 4) :
    (t.drives.get d).readyLine = (s.drives.get d).readyLine := congrArg (fun x => x.2.1) (h.pins d)
theorem Kept.faultHeld (h : Kept k s t) (d : Fin 4) :
    (t.drives.get d).faultHeld = (s.drives.get d).faultHeld := congrArg (fun x => x.2.2) (h.pins d)
theorem Kept.driveState (h : Kept k s t) (g : k.drives = true) (d : Fin 4) :
    (t.drives.get d).state = (s.drives.get d).state := congrArg Prod.fst (h.drives g d)
theorem Kept.faultKind (h : Kept k s t) (g : k.drives = true) (d : Fin 4) :
    (t.drives.get d).faultKind = (s.drives.get d).faultKind := congrArg (fun x => x.2.1) (h.drives g d)
theorem Kept.discovery (h : Kept k s t) (g : k.drives = true) (d : Fin 4) :
    (t.drives.get d).discovery = (s.drives.get d).discovery := congrArg (fun x => x.2.2.1) (h.drives g d)
theorem Kept.observedSectors (h : Kept k s t) (g : k.drives = true) (d : Fin 4) :
    (t.drives.get d).observedSectors = (s.drives.get d).observedSectors :=
  congrArg (fun x => x.2.2.2) (h.drives g d)

/-- What the end of a command keeps of the state it begins from. -/
theorem State.finish_kept (s : State) : Kept Keep.reactions s s.finish := (Kept.refl _ s).finish rfl

/-! ## A store without bit errors -/

theorem readWords_nil (s : State) (cl : StoreClaimant) : s.readWords cl [] = s := rfl

theorem flippedOf_clean (h : s.store.flips = []) (o : WordOwner) : s.flippedOf o = [] := by
  simp [State.flippedOf, h]

theorem recordBad_clean (h : s.store.flips = []) (o : WordOwner) : s.recordBad o = false := by
  simp [State.recordBad, h]

/-- Words of an owner in a store without bit errors: none is tested. -/
theorem testWords_nil (e : OwnerEffect) (s : State) (cl : StoreClaimant) : s.testWords e cl [] = s := rfl

theorem touchTrack_clean (h : s.store.flips = []) (cl : StoreClaimant) (n : Nat) :
    s.touchTrack cl n = s.askStore cl 1 := by
  simp [State.touchTrack, flippedOf_clean h, testWords_nil]

theorem readAsked_clean (h : s.store.flips = []) (cl : StoreClaimant) (a n : Nat) :
    s.readAsked cl a n = (some (readBytes s.store.mem a n), s) := by
  simp [State.readAsked, State.uncorrectableIn, State.flippedIn, h, readWords_nil]

theorem touchRecord_clean (h : s.store.flips = []) (cl : StoreClaimant) (o : WordOwner) :
    s.touchRecord cl o = s.askStore cl 1 := by
  simp [State.touchRecord, flippedOf_clean h, readWords_nil]

theorem readStore_clean (h : s.store.flips = []) (cl : StoreClaimant) (a n : Nat) :
    s.readStore cl a n
      = (some (readBytes s.store.mem a n), s.askStore cl (burstsFor (((a + n + 7) / 8 - a / 8) * 8))) := by
  simp [State.readStore, readAsked_clean h]

/-- The part with claims on the store waiting: all else is the state it was. -/
def State.asking (s : State) (l : List StoreClaimant) : State :=
  l.foldl (fun s cl => s.askStore cl 1) s

theorem touchAll_clean (h : s.store.flips = []) (os : List WordOwner) :
    os.foldl (fun s o => s.touchRecord .link o) s = s.asking (os.map fun _ => .link) := by
  induction os generalizing s with
  | nil => rfl
  | cons o rest ih =>
    simp only [List.foldl_cons, List.map_cons]
    rw [touchRecord_clean h]
    exact ih h

theorem touchTracks_clean (h : s.store.flips = []) (cl : StoreClaimant) (ns : List Nat) :
    s.touchTracks cl ns = s.asking (ns.map fun _ => cl) := by
  unfold State.touchTracks State.asking
  induction ns generalizing s with
  | nil => rfl
  | cons n rest ih =>
    simp only [List.foldl_cons, List.map_cons]
    rw [touchTrack_clean h]
    exact ih h

theorem touchSweeps_clean (h : s.store.flips = []) (p : Fin 4 → Bool) :
    s.touchSweeps p = s.asking ((fourNumbers.filter p).map fun _ => .table) := by
  unfold State.touchSweeps State.asking
  generalize fourNumbers.filter p = l
  induction l generalizing s with
  | nil => rfl
  | cons d rest ih =>
    simp only [List.foldl_cons, List.map_cons]
    rw [touchRecord_clean h]
    exact ih h

/-- A request whose records have no bit error goes on with its claims counted. -/
theorem withRecords_clean (h : s.store.flips = []) (os : List WordOwner) (f : State → Reply) :
    s.withRecords os f = f (s.asking (os.map fun _ => .link)) := by
  unfold State.withRecords
  have : os.any s.recordBad = false := by
    simp [List.any_eq_false, recordBad_clean h]
  rw [touchAll_clean h]
  simp [this]

theorem asking_store (l : List StoreClaimant) : ∃ a b c, s.asking l
    = { s with store := { s.store with asks := a, selfRefresh := b, timerRunning := c } } := by
  induction l generalizing s with
  | nil => exact ⟨_, _, _, rfl⟩
  | cons cl rest ih =>
    obtain ⟨a, b, c, e⟩ := ih (s := s.askStore cl 1)
    exact ⟨a, b, c, e⟩

end Sys2Proof.Machine
end

