-- ==== Sys2Proof/Laws/Tracks.lean ====
section
/-! SUPPORT. The track table as a function of the slot: what a change of one record does to every slot, in a table in canonical form. -/

set_option Elab.async false

namespace Sys2Proof.Machine

variable {s : State}

theorem assocFind_mem {α : Type} {k : Nat} {v : α} {l : List (Nat × α)} (h : assocFind k l = some v) :
    (k, v) ∈ l := by
  induction l with
  | nil => simp [assocFind] at h
  | cons e rest ih =>
    obtain ⟨j, w⟩ := e
    unfold assocFind at h
    split at h
    · rename_i hj
      simp only [Option.some.injEq] at h
      subst hj h
      exact List.mem_cons_self
    · exact List.mem_cons_of_mem _ (ih h)

theorem assocFind_of_mem {α : Type} {k b : Nat} {v : α} {l : List (Nat × α)} (h : keysRiseFrom b l = true)
    (m : (k, v) ∈ l) : assocFind k l = some v := by
  induction l generalizing b with
  | nil => simp at m
  | cons e rest ih =>
    obtain ⟨j, w⟩ := e
    simp only [keysRiseFrom, Bool.and_eq_true, decide_eq_true_eq] at h
    unfold assocFind
    split
    · rename_i hj
      subst hj
      rcases List.mem_cons.1 m with m | m
      · cases m; rfl
      · have := ih h.2 m
        rw [assocFind_below h.2 (by omega)] at this
        cases this
    · rename_i hj
      rcases List.mem_cons.1 m with m | m
      · cases m; exact absurd rfl hj
      · exact ih h.2 m

/-- A listed record is not FREE. -/
theorem tracksSound_find {l : List (Nat × TrackRec)} {n : Nat} {r : TrackRec} (h : tracksSound l = true)
    (f : assocFind n l = some r) : r.state ≠ .free := by
  simp only [tracksSound, Bool.and_eq_true, List.all_eq_true, decide_eq_true_eq] at h
  exact h.2 _ (assocFind_mem f)

/-- A slot that reads as FREE reads as the FREE record. -/
theorem track_of_free (h : tracksSound s.tracks = true) {n : Nat} (f : (s.track n).state = .free) :
    s.track n = TrackRec.free := by
  unfold State.track at f ⊢
  cases e : assocFind n s.tracks with
  | none => rfl
  | some r =>
    rw [e] at f
    exact absurd f (tracksSound_find h e)

theorem tracksSound_set (h : tracksSound s.tracks = true) (n : Nat) (r : TrackRec) :
    tracksSound (s.setTrack n r).tracks = true := by
  simp only [tracksSound, Bool.and_eq_true, State.setTrack] at h ⊢
  split
  · exact ⟨assocDel_rises _ 0 n h.1, assocDel_all _ n _ h.2⟩
  · rename_i hx
    exact ⟨assocPut_rises _ 0 n r h.1 (Nat.zero_le n), assocPut_all _ n r _ h.2 (by simpa using hx)⟩

/-- Every slot after one is set. -/
theorem track_set (h : tracksSound s.tracks = true) (n k : Nat) (r : TrackRec)
    (f : r.state = .free → r = TrackRec.free) :
    (s.setTrack n r).track k = if k = n then r else s.track k := by
  split
  · rename_i hk
    subst hk
    by_cases hr : r.state = .free
    · simp only [tracksSound, Bool.and_eq_true] at h
      have e := f hr
      subst e
      have d : (s.setTrack k TrackRec.free).tracks = assocDel k s.tracks := by
        simp [State.setTrack, TrackRec.free]
      unfold State.track
      rw [d, assocFind_del_self h.1]
      rfl
    · exact track_setTrack_self s _ _ hr
  · rename_i hk
    exact track_setTrack_ne s r hk

/-- Every slot after one is changed. -/
theorem track_mod (h : tracksSound s.tracks = true) (n k : Nat) (f : TrackRec → TrackRec)
    (g : (f (s.track n)).state = .free → f (s.track n) = TrackRec.free) :
    (s.modTrack n f).track k = if k = n then f (s.track n) else s.track k := track_set h n k _ g

/-- A change that keeps STATE and the FREE record. -/
theorem track_mod_same (h : tracksSound s.tracks = true) (n k : Nat) (f : TrackRec → TrackRec)
    (a : ∀ r, (f r).state = r.state) (b : f TrackRec.free = TrackRec.free) :
    (s.modTrack n f).track k = if k = n then f (s.track n) else s.track k :=
  track_mod h n k f fun x => by rw [a] at x; rw [track_of_free h x, b]

theorem track_queueTail (h : tracksSound s.tracks = true) (n k : Nat) (c : TrackClass) :
    (s.queueTail n c).track k
      = if k = n then { s.track n with state := .queued, cls := some c } else s.track k := by
  show (s.modTrack n fun r => { r with state := .queued, cls := some c }).track k = _
  exact track_mod h n k _ fun x => by cases x

theorem tracksSound_queueTail (h : tracksSound s.tracks = true) (n : Nat) (c : TrackClass) :
    tracksSound (s.queueTail n c).tracks = true :=
  tracksSound_set h n { s.track n with state := .queued, cls := some c }

theorem tracksSound_mod (h : tracksSound s.tracks = true) (n : Nat) (f : TrackRec → TrackRec) :
    tracksSound (s.modTrack n f).tracks = true := tracksSound_set h n _

/-- Every slot after all are changed in the same way. -/
theorem track_map (f : TrackRec → TrackRec) (b : f TrackRec.free = TrackRec.free) (n : Nat) :
    (s.mapTracks f).track n = f (s.track n) := by
  unfold State.track State.mapTracks
  dsimp only
  induction s.tracks with
  | nil => exact b.symm
  | cons e rest ih =>
    obtain ⟨j, w⟩ := e
    simp only [List.map_cons, assocFind]
    split
    · rfl
    · exact ih

/-- A slot is listed exactly when its record is not FREE. -/
theorem mem_tracks (h : tracksSound s.tracks = true) (n : Nat) (r : TrackRec) :
    (n, r) ∈ s.tracks ↔ s.track n = r ∧ r.state ≠ .free := by
  have k := h
  simp only [tracksSound, Bool.and_eq_true] at k
  constructor
  · intro m
    have e := assocFind_of_mem k.1 m
    exact ⟨by unfold State.track; rw [e]; rfl, tracksSound_find h e⟩
  · rintro ⟨e, f⟩
    unfold State.track at e
    cases g : assocFind n s.tracks with
    | none => rw [g] at e; subst e; exact absurd rfl f
    | some x => rw [g] at e; subst e; exact assocFind_mem g

/-- The record that holds an address, found. -/
theorem findTrack_holds (h : tracksSound s.tracks = true) {a : TrackAddr} {n : Nat}
    (f : s.findTrack a = some n) : (s.track n).holds a = true := by
  unfold State.findTrack at f
  cases e : s.tracks.find? (fun e => e.2.holds a) with
  | none => rw [e] at f; cases f
  | some x =>
    rw [e] at f
    simp only [Option.map_some, Option.some.injEq] at f
    subst f
    obtain ⟨j, w⟩ := x
    have m := List.mem_of_find?_eq_some e
    have p := List.find?_some e
    rw [((mem_tracks h j w).1 m).1]
    exact p

/-- No record holds an address when none is found. -/
theorem findTrack_none (h : tracksSound s.tracks = true) {a : TrackAddr} (f : s.findTrack a = none) (n : Nat) :
    (s.track n).holds a = false := by
  unfold State.findTrack at f
  simp only [Option.map_eq_none_iff, List.find?_eq_none] at f
  by_contra x
  have hx : (s.track n).holds a = true := by simpa using x
  have nf : (s.track n).state ≠ .free := by
    simp only [TrackRec.holds, Bool.and_eq_true, decide_eq_true_eq] at hx
    exact hx.1.1
  exact f _ ((mem_tracks h n _).2 ⟨rfl, nf⟩) hx

end Sys2Proof.Machine
end

