-- ==== Sys2Proof/Laws/Requests.lean ====
section
/-! SUPPORT. Archive requests: what a request that is performed answers, what its operand finds, and what reading records of a store without bit errors leaves. -/

set_option Elab.async false

namespace Sys2Proof.Machine

theorem attention_isEmpty_iff (a : Attention) : a.isEmpty = true ↔ a = Attention.empty := by
  rcases a with ⟨⟨a, b, c, d⟩, e, f, g, h, i⟩
  cases a <;> cases b <;> cases c <;> cases d <;> cases e <;> cases f <;> cases g <;> cases h <;> cases i <;>
      decide

/-- A request that is performed: its owner's reply is placed in the response slot (R165, R166). -/
theorem request_next (s : State) (kind tag : Byte) (ls : List Nat) (g : RequestGroup) (p : List Byte)
    (owner : State → Reply) (rest : State → State)
    (h : s.link.rstLine = false) (hl : p.length ∈ ls) (hl2 : p.length ≤ 544)
    (hg : g.refusal s.ctl.state = none) :
    let y := owner (s.requestWindow p)
    s.request kind tag ls g p owner rest = rest (y.after.place kind tag y.result y.payload) := by
  unfold State.request
  rw [if_neg (by simp [h])]
  have : (s.requestWindow p).turnedAway ls g p = none := by
    unfold State.turnedAway
    rw [if_neg (by omega), if_neg (by simp [hl])]; exact hg
  dsimp only
  rw [this]

/-- The same, for a command that is a request. -/
theorem request_performed {c : Instr} {kind tag : Byte} {ls : List Nat} {g : RequestGroup} {p : List Byte}
    {owner : State → Reply} {rest : State → State} {s : State}
    (e : exec c s = .next (s.request kind tag ls g p owner rest)) (y : Reply)
    (hy : owner (s.requestWindow p) = y)
    (h : s.link.rstLine = false) (hl : p.length ∈ ls) (hl2 : p.length ≤ 544)
    (hg : g.refusal s.ctl.state = none) :
    exec c s = .next (rest (y.after.place kind tag y.result y.payload)) := by
  rw [e, request_next s kind tag ls g p owner rest h hl hl2 hg, hy]

theorem ready_performs {s : State} (g : RequestGroup) (h : s.ctl.state = .ready) :
    g.refusal s.ctl.state = none := by
  rw [h]; cases g <;> rfl

theorem notStoreFailed_performs {s : State} (h : s.ctl.state ≠ .storeFailed) :
    RequestGroup.notStoreFailed.refusal s.ctl.state = none := by
  cases e : s.ctl.state <;> first | rfl | exact absurd e h

theorem unitsBusy_iff (s : State) : s.unitsBusy = true ↔
    ((∃ u, (s.units.get u).state ≠ .idle ∧ (s.units.get u).state ≠ .pending) ∨ s.drs.state ≠ .free) := by
  simp only [State.unitsBusy, Bool.or_eq_true, List.any_eq_true, Four.mem_toList, UnitRec.busy,
      Bool.and_eq_true, decide_eq_true_eq]
  constructor
  · rintro (⟨_, ⟨u, rfl⟩, h⟩ | h)
    · exact Or.inl ⟨u, h⟩
    · exact Or.inr h
  · rintro (⟨u, h⟩ | h)
    · exact Or.inl ⟨_, ⟨u, rfl⟩, h⟩
    · exact Or.inr h

theorem fin4_val (d : Fin 4) : fin4? d.val = some d := by unfold fin4?; rw [dif_pos d.isLt]

theorem fin4_none {n : Nat} (h : 3 < n) : fin4? n = none := by unfold fin4?; rw [dif_neg (by omega)]

theorem find_only {s : State} (h : s.Sound) {a : TrackAddr} {n : Nat}
    (x : ∀ k, (s.track k).holds a = true ↔ k = n) : s.findTrack a = some n := by
  cases e : s.findTrack a with
  | none => have := findTrack_none h.tracks e n; rw [(x n).2 rfl] at this; cases this
  | some m => rw [(x m).1 (findTrack_holds h.tracks e)]

theorem find_nobody {s : State} (h : s.Sound) {a : TrackAddr} (x : ∀ k, (s.track k).holds a = false) :
    s.findTrack a = none := by
  cases e : s.findTrack a with
  | none => rfl
  | some m => have := findTrack_holds h.tracks e; rw [x m] at this; cases this

theorem records_clean {s : State} (h : s.store.flips = []) (os : List WordOwner) (f : State → Reply) :
    ∃ x y z, s.withRecords os f =
      f { s with store := { s.store with asks := x, selfRefresh := y, timerRunning := z } } := by
  obtain ⟨x, y, z, e⟩ := asking_store (s := s) (os.map fun _ => StoreClaimant.link)
  exact ⟨x, y, z, by rw [withRecords_clean h, e]⟩

theorem withDrive_some {s : State} {p : List Byte} {d : Fin 4} (h : at1 p 0 = d.val)
    (g : (s.drives.get d).fitted = true) (k : State → Fin 4 → Reply) : s.withDrive p k = k s d := by
  have : s.fittedDrive p = some d := by
    unfold State.fittedDrive
    rw [h, fin4_val]
    simp [Option.filter, State.fitted, g]
  unfold State.withDrive
  rw [this]

theorem withDrive_none {s : State} {p : List Byte}
    (h : ∀ d : Fin 4, at1 p 0 = d.val → (s.drives.get d).fitted = false) (k : State → Fin 4 → Reply) :
    s.withDrive p k = s.reply .range := by
  have : s.fittedDrive p = none := by
    unfold State.fittedDrive
    by_cases x : at1 p 0 < 4
    · have := h ⟨_, x⟩ rfl
      rw [show at1 p 0 = (⟨at1 p 0, x⟩ : Fin 4).val from rfl, fin4_val]
      simp [Option.filter, State.fitted, this]
    · rw [fin4_none (by omega)]; rfl
  unfold State.withDrive
  rw [this]

end Sys2Proof.Machine
end

