-- ==== Sys2Proof/Laws/Claims.lean ====
section
/-! SUPPORT. What an allocation claim, an offer of the Dispatcher and the reads before a START and a vote do in a
store without bit errors (R40, R52, R73), what a context's unbinding and the settling and resolving of a track
leave, and small facts that the reactions are chosen by. -/

set_option Elab.async false

namespace Sys2Proof.Machine

variable {s w : State}

theorem track_congr (h : w.tracks = s.tracks) (k : Nat) : w.track k = s.track k := by unfold State.track; rw [h]

theorem findTrack_congr (h : w.tracks = s.tracks) (a : TrackAddr) : w.findTrack a = s.findTrack a := by
  unfold State.findTrack; rw [h]

/-! ## Allocation claims -/

/-- A claim on an address that no record holds finds nothing and changes nothing. -/
theorem claimTrack_nobody {cl : StoreClaimant} {a : TrackAddr} {o : OriginKind} (hs : s.Sound)
    (ht : w.tracks = s.tracks) (hh : ∀ k, (s.track k).holds a = false) : w.claimTrack cl a o = (none, w) := by
  unfold State.claimTrack
  rw [findTrack_congr ht, find_nobody hs hh]

/-- An allocation whose drive's geometry record has no bit error asks for the store and goes on with that
geometry. -/
theorem allocate_clean {cl : StoreClaimant} {a : TrackAddr} {o : OriginKind} {g : Geometry} (hf : w.store.flips = [])
    (hg : w.geometry.get a.drive = some g) (hc : g.contains a.cyl a.head = true) :
    w.allocate cl a o = match (w.askStore cl 1).claimTrack cl a o with
      | (some n, t) => (.found n, t)
      | (none, t) => t.takeFrame cl a g o t.freeList.length := by
  unfold State.allocate
  rw [touchRecord_clean hf]
  dsimp only
  rw [show (w.askStore cl 1).geometry.get a.drive = some g from hg]
  dsimp only
  rw [hc]
  rfl

/-- An allocation finds the one record that holds its address. -/
theorem allocate_found {cl : StoreClaimant} {a : TrackAddr} {o : OriginKind} {g : Geometry} {n : Nat} (hs : s.Sound)
    (hf : w.store.flips = []) (ht : w.tracks = s.tracks) (hg : w.geometry.get a.drive = some g)
    (hc : g.contains a.cyl a.head = true) (hh : ∀ k, (s.track k).holds a = true ↔ k = n) :
    w.allocate cl a o = (.found n, ((w.askStore cl 1).askStore cl 1).addOrigin n o) := by
  rw [allocate_clean hf hg hc]
  have ht2 : (w.askStore cl 1).tracks = s.tracks := ht
  have hf2 : (w.askStore cl 1).store.flips = [] := hf
  generalize w.askStore cl 1 = v at *
  unfold State.claimTrack
  rw [findTrack_congr ht2, find_only hs hh]
  dsimp only
  rw [touchTrack_clean hf2, if_pos (show ((v.askStore cl 1).track n).holds a = true by
    rw [show (v.askStore cl 1).track n = s.track n from track_congr ht2 n]; exact (hh n).2 rfl)]

/-- An allocation for an address that no record holds takes the slot at the head of the free list. -/
theorem allocate_fresh {cl : StoreClaimant} {a : TrackAddr} {o : OriginKind} {g : Geometry} {n : Nat}
    {rest : List Nat} (hs : s.Sound) (hf : w.store.flips = []) (ht : w.tracks = s.tracks)
    (hg : w.geometry.get a.drive = some g) (hc : g.contains a.cyl a.head = true)
    (hh : ∀ k, (s.track k).holds a = false) (hl : w.freeList = n :: rest) :
    w.allocate cl a o = (.fresh n, (({ (w.askStore cl 1).askStore cl 1 with freeList := rest } : State).setTrack n
      (TrackRec.allocated a g)).addOrigin n o) := by
  rw [allocate_clean hf hg hc]
  have ht2 : (w.askStore cl 1).tracks = s.tracks := ht
  have hf2 : (w.askStore cl 1).store.flips = [] := hf
  have hl2 : (w.askStore cl 1).freeList = n :: rest := hl
  generalize w.askStore cl 1 = v at *
  rw [claimTrack_nobody hs ht2 hh]
  dsimp only
  rw [hl2]
  show v.takeFrame cl a g o (rest.length + 1) = _
  unfold State.takeFrame
  rw [hl2]
  dsimp only
  rw [recordBad_clean hf2, touchTrack_clean hf2]
  rfl

/-- An allocation for an address that no record holds finds an empty pool. -/
theorem allocate_empty {cl : StoreClaimant} {a : TrackAddr} {o : OriginKind} {g : Geometry} (hs : s.Sound)
    (hf : w.store.flips = []) (ht : w.tracks = s.tracks) (hg : w.geometry.get a.drive = some g) (hc : g.contains a.cyl a.head = true)
    (hh : ∀ k, (s.track k).holds a = false) (hl : w.freeList = []) :
    w.allocate cl a o = (.poolEmpty, w.askStore cl 1) := by
  rw [allocate_clean hf hg hc, claimTrack_nobody hs (show (w.askStore cl 1).tracks = s.tracks from ht) hh]
  dsimp only
  rw [show (w.askStore cl 1).freeList = [] from hl]
  rfl

/-! ## The Dispatcher's offers -/

/-- The Dispatcher's reads of a QUEUED entry in a store without bit errors: two bursts asked for, and its address. -/
theorem readEntry_clean {n : Nat} {a : TrackAddr} (hf : s.store.flips = []) (hq : (s.track n).state = .queued)
    (ha : (s.track n).addr = some a) :
    s.readEntry n = (some a, (s.askStore .table 1).askStore .table 1) := by
  unfold State.readEntry
  rw [touchTrack_clean hf]
  dsimp only
  rw [show (s.askStore .table 1).track n = s.track n from rfl, ha]
  dsimp only
  rw [recordBad_clean (s := s.askStore .table 1) hf, touchRecord_clean (s := s.askStore .table 1) hf, hq]
  rfl

/-- A dispatchable entry has an address. -/
theorem dispatchable_addr {n : Nat} (h : s.dispatchable n = true) : ∃ a, (s.track n).addr = some a := by
  cases e : (s.track n).addr with
  | none => simp [State.dispatchable, e] at h
  | some a => exact ⟨a, rfl⟩

/-- A decision may still offer an entry: it is dispatchable, and its drive is not among those bound (R73). -/
theorem offerable_iff {bound : List (Fin 4)} {n : Nat} : s.offerable bound n = true ↔
    s.dispatchable n = true ∧ ∀ a, (s.track n).addr = some a → a.drive ∉ bound := by
  unfold State.offerable
  cases (s.track n).addr <;> simp

/-- A FREE context is offered the first entry that the decision may still offer, and bound to it (R73). -/
theorem offer_first {c : Fin 4} {bound : List (Fin 4)} {n : Nat} {a : TrackAddr}
    (hc : (s.ctxs.get c).state = .free) (h : s.queue.order.find? (s.offerable bound) = some n)
    (hq : (s.track n).state = .queued) (ha : (s.track n).addr = some a) (hf : s.store.flips = []) :
    s.offer bound c = (s.dispatch c n, a.drive :: bound) := by
  unfold State.offer
  rw [if_pos hc]
  obtain ⟨k, hk⟩ : ∃ k, s.queue.order.length = k + 1 :=
    ⟨_, (Nat.succ_pred_eq_of_pos (List.length_pos_of_mem (List.mem_of_find?_eq_some h))).symm⟩
  rw [hk]
  unfold State.offerEntries State.dispatch
  rw [h]
  dsimp only
  rw [readEntry_clean hf hq ha]

/-- An entry that the reads make unfit is passed over, and the walk goes on for the same context (R73). -/
theorem offer_walksOn {c : Fin 4} {bound : List (Fin 4)} {n k : Nat}
    (h : s.queue.order.find? (s.offerable bound) = some n) (he : (s.readEntry n).1 = none) :
    s.offerEntries c bound (k + 1) = (s.dispatch c n).offerEntries c bound k := by
  rw [State.offerEntries, h]
  unfold State.dispatch
  dsimp only
  revert he
  generalize s.readEntry n = y
  rcases y with ⟨_ | a, t⟩ <;> simp

/-- A context that is not FREE, or for which no entry can be offered, is offered nothing (R73). -/
theorem offer_nothing {c : Fin 4} {bound : List (Fin 4)}
    (h : (s.ctxs.get c).state ≠ .free ∨ ∀ n ∈ s.queue.order, s.offerable bound n = false) :
    s.offer bound c = (s, bound) := by
  unfold State.offer
  split
  · rename_i hc
    have hd := h.resolve_left (fun x => x hc)
    cases s.queue.order.length with
    | zero => rfl
    | succ k =>
      unfold State.offerEntries
      rw [List.find?_eq_none.2 fun n hn => by simp [hd n hn]]
  · rfl

/-! ## Reads of a geometry record -/

/-- The read for the first test of START and PROBE, in a store without bit errors: one burst asked for where the
test comes to the geometry, and nothing else. -/
theorem readForTest_clean {u : Fin 4} (hf : s.store.flips = []) :
    s.readForTest u = s.askStore (.unit u) (if s.ctl.state = .ready ∧ s.driveThere u = true then 1 else 0) := by
  unfold State.readForTest
  by_cases h : s.ctl.state = .ready ∧ s.driveThere u = true
  · rw [if_pos (by simpa using h), if_pos h, touchRecord_clean hf]
  · rw [if_neg (by simpa using h), if_neg h]
    simp [State.askStore]

/-- The opening of a granted revolution in a store without bit errors: one burst asked for, and the window of the
first slot opens. -/
theorem openRevolution_clean {g : Grant} (hf : s.store.flips = []) (hg : s.path.grant = some g) :
    s.openRevolution g = { s.askStore .table 1 with
      path := { s.path with grant := some { g with opened := true }, rev := Revolution.start } } := by
  unfold State.openRevolution
  rw [touchRecord_clean hf]
  exact if_pos hg

/-- The read of a discovery's end in a store without bit errors: one burst asked for with a READY outcome. -/
theorem readForOutcome_clean {d : Fin 4} (hf : s.store.flips = []) :
    s.readForOutcome d .ready = s.askStore .table 1 := touchRecord_clean hf _ _

/-- The Vote Unit's read of the geometry record in a store without bit errors. -/
theorem touchSeed_clean {n : Nat} {a : TrackAddr} (hf : s.store.flips = []) (ha : (s.track n).addr = some a) :
    s.touchSeed n = s.askStore .vote 1 := by
  unfold State.touchSeed
  rw [ha]
  exact touchRecord_clean hf _ _

/-! ## Unbinding, settling, resolving -/

theorem abandonPositioning_spec (r : DriveRec) : r.abandonPositioning.drsWaiting = r.drsWaiting
    ∧ r.abandonPositioning.positioning = none ∧ r.abandonPositioning.state = r.state := by
  unfold DriveRec.abandonPositioning
  split
  · rename_i e; exact ⟨rfl, e, rfl⟩
  · split <;> exact ⟨rfl, rfl, rfl⟩

/-- A context that holds its drive, with no direct read waiting for it and the read path free, is unbound: all that
changes (R98). -/
theorem unbind_holding {c : Fin 4} {n : Nat} {a : TrackAddr} (h1 : (s.ctxs.get c).track = some n)
    (h3 : (s.track n).addr = some a) (hc : (s.drives.get a.drive).claim = some (.ctx c))
    (hd : (s.drives.get a.drive).drsWaiting = false) (hg : s.path.grant = none) :
    s.unbind c = { s with
      ctxs := s.ctxs.set c CtxRec.free
      vote := s.vote.withdraw c
      path := { s.path with passedOver := s.path.passedOver.set c 0 }
      tracks := (s.setTrack n { s.track n with context := none }).tracks
      drives := s.drives.set a.drive
        { (s.drives.get a.drive).abandonPositioning with seekRetried := false, claim := none } } := by
  obtain ⟨w, hw⟩ : ∃ w : State, w = { s with
      ctxs := s.ctxs.set c CtxRec.free
      vote := s.vote.withdraw c
      path := { s.path with passedOver := s.path.passedOver.set c 0 }
      tracks := (s.setTrack n { s.track n with context := none }).tracks } := ⟨_, rfl⟩
  have e : s.unbind c = (w.releaseGrant (.ctx c)).ctxGiveUp c a.drive := by
    unfold State.unbind
    rw [h1]
    dsimp only
    have g : ∀ x : Option TrackAddr, x = some a → ∀ y : State, (match x.map (·.drive) with
      | none => y
      | some d => y.ctxGiveUp c d) = y.ctxGiveUp c a.drive := fun x hx y => by rw [hx]; rfl
    rw [hw]
    exact g _ h3 _
  have r : w.releaseGrant (.ctx c) = w := by
    unfold State.releaseGrant
    rw [show w.path.grant = none by rw [hw]; exact hg, if_neg (by simp)]
  rw [e, r]
  unfold State.ctxGiveUp
  rw [show w.drives = s.drives by rw [hw], if_pos hc]
  have q : ((w.modDrive a.drive fun r =>
      { r.abandonPositioning with seekRetried := false, claim := none }).drives.get a.drive).drsWaiting = false := by
    rw [modDrive_drives, Four.get_modify_self, show w.drives = s.drives by rw [hw]]
    show (s.drives.get a.drive).abandonPositioning.drsWaiting = false
    rw [(abandonPositioning_spec _).1, hd]
  unfold State.drsRecheck
  rw [if_neg (by rw [q]; simp)]
  unfold State.modDrive Four.modify
  rw [hw]

/-- A track settles: its STATE, and SETTLED attention when the workstation has named it (R43). -/
theorem settle_eq (s : State) (n : Nat) : s.settle n = { s with
    tracks := (s.modTrack n fun r => { r with state := .settled }).tracks
    link := { s.link with attention := if (s.track n).origins.archive then
        { s.link.attention with settled := true } else s.link.attention } } := by
  have e : (s.modTrack n fun r => { r with state := .settled }).track n
      = { s.track n with state := .settled } := track_modTrack_self _ _ _ (by simp)
  unfold State.settle
  dsimp only
  rw [e]
  dsimp only
  split <;> rfl

/-- A sector of a track that a context is bound to is resolved: its record and image count, and the context's
candidates and want of it go (R44, R48, R49, R97). -/
theorem resolveSector_bound (n k : Nat) (c : Fin 4) (f : SectorRec → SectorRec) (live : (s.track n).state ≠ .free)
    (hc : (s.track n).context = some c) :
    s.resolveSector n k f = { s with
      tracks := (s.setTrack n ((s.track n).setSector k (f ((s.track n).sector k))).imageChanged).tracks
      ctxs := s.ctxs.set c { s.ctxs.get c with
        candidates := (s.ctxs.get c).candidates.set k [], wanted := (s.ctxs.get c).wanted.filter (· ≠ k) } } := by
  unfold State.resolveSector
  dsimp only
  unfold State.discardCandidates
  have : ((s.setTrack n ((s.track n).setSector k (f ((s.track n).sector k))).imageChanged).track n).context
      = some c := by
    rw [track_setTrack_self _ _ _
      (show ((s.track n).setSector k (f ((s.track n).sector k))).imageChanged.state ≠ .free from live)]
    exact hc
  rw [this]
  rfl

/-! ## Choices -/

/-- The search through the four numbers finds the lowest that passes. -/
theorem find_fourNumbers_some {p : Fin 4 → Bool} {c : Fin 4} :
    fourNumbers.find? p = some c ↔ p c = true ∧ ∀ e, e < c → p e = false := by
  have key : ∀ a b d e : Bool, ∀ c : Fin 4,
      (let p : Fin 4 → Bool := fun i => if i = 0 then a else if i = 1 then b else if i = 2 then d else e
       fourNumbers.find? p = some c ↔ p c = true ∧ ∀ e, e < c → p e = false) := by decide
  have hp : p = fun i => if i = 0 then p 0 else if i = 1 then p 1 else if i = 2 then p 2 else p 3 := by
    funext i; fin_cases i <;> rfl
  rw [hp]
  exact key _ _ _ _ c

/-- A drive is open for work when it is READY, with a geometry and no discovery (R72, R75). -/
theorem openForWork_iff (s : State) (d : Fin 4) : s.openForWork d = true ↔
    (s.drives.get d).state = DriveState.ready ∧ (s.drives.get d).discovery = none ∧ s.geometry.get d ≠ none := by
  unfold State.openForWork DriveRec.discovering
  cases (s.drives.get d).discovery <;> cases s.geometry.get d <;> simp

/-- No context is bound to a track of a drive. -/
theorem ctxOn_none_iff (s : State) (d : Fin 4) : s.ctxOn d = none ↔
    ∀ c k, (s.ctxs.get c).track = some k → ((s.track k).addr.map (·.drive)) ≠ some d := by
  unfold State.ctxOn
  rw [find_fourNumbers_none]
  refine forall_congr' fun c => ?_
  unfold State.boundOn
  cases e : (s.ctxs.get c).track with
  | none => simp
  | some k => simp

end Sys2Proof.Machine
end

