-- ==== Sys2Proof/Laws/Endings.lean ====
section
/-! SUPPORT. A unit's transfers: what asking for a burst, storing a status record, ending a list and withdrawing a wait do, and what the end of a burst hands over (R140 to R143, R155, R160). -/

set_option Elab.async false

namespace Sys2Proof.Machine

theorem four_set_self {α} (f : Four α) (i : Fin 4) : f.set i (f.get i) = f := Four.ext_get fun j => by
  rw [Four.get_set]; split
  · rename_i h; rw [h]
  · rfl

/-- Asking for a transfer's next burst, where it stays within the address space (R143). -/
theorem askTransfer_some {s : State} {u : Fin 4} {x : Transfer}
    (h : x.addr + 2 * min s.port.settings.burst ((x.left + 1) / 2) ≤ 0x1000000) :
    s.askTransfer u x = some ((s.modUnit u fun r => { r with transfer := some x }).putBurst u
      { claimant := .unit u
        direction := x.kind.direction
        addr := x.addr
        count := min s.port.settings.burst ((x.left + 1) / 2)
        key := x.key
        words := match x.kind.direction with
          | .store => busWords (x.out.take (2 * min s.port.settings.burst ((x.left + 1) / 2)))
          | .load => [] }) := by
  unfold State.askTransfer Transfer.nextBurst
  dsimp only
  rw [if_neg (by simp only [busTop]; omega)]
  all_goals rfl

theorem askTransfer_none {s : State} {u : Fin 4} {x : Transfer}
    (h : 0x1000000 < x.addr + 2 * min s.port.settings.burst ((x.left + 1) / 2)) :
    s.askTransfer u x = none := by
  unfold State.askTransfer Transfer.nextBurst
  dsimp only
  rw [if_pos (by simp only [busTop]; omega)]

/-- A status store begins: the unit is in ENDING and its 16 bytes are its transfer (R160). -/
theorem storeStatus_eq {s : State} {u : Fin 4} {k : Completion} {cs : List Condition} {a b c : Nat}
    (h : s.port.settings.statusBase ≤ 0xFFFFC0) :
    let out := wordsToBytes (statusWords k cs (s.drives.get u).state a b c)
    let base := s.port.settings.statusBase + 16 * u.val
    s.storeStatus u k cs a b c = { s with
      units := s.units.set u { s.units.get u with
        state := .ending
        conditions := cs
        transfer := some { kind := .statusStore, key := s.port.settings.key.get u, addr := base
                           left := 16, out := out, got := [] } }
      req := { s.req with unitWaiting := s.req.unitWaiting.set u (some
        { claimant := .unit u, direction := .store, addr := base, count := min s.port.settings.burst 8
          key := s.port.settings.key.get u
          words := busWords (out.take (2 * min s.port.settings.burst 8)) }) } } := by
  dsimp only
  unfold State.storeStatus
  dsimp only
  rw [askTransfer_some]
  · simp only [State.modUnit, State.putBurst, Four.modify, Four.get_set_self]
    congr 1
    refine Four.ext_get fun i => ?_
    simp only [Four.get_set]
    split <;> rfl
  · have := u.isLt
    dsimp only
    have : (16 + 1) / 2 = 8 := rfl
    rw [this]
    omega

theorem leaveWritten_none {s : State} {u : Fin 4} (h : (s.units.get u).writeTrack = none) :
    s.leaveWrittenTrack u = s := by
  unfold State.leaveWrittenTrack; rw [h]

/-- A WRITE's track is left, in a store without bit errors: claims on the store, and perhaps an enqueue. -/
theorem leaveWritten_shape {s : State} (hf : s.store.flips = []) (u : Fin 4) : ∃ ts q a b c,
    s.leaveWrittenTrack u = { s with
      tracks := ts
      queue := q
      units := s.units.set u { s.units.get u with writeTrack := none }
      store := { s.store with asks := a, selfRefresh := b, timerRunning := c } } := by
  unfold State.leaveWrittenTrack
  split
  · rename_i h
    refine ⟨s.tracks, s.queue, s.store.asks, s.store.selfRefresh, s.store.timerRunning, ?_⟩
    have : ({ s.units.get u with writeTrack := none } : UnitRec) = s.units.get u := by rw [← h]
    rw [this, four_set_self]
  · dsimp only
    split
    · exact ⟨s.tracks, s.queue, s.store.asks, s.store.selfRefresh, s.store.timerRunning, rfl⟩
    · rw [touchTrack_clean (by exact hf)]
      split
      · unfold State.enqueue State.queueTail
        split
        · exact ⟨_, _, _, _, _, rfl⟩
        · exact ⟨s.tracks, s.queue, _, _, _, rfl⟩
      · exact ⟨s.tracks, s.queue, _, _, _, rfl⟩

/-- A list is closed: what the unit held is gone, and its status store begins (R149, R160). -/
theorem closeList_eq (s : State) (u : Fin 4) (k : Completion) (cs : List Condition) :
    s.closeList u k cs = ({ s with
      units := s.units.set u { s.units.get u with
        order := none, prefetched := .absent, haltTold := false, waitOn := none, patience := none
        guess := false, transfer := none, writeTrack := none, notified := false } } : State).storeStatus u k cs
          (s.units.get u).residual (s.units.get u).orderAddress (s.units.get u).guessed := by
  unfold State.closeList
  simp only [State.modUnit, Four.modify, Four.get_set_self]

/-- A list ends, in a store without bit errors (R149, R160). -/
theorem endList_shape {s : State} (hf : s.store.flips = []) {u : Fin 4} {k : Completion} {cs : List Condition} :
    ∃ ts q a b c, ((s.units.get u).writeTrack = none → ts = s.tracks ∧ q = s.queue ∧ a = s.store.asks
        ∧ b = s.store.selfRefresh ∧ c = s.store.timerRunning) ∧
      s.endList u k cs = ({ s with
        tracks := ts
        queue := q
        store := { s.store with asks := a, selfRefresh := b, timerRunning := c }
        units := s.units.set u { s.units.get u with
          order := none, prefetched := .absent, haltTold := false, waitOn := none, patience := none
          guess := false, transfer := none, writeTrack := none, notified := false } } : State).storeStatus u k cs
            (s.units.get u).residual (s.units.get u).orderAddress (s.units.get u).guessed := by
  obtain ⟨ts, q, a, b, c, e⟩ := leaveWritten_shape hf u
  refine ⟨ts, q, a, b, c, fun w => ?_, ?_⟩
  · have : s.leaveWrittenTrack u = s := leaveWritten_none w
    rw [this] at e
    have es := congrArg State.store e
    exact ⟨(congrArg State.tracks e).symm, (congrArg State.queue e).symm, (congrArg StoreRec.asks es).symm,
      (congrArg StoreRec.selfRefresh es).symm, (congrArg StoreRec.timerRunning es).symm⟩
  · unfold State.endList
    rw [e, closeList_eq]
    simp only [Four.get_set_self]
    congr 2
    refine Four.ext_get fun i => ?_
    simp only [Four.get_set]
    split <;> rfl

/-- What the end of a list keeps, in a store without bit errors. -/
theorem endList_kept {t : State} (hf : t.store.flips = []) {u : Fin 4} {k : Completion} {cs : List Condition}
    (h : t.port.settings.statusBase ≤ 0xFFFFC0) :
    ∃ ts q us rq a b c, t.endList u k cs = { t with
        tracks := ts, queue := q, units := us, req := rq
        store := { t.store with asks := a, selfRefresh := b, timerRunning := c } } ∧
      (us.get u).sense = (t.units.get u).sense ∧ (us.get u).position = (t.units.get u).position ∧
      (us.get u).ordersDone = (t.units.get u).ordersDone ∧
      ((t.units.get u).writeTrack = none → ts = t.tracks ∧ q = t.queue ∧ a = t.store.asks
        ∧ b = t.store.selfRefresh ∧ c = t.store.timerRunning) := by
  obtain ⟨ts, q, a, b, c, w, e⟩ := endList_shape hf (u := u) (k := k) (cs := cs)
  rw [e, storeStatus_eq (by exact h)]
  exact ⟨_, _, _, _, _, _, _, rfl, by simp, by simp, by simp, w⟩

theorem withdrawWait_shape (s : State) (u : Fin 4) : ∃ ts, s.withdrawWait u = { s with tracks := ts } ∧
    ((s.units.get u).waitSlot = none → ts = s.tracks) := by
  unfold State.withdrawWait
  split
  · rename_i n h; exact ⟨_, rfl, fun x => by simp [h] at x⟩
  · exact ⟨_, rfl, fun _ => rfl⟩

theorem withdrawWait_track {s : State} {u : Fin 4} {n : Nat} (h : (s.units.get u).waitSlot = some n)
    (f : (s.track n).state ≠ .free) :
    (s.withdrawWait u).track n = { s.track n with waiters := (s.track n).waiters - 1 } ∧
      ∀ k, k ≠ n → (s.withdrawWait u).track k = s.track k := by
  unfold State.withdrawWait
  rw [h]
  exact ⟨track_modTrack_self _ _ _ f, fun k hk => track_modTrack_ne _ _ hk⟩

/-- The withdrawal of a wait in a store without bit errors: its record read, WAITERS lowered, the wait gone. -/
theorem withdrawingWait_some {s : State} (hf : s.store.flips = []) {u : Fin 4} {n : Nat}
    (h : (s.units.get u).waitSlot = some n) (f : State → State) :
    s.withdrawingWait u f = f (((s.askStore (.unit u) 1).withdrawWait u).modUnit u
      fun r => { r with waitOn := none, notified := false }) := by
  unfold State.withdrawingWait
  rw [h]
  dsimp only
  rw [touchTrack_clean hf, if_pos (by exact h)]

theorem withdrawingWait_none {s : State} {u : Fin 4} (h : (s.units.get u).waitSlot = none) (f : State → State) :
    s.withdrawingWait u f = f s := by
  unfold State.withdrawingWait
  rw [h]

theorem burstEnds_some {s : State} {b : Burst} (h : s.req.current = some b) (o : BurstOutcome)
    (w : List Word16) :
    s.burstEnds o w = (s.freeReq.handBurst b o w).finish := by
  unfold State.burstEnds; rw [h]

theorem busAdvance_inCycle {s : State} {b : Burst} (h : s.req.current = some b) (g : s.req.state = .inCycle)
    (o : MemoryOutcome) (w : List Word16) :
    exec (.busAdvance o w) s = .next (s.freeReq.handBurst b (burstOutcome o) w).finish := by
  show execBusAdvance o w s = _
  unfold execBusAdvance; rw [g]; dsimp only; rw [burstEnds_some h]

theorem advanceTimeout_inCycle {s : State} {b : Burst} (h : s.req.current = some b)
    (g : s.req.state = .inCycle) :
    exec .advanceTimeout s = .next (s.freeReq.handBurst b (.failed .noResponse) []).finish := by
  show execAdvanceTimeout s = _
  unfold execAdvanceTimeout; rw [g]; dsimp only; rw [burstEnds_some h]

theorem grantTimeout_requesting {s : State} {b : Burst} (h : s.req.current = some b)
    (g : s.req.state = .requesting) :
    exec .grantTimeout s = .next (s.freeReq.handBurst b (.failed .noResponse) []).finish := by
  show execGrantTimeout s = _
  unfold execGrantTimeout; rw [if_pos g, burstEnds_some h]

end Sys2Proof.Machine
end

