-- ==== Sys2Proof/Laws/Stays.lean ====
section
/-! SUPPORT. What the whole of a command keeps where it does not change the controller state: the queue of commands, the controller record, the pins, and the invariant of Safety. -/

set_option Elab.async false

namespace Sys2Proof.Machine

/-- The queue, the Controller State, the fitted positions and ready lines are as they were, and the
invariant still holds if it held. -/
structure Stays (s t : State) : Prop where
  pending : t.pending = s.pending
  ctl : t.ctl = s.ctl
  pins : ∀ d, (t.drives.get d).pins = (s.drives.get d).pins
  sound : s.Sound → t.Sound

theorem Kept.stays {k : Keep} {s t : State} (h : Kept k s t) : Stays s t :=
  ⟨h.pending, h.ctl, h.pins, h.sound⟩

theorem Stays.refl (s : State) : Stays s s := (Kept.refl Keep.least s).stays

theorem Stays.trans {s t r : State} (h : Stays s t) (g : Stays t r) : Stays s r :=
  ⟨g.pending.trans h.pending, g.ctl.trans h.ctl, fun d => (g.pins d).trans (h.pins d), g.sound ∘ h.sound⟩

/-- A chain of inner operations at the end. -/
theorem Stays.kept {s t r : State} (h : Stays s t) (g : Kept Keep.least t t → Kept Keep.least t r) : Stays s r :=
  h.trans (g (Kept.refl _ t)).stays

theorem Stays.finish {s t : State} (h : Stays s t) : Stays s t.finish := h.trans t.finish_kept.stays

/-- The link changed. -/
theorem Stays.setLink {s t : State} (h : Stays s t) (l : LinkRec) : Stays s { t with link := l } :=
  ⟨h.pending, h.ctl, h.pins, fun x => { h.sound x with }⟩

/-- The System Port changed, its settings still in their ranges. -/
theorem Stays.setPort {s t : State} (h : Stays s t) (p : SysPort)
    (g : t.port.settings.sound = true → p.settings.sound = true) : Stays s { t with port := p } :=
  ⟨h.pending, h.ctl, h.pins, fun x => { h.sound x with settings := g (h.sound x).settings }⟩

theorem Stays.setReq {s t : State} (h : Stays s t) (q : Requester) : Stays s { t with req := q } :=
  ⟨h.pending, h.ctl, h.pins, fun x => { h.sound x with }⟩

theorem Stays.setUnits {s t : State} (h : Stays s t) (q : Four UnitRec) : Stays s { t with units := q } :=
  ⟨h.pending, h.ctl, h.pins, fun x => { h.sound x with }⟩

theorem Stays.setDrs {s t : State} (h : Stays s t) (q : DrsRec) : Stays s { t with drs := q } :=
  ⟨h.pending, h.ctl, h.pins, fun x => { h.sound x with }⟩

theorem Stays.setLocks {s t : State} (h : Stays s t) (q : Four (Option Nat)) : Stays s { t with locks := q } :=
  ⟨h.pending, h.ctl, h.pins, fun x => { h.sound x with }⟩

theorem Stays.setStore {s t : State} (h : Stays s t) (q : StoreRec)
    (g : t.store.sound = true → q.sound = true) : Stays s { t with store := q } :=
  ⟨h.pending, h.ctl, h.pins, fun x => { h.sound x with store := g (h.sound x).store }⟩

/-! ## Requests -/

theorem Stays.place {s t : State} (h : Stays s t) (kind tag : Byte) (r : Result) (p : List Byte) :
    Stays s (t.place kind tag r p) := h.setLink _

/-- What a request keeps, if what its owning rule does keeps it. -/
theorem Stays.request (s : State) (kind tag : Byte) (ls : List Nat) (g : RequestGroup) (p : List Byte)
    (owner : State → Reply) (rest : State → State) (h : ∀ t, Stays t (owner t).after)
    (f : rest = id ∨ rest = State.finish) : Stays s (s.request kind tag ls g p owner rest) := by
  unfold State.request
  split
  · exact Stays.refl s
  · have a : Stays s (s.requestWindow p) := (Stays.refl s).setLink _
    dsimp only
    split
    · exact a.place _ _ _ _
    · have b := (a.trans (h _)).place kind tag (owner (s.requestWindow p)).result
        (owner (s.requestWindow p)).payload
      rcases f with f | f <;> subst f
      · exact b
      · exact b.finish

theorem Stays.touchAll {s t : State} (h : Stays s t) (os : List WordOwner) :
    Stays s (os.foldl (fun s o => s.touchRecord .link o) t) := by
  induction os generalizing t with
  | nil => exact h
  | cons o rest ih => exact ih (h.kept fun x => x.touchRecord .link o)

theorem Stays.withRecords (s : State) (os : List WordOwner) (f : State → Reply)
    (h : ∀ t, Stays t (f t).after) : Stays s (s.withRecords os f).after := by
  unfold State.withRecords
  dsimp only
  split
  · exact (Stays.refl s).touchAll os
  · exact ((Stays.refl s).touchAll os).trans (h _)

theorem Stays.withDrive (s : State) (p : List Byte) (f : State → Fin 4 → Reply)
    (h : ∀ t d, Stays t (f t d).after) : Stays s (s.withDrive p f).after := by
  unfold State.withDrive
  split
  · exact Stays.refl s
  · exact h _ _

theorem Stays.withTrack (s : State) (p : List Byte) (f : State → Nat → Reply)
    (h : ∀ t n, Stays t (f t n).after) : Stays s (s.withTrack p f).after := by
  unfold State.withTrack
  refine Stays.withRecords s _ _ fun t => ?_
  split
  · exact Stays.refl t
  · exact h _ _

theorem Stays.attention (s : State) : Stays s s.reportAttention.after := by
  unfold State.reportAttention
  dsimp only [State.replyWith]
  split
  · exact ((Stays.refl s).setLink _).touchAll _
  · exact (Stays.refl s).setLink _

theorem limitsInRange_iff (p : List Byte) : limitsInRange p = true ↔
    at1 p 0 ≤ 64 ∧ (1 ≤ at1 p 1 ∧ at1 p 1 ≤ 16) ∧ (1 ≤ at1 p 2 ∧ at1 p 2 ≤ 8) ∧ (1 ≤ at1 p 3 ∧ at1 p 3 ≤ 8)
      ∧ (1 ≤ at1 p 4 ∧ at1 p 4 ≤ 8) ∧ (1 ≤ at1 p 5 ∧ at1 p 5 ≤ 8) ∧ at1 p 6 ≤ 60 := by
  simp only [limitsInRange, List.all_cons, List.all_nil, Bool.and_eq_true, decide_eq_true_eq, Bool.and_true]
  tauto

theorem Stays.installLimits (s : State) (p : List Byte) (g : limitsInRange p = true) :
    Stays s (s.installLimits p) := by
  obtain ⟨a, b, c2, c3, c4, c5, e⟩ := (limitsInRange_iff p).1 g
  refine ⟨rfl, rfl, fun _ => rfl, fun x => ?_⟩
  have st : (s.installLimits p).store.sound = true := by
    have y := x.store
    simp only [StoreRec.sound, Bool.and_eq_true, decide_eq_true_eq] at y ⊢
    exact ⟨y.1, e⟩
  have dp : ∀ d, 1 ≤ ((s.installLimits p).sweeps.get d).depth ∧ ((s.installLimits p).sweeps.get d).depth ≤ 8 := by
    intro d
    fin_cases d
    · exact c2
    · exact c3
    · exact c4
    · exact c5
  exact { x with uncertainty := a, starvation := b, depth := dp, store := st }

theorem Stays.setLimits (s : State) (p : List Byte) : Stays s (s.setLimits p).after := by
  unfold State.setLimits
  split
  · exact Stays.refl s
  · rename_i h
    refine Stays.withRecords s _ _ fun t => Stays.installLimits t p (by simpa using h)

theorem Stays.reportStore (s : State) (p : List Byte) : Stays s (s.reportStore p).after := by
  unfold State.reportStore
  dsimp only [State.replyWith]
  split
  · exact (Stays.refl s).setStore _ fun x => by
      simp only [StoreRec.sound, Bool.and_eq_true, decide_eq_true_eq] at x ⊢
      exact ⟨⟨⟨x.1.1.1, Nat.zero_le _⟩, Nat.zero_le _⟩, x.2⟩
  · exact Stays.refl s

/-! ## Drives -/

theorem Stays.writeGeometry (s : State) (d : Fin 4) (g : Option Geometry) (h : geometrySound g = true) :
    Stays s (s.writeGeometry d g) := by
  have a : Stays s (s.setGeometry d g) := by
    refine ⟨rfl, rfl, fun _ => rfl, fun x => ?_⟩
    have y : ∀ e, geometrySound ((s.setGeometry d g).geometry.get e) = true := by
      intro e
      rw [show (s.setGeometry d g).geometry = s.geometry.set d g from rfl, Four.get_set]
      split
      · exact h
      · exact x.geometry e
    exact { x with geometry := y }
  exact a.kept fun x => ((x.clearFlips _).askStore _ _).modSweep d _

theorem Stays.acceptDefine (s : State) (d : Fin 4) (p : List Byte)
    (h : undefineForm p = true ∨ (parseGeometry p).valid = true) : Stays s (s.acceptDefine d p).after := by
  unfold State.acceptDefine
  refine Stays.withRecords s _ _ fun t => ?_
  split
  · exact (Stays.writeGeometry t d none rfl).kept fun x => x.modDrive d _ (fun _ => rfl) (by intro h; cases h)
  · rename_i hu
    have hv : (parseGeometry p).valid = true := h.resolve_left hu
    refine (Stays.writeGeometry t d (some (parseGeometry p)) (by simpa [geometrySound] using hv)).kept fun x => ?_
    unfold State.rediscover
    split
    · exact x.startDiscovery rfl (by intro h; cases h) _
    · exact x.startDiscovery rfl (by intro h; cases h) _
    · exact x.startDiscovery rfl (by intro h; cases h) _
    · split
      · exact x.modDrive d _ (fun _ => rfl) (by intro h; cases h)
      · exact x
    · exact x

theorem Stays.defineDrive (s : State) (p : List Byte) : Stays s (s.defineDrive p).after := by
  refine Stays.withDrive s p _ fun t d => ?_
  split
  · exact Stays.refl t
  · rename_i h
    split
    · exact Stays.refl t
    · refine Stays.acceptDefine t d p ?_
      by_cases hu : undefineForm p = true
      · exact Or.inl hu
      · exact Or.inr (by simpa [hu] using h)

theorem Kept.withdrawWaiter {k : Keep} {s t : State} (h : Kept k s t) (d : Fin 4)
    (g : k.units = true → ¬ s.Apart d) : Kept k s (t.withdrawWaiter d) := by
  unfold State.withdrawWaiter
  split
  · exact h.withdrawingWait g _ fun _ x => x.endCheck g _ _
  · exact h

theorem Kept.withdrawContext {k : Keep} {s t : State} (h : Kept k s t) (d : Fin 4) :
    Kept k s (t.withdrawContext d) := by
  unfold State.withdrawContext
  split
  · exact h
  · split
    · exact h
    · exact (h.unbind _).modTrack _ _

theorem Kept.dequeueDrive {k : Keep} {s t : State} (h : Kept k s t) (d : Fin 4) :
    Kept k s (t.dequeueDrive d) := by
  refine Kept.setQueue (h.mapTracks _ fun x hx => ?_) _
  split
  · simp [TrackRec.madePending]
  · exact hx

theorem Kept.dropGrantIf {k : Keep} {s t : State} (h : Kept k s t) (p : Prop) [Decidable p] :
    Kept k s (if p then t.dropGrant else t) := by
  split
  · exact h.dropGrant
  · exact h

theorem Kept.failReadIf {k : Keep} {s t : State} (h : Kept k s t) (p : Prop) [Decidable p] :
    Kept k s (if p then t.failRead else t) := by
  split
  · exact h.failRead
  · exact h

theorem Kept.withdraw {k : Keep} {s t : State} (h : Kept k s t) (a : k.drives = false) (d : Fin 4)
    (g : k.units = true → ¬ s.Apart d) : Kept k s (t.withdraw d) :=
  ((((((((h.modDrive d DriveRec.withdrawn (fun _ => rfl) (fun x => by simp [a] at x)).dropGrantIf _).failReadIf
    _).withdrawContext d).dequeueDrive d).attnDrive d).withdrawWaiter d g).offerStatus g).grantPath

theorem Stays.withdraw (s : State) (d : Fin 4) : Stays s (s.withdraw d) :=
  ((Kept.refl Keep.least s).withdraw rfl d (by intro x; cases x)).stays

theorem Stays.withdrawDrive (s : State) (p : List Byte) : Stays s (s.withdrawDrive p).after := by
  refine Stays.withDrive s p _ fun t d => ?_
  split
  · exact Stays.refl t
  · exact Stays.withRecords t _ _ fun r => Stays.withdraw r d

theorem Stays.restoreTracks (s : State) (d : Fin 4) : Stays s (s.restoreTracks d) := by
  unfold State.restoreTracks
  have : ∀ (l : List Nat) (t : State), Kept Keep.least s t →
      Kept Keep.least s (l.foldl (fun s n => s.enqueue n (s.track n).restoredClass) t) := by
    intro l
    induction l with
    | nil => exact fun _ h => h
    | cons n rest ih => exact fun t h => ih _ (h.enqueue n _)
  exact (this _ s (Kept.refl _ s)).stays

theorem Stays.restoreDrive (s : State) (p : List Byte) : Stays s (s.restoreDrive p).after := by
  refine Stays.withDrive s p _ fun t d => ?_
  split
  · exact Stays.withRecords t _ _ fun r =>
      ((Kept.refl Keep.least r).startDiscovery rfl (by intro x; cases x) false).stays.trans
        (Stays.restoreTracks _ d)
  · exact Stays.refl t

theorem Stays.clearDriveFault (s : State) (p : List Byte) : Stays s (s.clearDriveFault p).after := by
  refine Stays.withDrive s p _ fun t d => ?_
  have h := Kept.refl Keep.least t
  have n : Keep.least.units = true → ¬ t.Apart d := by intro x; cases x
  dsimp only
  split
  · exact Stays.refl t
  · split
    · refine Kept.stays (k := Keep.least) (Kept.startDiscovery ?_ rfl n true)
      exact Kept.modDrive h d _
    · unfold State.clearFaultLow
      split
      · exact Kept.stays (k := Keep.least) (Kept.modDrive h d _ (fun _ => rfl) (by intro x; cases x))
      · refine Kept.stays (k := Keep.least) (Kept.reportIfChanged ?_ n _)
        exact Kept.modDrive h d _ (fun _ => rfl) (by intro x; cases x)

theorem Stays.reportDriveState (s : State) (p : List Byte) : Stays s (s.reportDriveState p).after := by
  unfold State.reportDriveState
  split
  · exact Stays.refl s
  · exact Stays.withRecords s _ _ fun t => Stays.refl t

/-! ## Tracks -/

theorem Stays.reportTrack (s : State) (p : List Byte) : Stays s (s.reportTrack p).after :=
  Stays.withTrack s p _ fun t _ => Stays.refl t

theorem Stays.touchTracks (s : State) (cl : StoreClaimant) (ns : List Nat) : Stays s (s.touchTracks cl ns) :=
  ((Kept.refl Keep.least s).touchTracks cl ns).stays

theorem Stays.listTracks (s : State) (p : List Byte) : Stays s (s.listTracks p).after := by
  unfold State.listTracks
  dsimp only
  split
  · exact Stays.refl s
  · split
    · exact Stays.touchTracks s _ _
    · exact Stays.touchTracks s _ _

theorem Stays.pullFrame (s : State) (n k : Nat) : Stays s (s.pullFrame n k).after := by
  have h := ((Kept.refl Keep.least s).readFrame .link n k).stays
  unfold State.pullFrame
  split <;> rename_i e <;> rw [e] at h <;> exact h

theorem Stays.pullImage (s : State) (n k : Nat) : Stays s (s.pullImage n k).after := by
  unfold State.pullImage
  dsimp only
  split
  all_goals first
    | exact Stays.pullFrame s n k
    | exact Stays.refl s
    | (split
       · exact Stays.refl s
       · exact Stays.pullFrame s n k)

theorem Stays.pullCandidate (s : State) (n k j : Nat) : Stays s (s.pullCandidate n k j).after := by
  unfold State.pullCandidate
  split
  · exact Stays.refl s
  · rename_i c p _
    have h := ((Kept.refl Keep.least s).readStore .link (s.entryAddr c p (s.track n).sectorBytes k)
      ((s.track n).sectorBytes + 2)).stays
    dsimp only
    split <;> rename_i e <;> rw [e] at h <;> exact h

theorem Stays.pull (s : State) (p : List Byte) : Stays s (s.pull p).after := by
  refine Stays.withTrack s p _ fun t n => ?_
  dsimp only
  split
  · exact Stays.refl t
  · split
    · exact Stays.refl t
    · split
      · exact Stays.pullImage t _ _
      · exact Stays.pullCandidate t _ _ _

theorem Stays.pushSector (s : State) (p : List Byte) : Stays s (s.pushSector p).after := by
  refine Stays.withTrack s p _ fun t n => ?_
  dsimp only
  repeat' split
  all_goals first
    | exact Stays.refl t
    | exact ((((Kept.refl Keep.least t).writeFrame _ _ _ _).resolveSector _ _ _).settleIfResolved _ _).stays

theorem Stays.lockTrack (s : State) (p : List Byte) : Stays s (s.lockTrack p).after := by
  refine Stays.withTrack s p _ fun t n => ?_
  dsimp only
  repeat' split
  all_goals first
    | exact Stays.refl t
    | exact ((Kept.refl Keep.least t).modTrack n _).stays.setLocks _

theorem Stays.unlockTrack (s : State) (p : List Byte) : Stays s (s.unlockTrack p).after := by
  refine Stays.withTrack s p _ fun t n => ?_
  split
  · exact Stays.refl t
  · exact ((Kept.refl Keep.least t).releaseLock n (by intro x; cases x)).stays

theorem Stays.markExported (s : State) (p : List Byte) : Stays s (s.markExported p).after := by
  refine Stays.withTrack s p _ fun t n => ?_
  dsimp only
  repeat' split
  all_goals first
    | exact Stays.refl t
    | exact ((Kept.refl Keep.least t).modTrack n (fun r => { r with exported := true })).stays

theorem Stays.releaseTrack (s : State) (p : List Byte) : Stays s (s.releaseTrack p).after := by
  refine Stays.withTrack s p _ fun t n => ?_
  dsimp only
  repeat' split
  all_goals first
    | exact Stays.refl t
    | exact ((((Kept.refl Keep.least t).leaveQueue n).setTrack n _).setFreeList _).resumeSweeps.stays

/-! ## Queue, sweeps and ladder -/

theorem Stays.queueFound (s : State) (n : Nat) : Stays s (s.queueFound n).after := by
  have h := Kept.refl Keep.least s
  unfold State.queueFound
  dsimp only
  repeat' split
  all_goals first
    | exact Stays.refl s
    | exact (h.enqueue n _).stays
    | exact (h.promote n _).stays

theorem Stays.either {s : State} (p : Prop) [Decidable p] {a b : Reply} (h : Stays s a.after)
    (g : Stays s b.after) : Stays s (if p then a else b).after := by
  split
  · exact h
  · exact g

theorem Stays.queueAddress (s : State) (a : TrackAddr) : Stays s (s.queueAddress a).after := by
  have h := ((Kept.refl Keep.least s).allocate .link a .archive)
  unfold State.queueAddress
  refine Stays.either _ (Stays.refl s) ?_
  split <;> rename_i e <;> rw [e] at h
  · exact (h.enqueue _ _).stays
  · exact h.stays.trans (Stays.queueFound _ _)
  · exact h.stays
  · exact h.stays

theorem Stays.queueTrack (s : State) (p : List Byte) : Stays s (s.queueTrack p).after := by
  refine Stays.withDrive s p _ fun t d => Stays.withRecords t _ _ fun r => ?_
  split
  · exact Stays.refl r
  · split
    · exact Stays.refl r
    · exact Stays.queueAddress r _

theorem Stays.retryTrack (s : State) (p : List Byte) : Stays s (s.retryTrack p).after := by
  refine Stays.withTrack s p _ fun t n => ?_
  dsimp only
  repeat' split
  all_goals first
    | exact Stays.refl t
    | exact (((Kept.refl Keep.least t).setTrack n _).queueTail n _).stays

theorem Stays.startSweep (s : State) (p : List Byte) : Stays s (s.startSweep p).after := by
  refine Stays.withDrive s p _ fun t d => Stays.withRecords t _ _ fun r => ?_
  dsimp only
  repeat' split
  all_goals first
    | exact Stays.refl r
    | exact ((Kept.refl Keep.least r).modSweep d _).stays

theorem Stays.stopSweep (s : State) (p : List Byte) : Stays s (s.stopSweep p).after :=
  Stays.withDrive s p _ fun _ d => Stays.withRecords _ _ _ fun r => ((Kept.refl Keep.least r).modSweep d _).stays

theorem parseStep_revs {p : List Byte} {i : Nat} {x : LadderStep} (h : parseStep p i = some x) :
    1 ≤ x.revs ∧ x.revs ≤ 15 := by
  unfold parseStep at h
  split at h
  · split at h
    · rename_i g
      simp only [Bool.and_eq_true, decide_eq_true_eq] at g
      simp only [Option.some.injEq] at h
      subst h
      exact g
    · simp at h
  · simp at h

theorem parseSteps_sound {p : List Byte} {i n : Nat} {l : List LadderStep} (h : parseSteps p i n = some l) :
    l.length = n ∧ l.all (fun st => 1 ≤ st.revs && st.revs ≤ 15) = true := by
  induction n generalizing i l with
  | zero => simp [parseSteps] at h; subst h; simp
  | succ n ih =>
    unfold parseSteps at h
    split at h
    · rename_i st rest a b
      simp only [Option.some.injEq] at h
      subst h
      have := ih b
      have g := parseStep_revs a
      simp only [List.length_cons, this.1, List.all_cons, this.2, g.1, g.2, decide_true, Bool.and_self, and_self]
    · simp at h

theorem parseLadder_sound {p : List Byte} {l : List LadderStep} (h : parseLadder p = some l) :
    ladderSound l = true := by
  unfold parseLadder at h
  dsimp only at h
  split at h
  · rename_i g
    have := parseSteps_sound h
    simp only [Bool.and_eq_true, decide_eq_true_eq] at g
    simp [ladderSound, this.1, g.1.1, g.1.2]
    simpa using this.2
  · simp at h

theorem Stays.setLadder (s : State) (p : List Byte) : Stays s (s.setLadder p).after := by
  unfold State.setLadder
  split
  · exact Stays.refl s
  · rename_i l h
    exact ⟨rfl, rfl, fun _ => rfl, fun x => { x with ladder := parseLadder_sound h }⟩

end Sys2Proof.Machine
end

