-- ==== Sys2Proof/Laws/Moves.lean ====
section
/-! SUPPORT. What every command keeps, the ones that change the controller state among them, command by command. -/

set_option Elab.async false

namespace Sys2Proof.Machine

/-- The queue, the straps and the pins are as they were, and the invariant still holds if it held. -/
structure Moves (s t : State) : Prop where
  pending : t.pending = s.pending
  straps : t.ctl.straps = s.ctl.straps
  pins : ∀ d, (t.drives.get d).pins = (s.drives.get d).pins
  sound : s.Sound → t.Sound

theorem Stays.moves {s t : State} (h : Stays s t) : Moves s t :=
  ⟨h.pending, congrArg CtlRec.straps h.ctl, h.pins, h.sound⟩

theorem Moves.trans {s t r : State} (h : Moves s t) (g : Moves t r) : Moves s r :=
  ⟨g.pending.trans h.pending, g.straps.trans h.straps, fun d => (g.pins d).trans (h.pins d), g.sound ∘ h.sound⟩

theorem Moves.refl (s : State) : Moves s s := (Stays.refl s).moves

theorem Moves.finish {s t : State} (h : Moves s t) : Moves s t.finish := h.trans t.finish_kept.stays.moves

/-- The controller record changed, its straps kept. -/
theorem Moves.setCtl {s t : State} (h : Moves s t) (c : CtlRec) (g : c.straps = t.ctl.straps) :
    Moves s { t with ctl := c } :=
  ⟨h.pending, g.trans h.straps, h.pins, fun x =>
    { h.sound x with fitted := fun d =>
        ((h.sound x).fitted d).trans (congrArg (fun y : Straps => decide (d.val < y.drives)) g.symm) }⟩

theorem Moves.stateChange {s t : State} (h : Moves s t) : Moves s t.stateChange :=
  h.trans ((Stays.refl t).setPort { t.port with stateChange := true } id).moves

theorem Moves.setLink {s t : State} (h : Moves s t) (l : LinkRec) : Moves s { t with link := l } :=
  h.trans ((Stays.refl t).setLink l).moves

theorem Moves.setStore {s t : State} (h : Moves s t) (q : StoreRec)
    (g : t.store.sound = true → q.sound = true) : Moves s { t with store := q } :=
  h.trans ((Stays.refl t).setStore q g).moves

/-- What a request keeps, if what its owning rule does keeps it. -/
theorem Moves.request (s : State) (kind tag : Byte) (ls : List Nat) (g : RequestGroup) (p : List Byte)
    (owner : State → Reply) (h : ∀ t, Moves t (owner t).after) :
    Moves s (s.request kind tag ls g p owner State.finish) := by
  unfold State.request
  split
  · exact Moves.refl s
  · have a : Moves s (s.requestWindow p) := (Moves.refl s).setLink _
    dsimp only
    split
    · exact a.setLink _
    · exact ((a.trans (h _)).setLink _).finish

/-! ## Start-up -/

theorem Moves.endStoreCheck (s : State) (o : StoreCheck × Nat) : Moves s (s.endStoreCheck o) := by
  have a : Moves s { s with store := { s.store with flips := [] } } :=
    (Moves.refl s).setStore _ fun x => by
      rw [StoreRec.sound_iff] at x ⊢
      exact ⟨x.1, rfl, x.2.2⟩
  unfold State.endStoreCheck
  dsimp only
  split
  · refine Moves.stateChange (Moves.setCtl a _ ?_)
    rfl
  · refine Moves.setCtl a _ ?_
    rfl

theorem profileGeometry_sound (p : Fin 8) : geometrySound (profileGeometry p) = true := by
  fin_cases p <;> decide

theorem Moves.format (s : State) : Moves s s.format := by
  refine ⟨rfl, rfl, fun _ => rfl, fun x => ?_⟩
  refine { x with store := ?_, tracks := rfl, geometry := fun d => ?_, depth := fun d => ?_ }
  · have := x.store
    rw [StoreRec.sound_iff] at this ⊢
    exact ⟨this.1, keysRiseFrom_filter _ _ _ this.2.1, this.2.2⟩
  · simp only [State.format, Four.get_ofFn]
    split
    · exact profileGeometry_sound _
    · rfl
  · simp only [State.format, Four.get_all]
    decide

theorem Moves.discoverAll (s : State) (f : DriveRec → Bool) : Moves s (s.discoverAll f) :=
  ((Kept.refl Keep.least s).discoverAll rfl rfl f).stays.moves

theorem Moves.beginDiscoveryPhase {s t : State} (h : Moves s t) (f : DriveRec → Bool) :
    Moves s (t.beginDiscoveryPhase f) :=
  (h.setCtl { t.ctl with phase := some .discovery } rfl).trans (Moves.discoverAll _ f)

theorem Moves.becomeReady (s : State) : Moves s s.becomeReady :=
  ((Moves.refl s).setCtl { s.ctl with state := .ready, phase := none } rfl).stateChange.trans (Kept.refl Keep.least _).resumeSweeps.stays.moves

theorem Kept.rescanTrack {k : Keep} {s t : State} (h : Kept k s t) (g : k.clean = false) (l : List Nat)
    (n : Nat) : Kept k s (State.rescanTrack l t n) := by
  unfold State.rescanTrack
  have a := h.readWords .table (t.flippedOf (.trackRecord n))
  dsimp only
  repeat' split
  all_goals first
    | exact a
    | exact a.breakTrack n _ (by intro x; simp [g] at x)
    | exact a.modTrack n _

theorem Kept.foldTracks {k : Keep} {s t : State} (h : Kept k s t) (g : k.clean = false) (l ns : List Nat) :
    Kept k s (ns.foldl (State.rescanTrack l) t) := by
  induction ns generalizing t with
  | nil => exact h
  | cons n rest ih => exact ih (h.rescanTrack g l n)

theorem Kept.rescanUpper {k : Keep} {s t : State} (h : Kept k s t) : Kept k s t.rescanUpper := by
  unfold State.rescanUpper
  have : ∀ (l : List (Fin 4)) (t : State), Kept k s t → Kept k s (l.foldl
      (fun s d =>
        let s := s.readWords .table (s.flippedOf (.geometry d))
        s.readWords .table (s.flippedOf (.sweepRecord d))) t) := by
    intro l
    induction l with
    | nil => exact fun _ h => h
    | cons d rest ih => exact fun t h => ih _ ((h.readWords _ _).readWords _ _)
  exact this _ t h

theorem Kept.rebuildLists {k : Keep} {s t : State} (h : Kept k s t) : Kept k s t.rebuildLists :=
  h.inner rfl rfl rfl rfl rfl rfl rfl rfl rfl rfl rfl rfl rfl rfl rfl

theorem Moves.rescan (s : State) (l : List Nat) : Moves s (s.rescan l) := by
  have h := ((Kept.refl Keep.least s).foldTracks rfl l (List.range s.usable)).rescanUpper.rebuildLists
  exact h.stays.moves

theorem Moves.enterHold (s : State) : Moves s s.enterHold :=
  ((Moves.refl s).setCtl { s.ctl with state := .hold } rfl).stateChange.finish

/-! ## Requests on the controller state -/

theorem Kept.drain {k : Keep} {s t : State} (h : Kept k s t) (l : List (Fin 4)) :
    Kept k s (l.foldl (fun s c => if (s.ctxs.get c).drainsAtOnce then s.returnRead c else s) t) := by
  induction l generalizing t with
  | nil => exact h
  | cons c rest ih =>
    refine ih ?_
    dsimp only
    split
    · exact h.returnRead c
    · exact h

theorem Moves.beginDraining (s : State) : Moves s s.beginDraining :=
  ((Moves.refl s).setCtl { s.ctl with state := .draining } rfl).trans ((Kept.refl Keep.least _).drain _).stays.moves

theorem Moves.holdEnter (s : State) : Moves s s.holdEnter.after := by
  unfold State.holdEnter
  split
  · exact Moves.refl s
  · exact Moves.beginDraining s

theorem Moves.beginResuming (s : State) : Moves s s.beginResuming := by
  have a := (Moves.refl s).setCtl { s.ctl with state := .resuming } rfl
  exact (a.setStore s.store.leaveSelfRefresh id).trans (Moves.discoverAll _ _)

theorem Moves.holdExit (s : State) : Moves s s.holdExit.after := by
  unfold State.holdExit
  split
  all_goals first
    | exact Moves.becomeReady s
    | exact Moves.beginResuming s
    | exact Moves.refl s

theorem Kept.requeueContext {k : Keep} {s t : State} (h : Kept k s t) (c : Fin 4) :
    Kept k s (t.requeueContext c) := by
  unfold State.requeueContext
  split
  · exact h
  · dsimp only
    split
    · exact ((h.touchTrack _ _).modTrack _ _).queueTail _ _
    · exact h.touchTrack _ _

theorem Kept.requeueContexts {k : Keep} {s t : State} (h : Kept k s t) : Kept k s t.requeueContexts := by
  unfold State.requeueContexts
  generalize fourNumbers = l
  induction l generalizing t with
  | nil => exact h
  | cons c rest ih => exact ih (h.requeueContext c)

theorem DriveRec.controllerReset_pins (r : DriveRec) : r.controllerReset.pins = r.pins :=
  r.abandonPositioning_pins

theorem settings_defaults_sound : Settings.defaults.sound = true := by decide

theorem Moves.resetBlocks (s : State) : Moves s s.resetBlocks := by
  refine ⟨rfl, rfl, fun d => ?_, fun x => ?_⟩
  · simp only [State.resetBlocks, Four.get_map]
    exact DriveRec.controllerReset_pins _
  · have st : s.resetBlocks.store.sound = true := by
      have := x.store
      rw [StoreRec.sound_iff] at this ⊢
      exact ⟨this.1, this.2.1, this.2.2.1, this.2.2.2.1, by simp [State.resetBlocks]⟩
    have dp : ∀ d, 1 ≤ (s.resetBlocks.sweeps.get d).depth ∧ (s.resetBlocks.sweeps.get d).depth ≤ 8 := fun d => by
      simp [State.resetBlocks]
    have ft : ∀ d, (s.resetBlocks.drives.get d).fitted = decide (d.val < s.resetBlocks.ctl.straps.drives) :=
      fun d => by
        rw [show s.resetBlocks.ctl.straps = s.ctl.straps from rfl, ← x.fitted d]
        simp only [State.resetBlocks, Four.get_map]
        exact congrArg Prod.fst (DriveRec.controllerReset_pins _)
    have ld : ladderSound s.resetBlocks.ladder = true := show ladderSound defaultLadder = true by decide
    have lu : s.resetBlocks.limits.uncertainty ≤ 64 := show Limits.reset.uncertainty ≤ 64 by decide
    have ls : 1 ≤ s.resetBlocks.limits.starvation ∧ s.resetBlocks.limits.starvation ≤ 16 :=
      show 1 ≤ Limits.reset.starvation ∧ Limits.reset.starvation ≤ 16 by decide
    exact { store := st, tracks := x.tracks, geometry := x.geometry, ladder := ld, uncertainty := lu,
            starvation := ls, settings := settings_defaults_sound, depth := dp, fitted := ft }

theorem Moves.resetNow (s : State) : Moves s s.resetNow :=
  (((Kept.refl Keep.least s).requeueContexts).touchSweeps _).stays.moves.trans (Moves.resetBlocks _)

theorem Moves.resetController (s : State) : Moves s s.resetController.after := by
  unfold State.resetController
  split
  · exact Moves.refl s
  · exact Moves.resetNow s

/-! ## System Port and memory bus -/

theorem Stays.setAddress (s : State) (a : BitVec 24) : Stays s (s.setAddress a) := (Stays.refl s).setPort _ id

theorem Stays.answer (s : State) (a : Answer) : Stays s (s.answer a) := (Stays.refl s).setPort _ id

theorem Stays.command (s : State) (f : State → State) (h : Stays s (f s)) : Stays s (s.command f) := by
  unfold State.command
  split
  · exact Stays.refl s
  · exact h

theorem Stays.readForTest (s : State) (u : Fin 4) : Stays s (s.readForTest u) := by
  unfold State.readForTest
  split
  · exact ((Kept.refl Keep.least s).touchRecord _ _).stays
  · exact Stays.refl s

theorem Stays.startCommand (s : State) (u : Fin 4) : Stays s (s.startCommand u) := by
  unfold State.startCommand
  have a := Stays.readForTest s u
  generalize s.readForTest u = t at a
  dsimp only
  split
  · exact (a.trans ((Stays.answer t _).kept fun h => h.startList (by intro x; cases x))).finish
  · exact (a.trans (Stays.answer t _)).finish

theorem Stays.probeCommand (s : State) (u : Fin 4) : Stays s (s.probeCommand u) :=
  ((Stays.readForTest s u).trans (Stays.answer _ _)).finish

theorem Stays.haltCommand (s : State) (u : Fin 4) : Stays s (s.haltCommand u) := by
  unfold State.haltCommand
  split
  · exact ((Stays.answer s _).kept fun h => h.haltUnit (by intro x; cases x)).finish
  · exact Stays.answer s _

theorem Kept.acknowledgeUnit {k : Keep} {s t : State} (h : Kept k s t) (u : Fin 4)
    (g : k.units = true → ¬ s.Apart u) : Kept k s (t.acknowledgeUnit u) := by
  unfold State.acknowledgeUnit
  split
  · exact (h.modUnit u _ g).storeStatus g _ _ _ _ _
  · exact h.modUnit u _ g

theorem Stays.acknowledgeCommand (s : State) (u : Fin 4) : Stays s (s.acknowledgeCommand u) := by
  unfold State.acknowledgeCommand
  split
  · exact ((Stays.answer s _).kept fun h => h.acknowledgeUnit u (by intro x; cases x)).finish
  · exact Stays.answer s _

theorem Stays.ackController (s : State) : Stays s s.ackController := by
  unfold State.ackController
  split
  · exact (Stays.refl s).setPort _ id
  · exact Stays.answer s _

theorem Stays.endSetup (s : State) (b : Bool) : Stays s (s.endSetup b) := (Stays.refl s).setPort _ id

theorem Stays.fetchSetup (s : State) (f : SetupFetch) : Stays s (s.fetchSetup f) := by
  unfold State.fetchSetup
  split
  · exact ((Stays.refl s).setPort { s.port with setupFetch := some f } id).setReq _
  · exact Stays.endSetup s _

theorem Stays.setupCommand (s : State) : Stays s s.setupCommand := by
  unfold State.setupCommand
  dsimp only
  split
  · exact ((Stays.answer s _).trans (Stays.fetchSetup _ _)).setReq _
  · exact Stays.answer s _

theorem Stays.commandWord (s : State) (w : Word16) : Stays s (s.commandWord w) := by
  unfold State.commandWord
  dsimp only
  split
  · exact Stays.startCommand s _
  · exact Stays.haltCommand s _
  · exact Stays.acknowledgeCommand s _
  · exact Stays.ackController s
  · exact Stays.setupCommand s
  · exact Stays.probeCommand s _
  · exact Stays.answer s _

theorem Stays.clearDrs (s : State) : Stays s s.clearDrs :=
  ((Stays.refl s).setDrs _).kept fun h => h.endRead

theorem Stays.clearUnits (s : State) : Stays s s.clearUnits :=
  ((Stays.refl s).setUnits (Four.all UnitRec.reset)).kept fun h =>
    ((h.touchTracks .table s.clearedTracks).mapTracks (fun r => { r with waiters := 0 }) fun _ x => x).demoteDemand

theorem Stays.clearPort (s : State) : Stays s s.clearPort :=
  (((Stays.refl s).setReq s.req.cleared).setPort { s.port.cleared with clearLine := true, heldCtl := s.ctl.state }
    fun _ => settings_defaults_sound).setLink _

theorem Stays.systemClear (s : State) : Stays s s.systemClear := by
  unfold State.systemClear
  split
  · exact Stays.refl s
  · exact (((Stays.clearUnits s).trans (Stays.clearDrs _)).trans (Stays.clearPort _)).finish

theorem parseSetup_sound {ws : List Word16} {x : Settings} (h : parseSetup ws = some x) : x.sound = true := by
  unfold parseSetup at h
  dsimp only at h
  split at h
  · rename_i g
    simp only [Bool.and_eq_true, decide_eq_true_eq] at g
    split at h
    · simp only [Option.some.injEq] at h
      subst h
      simp only [Settings.sound, Four.toList, List.all_cons, List.all_nil, Bool.and_eq_true,
        decide_eq_true_eq, Bool.and_true]
      refine ⟨⟨⟨⟨⟨⟨g.1.1.1.1.1, g.1.1.1.1.2⟩, ?_⟩, g.1.1.1.2⟩, g.1.1.2⟩, g.1.2⟩, g.2⟩
      refine ⟨?_, ?_, ?_, ?_⟩ <;> exact Nat.mod_lt _ (by decide)
    · simp at h
  · simp at h

theorem Stays.judgeSetup (s : State) (ws : List Word16) : Stays s (s.judgeSetup ws) := by
  unfold State.judgeSetup
  split
  · rename_i x h
    exact ((Stays.refl s).setPort _ fun _ => parseSetup_sound h).trans (Stays.endSetup _ _)
  · exact Stays.endSetup s _

theorem Stays.setupBurstEnd (s : State) (n : Nat) (o : BurstOutcome) (ws : List Word16) :
    Stays s (s.setupBurstEnd n o ws) := by
  unfold State.setupBurstEnd
  split
  · exact Stays.refl s
  · split
    · exact Stays.endSetup s _
    · dsimp only
      split
      · exact Stays.judgeSetup s _
      · exact Stays.fetchSetup s _

theorem Stays.handBurst (s : State) (b : Burst) (o : BurstOutcome) (ws : List Word16) :
    Stays s (s.handBurst b o ws) := by
  unfold State.handBurst
  split
  · exact ((Kept.refl Keep.least s).unitBurstEnd (by intro x; cases x) _ _ _).stays
  · exact Stays.setupBurstEnd s _ _ _

theorem Stays.freeReq (s : State) : Stays s s.freeReq := (Stays.refl s).setReq _

theorem Stays.burstEnds (s : State) (o : BurstOutcome) (ws : List Word16) : Stays s (s.burstEnds o ws) := by
  unfold State.burstEnds
  split
  · exact (Stays.freeReq s).finish
  · exact ((Stays.freeReq s).trans (Stays.handBurst _ _ _ _)).finish

/-! ## Link -/

theorem Stays.readWindow (s : State) (n : Nat) : Stays s (s.readWindow n) := by
  unfold State.readWindow
  split
  · exact Stays.refl s
  · dsimp only
    split
    · exact (Stays.refl s).setLink _
    · exact (Stays.refl s).setLink _

theorem Kept.dropLocks {k : Keep} {s t : State} (h : Kept k s t) (ns : List Nat) :
    Kept k s (ns.foldl State.dropLock t) := by
  induction ns generalizing t with
  | nil => exact h
  | cons n rest ih => exact ih (h.modTrack n _)

theorem Stays.releaseAllLocks (s : State) : Stays s s.releaseAllLocks :=
  ((((Kept.refl Keep.least s).touchTracks .link s.lockedTracks).dropLocks _).notifyWaiters _).stays.setLocks _

theorem Stays.linkReset (s : State) : Stays s s.linkReset := by
  unfold State.linkReset
  split
  · exact Stays.refl s
  · exact ((Stays.releaseAllLocks s).setLink _).finish

theorem Stays.refuseFrame (s : State) (w : List Byte) (r : Result) : Stays s (s.refuseFrame w r) := by
  unfold State.refuseFrame
  split
  · exact Stays.refl s
  · exact (Stays.refl s).setLink _

/-! ## Store events -/

theorem addFlip_rises (fs : List (Nat × FlipKind)) (w : Nat) (k : FlipKind) (h : keysRiseFrom 0 fs = true) :
    keysRiseFrom 0 (addFlip fs w k) = true := by
  unfold addFlip
  split
  · exact assocPut_rises _ 0 w _ h (Nat.zero_le w)
  · exact assocPut_rises _ 0 w _ h (Nat.zero_le w)

theorem Stays.addFlips (s : State) (l : List (Nat × FlipKind)) : Stays s (s.addFlips l) := by
  refine (Stays.refl s).setStore _ fun x => ?_
  rw [StoreRec.sound_iff] at x ⊢
  refine ⟨x.1, ?_, x.2.2⟩
  have : ∀ (l fs : List (Nat × FlipKind)), keysRiseFrom 0 fs = true →
      keysRiseFrom 0 (l.foldl (fun fs e => if e.1 < s.storeWords then addFlip fs e.1 e.2 else fs) fs) = true := by
    intro l
    induction l with
    | nil => exact fun _ h => h
    | cons e rest ih =>
      intro fs h
      refine ih _ ?_
      dsimp only
      split
      · exact addFlip_rises _ _ _ h
      · exact h
  exact this l _ x.2.1

theorem Stays.storeBurstEnds (s : State) (ws : List Nat) : Stays s (s.storeBurstEnds ws) := by
  unfold State.storeBurstEnds
  split
  · exact Stays.refl s
  · rename_i cl _
    have h := ((Kept.refl Keep.least s).readWords cl (ws.filter (· < s.storeWords))).stays
    have g : Stays s (s.readWords cl (ws.filter (· < s.storeWords))).endBurst := h.setStore _ id
    refine Stays.finish ?_
    split
    · exact g.kept fun x => x.voteBurst
    · exact g

theorem Stays.advanceScrub (s : State) : Stays s s.advanceScrub := by
  unfold State.advanceScrub
  split
  · exact (Stays.refl s).setStore _ id
  · exact (Stays.refl s).setStore _ id

theorem Stays.scrub (s : State) : Stays s s.scrub := by
  unfold State.scrub
  split
  · refine Stays.finish (((((Kept.refl Keep.least s).readWords .scrub _).stays).trans
      (Stays.advanceScrub _)).kept fun h => h.askStore _ _)
  · exact Stays.refl s

end Sys2Proof.Machine
end

