-- ==== Sys2Proof/Laws/Paths.lean ====
section
/-! SUPPORT. The grant of the read path where nobody waits for it, or one holder alone (R30 to R32). -/

set_option Elab.async false

namespace Sys2Proof.Machine

theorem find_in_round :
    ∀ l c : Fin 4, [l + 1, l + 2, l + 3, l + 4].find? (fun x => decide (x = c)) = some c := by decide

/-- One context alone waits for a free path: it is granted the path and reads (R30 to R32, R87). -/
theorem grant_one {s : State} {c : Fin 4} {n : Nat} {st : StepInForce} {a : TrackAddr}
    (hw : (s.ctxs.get c).state = .waitPath) (ho : ∀ c', c' ≠ c → (s.ctxs.get c').state ≠ .waitPath)
    (hd : s.drs.state ≠ .waitPath) (hg : s.path.grant = none) (h1 : (s.ctxs.get c).track = some n)
    (h2 : (s.ctxs.get c).step = some st) (h3 : (s.track n).addr = some a)
    (h4 : (s.track n).anyUnresolved = true) :
    s.grantPath = { s with
      path := { s.path with
        grant := some { holder := .ctx c, addr := a, strobe := st.step.strobe, blind := st.step.blind
                        opened := false }
        lastGranted := c
        passedOver := s.path.passedOver.set c 0 }
      ctxs := s.ctxs.set c { s.ctxs.get c with
        state := .reading, wanted := (s.track n).unresolvedSectors } } := by
  have fr : ∀ r, s.firstOfRank r = if s.ctxRank c = r then some c else none := fun r => by
    unfold State.firstOfRank
    have p : ∀ x, (s.ctxWaits x && decide (s.ctxRank x = r)) = (decide (x = c) && decide (s.ctxRank c = r)) :=
        fun x => by
      by_cases hx : x = c
      · subst hx; simp [State.ctxWaits, State.ctxUnresolved, hw, h1, h4]
      · simp [State.ctxWaits, ho x hx, hx]
    rw [show (fun x => s.ctxWaits x && decide (s.ctxRank x = r)) = fun x =>
        (decide (x = c) && decide (s.ctxRank c = r)) from funext p]
    by_cases e : s.ctxRank c = r
    · rw [if_pos e]
      simp only [e, decide_true, Bool.and_true]
      exact find_in_round s.path.lastGranted c
    · rw [if_neg e]; simp [e]
  have rk : s.ctxRank c = 2 ∨ s.ctxRank c = 3 ∨ s.ctxRank c = 4 := by
    unfold State.ctxRank
    split
    · exact Or.inl rfl
    · split
      · exact Or.inr (Or.inl rfl)
      · exact Or.inr (Or.inr rfl)
  have best : s.bestContext = some c := by
    unfold State.bestContext
    rw [fr, fr, fr]
    rcases rk with e | e | e <;> rw [e] <;> rfl
  have cp : (s.countPassed (s.ctxRank c)).set c 0 = s.path.passedOver.set c 0 := Four.ext_get fun j => by
    rw [Four.get_set, Four.get_set]
    by_cases hj : j = c
    · rw [if_pos hj, if_pos hj]
    · rw [if_neg hj, if_neg hj]
      unfold State.countPassed
      rw [Four.get_ofFn, if_neg]
      simp [State.ctxWaits, ho j hj]
  unfold State.grantPath
  rw [if_neg (by rw [hg]; decide)]
  split
  · rename_i e _; exact absurd e hd
  · rw [best]
    dsimp only
    unfold State.grantCtx
    dsimp only
    rw [h1, h2]
    dsimp only
    rw [h3]
    dsimp only
    rw [cp]
    unfold State.modCtx
    rw [← h1, ← h2]
    rfl

/-- The Direct Read Slot alone waits for a free path (R30, R31, R157). -/
theorem grant_drs {s : State} {t : DrsTarget} (ho : ∀ c', (s.ctxs.get c').state ≠ .waitPath)
    (hd : s.drs.state = .waitPath)
    (hg : s.path.grant = none) (h1 : s.drs.target = some t) :
    s.grantPath = { s with
      path := { s.path with
        grant := some { holder := .drs, addr := t.addr, strobe := .nominal, blind := false, opened := false } }
      drs := { s.drs with state := .reading } } := by
  have cp : s.countPassed 1 = s.path.passedOver := Four.ext_get fun j => by
    unfold State.countPassed
    rw [Four.get_ofFn, if_neg]
    simp [State.ctxWaits, ho j]
  unfold State.grantPath
  rw [if_neg (by rw [hg]; decide), hd, h1]
  dsimp only
  unfold State.grantDrs
  rw [cp]

/-- Nobody waits for the path: a grant decision changes nothing. -/
theorem grantPath_idle {s : State} (h : ∀ c, (s.ctxs.get c).state ≠ .waitPath) (g : s.drs.state ≠ .waitPath) :
    s.grantPath = s := by
  unfold State.grantPath
  split
  · rfl
  · have b : s.bestContext = none := by
      have f : ∀ r, s.firstOfRank r = none := fun r => by
        unfold State.firstOfRank
        refine List.find?_eq_none.2 fun c _ => ?_
        simp [State.ctxWaits, h c]
      unfold State.bestContext
      rw [f, f, f]
    split
    · rename_i e _; exact absurd e g
    · rw [b]

end Sys2Proof.Machine
end

