-- ==== Sys2Proof/WellFormed.lean ====
section
/-! DEFINITION. Which command terms spell something the outside world can do: the bounds of each operand. -/

namespace Sys2Proof

/-- Store words of the largest store, 32 MiB (R119). -/
def maxStoreWords : Nat := 32 * 131072

/-- An archive request's payload is at most 544 bytes (R164, R166). -/
def payloadOk (payload : List Byte) : Bool := payload.length ≤ 544

/-- The command is well formed. -/
def Instr.wellFormed : Instr → Bool
  | .powerOn straps => 1 ≤ straps.drives && straps.drives ≤ 4
  | .storeCheckEnd _ _ => true
  | .formatEnd => true
  | .discoveryPhaseEnd => true
  | .rescanEnd failedChecks => failedChecks.all (· < 1984)
  | .holdEntry => true
  | .resumingEnd => true
  | .systemClear => true
  | .systemClearRelease => true
  | .addressHi _ => true
  | .addressLo _ => true
  | .registerWriteIgnored _ _ => true
  | .start _ => true
  | .probe _ => true
  | .halt _ => true
  | .acknowledge _ => true
  | .ackController => true
  | .setup => true
  | .illegalCommand value => value.toNat % 16 = 0 || 6 < value.toNat % 16
  | .busGrant => true
  | .busAccept => true
  | .busAdvance _ words => words.length = 8
  | .grantTimeout => true
  | .advanceTimeout => true
  | .patienceTimerExpiry _ => true
  | .readWindow bytes => 1 ≤ bytes
  | .unknownRequest window => 1 ≤ window.length && window.head? ≠ some 0
  | .linkRst => true
  | .linkRstRelease => true
  | .identify _ payload => payloadOk payload
  | .attention _ payload => payloadOk payload
  | .setLimits _ payload => payloadOk payload
  | .storeState _ payload => payloadOk payload
  | .defineDrive _ payload => payloadOk payload
  | .withdrawDrive _ payload => payloadOk payload
  | .restoreDrive _ payload => payloadOk payload
  | .clearDriveFault _ payload => payloadOk payload
  | .driveState _ payload => payloadOk payload
  | .trackRecord _ payload => payloadOk payload
  | .listTracks _ payload => payloadOk payload
  | .pull _ payload => payloadOk payload
  | .pushSector _ payload => payloadOk payload
  | .lockTrack _ payload => payloadOk payload
  | .unlockTrack _ payload => payloadOk payload
  | .markExported _ payload => payloadOk payload
  | .releaseTrack _ payload => payloadOk payload
  | .queueTrack _ payload => payloadOk payload
  | .retryTrack _ payload => payloadOk payload
  | .sweepStart _ payload => payloadOk payload
  | .sweepStop _ payload => payloadOk payload
  | .setLadder _ payload => payloadOk payload
  | .holdEnter _ payload => payloadOk payload
  | .holdExit _ payload => payloadOk payload
  | .resetController _ payload => payloadOk payload
  | .readyLineFall _ => true
  | .readyLineRise _ => true
  | .faultLineRise _ => true
  | .index _ => true
  | .indexLost _ => true
  | .driveAnswer _ => true
  | .answerTimeout _ => true
  | .markPulse _ => true
  | .seekDone _ => true
  | .seekTimeout _ => true
  | .recalibrationTimeout _ => true
  | .settleEnd _ => true
  | .headerField _ => true
  | .dataField _ bytes => bytes.length = 514
  | .pitchWindowClose _ => true
  | .blindWindowClose => true
  | .refreshTimer flips => flips.all (·.1 < maxStoreWords)
  | .storeBurstEnd words => words.length ≤ 64 && words.all (· < maxStoreWords)
  | .scrubGroup => true
  | .voteSector => true

end Sys2Proof
end

