-- ==== Sys2Proof/Laws/PerInstr.lean ====
section
/-! SUPPORT. Well-formedness said command by command: the check on each command is the bound that its operands have. -/

set_option Elab.async false

namespace Sys2Proof.Laws.WellFormed

/-- The payload of an archive request (R164). -/
def payloadOf : Instr → Option (List Byte)
  | .identify _ p => some p
  | .attention _ p => some p
  | .setLimits _ p => some p
  | .storeState _ p => some p
  | .defineDrive _ p => some p
  | .withdrawDrive _ p => some p
  | .restoreDrive _ p => some p
  | .clearDriveFault _ p => some p
  | .driveState _ p => some p
  | .trackRecord _ p => some p
  | .listTracks _ p => some p
  | .pull _ p => some p
  | .pushSector _ p => some p
  | .lockTrack _ p => some p
  | .unlockTrack _ p => some p
  | .markExported _ p => some p
  | .releaseTrack _ p => some p
  | .queueTrack _ p => some p
  | .retryTrack _ p => some p
  | .sweepStart _ p => some p
  | .sweepStop _ p => some p
  | .setLadder _ p => some p
  | .holdEnter _ p => some p
  | .holdExit _ p => some p
  | .resetController _ p => some p
  | _ => none

/-- The bounds of a command's operands, as the rules give them. -/
def InBounds : Instr → Prop
  | .powerOn straps => 1 ≤ straps.drives ∧ straps.drives ≤ 4
  | .rescanEnd failedChecks => ∀ n ∈ failedChecks, n < 1984
  | .illegalCommand value => value.toNat % 16 = 0 ∨ 6 < value.toNat % 16
  | .busAdvance _ words => words.length = 8
  | .readWindow bytes => 1 ≤ bytes
  | .unknownRequest window => 1 ≤ window.length ∧ window.head? ≠ some 0
  | .dataField _ bytes => bytes.length = 514
  | .refreshTimer flips => ∀ e ∈ flips, e.1 < maxStoreWords
  | .storeBurstEnd words => words.length ≤ 64 ∧ ∀ w ∈ words, w < maxStoreWords
  | i => ∀ p, payloadOf i = some p → p.length ≤ 544

/-- The check passes a command exactly when its operands are in bounds. -/
def Statement (i : Instr) : Prop := i.wellFormed = true ↔ InBounds i

/-- A request is well formed exactly when its payload fits. -/
theorem of_payload {i : Instr} {p : List Byte} (h : i.wellFormed = payloadOk p)
    (g : InBounds i = ∀ q, some p = some q → q.length ≤ 544) : Statement i := by
  unfold Statement
  rw [h, g]
  unfold payloadOk
  rw [decide_eq_true_eq]
  exact ⟨fun x q e => Option.some.inj e ▸ x, fun x => x p rfl⟩

/-- A command whose operands have no bound is well formed. -/
theorem of_nothing {i : Instr} (h : i.wellFormed = true)
    (g : InBounds i = ∀ p : List Byte, none = some p → p.length ≤ 544) : Statement i := by
  unfold Statement
  rw [g]
  exact ⟨fun _ p e => (nomatch e), fun _ => h⟩

theorem powerOn (straps : Straps) : Statement (.powerOn straps) := by
  show ((1 ≤ straps.drives && straps.drives ≤ 4 : Bool) = true) ↔ _
  simp [InBounds]

theorem storeCheckEnd (lowerFails upperFails : Bool) : Statement (.storeCheckEnd lowerFails upperFails) :=
    of_nothing rfl rfl

theorem formatEnd : Statement .formatEnd := of_nothing rfl rfl

theorem discoveryPhaseEnd : Statement .discoveryPhaseEnd := of_nothing rfl rfl

theorem rescanEnd (failedChecks : List Nat) : Statement (.rescanEnd failedChecks) := by
  show failedChecks.all (· < 1984) = true ↔ _
  simp [InBounds]

theorem holdEntry : Statement .holdEntry := of_nothing rfl rfl

theorem resumingEnd : Statement .resumingEnd := of_nothing rfl rfl

theorem systemClear : Statement .systemClear := of_nothing rfl rfl

theorem systemClearRelease : Statement .systemClearRelease := of_nothing rfl rfl

theorem addressHi (value : Word16) : Statement (.addressHi value) := of_nothing rfl rfl

theorem addressLo (value : Word16) : Statement (.addressLo value) := of_nothing rfl rfl

theorem registerWriteIgnored (word : IgnoredWord) (value : Word16) : Statement (.registerWriteIgnored word value) :=
    of_nothing rfl rfl

theorem start (unit : Fin 4) : Statement (.start unit) := of_nothing rfl rfl

theorem probe (unit : Fin 4) : Statement (.probe unit) := of_nothing rfl rfl

theorem halt (unit : Fin 4) : Statement (.halt unit) := of_nothing rfl rfl

theorem acknowledge (unit : Fin 4) : Statement (.acknowledge unit) := of_nothing rfl rfl

theorem ackController : Statement .ackController := of_nothing rfl rfl

theorem setup : Statement .setup := of_nothing rfl rfl

theorem illegalCommand (value : Word16) : Statement (.illegalCommand value) := by
  show ((value.toNat % 16 = 0 || 6 < value.toNat % 16 : Bool) = true) ↔ _
  simp [InBounds]

theorem busGrant : Statement .busGrant := of_nothing rfl rfl

theorem busAccept : Statement .busAccept := of_nothing rfl rfl

theorem busAdvance (outcome : MemoryOutcome) (words : List Word16) : Statement (.busAdvance outcome words) := by
  show decide (words.length = 8) = true ↔ _
  simp [InBounds]

theorem grantTimeout : Statement .grantTimeout := of_nothing rfl rfl

theorem advanceTimeout : Statement .advanceTimeout := of_nothing rfl rfl

theorem patienceTimerExpiry (unit : Fin 4) : Statement (.patienceTimerExpiry unit) :=
    of_nothing rfl rfl

theorem readWindow (bytes : Nat) : Statement (.readWindow bytes) := by
  show decide (1 ≤ bytes) = true ↔ _
  simp [InBounds]

theorem unknownRequest (window : List Byte) : Statement (.unknownRequest window) := by
  show ((1 ≤ window.length && window.head? ≠ some 0 : Bool) = true) ↔ _
  simp [InBounds]

theorem linkRst : Statement .linkRst := of_nothing rfl rfl

theorem linkRstRelease : Statement .linkRstRelease := of_nothing rfl rfl

theorem identify (tag : Byte) (payload : List Byte) : Statement (.identify tag payload) := of_payload rfl rfl

theorem attention (tag : Byte) (payload : List Byte) : Statement (.attention tag payload) :=
    of_payload rfl rfl

theorem setLimits (tag : Byte) (payload : List Byte) : Statement (.setLimits tag payload) :=
    of_payload rfl rfl

theorem storeState (tag : Byte) (payload : List Byte) : Statement (.storeState tag payload) :=
    of_payload rfl rfl

theorem defineDrive (tag : Byte) (payload : List Byte) : Statement (.defineDrive tag payload) :=
    of_payload rfl rfl

theorem withdrawDrive (tag : Byte) (payload : List Byte) : Statement (.withdrawDrive tag payload) :=
    of_payload rfl rfl

theorem restoreDrive (tag : Byte) (payload : List Byte) : Statement (.restoreDrive tag payload) :=
    of_payload rfl rfl

theorem clearDriveFault (tag : Byte) (payload : List Byte) : Statement (.clearDriveFault tag payload) :=
    of_payload rfl rfl

theorem driveState (tag : Byte) (payload : List Byte) : Statement (.driveState tag payload) :=
    of_payload rfl rfl

theorem trackRecord (tag : Byte) (payload : List Byte) : Statement (.trackRecord tag payload) :=
    of_payload rfl rfl

theorem listTracks (tag : Byte) (payload : List Byte) : Statement (.listTracks tag payload) :=
    of_payload rfl rfl

theorem pull (tag : Byte) (payload : List Byte) : Statement (.pull tag payload) := of_payload rfl rfl

theorem pushSector (tag : Byte) (payload : List Byte) : Statement (.pushSector tag payload) :=
    of_payload rfl rfl

theorem lockTrack (tag : Byte) (payload : List Byte) : Statement (.lockTrack tag payload) :=
    of_payload rfl rfl

theorem unlockTrack (tag : Byte) (payload : List Byte) : Statement (.unlockTrack tag payload) :=
    of_payload rfl rfl

theorem markExported (tag : Byte) (payload : List Byte) : Statement (.markExported tag payload) :=
    of_payload rfl rfl

theorem releaseTrack (tag : Byte) (payload : List Byte) : Statement (.releaseTrack tag payload) :=
    of_payload rfl rfl

theorem queueTrack (tag : Byte) (payload : List Byte) : Statement (.queueTrack tag payload) :=
    of_payload rfl rfl

theorem retryTrack (tag : Byte) (payload : List Byte) : Statement (.retryTrack tag payload) :=
    of_payload rfl rfl

theorem sweepStart (tag : Byte) (payload : List Byte) : Statement (.sweepStart tag payload) :=
    of_payload rfl rfl

theorem sweepStop (tag : Byte) (payload : List Byte) : Statement (.sweepStop tag payload) :=
    of_payload rfl rfl

theorem setLadder (tag : Byte) (payload : List Byte) : Statement (.setLadder tag payload) :=
    of_payload rfl rfl

theorem holdEnter (tag : Byte) (payload : List Byte) : Statement (.holdEnter tag payload) :=
    of_payload rfl rfl

theorem holdExit (tag : Byte) (payload : List Byte) : Statement (.holdExit tag payload) := of_payload rfl rfl

theorem resetController (tag : Byte) (payload : List Byte) : Statement (.resetController tag payload) :=
    of_payload rfl rfl

theorem readyLineFall (drive : Fin 4) : Statement (.readyLineFall drive) :=
    of_nothing rfl rfl

theorem readyLineRise (drive : Fin 4) : Statement (.readyLineRise drive) :=
    of_nothing rfl rfl

theorem faultLineRise (drive : Fin 4) : Statement (.faultLineRise drive) :=
    of_nothing rfl rfl

theorem index (drive : Fin 4) : Statement (.index drive) := of_nothing rfl rfl

theorem indexLost (drive : Fin 4) : Statement (.indexLost drive) := of_nothing rfl rfl

theorem driveAnswer (drive : Fin 4) : Statement (.driveAnswer drive) :=
    of_nothing rfl rfl

theorem answerTimeout (drive : Fin 4) : Statement (.answerTimeout drive) :=
    of_nothing rfl rfl

theorem markPulse (drive : Fin 4) : Statement (.markPulse drive) := of_nothing rfl rfl

theorem seekDone (drive : Fin 4) : Statement (.seekDone drive) := of_nothing rfl rfl

theorem seekTimeout (drive : Fin 4) : Statement (.seekTimeout drive) :=
    of_nothing rfl rfl

theorem recalibrationTimeout (drive : Fin 4) : Statement (.recalibrationTimeout drive) :=
    of_nothing rfl rfl

theorem settleEnd (drive : Fin 4) : Statement (.settleEnd drive) := of_nothing rfl rfl

theorem headerField (bytes : HeaderBytes) : Statement (.headerField bytes) :=
    of_nothing rfl rfl

theorem dataField (inBlindWindow : Bool) (bytes : List Byte) : Statement (.dataField inBlindWindow bytes) := by
  show decide (bytes.length = 514) = true ↔ _
  simp [InBounds]

theorem pitchWindowClose (taking : Bool) : Statement (.pitchWindowClose taking) :=
    of_nothing rfl rfl

theorem blindWindowClose : Statement .blindWindowClose := of_nothing rfl rfl

theorem refreshTimer (flips : List (Nat × FlipKind)) : Statement (.refreshTimer flips) := by
  show flips.all (·.1 < maxStoreWords) = true ↔ _
  simp [InBounds]

theorem storeBurstEnd (words : List Nat) : Statement (.storeBurstEnd words) := by
  show ((words.length ≤ 64 && words.all (· < maxStoreWords) : Bool) = true) ↔ _
  simp [InBounds]

theorem scrubGroup : Statement .scrubGroup := of_nothing rfl rfl

theorem voteSector : Statement .voteSector := of_nothing rfl rfl

end Sys2Proof.Laws.WellFormed
end

