-- ==== Sys2Proof/Laws/Votes.lean ====
section
/-! SUPPORT. What a vote gives at each position (R110), what reading the candidates of a store without bit errors gives, and the next sector worked on. -/

set_option Elab.async false

namespace Sys2Proof.Machine

theorem foldl_max_ge (l : List Nat) : ∀ a, a ≤ l.foldl max a ∧ (∀ x ∈ l, x ≤ l.foldl max a) ∧
    (l.foldl max a = a ∨ l.foldl max a ∈ l) := by
  induction l with
  | nil => exact fun a => ⟨Nat.le_refl _, fun x h => (by cases h), Or.inl rfl⟩
  | cons b r ih =>
    intro a
    obtain ⟨h1, h2, h3⟩ := ih (max a b)
    refine ⟨le_trans (Nat.le_max_left a b) h1, fun x hx => ?_, ?_⟩
    · rcases List.mem_cons.1 hx with rfl | hx
      · exact le_trans (Nat.le_max_right a x) h1
      · exact h2 x hx
    · rcases h3 with h3 | h3
      · show (r.foldl max (max a b) = a ∨ _)
        rw [h3]
        rcases Nat.le_total a b with h | h
        · right; rw [List.foldl_cons, h3, Nat.max_eq_right h]; simp
        · left; exact Nat.max_eq_left h
      · right
        exact List.mem_cons_of_mem _ h3

theorem largest_spec (col : List Byte) (h : col ≠ []) :
    (∀ v ∈ col, col.count v ≤ largestCount col) ∧ ∃ v ∈ col, col.count v = largestCount col := by
  obtain ⟨h1, h2, h3⟩ := foldl_max_ge (col.map (fun v => col.count v)) 0
  refine ⟨fun v hv => h2 _ (List.mem_map_of_mem hv), ?_⟩
  rcases h3 with h3 | h3
  · obtain ⟨v, r, rfl⟩ := List.exists_cons_of_ne_nil h
    refine ⟨v, by simp, ?_⟩
    have := h2 ((v :: r).count v) (List.mem_map_of_mem (by simp))
    have h3 : largestCount (v :: r) = 0 := h3
    have this : (v :: r).count v ≤ largestCount (v :: r) := this
    omega
  · obtain ⟨v, hv, e⟩ := List.mem_map.1 h3
    exact ⟨v, hv, e⟩

/-- The winner is the value most candidates hold, and of those the newest candidate's (R110). -/
theorem winner_spec (col : List Byte) (h : col ≠ []) :
    (∀ v ∈ col, col.count v ≤ col.count (winner col)) ∧
      ∃ a b, col = a ++ winner col :: b ∧ ∀ v ∈ b, col.count v < col.count (winner col) := by
  obtain ⟨mx, v, hv, ev⟩ := largest_spec col h
  unfold winner
  cases e : col.reverse.find? (fun v => col.count v = largestCount col) with
  | none => exact absurd ev (by simpa using List.find?_eq_none.1 e v (by simpa using hv))
  | some w =>
    have hw : col.count w = largestCount col := by simpa using List.find?_some e
    obtain ⟨_, as, bs, hl, ha⟩ := List.find?_eq_some_iff_append.1 e
    show (∀ v ∈ col, col.count v ≤ col.count w) ∧ ∃ a b, col = a ++ w :: b ∧ ∀ v ∈ b, col.count v < col.count w
    rw [hw]
    refine ⟨mx, bs.reverse, as.reverse, ?_, fun v hv => ?_⟩
    · have := congrArg List.reverse hl
      simpa using this
    · have hv' : v ∈ as := by simpa using hv
      have n := ha v hv'
      have m := mx v (by
        have : v ∈ col.reverse := by rw [hl]; simp [hv']
        simpa using this)
      have : col.count v ≠ largestCount col := by simpa using n
      omega

theorem voted_get (len i : Nat) (cs : List (List Byte)) (h : i < len) :
    (votedImage len cs).getD i 0 = winner (cs.map (fun c => c.getD i 0)) := by
  unfold votedImage
  simp [List.getD_eq_getElem?_getD, h, column]

/-- Reading candidates from a store without bit errors gives the bytes of those in the list, and changes
nothing. -/
theorem readCandidates_clean {t : State} (h : t.store.flips = []) (q : VoteRequest) (k : Nat) (l : List Nat) :
    t.readCandidates q k l =
      ((l.filter (fun p => ((t.ctxs.get q.context).list k).contains p)).map (fun p => readBytes t.store.mem
        (t.entryAddr q.context p (t.track q.track).sectorBytes k) (t.candidateBytes q)), t) := by
  induction l with
  | nil => rfl
  | cons p r ih =>
    unfold State.readCandidates
    rw [readAsked_clean h, List.filter_cons]
    by_cases e : ((t.ctxs.get q.context).list k).contains p = true
    · rw [if_pos e, if_pos e]
      dsimp only
      rw [ih]
      rfl
    · rw [if_neg e, if_neg e, ih]

theorem find_next {n k next : Nat} {p : Nat → Bool} (h1 : next < n) (h2 : k < next) (h3 : p next = true)
    (h4 : ∀ j, k < j → j < next → p j = false) :
    (List.range n).find? (fun j => decide (k + 1 ≤ j) && p j) = some next := by
  rw [List.find?_range_eq_some]
  refine ⟨by simp [h3]; omega, List.mem_range.2 h1, fun j hj => ?_⟩
  by_cases hk : k < j
  · simp [h4 j hk hj]
  · simp; omega

end Sys2Proof.Machine
end

