-- ==== Sys2Proof/Tests/Slice0.lean ====
section
/-! SUPPORT. The model's own tests: terms that well-formedness refuses, single steps worked out by hand, and for every statement a state and operands that meet its premises. -/

set_option Elab.async false

namespace Sys2Proof.Tests

open Sys2Proof Sys2Proof.Machine Sys2Proof.Stated

/-! ## Well-formedness refuses -/

def longPayload : List Byte := List.replicate 545 0

theorem test_wf_straps : (Instr.powerOn ⟨.mib8, 0, 0, 0⟩).wellFormed = false
    ∧ (Instr.powerOn ⟨.mib8, 0, 5, 0⟩).wellFormed = false
    ∧ (Instr.powerOn ⟨.mib8, 0, 4, 0⟩).wellFormed = true := by decide +kernel

theorem test_wf_rescan : (Instr.rescanEnd [3, 1984]).wellFormed = false
    ∧ (Instr.rescanEnd [3, 1983]).wellFormed = true := by decide +kernel

theorem test_wf_illegal : (Instr.illegalCommand 0x31).wellFormed = false
    ∧ (Instr.illegalCommand 0x36).wellFormed = false ∧ (Instr.illegalCommand 0x37).wellFormed = true
    ∧ (Instr.illegalCommand 0x30).wellFormed = true := by decide +kernel

theorem test_wf_advance : (Instr.busAdvance .done (List.replicate 7 0)).wellFormed = false
    ∧ (Instr.busAdvance .done (List.replicate 9 0)).wellFormed = false := by decide +kernel

theorem test_wf_window : (Instr.readWindow 0).wellFormed = false
    ∧ (Instr.unknownRequest []).wellFormed = false ∧ (Instr.unknownRequest [0, 1]).wellFormed = false := by
  decide +kernel

theorem test_wf_field : (Instr.dataField true (List.replicate 513 0)).wellFormed = false := by decide +kernel

theorem test_wf_flips : (Instr.refreshTimer [(4194304, .single)]).wellFormed = false
    ∧ (Instr.refreshTimer [(4194303, .single)]).wellFormed = true := by decide +kernel

theorem test_wf_burst : (Instr.storeBurstEnd [4194304]).wellFormed = false
    ∧ (Instr.storeBurstEnd (List.replicate 65 0)).wellFormed = false := by decide +kernel

theorem test_wf_payload : payloadOk longPayload = false ∧ payloadOk longPayload.tail = true
    ∧ (Instr.identify 1 longPayload).wellFormed = false ∧ (Instr.attention 1 longPayload).wellFormed = false
    ∧ (Instr.setLimits 1 longPayload).wellFormed = false
    ∧ (Instr.storeState 1 longPayload).wellFormed = false := by decide +kernel

theorem test_wf_drive_payloads : (Instr.defineDrive 1 longPayload).wellFormed = false
    ∧ (Instr.withdrawDrive 1 longPayload).wellFormed = false
    ∧ (Instr.restoreDrive 1 longPayload).wellFormed = false
    ∧ (Instr.clearDriveFault 1 longPayload).wellFormed = false
    ∧ (Instr.driveState 1 longPayload).wellFormed = false := by decide +kernel

theorem test_wf_track_payloads : (Instr.trackRecord 1 longPayload).wellFormed = false
    ∧ (Instr.listTracks 1 longPayload).wellFormed = false ∧ (Instr.pull 1 longPayload).wellFormed = false
    ∧ (Instr.pushSector 1 longPayload).wellFormed = false
    ∧ (Instr.lockTrack 1 longPayload).wellFormed = false
    ∧ (Instr.unlockTrack 1 longPayload).wellFormed = false
    ∧ (Instr.markExported 1 longPayload).wellFormed = false
    ∧ (Instr.releaseTrack 1 longPayload).wellFormed = false
    ∧ (Instr.queueTrack 1 longPayload).wellFormed = false
    ∧ (Instr.retryTrack 1 longPayload).wellFormed = false := by decide +kernel

theorem test_wf_control_payloads : (Instr.sweepStart 1 longPayload).wellFormed = false
    ∧ (Instr.sweepStop 1 longPayload).wellFormed = false
    ∧ (Instr.setLadder 1 longPayload).wellFormed = false
    ∧ (Instr.holdEnter 1 longPayload).wellFormed = false
    ∧ (Instr.holdExit 1 longPayload).wellFormed = false
    ∧ (Instr.resetController 1 longPayload).wellFormed = false := by decide +kernel

/-! ## Small states -/

/-- Profile 0. -/
def geo0 : Geometry := ⟨256, 2, 16, 256, 1, 25, 0xFFFF⟩

/-- A READY controller with one READY drive of profile 0 at cylinder 0, and an 8 MiB store. -/
def lab : State :=
  { State.reset with
    ctl := { State.reset.ctl with state := .ready, phase := none, storeCheck := .passed, sizeInUse := 8 }
    drives := State.reset.drives.modify 0 fun r =>
      { r with state := .ready, readyLine := true, cylAt := some 0, offsetAt := some .centre }
    geometry := State.reset.geometry.set 0 (some geo0)
    freeList := [0, 1, 2] }

/-- The small state with another controller STATE and PHASE. -/
def labCtl (st : CtlState) (ph : Option Phase) : State :=
  { lab with ctl := { lab.ctl with state := st, phase := ph } }

/-- The small state with drive 0 changed. -/
def labDrive (f : DriveRec → DriveRec) : State := lab.modDrive 0 f

/-- The small state with unit 0 changed. -/
def labUnit (f : UnitRec → UnitRec) : State := lab.modUnit 0 f

/-- The record of track 0/0 on drive 0, as allocated. -/
def rec0 : TrackRec := TrackRec.allocated ⟨0, 0, 0⟩ geo0

/-- The small state with a record in slot 0. -/
def labRec (r : TrackRec) : State := { lab with tracks := [(0, r)], freeList := [1, 2] }

/-- A sector record with a STATUS. -/
def sectorOf (st : SectorStatus) : SectorRec := { SectorRec.fresh with status := st }

/-- A record whose sector 0 has a STATUS, all others being CLEAN. -/
def recWith (st : TrackState) (x : SectorRec) : TrackRec :=
  { rec0 with state := st, sectors := x :: List.replicate 15 (sectorOf .clean) }

/-- Context 0 bound to the track in slot 0, which it reads at the ladder's first step. -/
def ctx0 (st : CtxState) : CtxRec :=
  { CtxRec.free with
    state := st, track := some 0
    step := some { index := 0, step := { strobe := .nominal, offset := .centre, revs := 2, blind := false } }
    wanted := [0, 1], candidates := List.replicate 16 [], lastFlags := List.replicate 16 none }

/-- The small state with context 0 bound to slot 0 and holding drive 0. -/
def labBound (st : CtxState) : State :=
  { labRec { recWith .active SectorRec.fresh with cls := some .demand, context := some 0 } with
    ctxs := lab.ctxs.set 0 (ctx0 st)
    drives := lab.drives.modify 0 fun r => { r with claim := some (.ctx 0) } }

/-- The state of an outcome. -/
def after (o : Host.Outcome State Fault Refusal) : State :=
  match o with
  | .next s => s
  | .fault _ => State.reset
  | .refused _ => State.reset

/-- What `State.Sound` asks, as a computation. -/
def soundCheck (s : State) : Bool :=
  s.store.sound && tracksSound s.tracks && fourNumbers.all (fun d => geometrySound (s.geometry.get d))
    && ladderSound s.ladder && decide (s.limits.uncertainty ≤ 64)
    && decide (1 ≤ s.limits.starvation ∧ s.limits.starvation ≤ 16) && s.port.settings.sound
    && fourNumbers.all (fun d => decide (1 ≤ (s.sweeps.get d).depth ∧ (s.sweeps.get d).depth ≤ 8))
    && fourNumbers.all (fun d => decide ((s.drives.get d).fitted = decide (d.val < s.ctl.straps.drives)))

theorem all_four {p : Fin 4 → Bool} (h : fourNumbers.all p = true) (d : Fin 4) : p d = true := by
  rw [List.all_eq_true] at h
  exact h d (by revert d; decide)

theorem sound_of {s : State} (h : soundCheck s = true) : s.Sound := by
  simp only [soundCheck, Bool.and_eq_true] at h
  obtain ⟨⟨⟨⟨⟨⟨⟨⟨h1, h2⟩, h3⟩, h4⟩, h5⟩, h6⟩, h7⟩, h8⟩, h9⟩ := h
  exact ⟨h1, h2, all_four h3, h4, of_decide_eq_true h5, of_decide_eq_true h6, h7,
    fun d => of_decide_eq_true (all_four h8 d), fun d => of_decide_eq_true (all_four h9 d)⟩

theorem test_lab_sound : lab.Sound := sound_of (by decide)

/-! ## Single steps -/

theorem test_check_of_a_request : withCheck 0xFFFF [0x01, 0x00, 0x00, 0x00]
    = [0x01, 0x00, 0x00, 0x00] ++ (withCheck 0xFFFF [0x01, 0x00, 0x00, 0x00]).drop 4
    ∧ verifies 0xFFFF (withCheck 0xFFFF [0x01, 0x00, 0x00, 0x00]) = true := by decide +kernel

theorem test_slots_of_profile_2 : ([0, 1, 2, 6, 7].map (Geometry.slotOf ⟨411, 4, 20, 256, 3, 20, 0xFFFF⟩))
    = [0, 3, 6, 18, 1] := by decide +kernel

theorem test_address_window :
    (after (exec (.addressHi 0xAB12) lab)).port.address = 0x120000#24
    ∧ (after (exec (.addressLo 0x3456) lab)).port.address = 0x003456#24 := by decide +kernel

theorem test_probe_and_start : (after (exec (.probe 0) lab)).port.answer = .accepted
    ∧ (after (exec (.probe 1) lab)).port.answer = .unavailable
    ∧ ((after (exec (.start 0) lab)).units.get 0).state = .fetch
    ∧ (after (exec (.start 0) lab)).req.state = .requesting := by decide +kernel

theorem test_step_takes_the_front :
    (after (step { lab with pending := [.addressHi 0x12, .addressLo 0x34] })).pending = [.addressLo 0x34]
    ∧ (after (step { lab with pending := [.addressHi 0x12] })).port.address = 0x120000#24
    ∧ after (step lab) = lab := by decide +kernel

theorem test_start_up :
    (after (exec (.storeCheckEnd false false) State.reset)).ctl.phase = some .format
    ∧ (after (exec .formatEnd (labCtl .starting (some .format)))).freeList.length = 448
    ∧ (after (exec .discoveryPhaseEnd (labCtl .starting (some .discovery)))).ctl.state = .ready := by decide +kernel

theorem test_identify_reads_back :
    ((after (exec (.readWindow 5) (after (exec (.identify 7 []) lab)))).link.out)
      = [0xFF, 0x01, 0x07, 0x00, 0x00] := by decide +kernel

theorem test_queue_track_binds : ((after (exec (.queueTrack 1 [0, 0, 0, 0]) lab)).track 0).state = .active
    ∧ ((after (exec (.queueTrack 1 [0, 0, 0, 0]) lab)).ctxs.get 0).state = .reading
    ∧ (after (exec (.queueTrack 1 [0, 0, 0, 0]) lab)).freeList = [1, 2] := by decide +kernel

theorem test_sweep_feeds : ((after (exec (.sweepStart 1 [0, 0, 9]) lab)).track 0).addr = some ⟨0, 9, 0⟩
    ∧ ((after (exec (.sweepStart 1 [0, 0, 9]) lab)).sweeps.get 0).head = 0
    ∧ ((after (exec (.sweepStart 1 [0, 0, 9]) lab)).sweeps.get 0).cyl = 10 := by decide +kernel

theorem test_header_field : (after (exec (.headerField ⟨0, 0, 0, 0, 0x05, 0, 0⟩)
      { labBound .reading with path := { lab.path with
        grant := some ⟨.ctx 0, ⟨0, 0, 0⟩, .nominal, false, true, true⟩ } })).path.rev.header = .headerCheck := by decide +kernel

theorem test_lost_word_of_a_frame :
    let s : State := { labRec (recWith .settled (sectorOf .written)) with
      store := { lab.store with burst := some .scrub, flips := [(3, .uncorrectable)] } }
    (((after (exec (.storeBurstEnd [3]) s)).track 0).sector 0).status = .lost
    ∧ (after (exec (.storeBurstEnd [3]) s)).store.uncorrected = 1
    ∧ (after (exec (.storeBurstEnd [3]) s)).store.flips = [] := by decide +kernel

theorem test_scrub_wraps :
    (after (exec .scrubGroup { lab with store := { lab.store with scrubCursor := 8388544 } })).store.scrubCursor = 0
    ∧ (after (exec .scrubGroup lab)).store.scrubCursor = 64 := by decide +kernel

/-! ## Premises: commands, reset and controller states -/

theorem test_StepRunsFrontCommand : State.reset.pending = [] ∧ lab.pending = [] := by decide

theorem test_EveryCommandCompletes : (∀ straps, Instr.formatEnd ≠ .powerOn straps)
    ∧ (∀ d, Instr.formatEnd ≠ .readyLineFall d) ∧ (∀ d, Instr.formatEnd ≠ .readyLineRise d)
    ∧ (∀ d, Instr.formatEnd ≠ .faultLineRise d) ∧ (∀ d, Instr.formatEnd ≠ .driveAnswer d) :=
  ⟨fun _ => nofun, fun _ => nofun, fun _ => nofun, fun _ => nofun, fun _ => nofun⟩

theorem test_StepKeepsSound : lab.Sound ∧ step lab = .next lab := ⟨test_lab_sound, rfl⟩

theorem test_ControllerMovesAsRuled :
    ∃ t, exec .discoveryPhaseEnd (labCtl .starting (some .discovery)) = .next t ∧ t.ctl.state ≠ .starting
      ∧ t.ctl.state = .ready ∧ (∀ x, Instr.discoveryPhaseEnd ≠ .powerOn x)
      ∧ (∀ x y, Instr.discoveryPhaseEnd ≠ .storeCheckEnd x y) :=
  ⟨after (exec .discoveryPhaseEnd (labCtl .starting (some .discovery))), rfl, by decide +kernel,
    by decide +kernel, fun _ => nofun, fun _ _ => nofun⟩

theorem test_StoreCheckOutcome :
    (State.reset.ctl.state = .starting ∧ State.reset.ctl.phase = some .storeCheck
      ∧ State.reset.ctl.straps.storeSize = .mib8)
    ∧ (after (exec (.powerOn ⟨.mib16, 0, 4, 0⟩) State.reset)).ctl.state = .starting
    ∧ (after (exec (.powerOn ⟨.mib16, 0, 4, 0⟩) State.reset)).ctl.phase = some .storeCheck
    ∧ (after (exec (.powerOn ⟨.mib16, 0, 4, 0⟩) State.reset)).ctl.straps.storeSize ≠ .mib8
    ∧ ¬ (lab.ctl.state = .starting ∧ lab.ctl.phase = some .storeCheck) := by decide +kernel

theorem test_FormatAndDiscoveryBegin :
    let s := labCtl .starting (some .format)
    s.ctl.state = .starting ∧ s.ctl.phase = some .format
      ∧ (∀ d, (s.drives.get d).fitted = true →
        (s.drives.get d).state ≠ DriveState.faulted ∧ (s.drives.get d).state ≠ DriveState.withdrawn)
      ∧ (s.drives.get 0).fitted = true ∧ (s.drives.get 1).fitted = false := by decide +kernel

/-- A discovery that has just begun. -/
def begun : Discovery := { skipRecalibration := false, stage := .awaitAnswer }

theorem test_StartUpEndsInReady :
    let s := labCtl .starting (some .discovery)
    let r := labCtl .resuming none
    let x := s.modDrive 0 fun d => { d with discovery := some begun }
    let y := r.modDrive 0 fun d => { d with discovery := some begun }
    (s.ctl.state = .starting ∧ s.ctl.phase = some .discovery ∧ s.store.flips = [] ∧ r.store.flips = []
      ∧ ∀ d, (s.drives.get d).fitted = true → (s.drives.get d).discovery = none)
    ∧ (∃ d, (x.drives.get d).fitted = true ∧ (x.drives.get d).discovery ≠ none)
    ∧ ¬ (lab.ctl.state = .starting ∧ lab.ctl.phase = some .discovery)
    ∧ (r.ctl.state = .resuming ∧ ∀ d, (r.drives.get d).fitted = true →
        (r.drives.get d).state ≠ DriveState.withdrawn → (r.drives.get d).discovery = none)
    ∧ (∃ d, (y.drives.get d).fitted = true ∧ (y.drives.get d).state ≠ DriveState.withdrawn
        ∧ (y.drives.get d).discovery ≠ none)
    ∧ lab.ctl.state ≠ .resuming := by decide +kernel

theorem test_HoldEntered :
    let s := labCtl .draining none
    let b := { labBound .evaluating with ctl := s.ctl }
    (s.ctl.state = .draining ∧ (∀ c, (s.ctxs.get c).state = .free) ∧ s.store.burst = none ∧ s.store.asks = []
      ∧ (∀ u, (s.units.get u).state ≠ .wait) ∧ s.drs.waitingUnits = [] ∧ s.vote.requests = [])
    ∧ lab.ctl.state ≠ .draining
    ∧ (b.ctl.state = .draining ∧ ∃ c, (b.ctxs.get c).state ≠ .free) := by decide +kernel

/-- The link takes requests from the small state. -/
theorem link_lab : linkReady lab := ⟨rfl, rfl⟩

theorem test_HoldEnterDrains : linkReady lab
    ∧ (∃ u, ((labUnit fun r => { r with state := .run }).units.get u).state ≠ .idle
        ∧ ((labUnit fun r => { r with state := .run }).units.get u).state ≠ .pending)
    ∧ ({ lab with drs := { lab.drs with state := .reading } } : State).drs.state ≠ .free
    ∧ (∀ u, (lab.units.get u).state = .idle ∨ (lab.units.get u).state = .pending) ∧ lab.drs.state = .free
    ∧ (∀ c, (lab.ctxs.get c).state ≠ .positioning ∧ (lab.ctxs.get c).state ≠ .waitPath
        ∧ (lab.ctxs.get c).state ≠ .faultHold) := ⟨link_lab, by decide +kernel⟩

theorem test_UnboundTrackLeadsItsClass :
    let s := labBound .positioning
    (s.ctxs.get 0).track = some 0 ∧ (s.track 0).cls = some .demand ∧ (s.track 0).state = .active
      ∧ (s.track 0).addr = some ⟨0, 0, 0⟩ ∧ (s.drives.get 0).claim = some (.ctx 0)
      ∧ (s.drives.get 0).drsWaiting = false ∧ s.path.grant = none ∧ s.drs.state ≠ .waitPath
      ∧ (∀ e, e ≠ 0 → (s.ctxs.get e).state ≠ .waitPath) := by decide +kernel

theorem test_HoldExitByState : (labCtl .draining none).store.flips = []
    ∧ (labCtl .draining none).link.rstLine = false ∧ (labCtl .draining none).ctl.state = .draining
    ∧ (labCtl .hold none).link.rstLine = false ∧ (labCtl .hold none).ctl.state = .hold
    ∧ ((labCtl .hold none).drives.get 0).fitted = true
    ∧ ((labCtl .hold none).drives.get 1).fitted = false
    ∧ (∀ d, ((labCtl .hold none).drives.get d).state ≠ DriveState.faulted)
    ∧ (labCtl .resuming none).ctl.state = .resuming ∧ lab.ctl.state = .ready := by decide +kernel

theorem test_ResetControllerRestartsFromRescan :
    (labCtl .starting (some .format)).Sound ∧ (labCtl .starting (some .format)).link.rstLine = false
    ∧ (labCtl .starting (some .format)).ctl.phase = some .format
    ∧ (labBound .evaluating).Sound ∧ (labBound .evaluating).store.flips = []
    ∧ (labBound .evaluating).link.rstLine = false
    ∧ (labBound .evaluating).ctl.state ≠ .storeFailed ∧ (labBound .evaluating).ctl.phase ≠ some .storeCheck
    ∧ (labBound .evaluating).ctl.phase ≠ some .format
    ∧ ((labBound .evaluating).ctxs.get 0).track = some 0
    ∧ ((labBound .evaluating).track 0).cls = some .demand :=
  ⟨sound_of (by decide +kernel), rfl, rfl, sound_of (by decide +kernel), by decide +kernel⟩

/-- A rescan's state: slot 0 BROKEN, slot 1 SETTLED, and every other slot FREE. -/
def rescanned : State :=
  { labCtl .starting (some .rescan) with
    tracks := [(0, TrackRec.broken true), (1, recWith .settled (sectorOf .clean))] }

theorem rescanned_track (n : Nat) : rescanned.track (n + 2) = TrackRec.free := by
  simp [State.track, rescanned, assocFind]

theorem rescanned_nobody (n : Nat) (a : TrackAddr) (h : n ≠ 1) : (rescanned.track n).holds a = false := by
  match n with
  | 0 => rfl
  | 1 => exact absurd rfl h
  | n + 2 => rw [rescanned_track]; rfl

theorem test_RescanPutsTracksInOrder :
    rescanned.ctl.state = .starting ∧ rescanned.ctl.phase = some .rescan ∧ rescanned.store.flips = []
    ∧ (∀ c, rescanned.ctxs.get c = CtxRec.free) ∧ (∀ u, rescanned.units.get u = UnitRec.reset)
    ∧ rescanned.Sound ∧ (∀ n, rescanned.usable ≤ n → (rescanned.track n).state = .free)
    ∧ (∀ n k a, n ≠ k → (rescanned.track n).holds a = true → (rescanned.track k).holds a = false)
    ∧ (∀ d, (rescanned.drives.get d).state ≠ DriveState.faulted)
    ∧ (0 < rescanned.usable ∧ (rescanned.track 0).state = .broken)
    ∧ (1 < rescanned.usable ∧ (rescanned.track 1).state ≠ .broken ∧ (rescanned.track 1).state ≠ .free)
    ∧ (2 < rescanned.usable ∧ (rescanned.track 2).state = .free) := by
  refine ⟨rfl, rfl, rfl, by decide +kernel, by decide +kernel, sound_of (by decide +kernel), fun n h => ?_,
    fun n k a h g => ?_, by decide +kernel⟩
  · obtain ⟨m, rfl⟩ : ∃ m, n = m + 2 := ⟨n - 2, by
      have : (448 : Nat) ≤ n := h
      omega⟩
    rw [rescanned_track]; rfl
  · by_cases hn : n = 1
    · exact rescanned_nobody k a (by omega)
    · rw [rescanned_nobody n a hn] at g; cases g

/-! ## Premises: the System Port -/

theorem test_WindowWritesByWord :
    ({ lab with port := { lab.port with clearLine := true } } : State).port.clearLine = true
    ∧ lab.port.clearLine = false ∧ lab.store.flips = [] ∧ workAnswer lab 1 = .unavailable
    ∧ (labCtl .draining none).ctl.state ≠ .ready
    ∧ workAnswer (labUnit fun r => { r with state := .pending }) 0 = .statusPending
    ∧ workAnswer (labUnit fun r => { r with state := .ending }) 0 = .busy
    ∧ (workAnswer lab 0 = .accepted ∧ (after (exec (.addressLo 1) lab)).port.address.toNat % 2 = 1)
    ∧ ((0 : Word16).toNat % 16 = 0) ∧ (6 < (7 : Word16).toNat % 16) := by decide +kernel

theorem test_StartFetchesFirstOrder :
    let e : State := { lab with port := { lab.port with address := 0xFFFFF8 } }
    let f : State := { lab with port := { lab.port with address := 0xFFFFFA } }
    e.port.clearLine = false ∧ workAnswer e 0 = .accepted ∧ e.port.address.toNat % 2 = 0 ∧ e.store.flips = []
    ∧ e.port.address.toNat + 2 * min e.port.settings.burst 6 ≤ 0x1000000
    ∧ f.port.clearLine = false ∧ workAnswer f 0 = .accepted ∧ f.port.address.toNat % 2 = 0
    ∧ 0x1000000 < f.port.address.toNat + 2 * min f.port.settings.burst 6
    ∧ f.port.settings.statusBase ≤ 0xFFFFC0 ∧ f.store.flips = [] := by decide +kernel

/-- Unit 0 waiting for sector 3 of the track in slot 0, its timer running. -/
def waiting : State :=
  { labRec { recWith .queued SectorRec.fresh with waiters := 1 } with
    units := lab.units.modify 0 fun r => { r with state := .wait, waitOn := some (.sector 0 3), patience := some 9 } }

theorem test_HaltByUnitState : lab.port.clearLine = false
    ∧ (lab.units.get 0).state = .idle
    ∧ ((labUnit fun r => { r with state := .ending }).units.get 0).state = .ending
    ∧ ((labUnit fun r => { r with state := .pending }).units.get 0).state = .pending
    ∧ ((labUnit fun r => { r with state := .fetch }).units.get 0).state = .fetch
    ∧ ((labUnit fun r => { r with state := .run }).units.get 0).state = .run
    ∧ ((waiting.units.get 0).state = .wait ∧ waiting.port.settings.statusBase ≤ 0xFFFFC0
      ∧ waiting.drs.serving ≠ some 0 ∧ waiting.store.flips = []
      ∧ (waiting.units.get 0).waitOn = some (.sector 0 3)
      ∧ (waiting.units.get 0).writeTrack = none ∧ (waiting.track 0).state ≠ .free)
    ∧ ((labUnit fun r => { r with state := .wait, waitOn := some .drs }).units.get 0).waitOn = some .drs := by
  decide +kernel

theorem test_AcknowledgedStatusIsCleared :
    let p := labUnit fun r => { r with state := .pending }
    let q := labUnit fun r => { r with state := .pending, stacked := true }
    ((p.units.get 0).state = .pending ∧ (p.units.get 0).stacked = false ∧ p.port.clearLine = false)
    ∧ ((q.units.get 0).state = .pending ∧ (q.units.get 0).stacked = true
      ∧ q.port.settings.statusBase ≤ 0xFFFFC0)
    ∧ (lab.units.get 0).state ≠ .pending
    ∧ ({ lab with port := { lab.port with statusLost := true } } : State).port.statusLost = true
    ∧ (lab.port.storeError = false ∧ lab.port.setupFailed = false ∧ lab.port.stateChange = false
      ∧ lab.port.statusLost = false) := by decide +kernel

/-- A burst of four words of a claimant. -/
def burstOf (cl : BusClaimant) (dir : Direction) : Burst :=
  { claimant := cl, direction := dir, addr := 0x400, count := 4, key := 0, words := [] }

/-- The second burst of a setup fetch in its cycle. -/
def fetching (st : ReqState) : State :=
  { lab with
    req := { lab.req with state := st, current := some (burstOf .setup .load) }
    port := { lab.port with setupFetch := some ⟨0x3F8, [0, 0x200, 0, 0x1111]⟩ } }

theorem test_SetupFetchInstallsOrFails :
    let e : State := { lab with port := { lab.port with address := 0xFFFFF8 } }
    let f : State := { lab with port := { lab.port with address := 0xFFFFFA } }
    let o : State := { lab with port := { lab.port with address := 0x000001 } }
    let u := labUnit fun r => { r with state := .pending }
    ((u.port.clearLine = false ∧ ∃ v, (u.units.get v).state ≠ .idle)
      ∧ (fetching .inCycle).port.setupFetch ≠ none
      ∧ ((∀ v, (o.units.get v).state = .idle) ∧ o.port.setupFetch = none ∧ o.port.address.toNat % 2 = 1)
      ∧ (e.port.address.toNat % 2 = 0 ∧ e.port.address.toNat + 2 * min e.port.settings.burst 8 ≤ 0x1000000)
      ∧ (f.port.address.toNat % 2 = 0
        ∧ 0x1000000 < f.port.address.toNat + 2 * min f.port.settings.burst 8))
    ∧ (fetching .inCycle).req.current = some (burstOf .setup .load) ∧ (burstOf .setup .load).claimant = .setup
    ∧ (fetching .inCycle).port.setupFetch = some ⟨0x3F8, [0, 0x200, 0, 0x1111]⟩
    ∧ (fetching .inCycle).req.state = .inCycle
    ∧ [0, 0x200, 0, (0x1111 : Word16)].length + (burstOf .setup .load).count = 8
    ∧ (burstOf .setup .load).count ≤ [50, 1, 0, (0 : Word16)].length
    ∧ (∃ x, settingsOf ([0, 0x200, 0, 0x1111] ++ [50, 1, 0, 0]) = some x)
    ∧ settingsOf ([0, 0x200, 0, 0x1111] ++ [49, 1, 0, 0]) = none
    ∧ settingsOf ([0, 0x201, 0, 0x1111] ++ [50, 1, 0, 0]) = none
    ∧ settingsOf ([0, 0x200, 0, 0x1115] ++ [10000, 8, 0, 0]) = none
    ∧ MemoryOutcome.parity ≠ .done ∧ (fetching .requesting).req.state = .requesting := by
  refine ⟨by decide +kernel, rfl, rfl, rfl, rfl, rfl, by decide,
    Option.isSome_iff_exists.mp (by decide +kernel), by decide +kernel⟩

/-- Units 0 and 2 wait for a free requester that served unit 0 last. -/
def twoWait : State :=
  { lab with req := { lab.req with
      lastServed := .unit 0
      unitWaiting := ⟨some (burstOf (.unit 0) .load), none, some (burstOf (.unit 2) .load), none⟩ } }

theorem test_BusHandshake : (fetching .inCycle).req.state ≠ .free
    ∧ (∀ cl, lab.req.waiting cl = none)
    ∧ (twoWait.req.state = .free ∧ twoWait.req.waiting (.unit 2) = some (burstOf (.unit 2) .load)
      ∧ ∀ cl', twoWait.req.waiting cl' ≠ none →
        cyclePlace twoWait.req.lastServed (.unit 2) ≤ cyclePlace twoWait.req.lastServed cl')
    ∧ (fetching .requesting).req.state = .requesting ∧ lab.req.state ≠ .requesting
    ∧ (fetching .presenting).req.state = .presenting ∧ lab.req.state ≠ .presenting
    ∧ (fetching .finishing).req.state = .finishing
    ∧ (lab.req.state ≠ .inCycle ∧ lab.req.state ≠ .finishing) := by
  refine ⟨by decide +kernel, fun cl => ?_, ⟨rfl, rfl, fun cl => ?_⟩, by decide +kernel⟩
  · cases cl with
    | unit u => revert u; decide +kernel
    | setup => rfl
  · cases cl with
    | unit u => revert u; decide +kernel
    | setup => exact fun h => absurd rfl h

/-- A unit's transfer in its last burst of four words. -/
def moving (kind : TransferKind) (r : UnitRec → UnitRec) (st : ReqState) (got : List Word16) : State :=
  { lab with
    req := { lab.req with state := st, current := some (burstOf (.unit 0) .store) }
    units := lab.units.modify 0 fun x => r { x with
      state := .run
      transfer := some { kind := kind, key := 0, addr := 0x400, left := 8, out := [], got := got } } }

/-- The transfer that `moving` gives the unit. -/
def moved (kind : TransferKind) (got : List Word16) : Transfer :=
  { kind := kind, key := 0, addr := 0x400, left := 8, out := [], got := got }

theorem test_StatusStoredMakesPending :
    (moving .statusStore id .inCycle []).req.current = some (burstOf (.unit 0) .store)
    ∧ ((moving .statusStore id .inCycle []).units.get 0).transfer = some (moved .statusStore [])
    ∧ (moved .statusStore []).kind = .statusStore
    ∧ (moving .statusStore id .inCycle []).req.state = .inCycle
    ∧ (moved .statusStore []).left ≤ 2 * (burstOf (.unit 0) .store).count
    ∧ MemoryOutcome.keyViolation ≠ .done
    ∧ (moving .statusStore id .requesting []).req.state = .requesting := by decide +kernel

theorem test_OrderBlockJudged :
    (moving .orderFetch id .inCycle [1, 2]).req.current = some (burstOf (.unit 0) .store)
    ∧ ((moving .orderFetch id .inCycle [1, 2]).units.get 0).transfer = some (moved .orderFetch [1, 2])
    ∧ ((moving .orderFetch id .inCycle [1, 2]).units.get 0).haltTold = false
    ∧ (moving .orderFetch id .inCycle [1, 2]).port.settings.statusBase ≤ 0xFFFFC0
    ∧ (moving .orderFetch id .inCycle [1, 2]).store.flips = []
    ∧ memoryFailure .parity = some .parity ∧ memoryFailure .addressInvalid = some .addressInvalid
    ∧ (moved .orderFetch [1, 2]).left = 2 * (burstOf (.unit 0) .store).count
    ∧ (burstOf (.unit 0) .store).count ≤ [0, 1, 0, (0 : Word16)].length
    ∧ (moved .orderFetch [1, 2]).got.length + (burstOf (.unit 0) .store).count = 6
    ∧ ((([0x6, 2] ++ [0, 1, 0, 0] : List Word16).getD 0 0).toNat % 16 = 6)
    ∧ ((([0x2, 2] ++ [0, 1, 0, 0] : List Word16).getD 3 0).toNat % 2 = 1)
    ∧ (moving .orderFetch id .requesting []).req.state = .requesting := by decide +kernel

/-- The READ order whose last sector is being delivered. -/
def lastRead : Order :=
  { op := .read, chained := false, suppressLength := false, acceptGuess := true, count := 256
    dataAddress := 0x300, cyl := 0, head := 1, sector := 15 }

theorem test_LastSectorEndsTheList :
    let s := moving .deliver (fun x => { x with
      order := some lastRead, residual := 256, buffer := List.replicate 256 0, position := ⟨0, 1, 15⟩ }) .inCycle []
    s.req.current = some (burstOf (.unit 0) .store) ∧ s.req.state = .inCycle
    ∧ (s.units.get 0).transfer = some (moved .deliver [])
    ∧ (moved .deliver []).left ≤ 2 * (burstOf (.unit 0) .store).count
    ∧ (s.units.get 0).order = some lastRead ∧ lastRead.chained = false ∧ (s.units.get 0).haltTold = false
    ∧ (s.units.get 0).writeTrack = none ∧ (s.units.get 0).residual ≤ (s.units.get 0).buffer.length
    ∧ s.geometry.get 0 = some geo0 ∧ s.port.settings.statusBase ≤ 0xFFFFC0 := by decide +kernel

theorem test_PatienceEndsTheWait : waiting.port.settings.statusBase ≤ 0xFFFFC0
    ∧ (waiting.units.get 0).state = .wait ∧ (waiting.units.get 0).patience ≠ none
    ∧ (waiting.units.get 0).waitOn = some (.sector 0 3) ∧ (waiting.units.get 0).writeTrack = none
    ∧ (waiting.track 0).state ≠ .free ∧ waiting.store.flips = []
    ∧ (lab.units.get 0).state ≠ .wait ∧ (lab.units.get 0).patience = none := by decide +kernel

/-- The Direct Read Slot reads sector 0 of track 0/0 for unit 0 on drive 0, from which it displaced context 0 if
that is told. -/
def directRead (of : Option (Fin 4)) : State :=
  let b := if of = none then lab else labBound .displaced
  { b with
    drs := { DrsRec.reset with
      state := .reading, serving := some 0, target := some ⟨⟨0, 0, 0⟩, 0⟩, attempts := 2, checkFails := 1
      capture := List.replicate 258 0 }
    units := b.units.modify 0 fun r => { r with state := .wait, waitOn := some .drs, residual := 256 }
    drives := b.drives.modify 0 fun r => { r with claim := some .drs, displacedContext := of }
    path := { b.path with
      grant := some ⟨.drs, ⟨0, 0, 0⟩, .nominal, false, true, true⟩
      rev := { Revolution.start with header := .addressed 0 } } }

theorem test_SystemClearResetsSystemSide : lab.port.clearLine = false ∧ lab.store.flips = []
    ∧ lab.drs.target = none
    ∧ (let s := directRead (some 0)
       s.port.clearLine = false ∧ s.store.flips = [] ∧ s.drs.target = some ⟨⟨0, 0, 0⟩, 0⟩
        ∧ (s.drives.get 0).claim = some .drs ∧ (s.drives.get 0).displacedContext = some 0
        ∧ (s.ctxs.get 0).state = .displaced ∧ (s.ctxs.get 0).track = some 0
        ∧ (s.track 0).addr = some ⟨0, 0, 0⟩)
    ∧ ((directRead none).drives.get 0).displacedContext = none
    ∧ ({ lab with port := { lab.port with clearLine := true } } : State).port.clearLine = true := by
  decide +kernel

/-! ## Premises: the Archive Link -/

/-- The small state with the LINK_RST line asserted. -/
def labRst : State := { lab with link := { lab.link with rstLine := true } }

theorem isFrame_length {w : List Byte} {kind tag : Byte} {payload : List Byte}
    (h : isFrame w kind tag payload) : w.length = payload.length + 6 := by
  rw [h.2]
  simp [withCheck]

/-- The frame of IDENTIFY with tag 7. -/
def identifyFrame : List Byte := withCheck 0xFFFF [0x01, 7, 0, 0]

theorem test_RequestFrameJudged :
    (requestRow (.identify 1 longPayload) = some (0x01, 1, [0], .always, longPayload)
      ∧ 544 < longPayload.length
      ∧ requestRow (.setLimits 1 [0]) = some (0x03, 1, [7], .readyOnly, [0]) ∧ [(0 : Byte)].length ∉ [7]
      ∧ requestRow (.setLimits 1 [0, 1, 1, 1, 1, 1, 0])
          = some (0x03, 1, [7], .readyOnly, [0, 1, 1, 1, 1, 1, 0])
      ∧ notPerformed .readyOnly .draining = some .holding ∧ (labCtl .draining none).ctl.state = .draining
      ∧ notPerformed .notStoreFailed .storeFailed = some .storeError
      ∧ notPerformed .always .storeFailed = none)
    ∧ ([0x01, 0x02] : List Byte) ≠ [] ∧ ([0x01, 0x02] : List Byte).getD 0 0 ≠ 0
    ∧ labRst.link.rstLine = true ∧ lab.link.rstLine = false
    ∧ (¬ ∃ kind tag payload, isFrame [0x01, 0x02] kind tag payload)
    ∧ (isFrame (withCheck 0xFFFF [0x1A, 7, 0, 0]) 0x1A 7 [] ∧ 0x19 < (0x1A : Byte).toNat)
    ∧ isFrame identifyFrame 0x01 7 [] ∧ identifyFrame.getD 0 0 ≠ 0
    ∧ requestRow (.identify 7 []) = some (0x01, 7, [0], .always, []) := by
  refine ⟨⟨rfl, by decide +kernel, rfl, by decide, rfl, rfl, rfl, rfl, rfl⟩, by decide, by decide, rfl, rfl,
    fun ⟨k, t, p, h⟩ => ?_, ⟨⟨by decide, rfl⟩, by decide⟩,
    ⟨by decide, rfl⟩, by decide +kernel, rfl⟩
  have := isFrame_length h
  simp only [List.length_cons, List.length_nil] at this
  omega

theorem test_ReadWindowSendsTheSlot : 1 ≤ 1 ∧ lab.link.rstLine = false ∧ lab.link.slot = none
    ∧ labRst.link.rstLine = true
    ∧ (after (exec (.identify 7 []) lab)).link.slot ≠ none := by decide +kernel

theorem test_LinkResetReleasesLocks :
    let s : State := { labRec { rec0 with lock := some 1 } with locks := lab.locks.set 1 (some 0) }
    s.Sound ∧ s.link.rstLine = false ∧ s.store.flips = [] ∧ labRst.link.rstLine = true
      ∧ s.locks.get 1 = some 0 ∧ (∀ e, s.locks.get e ≠ some 1) :=
  ⟨sound_of (by decide +kernel), by decide +kernel⟩

/-- R172: a LOCK that the lock table lists no more is none of LINK_RST's (log entry 38). -/
theorem test_stale_lock_stays : ((labRec { rec0 with lock := some 0 }).linkReset.track 0).lock = some 0 := by
  decide +kernel

theorem test_IdentifyAndStoreStateReported : lab.link.rstLine = false ∧ lab.ctl.state = .ready := by decide

theorem test_AttentionReportsAndEmpties : lab.link.rstLine = false ∧ lab.ctl.state ≠ .storeFailed
    ∧ lab.store.flips = [] := by decide

theorem test_LimitsInstalledTogether : linkReady lab ∧ lab.store.flips = []
    ∧ ((64 : Byte).toNat ≤ 64 ∧ 1 ≤ (16 : Byte).toNat ∧ (16 : Byte).toNat ≤ 16
      ∧ (∀ v ∈ [(1 : Byte), 8, 1, 8], 1 ≤ v.toNat ∧ v.toNat ≤ 8) ∧ (60 : Byte).toNat ≤ 60)
    ∧ ¬ ((65 : Byte).toNat ≤ 64) ∧ ¬ (1 ≤ (0 : Byte).toNat) ∧ ¬ ((17 : Byte).toNat ≤ 16)
    ∧ ¬ ((9 : Byte).toNat ≤ 8) ∧ ¬ ((61 : Byte).toNat ≤ 60) := ⟨link_lab, by decide⟩

theorem ladderBytes_length (steps : List LadderStep) : (ladderBytes steps).length = 1 + 4 * steps.length := by
  induction steps with
  | nil => rfl
  | cons st rest ih =>
    simp only [ladderBytes, List.length_cons, List.map_cons, List.flatten_cons, List.length_append] at ih ⊢
    have : (stepBytes st).length = 4 := rfl
    omega

/-- Twelve steps of 15 revolutions. -/
def longLadder : List LadderStep := List.replicate 12 ⟨.late, .outward, 15, true⟩

theorem test_LadderReplacedWhole : linkReady lab
    ∧ ((∃ k, k < 12 ∧ (ladderBytes longLadder).length = 5 + 4 * k) ∧ ladderGood longLadder)
    ∧ ((∃ k, k < 12 ∧ ([2, 1, 0, 2, 0] : List Byte).length = 5 + 4 * k)
      ∧ ¬ ∃ steps, ladderBytes steps = [2, 1, 0, 2, 0] ∧ ladderGood steps) := by
  refine ⟨link_lab, ⟨⟨11, by decide, by decide⟩, ?_⟩, ⟨0, by decide, by decide⟩, ?_⟩
  · exact ⟨by decide, by decide, by decide⟩
  · rintro ⟨steps, h, -⟩
    have hl := ladderBytes_length steps
    rw [h] at hl
    obtain ⟨st, rfl⟩ := List.length_eq_one_iff.mp (show steps.length = 1 by
      simp only [List.length_cons, List.length_nil] at hl
      omega)
    simp [ladderBytes] at h

/-! ## Premises: track requests -/

theorem labRec_other (r : TrackRec) {k : Nat} (h : k ≠ 0) : (labRec r).track k = TrackRec.free := by
  simp [State.track, labRec, assocFind, Ne.symm h]

theorem labRec_holds {r : TrackRec} {a : TrackAddr} (h : r.holds a = true) (k : Nat) :
    ((labRec r).track k).holds a = true ↔ k = 0 := by
  by_cases hk : k = 0
  · subst hk
    exact ⟨fun _ => rfl, fun _ => h⟩
  · rw [labRec_other r hk]
    exact ⟨fun g => (by cases g), fun g => absurd g hk⟩

theorem lab_nobody (a : TrackAddr) (k : Nat) : (lab.track k).holds a = false := rfl

/-- Slot 0 by number, and the track 0/0/0 by address. -/
def bySlot : List Byte := [1, 0, 0, 0, 0, 0]
def byAddr : List Byte := [0, 0, 0, 0, 0, 0]

theorem bySlot_form (rest : List Byte) : ((bySlot ++ rest).getD 0 0).toNat = 1 := by simp [bySlot]

theorem bySlot_slot (rest : List Byte) : word2 (bySlot ++ rest) 1 = 0 := by simp [bySlot, word2]

theorem labRec_usable (r : TrackRec) : 0 < (labRec r).usable := (show 0 < lab.usable by decide +kernel)

theorem names_slot (r : TrackRec) (rest : List Byte) (h : r.state ≠ .free) :
    names (labRec r) (bySlot ++ rest) 0 := Or.inl ⟨bySlot_form _, bySlot_slot _, labRec_usable r, h⟩

theorem byAddr_form (rest : List Byte) : ((byAddr ++ rest).getD 0 0).toNat = 0
    ∧ ((byAddr ++ rest).getD 1 0).toNat = (0 : Fin 4).val ∧ word2 (byAddr ++ rest) 2 = 0
    ∧ ((byAddr ++ rest).getD 4 0).toNat = 0 := by simp [byAddr, word2]

theorem names_addr (r : TrackRec) (rest : List Byte) (h : r.holds ⟨0, 0, 0⟩ = true) :
    names (labRec r) (byAddr ++ rest) 0 := by
  obtain ⟨h0, h1, h2, h3⟩ := byAddr_form rest
  refine Or.inr ⟨h0, 0, h1, ?_, ?_⟩
  · rw [h2, h3]
    intro g hg
    rw [← Option.some.inj hg]
    decide
  · rw [h2, h3]
    exact labRec_holds h

theorem test_TrackOperandRefused : linkReady lab ∧ lab.Sound ∧ lab.store.flips = []
    ∧ namesATrack (.lockTrack 1 [2, 0, 0, 0, 0, 0]) = true
    ∧ requestRow (.lockTrack 1 [2, 0, 0, 0, 0, 0]) = some (0x0E, 1, [6], .readyOnly, [2, 0, 0, 0, 0, 0])
    ∧ operandRefused lab [2, 0, 0, 0, 0, 0] .range
    ∧ operandRefused lab [1, 1, 0xC0, 0, 0, 0] .range
    ∧ operandRefused lab [0, 4, 0, 0, 0, 0] .range
    ∧ operandRefused lab [0, 0, 1, 0, 0, 0] .range
    ∧ operandRefused lab [1, 1, 0xBF, 0, 0, 0] .noSuchTrack
    ∧ operandRefused lab [0, 0, 0, 255, 1, 0] .noSuchTrack :=
  ⟨link_lab, test_lab_sound, rfl, rfl, rfl,
    Or.inl ⟨rfl, Or.inl (by decide)⟩,
    Or.inl ⟨rfl, Or.inr (Or.inl (by decide +kernel))⟩,
    Or.inl ⟨rfl, Or.inr (Or.inr ⟨rfl, Or.inl (by decide)⟩)⟩,
    Or.inl ⟨rfl, Or.inr (Or.inr ⟨rfl, Or.inr ⟨0, rfl, fun h => absurd (h geo0 rfl).1 (by decide)⟩⟩)⟩,
    Or.inr ⟨rfl, Or.inl (by decide +kernel)⟩,
    Or.inr ⟨rfl, Or.inr ⟨rfl, 0, rfl, fun g hg => by cases hg; decide, lab_nobody _⟩⟩⟩

theorem test_RecordsReported : lab.link.rstLine = false ∧ lab.store.flips = [] ∧ lab.ctl.state = .ready
    ∧ lab.ctl.state ≠ .storeFailed ∧ 3 < (4 : Byte).toNat ∧ (3 : Byte).toNat = (3 : Fin 4).val
    ∧ (labRec rec0).Sound ∧ (bySlot.length = 6 ∧ names (labRec rec0) (bySlot ++ []) 0)
    ∧ names (labRec rec0) (byAddr ++ []) 0
    ∧ lab.usable ≤ 1 * 256 + 0xC0 ∧ 1 * 256 + 0xBF < lab.usable
    ∧ (0x40 : Byte).toNat % 64 = 0 ∧ (0x3F : Byte).toNat % 64 ≠ 0 := by
  refine ⟨rfl, rfl, rfl, by decide, by decide, rfl, sound_of (by decide +kernel), ⟨rfl, ?_⟩, ?_,
    by decide +kernel⟩
  · exact names_slot _ _ (by decide)
  · exact names_addr _ _ (by decide)

/-- Context 0 holds one candidate of sector 0, in its entry 3. -/
def labCandidate : State :=
  { labBound .evaluating with
    ctxs := lab.ctxs.set 0 { ctx0 .evaluating with candidates := [3] :: List.replicate 15 [] } }

theorem test_PullReturnsTheSector :
    linkReady (labRec (TrackRec.broken false)) ∧ (labRec (TrackRec.broken false)).Sound
    ∧ names (labRec (TrackRec.broken false)) (bySlot ++ [0, 0]) 0
    ∧ (bySlot ++ [0, 0]).length = 8 ∧ ((labRec (TrackRec.broken false)).track 0).state = .broken
    ∧ (labRec (recWith .settled (sectorOf .voted))).Sound
    ∧ names (labRec (recWith .settled (sectorOf .voted))) (bySlot ++ [16, 0]) 0
    ∧ (recWith .settled (sectorOf .voted)).sectors.length ≤ ((bySlot ++ [16, 0]).getD 6 0).toNat
    ∧ ((recWith .settled (sectorOf .voted)).sectors.getD 0 SectorRec.fresh).status = .voted
    ∧ (let x := (recWith .settled { sectorOf .failed with guess := .present }).sectors.getD 0 SectorRec.fresh; x.status = .failed ∧ x.guess ≠ .damaged)
    ∧ (let x := (recWith .settled { sectorOf .failed with guess := .damaged }).sectors.getD 0 SectorRec.fresh; x.status = .failed ∧ x.guess = .damaged)
    ∧ ((recWith .queued SectorRec.fresh).sectors.getD 0 SectorRec.fresh).status = .pending
    ∧ (linkReady labCandidate ∧ labCandidate.Sound ∧ labCandidate.store.flips = []
      ∧ names labCandidate (bySlot ++ [0, 1]) 0 ∧ (labCandidate.track 0).context = some 0
      ∧ ((labCandidate.ctxs.get 0).candidates.getD 0 [])[1 - 1]? = some 3
      ∧ ∀ c, (labCandidate.track 0).context = some c →
          ((labCandidate.ctxs.get c).candidates.getD 0 []).length < 2) := by
  refine ⟨⟨rfl, rfl⟩, sound_of (by decide +kernel), names_slot _ _ (by decide), rfl, rfl,
    sound_of (by decide +kernel), names_slot _ _ (by decide), by decide +kernel, rfl, by decide +kernel,
    by decide +kernel, rfl, ⟨rfl, rfl⟩, sound_of (by decide +kernel), rfl,
    Or.inl ⟨rfl, rfl, by decide, by decide +kernel⟩, rfl, rfl, fun c h => ?_⟩
  cases h
  decide

theorem unresolved_fresh (st : TrackState) : unresolved (recWith st SectorRec.fresh) :=
  ⟨SectorRec.fresh, List.mem_cons_self, Or.inl rfl⟩

theorem resolved_clean (st : TrackState) : ¬ unresolved (recWith st (sectorOf .clean)) := by
  rintro ⟨x, hx, h⟩
  have : x = sectorOf .clean := by
    rcases List.mem_cons.mp hx with h | h
    · exact h
    · exact List.eq_of_mem_replicate h
  subst this
  rcases h with h | h <;> cases h

/-- A PUSH_SECTOR payload for sector 0 of slot 0 with 256 bytes. -/
def pushBytes : List Byte := bySlot ++ [0, 0] ++ List.replicate 256 0xA5

theorem test_PushReplacesTheSector :
    let locked (st : TrackState) (x : SectorRec) : TrackRec := { recWith st x with lock := some 1 }
    pushBytes.length = 264 ∧ linkReady (labRec (locked .settled (sectorOf .failed)))
    ∧ (labRec (locked .settled (sectorOf .failed))).Sound
    ∧ names (labRec (locked .settled (sectorOf .failed))) (bySlot ++ [0, 0] ++ List.replicate 256 0xA5) 0
    ∧ (pushBytes.drop 8).length = (locked .settled (sectorOf .failed)).sectorBytes
    ∧ (locked .settled (sectorOf .failed)).lock ≠ none ∧ (locked .settled (sectorOf .failed)).context = none
    ∧ (labRec (TrackRec.broken false)).Sound
    ∧ (¬ unresolved (locked .pending (sectorOf .clean)) ∧ (labRec (locked .pending (sectorOf .clean))).Sound)
    ∧ (labRec (locked .pending SectorRec.fresh)).Sound ∧ (locked .pending SectorRec.fresh).state = .pending
    ∧ (labRec (locked .queued SectorRec.fresh)).Sound ∧ (locked .queued SectorRec.fresh).state = .queued
    ∧ ((recWith .settled (sectorOf .failed)).lock = none)
    ∧ ((locked .settled (sectorOf .marked)).sectors.getD 0 SectorRec.fresh).status = .marked
    ∧ (bySlot ++ [0, 0] ++ List.replicate 128 0xA5).length = 136
    ∧ (locked .settled (sectorOf .failed)).sectors.length ≤ 16 := by
  refine ⟨by decide +kernel, ⟨rfl, rfl⟩, sound_of (by decide +kernel),
    Or.inl ⟨rfl, rfl, by decide, by decide +kernel⟩, by decide +kernel, by decide, rfl,
    sound_of (by decide +kernel), ⟨resolved_clean .pending, sound_of (by decide +kernel)⟩, sound_of (by decide +kernel),
    rfl, sound_of (by decide +kernel), rfl, rfl, rfl, by decide +kernel, by decide +kernel⟩

/-- R43: a push to a sector of a track that has none unresolved settles nothing; one that resolves the last does. -/
theorem test_push_settles_at_the_last :
    let push (x : SectorRec) : TrackState := (((labRec (recWith .pending x)).takePush 0 0 []).track 0).state
    push (sectorOf .clean) = .pending ∧ push SectorRec.fresh = .settled := by decide +kernel

/-- The small state with a record in slot 0 and these locks held. -/
def labLocks (r : TrackRec) (l : Four (Option Nat)) : State := { labRec r with locks := l }

theorem test_LocksGivenAndReleased :
    let r := recWith .settled (sectorOf .clean)
    let first := labLocks r (Four.all none)
    let second := labLocks r ⟨some 7, none, none, none⟩
    let full := labLocks r ⟨some 7, some 8, some 9, some 10⟩
    let held := labLocks { r with lock := some 0 } ⟨some 0, none, none, none⟩
    bySlot.length = 6 ∧ linkReady first ∧ first.Sound ∧ first.store.flips = [] ∧ names first bySlot 0
    ∧ (linkReady full ∧ full.Sound ∧ names full bySlot 0 ∧ ∀ e, full.locks.get e ≠ none)
    ∧ (linkReady second ∧ second.Sound ∧ names second bySlot 0 ∧ second.locks.get 1 = none
      ∧ ∀ e', e' < 1 → second.locks.get e' ≠ none)
    ∧ (first.locks.get 0 = none ∧ ∀ e', e' < 0 → first.locks.get e' ≠ none)
    ∧ (linkReady held ∧ held.Sound ∧ names held bySlot 0 ∧ (held.track 0).lock = some 0)
    ∧ ((recWith .active SectorRec.fresh).state = .active ∧ (TrackRec.broken false).state = .broken) := by
  refine ⟨rfl, ⟨rfl, rfl⟩, sound_of (by decide +kernel), rfl, Or.inl (by decide +kernel),
    ⟨⟨rfl, rfl⟩, sound_of (by decide +kernel), Or.inl (by decide +kernel), by decide +kernel⟩,
    ⟨⟨rfl, rfl⟩, sound_of (by decide +kernel), Or.inl (by decide +kernel), by decide +kernel⟩,
    by decide +kernel,
    ⟨⟨rfl, rfl⟩, sound_of (by decide +kernel), Or.inl (by decide +kernel), by decide +kernel⟩,
    by decide +kernel⟩

theorem test_ExportMarkedAtItsRevision :
    let s := labRec (recWith .settled (sectorOf .clean))
    (bySlot ++ [0, 0]).length = 8 ∧ linkReady s ∧ s.Sound ∧ s.store.flips = []
    ∧ names s (bySlot ++ [0, 0]) 0 ∧ (s.track 0).state ≠ .broken
    ∧ word2 (bySlot ++ [0, 0]) 6 = (s.track 0).revision.toNat
    ∧ word2 (bySlot ++ [0, 1]) 6 ≠ (s.track 0).revision.toNat
    ∧ operandRefused s [2, 0, 0, 0, 0, 0, 0, 0] .range ∧ (s.track 0).state ≠ .free := by
  refine ⟨rfl, ⟨rfl, rfl⟩, sound_of (by decide +kernel), rfl, Or.inl (by decide +kernel), by decide +kernel,
    by decide +kernel, by decide +kernel, Or.inl ⟨rfl, Or.inl (by decide)⟩, by decide +kernel⟩

theorem test_ReleaseGivesTheFrameBack :
    let r := recWith .settled (sectorOf .clean)
    let s (x : TrackRec) : State := labRec x
    (bySlot ++ [0]).length = 7 ∧ linkReady (s r) ∧ (s r).Sound ∧ (s r).store.flips = []
    ∧ names (s r) (bySlot ++ [0]) 0 ∧ (r.state ≠ .active ∧ r.lock = none ∧ r.waiters = 0)
    ∧ (r.exported = false ∧ ((bySlot ++ [0]).getD 6 0).toNat % 2 ≠ 1)
    ∧ ((bySlot ++ [1]).getD 6 0).toNat % 2 = 1
    ∧ (s { r with exported := true }).Sound ∧ (s (TrackRec.broken true)).Sound
    ∧ (s { r with waiters := 1 }).Sound ∧ 0 < ({ r with waiters := 1 } : TrackRec).waiters := by
  refine ⟨rfl, ⟨rfl, rfl⟩, sound_of (by decide +kernel), rfl, Or.inl (by decide +kernel), by decide +kernel,
    by decide +kernel, by decide, sound_of (by decide +kernel), sound_of (by decide +kernel),
    sound_of (by decide +kernel), by decide +kernel⟩

theorem test_QueueTrackByRecord :
    let s (st : TrackState) (c : Option TrackClass) : State := labRec { recWith st SectorRec.fresh with cls := c }
    linkReady lab ∧ lab.Sound ∧ lab.store.flips = []
    ∧ (∀ d : Fin 4, (1 : Byte).toNat = d.val → (lab.drives.get d).fitted = false)
    ∧ ((0 : Byte).toNat = (0 : Fin 4).val ∧ (lab.drives.get 0).fitted = true ∧ lab.geometry.get 0 = some geo0)
    ∧ ({ lab with geometry := lab.geometry.set 0 none } : State).geometry.get 0 = none
    ∧ (geo0.cylinders ≤ 1 * 256 + 0 ∧ 0 * 256 + 255 < geo0.cylinders ∧ (1 : Byte).toNat < geo0.heads)
    ∧ ((s .settled none).Sound ∧ ∀ k, ((s .settled none).track k).holds ⟨0, 0, 0⟩ = true ↔ k = 0)
    ∧ (s .pending none).Sound ∧ (s .queued (some .sweep)).Sound ∧ (s .active (some .sweep)).Sound
    ∧ (s .queued (some .demand)).Sound
    ∧ (∀ k, (lab.track k).holds ⟨0, 255, 1⟩ = false)
    ∧ lab.freeList = 0 :: [1, 2] ∧ ({ lab with freeList := [] } : State).freeList = [] := by
  refine ⟨link_lab, test_lab_sound, rfl, by decide +kernel, by decide +kernel, by decide +kernel,
    by decide +kernel, ⟨sound_of (by decide +kernel), labRec_holds (by decide +kernel)⟩,
    sound_of (by decide +kernel), sound_of (by decide +kernel), sound_of (by decide +kernel),
    sound_of (by decide +kernel), lab_nobody _, rfl, rfl⟩

theorem test_RetryRequeuesFailedSectors :
    let s (st : TrackState) (x : SectorRec) : State := labRec (recWith st x)
    bySlot.length = 6 ∧ linkReady (s .settled (sectorOf .failed)) ∧ (s .settled (sectorOf .failed)).Sound
    ∧ names (s .settled (sectorOf .failed)) bySlot 0
    ∧ (((s .settled (sectorOf .failed)).track 0).sectors.filter (fun x => x.status = .failed)).length ≠ 0
    ∧ (((s .settled (sectorOf .clean)).track 0).sectors.filter (fun x => x.status = .failed)).length = 0
    ∧ names (s .settled (sectorOf .clean)) bySlot 0 ∧ names (s .queued SectorRec.fresh) bySlot 0
    ∧ names (labRec (TrackRec.broken false)) (bySlot ++ []) 0 := by
  refine ⟨rfl, ⟨rfl, rfl⟩, sound_of (by decide +kernel), Or.inl (by decide +kernel), by decide +kernel,
    by decide +kernel, Or.inl (by decide +kernel), Or.inl (by decide +kernel), names_slot _ _ (by decide)⟩

/-! ## Premises: drive requests -/

theorem test_SweepsStartAndStop : linkReady lab ∧ lab.store.flips = []
    ∧ (∀ d : Fin 4, (4 : Byte).toNat = d.val → (lab.drives.get d).fitted = false)
    ∧ ((0 : Byte).toNat = (0 : Fin 4).val ∧ (lab.drives.get 0).fitted = true ∧ lab.geometry.get 0 = some geo0)
    ∧ geo0.cylinders ≤ 1 * 256 + 0 ∧ 0 * 256 + 255 < geo0.cylinders
    ∧ ({ lab with geometry := lab.geometry.set 0 none } : State).geometry.get 0 = none :=
  ⟨link_lab, rfl, by decide +kernel⟩

/-- The payload of DEFINE_DRIVE for drive 0 with this number of cylinders. -/
def definePayload (hi lo : Byte) : List Byte := [0, hi, lo, 2, 16, 1, 0, 1, 25, 0xFF, 0xFF, 0]

/-- The geometry that such a payload spells. -/
def defined (cyls : Nat) : Geometry := ⟨cyls, 2, 16, 256, 1, 25, 0xFFFF⟩

theorem test_DefineDriveByForm : linkReady lab ∧ lab.store.flips = []
    ∧ (definePayload 4 0).length = 12
    ∧ (∀ d : Fin 4, (([1] ++ List.replicate 11 0 : List Byte).getD 0 0).toNat = d.val →
        (lab.drives.get d).fitted = false)
    ∧ (((definePayload 4 0).getD 0 0).toNat = (0 : Fin 4).val ∧ (lab.drives.get 0).fitted = true)
    ∧ geometryGood (defined (word2 (definePayload 4 0) 1))
    ∧ ¬ geometryGood (defined (word2 (definePayload 4 1) 1))
    ∧ ¬ (∀ i, 1 ≤ i → i ≤ 10 → (definePayload 4 0).getD i 0 = 0)
    ∧ (∀ i, 1 ≤ i → i ≤ 10 → (List.replicate 12 (0 : Byte)).getD i 0 = 0)
    ∧ (lab.tracks = [] ∧ (lab.drives.get 0).claim ≠ some .drs ∧ (lab.drives.get 0).drsWaiting ≠ true
      ∧ lab.drs.target = none ∧ (lab.units.get 0).state = .idle)
    ∧ (let s := labDrive fun r => { r with state := .faulted, discovery := some begun }
       linkReady s ∧ s.store.flips = [] ∧ s.tracks = [] ∧ s.drs.target = none
        ∧ (s.units.get 0).state = .idle ∧ (s.drives.get 0).state = DriveState.faulted
        ∧ (s.drives.get 0).discovery ≠ none ∧ (s.drives.get 0).claim = none)
    ∧ (∃ e ∈ (labRec rec0).tracks, e.2.state ≠ .free ∧ ∃ a, e.2.addr = some a ∧ a.drive = 0) := by
  refine ⟨link_lab, rfl, rfl, by decide +kernel, by decide +kernel, ?_, fun h => absurd h.2.1 (by decide),
    fun h => absurd (h 1 (by decide) (by decide)) (by decide), fun i _ h => ?_, by decide +kernel,
    ⟨⟨rfl, rfl⟩, rfl, rfl, rfl, rfl, rfl, by decide +kernel, rfl⟩,
    ⟨(0, rec0), List.mem_singleton.mpr rfl, by decide, ⟨0, 0, 0⟩, rfl, rfl⟩⟩
  · unfold geometryGood
    decide
  · have : i = 0 ∨ i = 1 ∨ i = 2 ∨ i = 3 ∨ i = 4 ∨ i = 5 ∨ i = 6 ∨ i = 7 ∨ i = 8 ∨ i = 9 ∨ i = 10 := by omega
    rcases this with h | h | h | h | h | h | h | h | h | h | h <;> subst h <;> rfl

/-- R15, R20: a define form leaves a FAULTED drive FAULTED, and begins the discovery that runs on it again. -/
theorem test_define_keeps_fault :
    let s := labDrive fun r =>
      { r with state := .faulted, faultKind := some .seekFail
               discovery := some { skipRecalibration := true, stage := .counting 3 } }
    let r := ((after (exec (.defineDrive 1 (definePayload 4 0)) s)).drives.get 0)
    r.state = .faulted ∧ r.faultKind = some .seekFail ∧ r.discovery = some begun := by decide +kernel

/-- Nothing is in progress on a drive, as a computation for states without bound contexts. -/
theorem alone_of {s : State} {d : Fin 4} (h1 : ∀ c, (s.ctxs.get c).track = none)
    (h : s.drs.target = none ∧ (s.drives.get d).drsWaiting = false ∧ (s.units.get d).waitOn = none
      ∧ s.path.grant = none ∧ (∀ c, (s.ctxs.get c).state ≠ .waitPath) ∧ s.drs.state ≠ .waitPath) :
    driveAlone s d := ⟨fun c n hn => (by rw [h1 c] at hn; cases hn), h⟩

/-- Drive 0 in a drive STATE, its unit PENDING. -/
def labDriveIn (st : DriveState) (line : Bool) (claim : Option Holder) : State :=
  (labDrive fun r => { r with state := st, readyLine := line, claim := claim }).modUnit 0
    fun r => { r with state := .pending }

theorem test_WithdrawDriveEndsItsWork :
    let s := labDriveIn .ready true none
    linkReady s ∧ (∀ d : Fin 4, (1 : Byte).toNat = d.val → (s.drives.get d).fitted = false)
    ∧ ((0 : Byte).toNat = (0 : Fin 4).val ∧ (s.drives.get 0).fitted = true)
    ∧ (s.drives.get 0).state ≠ DriveState.withdrawn ∧ driveAlone s 0 ∧ (s.units.get 0).state ≠ .idle
    ∧ s.port.clearLine = false ∧ s.store.flips = [] ∧ s.port.settings.statusBase ≤ 0xFFFFC0
    ∧ (lab.units.get 0).state = .idle ∧ lab.port.clearLine = false
    ∧ ((labDriveIn .withdrawn true none).drives.get 0).state = DriveState.withdrawn :=
  ⟨⟨rfl, rfl⟩, by decide +kernel, by decide +kernel, by decide +kernel,
    alone_of (by decide +kernel) (by decide +kernel), by decide +kernel⟩

theorem test_RestoreAndFaultClearing :
    linkReady (labDriveIn .withdrawn true none) ∧ (labDriveIn .withdrawn true none).Sound
    ∧ (∀ d : Fin 4, (2 : Byte).toNat = d.val → (lab.drives.get d).fitted = false)
    ∧ (((labDriveIn .withdrawn true none).drives.get 0).state = DriveState.withdrawn
      ∧ driveAlone (labDriveIn .withdrawn true none) 0
      ∧ ((labDriveIn .withdrawn true none).drives.get 0).claim = none)
    ∧ (linkReady (labDriveIn .faulted false (some (.ctx 0))) ∧ (labDriveIn .faulted false (some (.ctx 0))).Sound
      ∧ ((labDriveIn .faulted false (some (.ctx 0))).drives.get 0).state = DriveState.faulted
      ∧ ((labDriveIn .faulted false (some (.ctx 0))).drives.get 0).claim ≠ none
      ∧ ((labDriveIn .faulted false (some (.ctx 0))).drives.get 0).readyLine = false)
    ∧ ((labDriveIn .faulted true (some (.ctx 0))).drives.get 0).readyLine = true
    ∧ (linkReady (labDriveIn .faulted true none) ∧ (labDriveIn .faulted true none).Sound
      ∧ driveAlone (labDriveIn .faulted true none) 0
      ∧ ((labDriveIn .faulted true none).drives.get 0).claim = none)
    ∧ (lab.drives.get 0).state ≠ DriveState.faulted := by
  refine ⟨⟨rfl, rfl⟩, sound_of (by decide +kernel), by decide +kernel,
    ⟨by decide +kernel, alone_of (by decide +kernel) (by decide +kernel), by decide +kernel⟩,
    ⟨⟨rfl, rfl⟩, sound_of (by decide +kernel), by decide +kernel⟩, by decide +kernel,
    ⟨⟨rfl, rfl⟩, sound_of (by decide +kernel), alone_of (by decide +kernel) (by decide +kernel),
      by decide +kernel⟩, by decide +kernel⟩

/-! ## Premises: drives and read path -/

theorem watched_lab (f : DriveRec → DriveRec) (h : ((labDrive f).drives.get 0).fitted = true) :
    linesWatched (labDrive f) 0 := 
  ⟨h, (show lab.ctl.state ≠ .hold by decide), (show lab.ctl.state ≠ .storeFailed by decide),
    (show lab.ctl.phase ≠ some .storeCheck by decide), (show lab.ctl.phase ≠ some .format by decide)⟩

theorem test_DriveLinesWatched :
    let s (f : DriveRec → DriveRec) : State := labDrive f
    (¬ linesWatched (labCtl .hold none) 0 ∧ ¬ linesWatched lab 1)
    ∧ (linesWatched (s fun r => { r with state := .faulted }) 0
      ∧ ((s fun r => { r with state := .faulted }).drives.get 0).state = DriveState.faulted)
    ∧ (linesWatched (s fun r => { r with claim := some .drs }) 0
      ∧ ((s fun r => { r with claim := some .drs }).drives.get 0).state = DriveState.ready
      ∧ ((s fun r => { r with claim := some .drs }).drives.get 0).claim ≠ none)
    ∧ (linesWatched (s id) 0 ∧ ((s id).drives.get 0).state = DriveState.ready
      ∧ ((s id).drives.get 0).claim = none)
    ∧ (linesWatched (s fun r => { r with state := .notReady, discovery := some begun }) 0
      ∧ ((s fun r => { r with state := .notReady, discovery := some begun }).drives.get 0).discovery ≠ none)
    ∧ (linesWatched (s fun r => { r with state := .absent }) 0
      ∧ ((s fun r => { r with state := .absent }).drives.get 0).discovery = none)
    ∧ (linesWatched (s fun r => { r with state := .faulted, discovery := some begun, claim := some .drs }) 0
      ∧ lab.port.settings.statusBase ≤ 0xFFFFC0 ∧ (lab.units.get 0).state = .idle)
    ∧ (linesWatched (s fun r => { r with state := .withdrawn }) 0
      ∧ ((s fun r => { r with state := .withdrawn }).drives.get 0).state = DriveState.withdrawn)
    ∧ driveAlone (labDriveIn .ready true none) 0 :=
  ⟨⟨fun h => h.2.1 rfl, fun h => (by cases h.1)⟩,
    ⟨watched_lab _ (by decide +kernel), by decide +kernel⟩,
    ⟨watched_lab _ (by decide +kernel), by decide +kernel⟩,
    ⟨watched_lab _ (by decide +kernel), by decide +kernel⟩,
    ⟨watched_lab _ (by decide +kernel), by decide +kernel⟩,
    ⟨watched_lab _ (by decide +kernel), by decide +kernel⟩,
    ⟨watched_lab _ (by decide +kernel), by decide +kernel⟩,
    ⟨watched_lab _ (by decide +kernel), by decide +kernel⟩,
    alone_of (by decide +kernel) (by decide +kernel)⟩

/-- R21: a fault level that rose in HOLD is found by the discovery that HOLD_EXIT starts, when the drive answers. -/
theorem test_fault_of_hold_is_found :
    let s := ((labCtl .hold none).faultLineRises 0).beginResuming
    let r := (s.answers 0).drives.get 0
    (s.drives.get 0).faultHeld = true ∧ (s.drives.get 0).discovery.isSome = true
      ∧ r.state = .faulted ∧ r.faultKind = some .driveSignalled ∧ r.faultHeld = false := by decide +kernel

/-- Drive 0 at a stage of its discovery. -/
def discovering (skip : Bool) (stage : DiscoveryStage) (line : Bool) : State :=
  labDrive fun r => { r with discovery := some ⟨skip, stage⟩, readyLine := line }

theorem test_DiscoveryByStages :
    ((discovering false .awaitAnswer true).drives.get 0).discovery = some ⟨false, .awaitAnswer⟩
    ∧ ((discovering false .awaitAnswer true).drives.get 0).readyLine = true
    ∧ ((discovering true .awaitAnswer false).drives.get 0).readyLine = false
    ∧ ((discovering false (.recalibrating false) true).drives.get 0).discovery
        = some ⟨false, .recalibrating false⟩
    ∧ ((discovering false (.recalibrating true) true).drives.get 0).discovery
        = some ⟨false, .recalibrating true⟩
    ∧ ((discovering false .awaitIndex true).drives.get 0).discovery = some ⟨false, .awaitIndex⟩
    ∧ (discovering false .awaitIndex true).path.grant = none
    ∧ ((discovering false (.counting 63) true).drives.get 0).discovery = some ⟨false, .counting 63⟩
    ∧ (discovering false (.counting 63) true).store.flips = []
    ∧ ((discovering false .awaitAnswer true).drives.get 0).faultHeld = false
    ∧ (((discovering false .awaitAnswer true).setFaultHeld 0 true).drives.get 0).faultHeld = true
    ∧ (((discovering false .awaitAnswer true).setFaultHeld 0 true).drives.get 0).discovery
        = some ⟨false, .awaitAnswer⟩
    ∧ (lab.drives.get 0).discovery = none ∧ linesWatched lab 0
    ∧ (lab.drives.get 0).state = DriveState.ready := by
  refine ⟨rfl, rfl, rfl, rfl, rfl, rfl, rfl, rfl, rfl, rfl, rfl, rfl, rfl, ⟨?_, ?_, ?_, ?_, ?_⟩, ?_⟩ <;>
    decide +kernel

/-- Drive 0 in a positioning for context 0. -/
def positioningTo (cyl : Nat) (o : Offset) (stage : PositioningStage) (retried : Bool) : State :=
  let s := labBound .positioning
  s.modDrive 0 fun r => { r with positioning := some ⟨cyl, o, stage⟩, seekRetried := retried }

theorem test_PositioningByStages :
    (lab.drives.get 0).positioning = none
    ∧ (∀ skip again, (lab.drives.get 0).discovery ≠ some ⟨skip, .recalibrating again⟩)
    ∧ ((positioningTo 9 .inward .seeking false).drives.get 0).positioning = some ⟨9, .inward, .seeking⟩
    ∧ ((positioningTo 9 .inward .seeking false).drives.get 0).offsetAt ≠ some .inward
    ∧ ((positioningTo 9 .centre .seeking true).drives.get 0).offsetAt = some .centre
    ∧ ((positioningTo 9 .centre .seeking true).drives.get 0).seekRetried = true
    ∧ ((positioningTo 9 .centre (.recalibrating true) true).drives.get 0).drsWaiting = false
    ∧ ((positioningTo 0 .inward (.recalibrating false) true).drives.get 0).positioning
        = some ⟨0, .inward, .recalibrating false⟩
    ∧ ((positioningTo 0 .centre (.recalibrating false) true).drives.get 0).positioning
        = some ⟨0, .centre, .recalibrating false⟩
    ∧ (((positioningTo 0 .centre .settling true).drives.get 0).fitted = true
      ∧ ((positioningTo 0 .centre .settling true).drives.get 0).state = DriveState.ready)
    ∧ ((positioningTo 0 .centre .settling true).track 0).addr = some ⟨0, 0, 0⟩
    ∧ ((positioningTo 0 .centre .settling true).drives.get 0).claim = some (.ctx 0)
    ∧ (positioningTo 0 .centre .settling true).path.grant = none
    ∧ ((positioningTo 0 .centre .settling true).ctxs.get 0).track = some 0
    ∧ ((positioningTo 0 .centre .settling true).ctxs.get 0).step.isSome = true
    ∧ (∀ c, ((positioningTo 0 .centre .settling true).ctxs.get c).state ≠ .waitPath) := by
  refine ⟨rfl, fun _ _ h => (nomatch h), ?_⟩
  decide +kernel

theorem test_SlotHoldsOneSector : geo0.valid = true := by decide +kernel

/-- Context 0 reads in an open revolution of the track 0/0 of drive 0, at a step that is blind or not. -/
def opened (blind : Bool) (v : Revolution) : State :=
  { labBound .reading with
    path := { lab.path with grant := some ⟨.ctx 0, ⟨0, 0, 0⟩, .nominal, blind, true, true⟩, rev := v } }

theorem opened_open (blind : Bool) (v : Revolution) :
    openRevolution (opened blind v) ⟨.ctx 0, ⟨0, 0, 0⟩, .nominal, blind, true, true⟩ geo0 := ⟨rfl, rfl, rfl⟩

/-- In the next slot's window the field of slot 0 is still being taken. -/
def stillTaking : Revolution := { Revolution.start with slot := 1, taking := some ⟨0, .addressed 0⟩ }

theorem test_FieldsTakenInTheirWindow :
    (∀ g geo, ¬ openRevolution lab g geo)
    ∧ openRevolution (opened false Revolution.start) ⟨.ctx 0, ⟨0, 0, 0⟩, .nominal, false, true, true⟩ geo0
    ∧ (Revolution.start.slot < geo0.sectors ∧ Revolution.start.taking = none
      ∧ Revolution.start.header = .noHeader ∧ geo0.sectors ≤ 16)
    ∧ (wantedNow (opened false Revolution.start) (.ctx 0) (geo0.sectorAt 0)
      ∧ ¬ wantedNow (opened false Revolution.start) (.ctx 0) (geo0.sectorAt 15))
    ∧ (openRevolution (directRead none) ⟨.drs, ⟨0, 0, 0⟩, .nominal, false, true, true⟩ geo0
      ∧ wantedNow (directRead none) .drs (geo0.sectorAt (directRead none).path.rev.slot)
      ∧ (directRead none).path.rev.header = .addressed 0)
    ∧ (opened true Revolution.start).Sound ∧ (opened true Revolution.start).store.flips = []
    ∧ blindHeader Revolution.start.header ∧ Revolution.start.data = none
    ∧ (stillTaking.taking = some ⟨0, .addressed 0⟩ ∧ (opened false stillTaking).Sound
      ∧ wantedNow (opened false stillTaking) (.ctx 0) (geo0.sectorAt 0)
      ∧ wantedNow (directRead none) .drs (geo0.sectorAt 0)) :=
  ⟨fun g geo h => (by cases h.1), opened_open _ _, by decide +kernel,
    ⟨by unfold wantedNow; decide +kernel, by unfold wantedNow; decide +kernel⟩,
    ⟨⟨rfl, rfl, rfl⟩, ⟨_, rfl, by decide +kernel⟩, rfl⟩, sound_of (by decide +kernel), rfl, Or.inl rfl, rfl,
    rfl, sound_of (by decide +kernel), by unfold wantedNow; decide +kernel, ⟨_, rfl, by decide +kernel⟩⟩

theorem test_AttemptsClassifiedAtTheClose :
    let w := opened false { Revolution.start with header := .wrongAddress }
    let a := opened false { Revolution.start with header := .addressed 0 }
    let o := opened false { Revolution.start with anyVerified := true, anyAddressed := true }
    let lost := opened false { Revolution.start with anyVerified := true }
    let before : State := { o with path := { o.path with
      grant := some ⟨.ctx 0, ⟨0, 0, 0⟩, .nominal, false, false, true⟩ } }
    let quiet (s : State) : Prop := s.path.rev.held = [] ∧ s.store.flips = []
      ∧ (s.drives.get 0).discovery = none ∧ (s.drives.get 0).drsWaiting = false
      ∧ (∀ c', (s.ctxs.get c').state ≠ .waitPath) ∧ s.drs.state ≠ .waitPath
    (openRevolution w ⟨.ctx 0, ⟨0, 0, 0⟩, .nominal, false, true, true⟩ geo0
      ∧ wantedNow w (.ctx 0) (geo0.sectorAt 0) ∧ ¬ wantedNow w (.ctx 0) (geo0.sectorAt 15)
      ∧ (w.ctxs.get 0).track = some 0 ∧ w.Sound ∧ w.store.flips = [] ∧ (w.track 0).state ≠ .free)
    ∧ (a.path.rev.taking = none ∧ a.path.rev.data = none ∧ a.path.rev.slot < geo0.sectors
      ∧ looks ⟨.ctx 0, ⟨0, 0, 0⟩, .nominal, false, true, true⟩ a.path.rev.header)
    ∧ (blindHeader Revolution.start.header
      ∧ ¬ looks ⟨.ctx 0, ⟨0, 0, 0⟩, .nominal, false, true, true⟩ .wrongAddress)
    ∧ ((before.drives.get 0).discovery = none ∧ before.store.flips = []
      ∧ before.path.grant = some ⟨.ctx 0, ⟨0, 0, 0⟩, .nominal, false, false, true⟩)
    ∧ (quiet o ∧ o.path.rev.anyAddressed = true ∧ (o.ctxs.get 0).track = some 0
      ∧ (o.ctxs.get 0).state = .reading ∧ o.Sound ∧ (o.track 0).state ≠ .free)
    ∧ (quiet lost ∧ ¬ (lost.path.rev.anyVerified = false ∨ lost.path.rev.anyAddressed = true)
      ∧ (lost.ctxs.get 0).step.isSome = true ∧ (lost.track 0).addr = some ⟨0, 0, 0⟩
      ∧ lost.ctl.state ≠ .draining ∧ (lost.drives.get 0).seekRetried = false
      ∧ (lost.drives.get 0).fitted = true ∧ (lost.drives.get 0).state = DriveState.ready
      ∧ (lost.drives.get 0).claim = some (.ctx 0))
    ∧ (quiet (directRead none) ∧ (directRead none).path.rev.anyVerified = false
      ∧ (directRead none).drs.target = some ⟨⟨0, 0, 0⟩, 0⟩ ∧ (directRead none).drs.serving = some 0
      ∧ (directRead none).drs.revsTried < 2 ∧ (directRead none).port.settings.statusBase ≤ 0xFFFFC0) := by
  refine ⟨⟨opened_open _ _, by unfold wantedNow; decide +kernel, by unfold wantedNow; decide +kernel,
      rfl, sound_of (by decide +kernel), rfl, by decide +kernel⟩,
    ⟨rfl, rfl, by decide +kernel, Or.inl ⟨0, rfl⟩⟩, ⟨Or.inl rfl, fun h => ?_⟩, ⟨rfl, rfl, rfl⟩,
    ⟨by decide +kernel, rfl, rfl, rfl, sound_of (by decide +kernel), by decide +kernel⟩, by decide +kernel⟩
  rcases h with ⟨f, h⟩ | ⟨h, -⟩ <;> cases h

theorem test_ReportsActOnTheSector :
    let s := opened false Revolution.start
    let full : State := { s with ctxs := s.ctxs.modify 0 fun x =>
      { x with candidates := [1, 2, 3, 4, 5, 6, 7] :: List.replicate 15 [] } }
    let d := directRead none
    (wantedNow s (.ctx 0) 0 ∧ ¬ wantedNow s (.ctx 0) 15 ∧ (s.ctxs.get 0).track = some 0 ∧ s.Sound
      ∧ s.store.flips = [] ∧ (s.track 0).state = .active ∧ (s.track 0).context = some 0
      ∧ 0 < (s.track 0).sectors.length
      ∧ ((s.track 0).sectors.getD 0 SectorRec.fresh).status = .pending)
    ∧ (((s.ctxs.get 0).candidates.getD 0 []).length < 7 ∧ ((full.ctxs.get 0).candidates.getD 0 []).length = 7)
    ∧ (∃ f, (some 0x80#8) = some f ∧ 0x80 ≤ f.toNat) ∧ ¬ (∃ f, (some 0x7F#8) = some f ∧ 0x80 ≤ f.toNat)
    ∧ (wantedNow d .drs 0 ∧ d.drs.serving = some 0 ∧ d.port.settings.statusBase ≤ 0xFFFFC0
      ∧ (d.units.get 0).dataAt + 2 * min d.port.settings.burst
          ((min (d.units.get 0).residual (d.drs.capture.take (d.drs.capture.length - 2)).length + 1) / 2)
        ≤ 0x1000000) := by
  refine ⟨⟨by unfold wantedNow; decide +kernel, by unfold wantedNow; decide +kernel, rfl,
      sound_of (by decide +kernel), rfl, rfl, rfl, by decide +kernel, rfl⟩, by decide +kernel,
    ⟨_, rfl, by decide⟩, ?_, ⟨_, rfl, rfl⟩, by decide +kernel⟩
  rintro ⟨f, hf, h⟩
  cases hf
  revert h
  decide

/-! ## Premises: store and Vote Unit -/

/-- A burst of the scrubber runs in a store with one bit error. -/
def inBurst (r : TrackRec) (w : Nat) (kind : FlipKind) : State :=
  { labRec r with store := { lab.store with burst := some .scrub, flips := [(w, kind)] } }

theorem inBurst_quiet : ownerQuiet (inBurst (recWith .settled (sectorOf .written)) 3 .uncorrectable)
    (.trackSector 0 0) := by
  intro w hw
  by_cases h : w = 3
  · subst h
    have : (inBurst (recWith .settled (sectorOf .written)) 3 .uncorrectable).wordOwner 3 = .trackSector 0 0 := by
      decide +kernel
    rw [this] at hw
    cases hw
  · simp [inBurst, assocFind, Ne.symm h]

theorem test_StoreTimersAndBursts :
    let s := inBurst (recWith .settled (sectorOf .written)) 3 .uncorrectable
    let t := inBurst (recWith .settled (sectorOf .clean)) 1048575 .single
    let asked (p : Option Phase) : State :=
      { labCtl (if p = none then .ready else .starting) p with store := { lab.store with asks := [.scrub, .link] } }
    (s.store.burst = some .scrub ∧ 3 < s.ctl.sizeInUse * 131072
      ∧ assocFind 3 s.store.flips = some .uncorrectable
      ∧ s.Sound ∧ s.wordOwner 3 = .trackSector 0 0 ∧ ownerQuiet s (.trackSector 0 0))
    ∧ (t.store.burst = some .scrub ∧ 1048575 < t.ctl.sizeInUse * 131072
      ∧ assocFind 1048575 t.store.flips = some .single)
    ∧ (∀ w ∈ [0, 1048574], w < t.ctl.sizeInUse * 131072 → assocFind w t.store.flips = none)
    ∧ lab.store.burst = none
    ∧ ((asked none).store.burst = none ∧ ∀ cl' ∈ (asked none).store.asks,
        storePlace (asked none).store .link ≤ storePlace (asked none).store cl')
    ∧ ((asked (some .rescan)).ctl.state = .starting ∧ ∀ cl' ∈ (asked (some .rescan)).store.asks ++ [.table],
        storePlace (asked (some .rescan)).store .link ≤ storePlace (asked (some .rescan)).store cl')
    ∧ ((labCtl .hold none).store.asks = [] ∧ (labCtl .hold none).ctl.state = .hold ∧ lab.store.asks = [])
    ∧ (lab.ctl.state = .ready ∧ lab.store.scrubPeriod ≠ 0 ∧ lab.store.flips = []
      ∧ lab.store.scrubCursor + 64 < lab.ctl.sizeInUse * 131072 * 8)
    ∧ ¬ (State.reset.ctl.state = .ready ∨ State.reset.ctl.state = .draining) := by
  refine ⟨⟨rfl, by decide +kernel, rfl, sound_of (by decide +kernel), by decide +kernel, inBurst_quiet⟩,
    by decide +kernel⟩

/-- Context 0 has three candidates each of sectors 0 and 1 before the Vote Unit, which works on a sector and has
bursts to come. -/
def voting (kind : VoteKind) (sector bursts : Nat) : State :=
  { labBound .evaluating with
    ctxs := lab.ctxs.set 0 { ctx0 .evaluating with
      candidates := [1, 2, 3] :: [1, 2, 3] :: List.replicate 14 [] }
    tracks := [(0, { rec0 with
      state := .active, cls := some .demand, context := some 0
      sectors := SectorRec.fresh :: SectorRec.fresh :: List.replicate 14 (sectorOf .clean) })]
    vote := { requests := [⟨0, 0, kind, some 0, List.replicate 16 none⟩]
              serving := some ⟨4, [0, 1], sector, [1, 2, 3], [], bursts⟩ } }

theorem test_VotesByPlurality :
    let q (k : VoteKind) : VoteRequest := ⟨0, 0, k, some 0, List.replicate 16 none⟩
    let sv (k b : Nat) : VoteService := ⟨4, [0, 1], k, [1, 2, 3], [], b⟩
    ([[1, 2], [1, 3]] : List (List Byte)) ≠ [] ∧ 1 < 2
    ∧ lab.vote.serving = none ∧ lab.vote.requests = []
    ∧ ((voting .inLadder 0 1).vote.serving = some (sv 0 1)
      ∧ (voting .inLadder 0 1).vote.requests = q .inLadder :: [] ∧ (voting .inLadder 0 1).store.flips = []
      ∧ (sv 0 0).bursts = 0 ∧ (sv 0 1).bursts = 1 ∧ (sv 0 2).bursts = 0 + 2)
    ∧ ((voting .inLadder 0 1).Sound ∧ ((voting .inLadder 0 1).track 0).state = .active
      ∧ ((voting .inLadder 0 1).track 0).context = some 0
      ∧ ((voting .inLadder 0 1).track 0).addr = some ⟨0, 0, 0⟩
      ∧ (voting .inLadder 0 1).geometry.get 0 = some geo0)
    ∧ (∀ k ∈ [VoteKind.inLadder, .final], votable (voting k 0 1) (q k) (sv 0 1) 0
      ∧ votable (voting k 0 1) (q k) (sv 0 1) 1
      ∧ (∀ j, 0 < j → j < 1 → ¬ votable (voting k 0 1) (q k) (sv 0 1) j)
      ∧ votable (voting k 1 1) (q k) (sv 1 1) 1
      ∧ ∀ j, 1 < j → ¬ votable (voting k 1 1) (q k) (sv 1 1) j) := by
  refine ⟨by decide, by decide, rfl, rfl, ⟨rfl, rfl, rfl, rfl, rfl, rfl⟩,
    ⟨sound_of (by decide +kernel), rfl, rfl, rfl, rfl⟩, fun k hk => ⟨?_, ?_, fun j h1 h2 => by omega, ?_,
      fun j h1 h => ?_⟩⟩
  · revert k; unfold votable; decide +kernel
  · revert k; unfold votable; decide +kernel
  · revert k; unfold votable; decide +kernel
  · have hl : j < 16 := h.1
    have hs := h.2.1
    exact absurd hs ((by decide +kernel : ∀ k ∈ [VoteKind.inLadder, .final], ∀ j < 16, 1 < j →
      ¬ ((((voting k 1 1).track 0).sectors.getD j SectorRec.fresh).status = .pending
        ∨ (((voting k 1 1).track 0).sectors.getD j SectorRec.fresh).status = .damaged)) k hk j hl h1)

/-! ## Premises: reactions -/

/-- Context 0 in an evaluation of track 0/0, which it holds with this record, under this controller STATE. -/
def accounted (st : CtxState) (r : TrackRec) (ctl : CtlState) : State :=
  { labBound st with tracks := [(0, { r with cls := some .demand, context := some 0 })]
                     ctl := { lab.ctl with state := ctl } }

theorem test_EvaluationEndsInAccounting :
    let r := recWith .active SectorRec.fresh
    let s := accounted .evaluating r .ready
    (s.ctxs.get 0).track = some 0 ∧ (s.track 0).state = .active ∧ (s.track 0).addr = some ⟨0, 0, 0⟩
    ∧ (s.ctxs.get 0).state ≠ .waitPath ∧ pathOpenFor s 0 ∧ s.Sound ∧ s.store.flips = []
    ∧ ((s.drives.get 0).claim = some (.ctx 0) ∧ (s.drives.get 0).drsWaiting = false)
    ∧ unresolved r ∧ ¬ unresolved (recWith .active (sectorOf .clean))
    ∧ (accounted .evaluating (recWith .active (sectorOf .clean)) .ready).Sound
    ∧ ((∃ st, s.ladder[0]? = some st ∧ (s.track 0).stepRevs + 1 < st.revs)
      ∧ ¬ (∃ st, s.ladder[0]? = some st ∧ 1 + 1 < st.revs) ∧ s.ladder[8]? = none)
    ∧ (accounted .evaluating { r with stepRevs := 1, nextStep := 7 } .ready).Sound
    ∧ (accounted .evaluating r .draining).ctl.state = .draining ∧ s.ctl.state ≠ .draining
    ∧ ((accounted .displaced r .ready).ctxs.get 0).state = .displaced
    ∧ ((accounted .evaluating r .ready).modDrive 0 fun d => { d with state := .faulted }).Sound := by
  refine ⟨rfl, rfl, rfl, by decide +kernel, ⟨rfl, by decide +kernel, by decide +kernel⟩,
    sound_of (by decide +kernel), rfl, ⟨rfl, rfl⟩, unresolved_fresh _, resolved_clean _,
    sound_of (by decide +kernel), ⟨⟨_, rfl, by decide +kernel⟩, ?_, rfl⟩, sound_of (by decide +kernel), rfl,
    by decide +kernel, rfl, sound_of (by decide +kernel)⟩
  rintro ⟨st, h, g⟩
  cases h
  revert g
  decide +kernel

/-- The track 0/0 stands in the queue with this record. -/
def enqueued (r : TrackRec) : State :=
  { labRec { r with state := .queued, cls := some .demand } with queue := { demand := [0], archive := [], sweep := [] } }

theorem test_DispatcherBindsInOrder :
    let s := enqueued rec0
    (s.settlingCtx = none ∧ s.notifiedUnit = none ∧ s.servedUnit = none ∧ s.startedRequest = none
      ∧ s.fedDrive = none ∧ s.nextBinding = some (0, 0))
    ∧ ((s.track 0).state = .queued ∧ (s.track 0).addr = some ⟨0, 0, 0⟩ ∧ pathOpenFor s 0
      ∧ (s.drives.get 0).drsWaiting = false ∧ s.Sound ∧ s.store.flips = [])
    ∧ unresolved (recWith .queued SectorRec.fresh) ∧ s.ladder[0]? ≠ none
    ∧ (unresolved (recWith .queued SectorRec.fresh) ∧ (enqueued { rec0 with nextStep := 12 }).Sound
      ∧ (enqueued { rec0 with nextStep := 12 }).ladder[12]? = none)
    ∧ (¬ unresolved (recWith .queued (sectorOf .clean))
      ∧ (enqueued (recWith .queued (sectorOf .clean))).Sound)
    ∧ ((labBound .positioning).ctxs.get 0).state ≠ .free
    ∧ (∀ n ∈ (enqueued { rec0 with lock := some 0 }).queue.order,
        (enqueued { rec0 with lock := some 0 }).offerable [] n = false)
    ∧ (∀ n ∈ s.queue.order, s.dispatchable n = true ∧ s.offerable [0] n = false)
    ∧ ((s.ctxs.get 0).state = .free ∧ s.queue.order.find? (s.offerable [1]) = some 0)
    ∧ (let b := { labRec rec0 with queue := s.queue }
       b.queue.order.find? (b.offerable []) = some 0 ∧ (b.readEntry 0).1 = none) :=
  ⟨by decide +kernel, ⟨rfl, rfl, ⟨rfl, by decide +kernel, by decide +kernel⟩, rfl, sound_of (by decide +kernel), rfl⟩,
    unresolved_fresh _, by decide +kernel,
    ⟨unresolved_fresh _, sound_of (by decide +kernel), rfl⟩, ⟨resolved_clean _, sound_of (by decide +kernel)⟩,
    by decide +kernel⟩

/-- R73: in one decision each FREE context is offered one entry; context 0, whose track settles at once, is not
offered the entry that context 1 is bound to. -/
theorem test_decision_offers_once :
    let r1 : TrackRec := { TrackRec.allocated ⟨1, 0, 0⟩ geo0 with state := .queued, cls := some .demand }
    let s : State := { enqueued (recWith .queued (sectorOf .clean)) with
      tracks := [(0, { recWith .queued (sectorOf .clean) with cls := some .demand }), (1, r1)]
      queue := { demand := [0, 1], archive := [], sweep := [] }
      geometry := lab.geometry.set 1 (some geo0)
      drives := lab.drives.set 1 { lab.drives.get 0 with fitted := true } }
    (s.bindFree.ctxs.get 0).state = .free ∧ (s.bindFree.ctxs.get 1).track = some 1
      ∧ (s.bindFree.track 0).state = .settled := by decide +kernel

/-- R73: a decision binds at most one track of each drive. The second entry of the drive, whose first track settled
at once, waits for the next decision, which offers it to context 0. -/
theorem test_decision_one_track_a_drive :
    let r1 : TrackRec := { TrackRec.allocated ⟨0, 1, 0⟩ geo0 with state := .queued, cls := some .demand }
    let s : State := { enqueued (recWith .queued (sectorOf .clean)) with
      tracks := [(0, { recWith .queued (sectorOf .clean) with cls := some .demand }), (1, r1)]
      queue := { demand := [0, 1], archive := [], sweep := [] } }
    (s.bindFree.track 0).state = .settled ∧ (s.bindFree.track 1).state = .queued
      ∧ s.bindFree.nextBinding = some (0, 1) ∧ (s.bindFree.bindFree.ctxs.get 0).track = some 1 := by
  decide +kernel

/-- A state whose sweep of drive 0 runs from track 0/0. -/
def swept (s : State) : State :=
  { s with sweeps := s.sweeps.set 0 { state := .running, cyl := 0, head := 0, depth := 2 } }

theorem test_SweepFeederFeedsInOrder :
    let s := swept lab
    let f := swept (labRec (recWith .settled (sectorOf .clean)))
    (s.settlingCtx = none ∧ s.notifiedUnit = none ∧ s.servedUnit = none ∧ s.startedRequest = none
      ∧ s.feeds 0 = true ∧ ∀ e, e < 0 → s.feeds e = false)
    ∧ (s.geometry.get 0 = some geo0 ∧ (s.sweeps.get 0).cyl < geo0.cylinders
      ∧ (s.sweeps.get 0).head < geo0.heads ∧ s.Sound ∧ s.store.flips = [])
    ∧ (f.feeds 0 = true ∧ f.Sound ∧ ∀ k, (f.track k).holds ⟨0, 0, 0⟩ = true ↔ k = 0)
    ∧ ((∀ k, (s.track k).holds ⟨0, 0, 0⟩ = false) ∧ s.freeList = 0 :: [1, 2])
    ∧ ((swept { lab with freeList := [] }).feeds 0 = true ∧ (swept { lab with freeList := [] }).Sound
      ∧ (swept { lab with freeList := [] }).freeList = []) :=
  ⟨by decide +kernel, ⟨rfl, by decide +kernel, by decide +kernel, sound_of (by decide +kernel), rfl⟩,
    ⟨by decide +kernel, sound_of (by decide +kernel), labRec_holds (by decide +kernel)⟩,
    ⟨lab_nobody _, rfl⟩, by decide +kernel, sound_of (by decide +kernel), rfl⟩

/-- Unit 0 in RUN at sector 0 of track 0/0 with the bytes of a share of a WRITE, the track held by a record. -/
def claiming (r : TrackRec) (share : Nat) : State :=
  { labRec r with units := lab.units.modify 0 fun y => { y with
      state := .run, residual := 256, dataAt := 0x400, buffer := List.replicate share 0x5A
      order := some { lastRead with sector := 0, head := 0 } } }

theorem test_UnitClaimsDecided :
    let settled (x : SectorRec) : TrackRec := recWith .settled x
    (∀ r ∈ [settled (sectorOf .clean), settled (sectorOf .marked), settled (sectorOf .lost),
        settled (sectorOf .failed), settled { sectorOf .failed with guess := .present },
        { settled (sectorOf .clean) with lock := some 0 }, recWith .pending SectorRec.fresh],
      let s := claiming r 256
      s.Sound ∧ s.store.flips = [] ∧ (s.units.get 0).haltTold = false
        ∧ (∀ j, (s.track j).holds ⟨0, 0, 0⟩ = true ↔ j = 0) ∧ (s.track 0).state ≠ .active
        ∧ (s.track 0).context = none ∧ 0 < (s.track 0).sectors.length
        ∧ (s.units.get 0).buffer.length = (s.track 0).sectorBytes
        ∧ (s.units.get 0).dataAt + 2 * min s.port.settings.burst ((min 256 256 + 1) / 2) ≤ 0x1000000
        ∧ s.port.settings.statusBase ≤ 0xFFFFC0)
    ∧ (∃ o, ((claiming rec0 0).units.get 0).order = some o ∧ o.acceptGuess = true)
    ∧ (((claiming (recWith .pending SectorRec.fresh) 7).units.get 0).buffer.length < 256
      ∧ (recWith .pending SectorRec.fresh).lock = none)
    ∧ (let u := labUnit fun y => { y with state := .run, residual := 256 }
       u.Sound ∧ u.geometry.get 0 = some geo0 ∧ 0 < geo0.cylinders ∧ 0 < geo0.heads
        ∧ (∀ j, (u.track j).holds ⟨0, 0, 0⟩ = false) ∧ u.freeList = 0 :: [1, 2]
        ∧ ({ u with freeList := [] } : State).Sound) := by
  refine ⟨fun r hr => ⟨sound_of ?_, rfl, rfl, labRec_holds ?_, ?_, ?_, ?_, ?_, ?_, ?_⟩, ⟨_, rfl, rfl⟩,
    by decide +kernel, sound_of (by decide +kernel), rfl, by decide, by decide, lab_nobody _, rfl,
    sound_of (by decide +kernel)⟩ <;> revert r <;> decide +kernel

theorem test_a_vote : votedImage 2 [[1, 2], [1, 3], [4, 3]] = [1, 3]
    ∧ uncertainCount 2 [[1, 2], [5, 3], [4, 3]] = 1 := by decide +kernel

end Sys2Proof.Tests
end

