-- ==== Sys2Proof/Proofs/Soundness.lean ====
section
/-! SUPPORT. The invariant of Safety across one whole command: every command keeps it, and so does every step. -/

namespace Sys2Proof.Machine

/-- Whatever state a command answers with meets the invariant if the state before it does. -/
def SoundAfter (s : State) (o : Result3) : Prop := ∀ t, o = .next t → s.Sound → t.Sound

variable {s t : State}

theorem SoundAfter.next (h : s.Sound → t.Sound) : SoundAfter s (.next t) := by
  rintro _ ⟨⟩
  exact h

theorem Stays.soundAfter (h : Stays s t) : SoundAfter s (.next t) := SoundAfter.next h.sound

theorem Moves.soundAfter (h : Moves s t) : SoundAfter s (.next t) := SoundAfter.next h.sound

/-- A chain of inner operations, with no part of it that is kept beyond the least. -/
theorem Kept.soundAfter (h : Kept Keep.least s t) : SoundAfter s (.next t) := h.stays.soundAfter

/-- A chain of inner operations and the end of the command. -/
theorem Kept.soundAfter_finish (h : Kept Keep.least s t) : SoundAfter s (.next t.finish) :=
  h.stays.finish.soundAfter

/-- What the chain that keeps least does not ask of a unit. -/
theorem Keep.least_units {p : Prop} : Keep.least.units = true → p := nofun

/-! ## Requests -/

/-- Every archive request, whether it comes by name or as its bytes, keeps the invariant. -/
theorem request_soundAfter (c : Instr) (h : Stated.requestRow c ≠ none) (s : State) : SoundAfter s (exec c s) := by
  cases c
  case identify => exact (Stays.request s _ _ _ _ _ _ _ (fun t => Stays.refl t) (.inl rfl)).soundAfter
  case attention => exact (Stays.request s _ _ _ _ _ _ _ Stays.attention (.inr rfl)).soundAfter
  case setLimits p => exact (Stays.request s _ _ _ _ _ _ _ (Stays.setLimits · p) (.inr rfl)).soundAfter
  case storeState p => exact (Stays.request s _ _ _ _ _ _ _ (Stays.reportStore · p) (.inl rfl)).soundAfter
  case defineDrive p => exact (Stays.request s _ _ _ _ _ _ _ (Stays.defineDrive · p) (.inr rfl)).soundAfter
  case withdrawDrive p => exact (Stays.request s _ _ _ _ _ _ _ (Stays.withdrawDrive · p) (.inr rfl)).soundAfter
  case restoreDrive p => exact (Stays.request s _ _ _ _ _ _ _ (Stays.restoreDrive · p) (.inr rfl)).soundAfter
  case clearDriveFault p =>
    exact (Stays.request s _ _ _ _ _ _ _ (Stays.clearDriveFault · p) (.inr rfl)).soundAfter
  case driveState p => exact (Stays.request s _ _ _ _ _ _ _ (Stays.reportDriveState · p) (.inr rfl)).soundAfter
  case trackRecord p => exact (Stays.request s _ _ _ _ _ _ _ (Stays.reportTrack · p) (.inr rfl)).soundAfter
  case listTracks p => exact (Stays.request s _ _ _ _ _ _ _ (Stays.listTracks · p) (.inr rfl)).soundAfter
  case pull p => exact (Stays.request s _ _ _ _ _ _ _ (Stays.pull · p) (.inr rfl)).soundAfter
  case pushSector p => exact (Stays.request s _ _ _ _ _ _ _ (Stays.pushSector · p) (.inr rfl)).soundAfter
  case lockTrack p => exact (Stays.request s _ _ _ _ _ _ _ (Stays.lockTrack · p) (.inr rfl)).soundAfter
  case unlockTrack p => exact (Stays.request s _ _ _ _ _ _ _ (Stays.unlockTrack · p) (.inr rfl)).soundAfter
  case markExported p => exact (Stays.request s _ _ _ _ _ _ _ (Stays.markExported · p) (.inr rfl)).soundAfter
  case releaseTrack p => exact (Stays.request s _ _ _ _ _ _ _ (Stays.releaseTrack · p) (.inr rfl)).soundAfter
  case queueTrack p => exact (Stays.request s _ _ _ _ _ _ _ (Stays.queueTrack · p) (.inr rfl)).soundAfter
  case retryTrack p => exact (Stays.request s _ _ _ _ _ _ _ (Stays.retryTrack · p) (.inr rfl)).soundAfter
  case sweepStart p => exact (Stays.request s _ _ _ _ _ _ _ (Stays.startSweep · p) (.inr rfl)).soundAfter
  case sweepStop p => exact (Stays.request s _ _ _ _ _ _ _ (Stays.stopSweep · p) (.inr rfl)).soundAfter
  case setLadder p => exact (Stays.request s _ _ _ _ _ _ _ (Stays.setLadder · p) (.inl rfl)).soundAfter
  case holdEnter => exact (Moves.request s _ _ _ _ _ _ Moves.holdEnter).soundAfter
  case holdExit => exact (Moves.request s _ _ _ _ _ _ Moves.holdExit).soundAfter
  case resetController => exact (Moves.request s _ _ _ _ _ _ Moves.resetController).soundAfter
  all_goals exact absurd rfl h

/-- A frame whose check verifies is one of the archive requests, or is answered UNKNOWN_REQUEST (R166). -/
theorem byKind_cases (s : State) (w : List Byte) :
    (∃ c, Stated.requestRow c ≠ none ∧ s.byKind w = exec c s)
      ∨ s.byKind w = .next (s.refuseFrame w .unknownRequest) := by
  unfold State.byKind
  dsimp only
  generalize w.getD 1 0 = g
  generalize framePayload w = p
  split
  · exact .inl ⟨.identify g p, nofun, rfl⟩
  · exact .inl ⟨.attention g p, nofun, rfl⟩
  · exact .inl ⟨.setLimits g p, nofun, rfl⟩
  · exact .inl ⟨.storeState g p, nofun, rfl⟩
  · exact .inl ⟨.defineDrive g p, nofun, rfl⟩
  · exact .inl ⟨.withdrawDrive g p, nofun, rfl⟩
  · exact .inl ⟨.restoreDrive g p, nofun, rfl⟩
  · exact .inl ⟨.clearDriveFault g p, nofun, rfl⟩
  · exact .inl ⟨.driveState g p, nofun, rfl⟩
  · exact .inl ⟨.trackRecord g p, nofun, rfl⟩
  · exact .inl ⟨.listTracks g p, nofun, rfl⟩
  · exact .inl ⟨.pull g p, nofun, rfl⟩
  · exact .inl ⟨.pushSector g p, nofun, rfl⟩
  · exact .inl ⟨.lockTrack g p, nofun, rfl⟩
  · exact .inl ⟨.unlockTrack g p, nofun, rfl⟩
  · exact .inl ⟨.markExported g p, nofun, rfl⟩
  · exact .inl ⟨.releaseTrack g p, nofun, rfl⟩
  · exact .inl ⟨.queueTrack g p, nofun, rfl⟩
  · exact .inl ⟨.retryTrack g p, nofun, rfl⟩
  · exact .inl ⟨.sweepStart g p, nofun, rfl⟩
  · exact .inl ⟨.sweepStop g p, nofun, rfl⟩
  · exact .inl ⟨.setLadder g p, nofun, rfl⟩
  · exact .inl ⟨.holdEnter g p, nofun, rfl⟩
  · exact .inl ⟨.holdExit g p, nofun, rfl⟩
  · exact .inl ⟨.resetController g p, nofun, rfl⟩
  · exact .inr rfl

theorem unknownRequest_soundAfter (s : State) (w : List Byte) : SoundAfter s (execUnknownRequest w s) := by
  unfold execUnknownRequest
  split
  · exact (Stays.refl s).soundAfter
  · split
    · exact (Stays.readWindow s _).soundAfter
    · split
      · obtain ⟨c, hc, e⟩ | e := byKind_cases s w
        · exact e ▸ request_soundAfter c hc s
        · exact e ▸ (Stays.refuseFrame s w _).soundAfter
      · exact (Stays.refuseFrame s w _).soundAfter

/-! ## Start-up -/

theorem powerOn_sound (straps : Straps) (r f : Four Bool) (a b : Bool) (q : List Instr) :
    (State.powerOn straps r f a b q).Sound where
  store := show StoreRec.powerOn.sound = true by decide
  tracks := rfl
  geometry d := by simp [State.powerOn, geometrySound]
  ladder := show ladderSound defaultLadder = true by decide
  uncertainty := by simp [State.powerOn, Limits.reset]
  starvation := by simp [State.powerOn, Limits.reset]
  settings := settings_defaults_sound
  depth d := by simp [State.powerOn, SweepRec.powerOn]
  fitted d := by simp [State.powerOn, DriveRec.powerOn]

theorem Moves.formatEnd (s : State) : Moves s (s.format.beginDiscoveryPhase (·.fitted)).finish :=
  ((Moves.format s).beginDiscoveryPhase _).finish

theorem Moves.rescanEnd (s : State) (l : List Nat) :
    Moves s ((s.rescan l).beginDiscoveryPhase DriveRec.inService).finish :=
  ((Moves.rescan s l).beginDiscoveryPhase _).finish

theorem Moves.discoveryPhaseEnd (s : State) :
    Moves s (s.becomeReady.modAttention fun a => { a with started := true }).finish :=
  ((Moves.becomeReady s).trans (Kept.refl Keep.least _).attnStarted.stays.moves).finish

theorem Moves.ite {p : Prop} [Decidable p] {r : State} (h : Moves s t) (g : Moves s r) :
    Moves s (if p then t else r) := by
  split
  · exact h
  · exact g

/-! ## The drives' lines -/

/-- A drive's record changed, its strap kept. -/
theorem State.Sound.modDrive (h : s.Sound) (d : Fin 4) (f : DriveRec → DriveRec)
    (g : ∀ r, (f r).fitted = r.fitted) : (s.modDrive d f).Sound := by
  refine { h with fitted := fun e => ?_ }
  rw [show (s.modDrive d f).ctl = s.ctl from rfl, ← h.fitted e, State.modDrive, Four.get_modify]
  split
  · rename_i he
    exact he ▸ g _
  · rfl

theorem State.Sound.setReadyLine (h : s.Sound) (d : Fin 4) (b : Bool) : (s.setReadyLine d b).Sound :=
  h.modDrive d _ fun _ => rfl

theorem State.Sound.setFaultHeld (h : s.Sound) (d : Fin 4) (b : Bool) : (s.setFaultHeld d b).Sound :=
  h.modDrive d _ fun _ => rfl

theorem State.Sound.readyLineFalls (h : s.Sound) (d : Fin 4) : (s.readyLineFalls d).Sound := by
  unfold State.readyLineFalls
  have a := Kept.refl Keep.least (s.setReadyLine d false)
  dsimp only
  split
  · exact (a.readyFalls rfl Keep.least_units).sound (h.setReadyLine d _)
  · exact h.setReadyLine d _

theorem State.Sound.readyLineRises (h : s.Sound) (d : Fin 4) : (s.readyLineRises d).Sound := by
  unfold State.readyLineRises
  have a := Kept.refl Keep.least (s.setReadyLine d true)
  dsimp only
  split
  · exact (a.readyRises rfl Keep.least_units).sound (h.setReadyLine d _)
  · exact h.setReadyLine d _

theorem State.Sound.faultLineRises (h : s.Sound) (d : Fin 4) : (s.faultLineRises d).Sound := by
  obtain ⟨held, a⟩ := faultLineRises_kept (k := Keep.least) (d := d) rfl s
  exact (a Keep.least_units).sound (h.setFaultHeld d held)

theorem State.Sound.answers (h : s.Sound) (d : Fin 4) : (s.answers d).Sound := by
  obtain ⟨t, e, a⟩ := answers_kept (k := Keep.least) (d := d) rfl s
  refine (a Keep.least_units).sound ?_
  rcases e with e | e <;> subst e
  · exact h
  · exact h.setFaultHeld d _

theorem State.Sound.finish (h : s.Sound) : s.finish.Sound := s.finish_kept.sound h

/-! ## The memory bus -/

theorem Stays.busReq (s : State) (st : ReqState) : Stays s (s.setReq st) := (Stays.refl s).setReq _

theorem Stays.ite {p : Prop} [Decidable p] {r : State} (h : Stays s t) (g : Stays s r) :
    Stays s (if p then t else r) := by
  split
  · exact h
  · exact g

theorem busAdvance_soundAfter (s : State) (o : MemoryOutcome) (ws : List Word16) :
    SoundAfter s (execBusAdvance o ws s) := by
  unfold execBusAdvance
  split
  · exact (Stays.burstEnds s _ _).soundAfter
  · exact (Stays.freeReq s).finish.soundAfter
  all_goals exact (Stays.refl s).soundAfter

theorem advanceTimeout_soundAfter (s : State) : SoundAfter s (execAdvanceTimeout s) := by
  unfold execAdvanceTimeout
  split
  · exact (Stays.burstEnds s _ _).soundAfter
  · exact (Stays.freeReq s).finish.soundAfter
  all_goals exact (Stays.refl s).soundAfter

/-! ## Every command -/

theorem exec_soundAfter (c : Instr) (s : State) : SoundAfter s (exec c s) := by
  by_cases request : Stated.requestRow c ≠ none
  · exact request_soundAfter c request s
  have k := Kept.refl Keep.least s
  have quiet : ∀ u, Keep.least.units = true → ¬ s.Apart u := fun _ => Keep.least_units
  cases c
  case powerOn => exact .next fun _ => powerOn_sound _ _ _ _ _ _
  case storeCheckEnd => exact (Moves.ite (Moves.endStoreCheck s _).finish (.refl s)).soundAfter
  case formatEnd => exact (Moves.ite (Moves.formatEnd s) (.refl s)).soundAfter
  case discoveryPhaseEnd => exact (Moves.ite (Moves.discoveryPhaseEnd s) (.refl s)).soundAfter
  case rescanEnd => exact (Moves.ite (Moves.rescanEnd s _) (.refl s)).soundAfter
  case holdEntry => exact (Moves.ite (Moves.enterHold s) (.refl s)).soundAfter
  case resumingEnd => exact (Moves.ite (Moves.becomeReady s).finish (.refl s)).soundAfter
  case systemClear => exact (Stays.systemClear s).soundAfter
  case systemClearRelease => exact ((Stays.refl s).setPort { s.port with clearLine := false } id).soundAfter
  case addressHi => exact (Stays.setAddress s _).soundAfter
  case addressLo => exact (Stays.setAddress s _).soundAfter
  case registerWriteIgnored => exact k.soundAfter
  case start u => exact (Stays.command s _ (Stays.startCommand s u)).soundAfter
  case probe u => exact (Stays.command s _ (Stays.probeCommand s u)).soundAfter
  case halt u => exact (Stays.command s _ (Stays.haltCommand s u)).soundAfter
  case acknowledge u => exact (Stays.command s _ (Stays.acknowledgeCommand s u)).soundAfter
  case ackController => exact (Stays.command s _ (Stays.ackController s)).soundAfter
  case setup => exact (Stays.command s _ (Stays.setupCommand s)).soundAfter
  case illegalCommand w => exact (Stays.command s _ (Stays.commandWord s w)).soundAfter
  case busGrant => exact (Stays.ite (Stays.busReq s _) (.refl s)).soundAfter
  case busAccept => exact (Stays.ite (Stays.busReq s _) (.refl s)).soundAfter
  case busAdvance => exact busAdvance_soundAfter s _ _
  case grantTimeout => exact (Stays.ite (Stays.burstEnds s _ _) (.refl s)).soundAfter
  case advanceTimeout => exact advanceTimeout_soundAfter s
  case patienceTimerExpiry u =>
    exact (Stays.ite (k.patienceExpires (quiet u)).stays.finish (.refl s)).soundAfter
  case readWindow => exact (Stays.readWindow s _).soundAfter
  case unknownRequest w => exact unknownRequest_soundAfter s w
  case linkRst => exact (Stays.linkReset s).soundAfter
  case linkRstRelease => exact ((Stays.refl s).setLink _).soundAfter
  case readyLineFall d => exact .next fun h => (h.readyLineFalls d).finish
  case readyLineRise d => exact .next fun h => (h.readyLineRises d).finish
  case faultLineRise d => exact .next fun h => (h.faultLineRises d).finish
  case driveAnswer d => exact .next fun h => (h.answers d).finish
  case index d => exact (k.indexArrives rfl (quiet d)).soundAfter_finish
  case indexLost d => exact (k.loseIndex rfl (quiet d)).soundAfter_finish
  case answerTimeout d => exact (k.noAnswer rfl (quiet d)).soundAfter_finish
  case markPulse => exact (k.countPulse rfl).soundAfter
  case seekDone => exact (k.seekDone rfl).soundAfter_finish
  case seekTimeout d => exact (k.seekTimesOut rfl (quiet d)).soundAfter_finish
  case recalibrationTimeout d => exact (k.recalibrationTimesOut rfl (quiet d)).soundAfter_finish
  case settleEnd => exact k.settles.soundAfter_finish
  case headerField h => exact (k.takeHeader h).soundAfter
  case dataField b bytes => exact (k.takeData b bytes).soundAfter_finish
  case pitchWindowClose b => exact (k.closePitchWindow b).soundAfter_finish
  case blindWindowClose => exact k.closeBlindWindow.soundAfter
  case refreshTimer l => exact ((Stays.addFlips s l).setStore (s.addFlips l).store.timerExpires id).soundAfter
  case storeBurstEnd => exact (Stays.storeBurstEnds s _).soundAfter
  case scrubGroup => exact (Stays.scrub s).soundAfter
  case voteSector => exact k.voteSectorStep.soundAfter_finish
  all_goals exact absurd nofun request

/-- One step takes the front command on the state with the queue's rest, which is no part of the invariant. -/
theorem step_sound {s t : State} (h : s.Sound) (e : step s = .next t) : t.Sound := by
  unfold step at e
  split at e
  · cases e
    exact h
  · exact exec_soundAfter _ _ t e { h with }

/-- Settles O4: by cases on the front command, each by what its operation keeps. -/
theorem stepKeepsSound : Obligations.StepKeepsSound := fun _ _ => step_sound

end Sys2Proof.Machine
end

