-- ==== Sys2Proof/Proofs/Geometry.lean ====
section
/-! SUPPORT. What a valid geometry gives (R1, R6): the slots of a track and its logical sectors, one for one. -/

namespace Sys2Proof.Machine

open Sys2Proof.Stated

/-- The check of a geometry record is R1's list of ranges. -/
theorem Geometry.valid_iff (g : Geometry) : g.valid = true ↔ geometryGood g := by
  simp [Geometry.valid, geometryGood, and_assoc, or_assoc, Nat.Coprime]

variable {g : Geometry}

theorem Geometry.slotOf_lt (h : geometryGood g) (k : Nat) : g.slotOf k < g.sectors := by
  obtain ⟨-, -, -, -, least, -⟩ := h
  exact Nat.mod_lt _ (by omega)

/-- Two sectors of a track lie in different slots, since INTERLEAVE has no factor in common with SECTORS (R6). -/
theorem Geometry.slotOf_inj (h : geometryGood g) {j k : Nat} (hj : j < g.sectors) (hk : k < g.sectors)
    (e : g.slotOf j = g.slotOf k) : j = k := by
  obtain ⟨-, -, -, -, -, -, -, -, -, -, -, -, -, coprime⟩ := h
  have : j ≡ k [MOD g.sectors] := Nat.ModEq.cancel_right_of_coprime coprime.symm e
  rwa [Nat.ModEq, Nat.mod_eq_of_lt hj, Nat.mod_eq_of_lt hk] at this

/-- Every slot holds some sector: the slots are as many as the sectors, and no two sectors share one. -/
theorem Geometry.exists_slotOf (h : geometryGood g) {slot : Nat} (hs : slot < g.sectors) :
    ∃ k, k < g.sectors ∧ g.slotOf k = slot := by
  let f : Fin g.sectors → Fin g.sectors := fun k => ⟨g.slotOf k, Geometry.slotOf_lt h k⟩
  have inj : Function.Injective f := fun j k e =>
    Fin.ext (Geometry.slotOf_inj h j.isLt k.isLt (congrArg Fin.val e))
  obtain ⟨k, e⟩ := Finite.surjective_of_injective inj ⟨slot, hs⟩
  exact ⟨k, k.isLt, congrArg Fin.val e⟩

/-- The sector of a slot is a sector of the track, and its slot is that one (R6). -/
theorem Geometry.sectorAt_spec (h : geometryGood g) {slot : Nat} (hs : slot < g.sectors) :
    g.sectorAt slot < g.sectors ∧ g.slotOf (g.sectorAt slot) = slot := by
  obtain ⟨k, hk, e⟩ := Geometry.exists_slotOf h hs
  unfold Geometry.sectorAt
  cases found : (List.range g.sectors).find? (fun k => g.slotOf k = slot) with
  | none => exact absurd e (by simpa using List.find?_eq_none.1 found k (List.mem_range.2 hk))
  | some j =>
    exact ⟨List.mem_range.1 (List.mem_of_find?_eq_some found), by simpa using List.find?_some found⟩

theorem Geometry.slotOf_succ (g : Geometry) (k : Nat) :
    g.slotOf (k + 1) = (g.slotOf k + g.interleave) % g.sectors := by
  simp [Geometry.slotOf, Nat.add_mul]

/-- Settles O51: INTERLEAVE is coprime to SECTORS, so the slots permute the sectors. -/
theorem slotHoldsOneSector : Obligations.SlotHoldsOneSector := by
  intro g valid
  have good := (Geometry.valid_iff g).1 valid
  exact ⟨fun _ => rfl, by simp [Geometry.slotOf], fun k _ => g.slotOf_succ k,
    fun _ => Geometry.sectorAt_spec good, fun _ _ => Geometry.slotOf_inj good⟩

end Sys2Proof.Machine
end

