-- ==== Sys2Proof/Proofs/Discovery.lean ====
section
/-! SUPPORT. The start of a discovery on drives that are neither FAULTED nor WITHDRAWN (R18), and the end of FORMAT. -/

namespace Sys2Proof.Machine

open Sys2Proof.Stated

/-- A drive record with a discovery, recalibration included, at its first stage. -/
def DriveRec.discoveryBegun (r : DriveRec) : DriveRec :=
  { r with discovery := some { skipRecalibration := false, stage := .awaitAnswer } }

/-- A discovery on a drive that has nothing to release begins, and its STATE stays: nothing is reported (R18, R23). -/
theorem startDiscovery_plain {s : State} {d : Fin 4} (f : (s.drives.get d).state ≠ .faulted)
    (w : (s.drives.get d).state ≠ .withdrawn) : s.startDiscovery d false = s.modDrive d DriveRec.discoveryBegun := by
  have e : (s.drives.get d).startDiscovery false = (s.drives.get d).discoveryBegun := by
    simp [DriveRec.startDiscovery, DriveRec.discoveryBegun, f, w]
  have m : (s.modDrive d fun r => r.startDiscovery false) = s.modDrive d DriveRec.discoveryBegun := by
    simp only [State.modDrive, Four.modify, e]
  unfold State.startDiscovery State.reportIfChanged
  rw [m, if_pos (by simp [DriveRec.discoveryBegun])]

/-- The record of a position once every fitted drive's discovery has begun. -/
def DriveRec.fittedBegun (r : DriveRec) : DriveRec := if r.fitted then r.discoveryBegun else r

/-- Some fitted drives' discoveries begin, one after another, where none has anything to release. -/
theorem foldl_startDiscovery (l : List (Fin 4)) {s : State}
    (h : ∀ d, (s.drives.get d).fitted = true →
      (s.drives.get d).state ≠ DriveState.faulted ∧ (s.drives.get d).state ≠ DriveState.withdrawn) :
    l.foldl (fun s d => if (s.drives.get d).fitted then s.startDiscovery d false else s) s
      = { s with drives := l.foldl (fun x d => x.modify d DriveRec.fittedBegun) s.drives } := by
  induction l generalizing s with
  | nil => rfl
  | cons d rest ih =>
    have e : (if (s.drives.get d).fitted then s.startDiscovery d false else s) = s.modDrive d DriveRec.fittedBegun := by
      by_cases fit : (s.drives.get d).fitted = true
      · rw [if_pos fit, startDiscovery_plain (h d fit).1 (h d fit).2]
        simp [State.modDrive, Four.modify, DriveRec.fittedBegun, fit]
      · rw [if_neg fit]
        simp [State.modDrive, Four.modify, DriveRec.fittedBegun, fit, four_set_self]
    rw [List.foldl_cons, e]
    refine ih fun i => ?_
    rw [modDrive_drives, Four.get_modify]
    split
    · rename_i hi
      subst hi
      have := h i
      unfold DriveRec.fittedBegun DriveRec.discoveryBegun
      split
      · exact this
      · exact this
    · exact h i

/-- Every fitted drive's discovery begins, where none has anything to release (R173). -/
theorem discoverAll_fitted {s : State}
    (h : ∀ d, (s.drives.get d).fitted = true →
      (s.drives.get d).state ≠ DriveState.faulted ∧ (s.drives.get d).state ≠ DriveState.withdrawn) :
    s.discoverAll (·.fitted) = { s with drives := s.drives.map DriveRec.fittedBegun } :=
  foldl_startDiscovery fourNumbers h

/-- The DISCOVERY phase of a start-up begins with the discovery of every fitted position (R173). -/
theorem beginDiscoveryPhase_fitted {s : State}
    (h : ∀ d, (s.drives.get d).fitted = true →
      (s.drives.get d).state ≠ DriveState.faulted ∧ (s.drives.get d).state ≠ DriveState.withdrawn) :
    s.beginDiscoveryPhase (·.fitted) = { s with
      ctl := { s.ctl with phase := some .discovery }, drives := s.drives.map DriveRec.fittedBegun } :=
  discoverAll_fitted h

/-- Settles O8: FORMAT writes the table, and the discoveries begin with nothing to release. -/
theorem formatAndDiscoveryBegin : Obligations.FormatAndDiscoveryBegin := by
  intro s starting format drives
  have phase : s.inPhase .format = true := by simp [State.inPhase, starting, format]
  have performed : exec .formatEnd s = .next (s.format.beginDiscoveryPhase (·.fitted)).finish :=
    congrArg Host.Outcome.next (if_pos phase)
  rw [beginDiscoveryPhase_fitted (s := s.format) drives] at performed
  refine ⟨_, performed, rfl, rfl, rfl, fun d => ?_, fun d => Four.get_all _ d, fun d => Four.get_map _ _ d, rfl,
    fun e => ?_, rfl⟩
  · exact Four.get_ofFn _ d
  · simp [State.format]

end Sys2Proof.Machine
end

