-- ==== Sys2Proof/Proofs/DefineDrive.lean ====
section
/-! SUPPORT. DEFINE_DRIVE (R14, R15): what its tests ask, what its two forms do, and the answer that a performed request leaves. -/

namespace Sys2Proof.Machine

open Sys2Proof.Stated

variable {s : State}

/-! ## The answer -/

/-- A response placed in the slot is an answer, the attention set as it stands; ATTENTION's own is another matter. -/
theorem answered_place {t : State} (slot : t.link.slot = s.link.slot) (kind tag : Byte) (r : Result) (p : List Byte)
    (other : kind ≠ attentionKind) : answered s (t.place kind tag r p) kind tag r p := by
  refine ⟨_, rfl, rfl, rfl, rfl, rfl, congrArg Option.isSome slot, ?_⟩
  simp [State.place, other, ← attention_isEmpty_iff]

theorem onlyAsks_refl (x : StoreRec) : onlyAsks x x := ⟨_, _, _, rfl⟩

/-! ## The tests -/

/-- The undefine form is the payload whose bytes 1 to 10 are all zero (R14). -/
theorem undefineForm_iff {p : List Byte} (h : p.length = 12) :
    undefineForm p = true ↔ ∀ i, 1 ≤ i → i ≤ 10 → p.getD i 0 = 0 := by
  have byte : ∀ i (hi : i < ((p.drop 1).take 10).length), ((p.drop 1).take 10)[i] = p.getD (1 + i) 0 := by
    intro i hi
    simp only [List.length_take, List.length_drop] at hi
    rw [List.getElem_take, List.getElem_drop, List.getD_eq_getElem _ _ (by omega)]
  unfold undefineForm
  simp only [List.all_eq_true, decide_eq_true_eq, List.forall_mem_iff_forall_getElem, byte, List.length_take,
    List.length_drop, h]
  constructor
  · intro g i low high
    have := g (i - 1) (by omega)
    rwa [show 1 + (i - 1) = i by omega] at this
  · intro g i hi
    exact g (1 + i) (by omega) (by omega)

/-- A drive is in use when a track record of it is not FREE, the Direct Read Slot holds it or waits for it, or its
unit works (R14). -/
theorem driveInUse_iff (s : State) (d : Fin 4) : s.driveInUse d = true ↔
    (∃ e ∈ s.tracks, e.2.state ≠ .free ∧ ∃ a, e.2.addr = some a ∧ a.drive = d)
      ∨ (s.drives.get d).claim = some .drs ∨ (s.drives.get d).drsWaiting = true
      ∨ (∃ t, s.drs.target = some t ∧ t.addr.drive = d)
      ∨ ((s.units.get d).state ≠ .idle ∧ (s.units.get d).state ≠ .pending) := by
  simp only [State.driveInUse, State.driveHasTracks, State.drsUses, UnitRec.busy, Bool.or_eq_true, Bool.and_eq_true,
    List.any_eq_true, decide_eq_true_eq, Option.map_eq_some_iff, or_assoc]

/-! ## The effect -/

/-- The define form's effect on the drive, in one record (R15, R20). -/
theorem rediscover_eq (s : State) (d : Fin 4) : s.rediscover d = s.modDrive d rediscovered := by
  have record : ∀ r : DriveRec, rediscovered (s.drives.get d) = r →
      s.modDrive d rediscovered = s.modDrive d fun _ => r := by
    rintro _ rfl; rfl
  have same : rediscovered (s.drives.get d) = s.drives.get d → s = s.modDrive d rediscovered := fun h => by
    rw [record _ h]
    simp [State.modDrive, Four.modify, four_set_self]
  have begun (f : (s.drives.get d).state ≠ .faulted) (w : (s.drives.get d).state ≠ .withdrawn)
      (e : rediscovered (s.drives.get d) = (s.drives.get d).discoveryBegun) :
      s.startDiscovery d false = s.modDrive d rediscovered := by
    rw [startDiscovery_plain f w, record _ e]; rfl
  unfold State.rediscover
  split <;> rename_i st
  · exact begun (by simp [st]) (by simp [st]) (by simp [rediscovered, DriveRec.discoveryBegun, st])
  · exact begun (by simp [st]) (by simp [st]) (by simp [rediscovered, DriveRec.discoveryBegun, st])
  · exact begun (by simp [st]) (by simp [st]) (by simp [rediscovered, DriveRec.discoveryBegun, st])
  · cases disc : (s.drives.get d).discovery with
    | none => exact (if_neg (by simp [DriveRec.discovering, disc])).trans (same (by simp [rediscovered, st, disc]))
    | some x =>
      refine (if_pos (by simp [DriveRec.discovering, disc])).trans ?_
      rw [record _ (show _ = (s.drives.get d).discoveryBegun by simp [rediscovered, DriveRec.discoveryBegun, st, disc])]
      rfl
  · exact same (by simp [rediscovered, st])

theorem clearFlips_clean (h : s.store.flips = []) (o : WordOwner) : s.clearFlips o = s := by
  unfold State.clearFlips
  rw [h]
  exact congrArg (fun l => { s with store := { s.store with flips := l } }) h.symm

/-- A geometry record is replaced in a store without bit errors: one burst asked for, and the sweep made OFF. -/
theorem writeGeometry_clean (h : s.store.flips = []) (d : Fin 4) (g : Option Geometry) :
    s.writeGeometry d g = { s.askStore .link 1 with
      geometry := s.geometry.set d g
      sweeps := s.sweeps.set d { s.sweeps.get d with state := .off, cyl := 0, head := 0 } } := by
  unfold State.writeGeometry
  rw [clearFlips_clean (s := s.setGeometry d g) h]
  rfl

variable {p : List Byte} {d : Fin 4}

/-- A form that is neither the undefine form nor R1's is refused (R14). -/
theorem defineDrive_range (drive : at1 p 0 = d.val) (fit : (s.drives.get d).fitted = true)
    (u : undefineForm p = false) (v : (parseGeometry p).valid = false) : s.defineDrive p = s.reply .range := by
  unfold State.defineDrive
  rw [withDrive_some drive fit, if_pos (by simp [u, v])]

theorem defineDrive_inUse (drive : at1 p 0 = d.val) (fit : (s.drives.get d).fitted = true)
    (v : undefineForm p = true ∨ (parseGeometry p).valid = true) (used : s.driveInUse d = true) :
    s.defineDrive p = s.reply .driveInUse := by
  unfold State.defineDrive
  rw [withDrive_some drive fit, if_neg (by simpa [or_iff_not_imp_left] using v), if_pos used]

/-- The state after a form that DEFINE_DRIVE accepts, in a store without bit errors, with the drive's record as given:
the sweep record is read and the geometry record written, in a burst of the link each. -/
def State.geometryReplaced (s : State) (d : Fin 4) (g : Option Geometry) (r : DriveRec) : State :=
  { (s.askStore .link 1).askStore .link 1 with
    geometry := s.geometry.set d g
    sweeps := s.sweeps.set d { s.sweeps.get d with state := .off, cyl := 0, head := 0 }
    drives := s.drives.set d r }

theorem acceptDefine_undefine (clean : s.store.flips = []) (u : undefineForm p = true) :
    s.acceptDefine d p
      = (s.geometryReplaced d none { s.drives.get d with discovery := none }).reply .ok := by
  unfold State.acceptDefine
  rw [withRecords_clean clean, if_pos u, show s.asking _ = s.askStore .link 1 from rfl,
    writeGeometry_clean (s := s.askStore .link 1) clean]
  rfl

theorem acceptDefine_define (clean : s.store.flips = []) (u : undefineForm p = false) :
    s.acceptDefine d p
      = (s.geometryReplaced d (some (parseGeometry p)) (rediscovered (s.drives.get d))).reply .accepted := by
  unfold State.acceptDefine
  rw [withRecords_clean clean, if_neg (by simp [u]), show s.asking _ = s.askStore .link 1 from rfl,
    writeGeometry_clean (s := s.askStore .link 1) clean, rediscover_eq]
  rfl

theorem defineDrive_accepted (drive : at1 p 0 = d.val) (fit : (s.drives.get d).fitted = true)
    (v : undefineForm p = true ∨ (parseGeometry p).valid = true) (free : s.driveInUse d = false) :
    s.defineDrive p = s.acceptDefine d p := by
  unfold State.defineDrive
  rw [withDrive_some drive fit, if_neg (by simpa [or_iff_not_imp_left] using v), if_neg (by simp [free])]

/-- DEFINE_DRIVE is performed with the reply that its rule gives on the window's state. -/
theorem exec_defineDrive {tag : Byte} {y : Reply} (len : p.length = 12) (link : linkReady s)
    (reply : (s.requestWindow p).defineDrive p = y) :
    exec (.defineDrive tag p) s = .next (y.after.place 0x05 tag y.result y.payload).finish :=
  request_performed (rest := State.finish) rfl y reply link.1 (by simp [len]) (by omega) (ready_performs _ link.2)

/-- Settles O45: the tests of R14 in their order, and the two forms' effects in a store without bit errors. -/
theorem defineDriveByForm : Obligations.DefineDriveByForm := by
  intro tag p s len link clean
  dsimp only
  have other : (0x05 : Byte) ≠ attentionKind := by decide
  -- a refusal answers and changes nothing else
  have refused : ∀ r, (s.requestWindow p).defineDrive p = (s.requestWindow p).reply r →
      onlyAnswers (.defineDrive tag p) s 0x05 tag r [] := fun r reply =>
    ⟨_, exec_defineDrive len link reply, answered_place rfl _ _ _ _ other, ⟨rfl, rfl, onlyAsks_refl _⟩, rfl⟩
  refine ⟨fun unfitted => refused _ (withDrive_none (s := s.requestWindow p) unfitted _), fun d drive fit => ?_⟩
  have form : undefineForm p = true ↔ ∀ i, 1 ≤ i → i ≤ 10 → p.getD i 0 = 0 := undefineForm_iff len
  have good := Geometry.valid_iff (parseGeometry p)
  have used := driveInUse_iff s d
  refine ⟨fun define bad => ?_, fun fine busy => ?_, fun undefine idle => ?_, fun define fine idle => ?_⟩
  · exact refused _ (defineDrive_range (s := s.requestWindow p) drive fit
      (Bool.eq_false_iff.2 fun u => define (form.1 u)) (Bool.eq_false_iff.2 fun v => bad (good.1 v)))
  · exact refused _ (defineDrive_inUse (s := s.requestWindow p) drive fit (fine.imp form.2 good.2) (used.2 busy))
  · have reply := (defineDrive_accepted (s := s.requestWindow p) drive fit (.inl (form.2 undefine))
      (Bool.eq_false_iff.2 fun u => idle (used.1 u))).trans (acceptDefine_undefine clean (form.2 undefine))
    exact ⟨_, exec_defineDrive len link reply, answered_place rfl _ _ _ _ other, ⟨rfl, rfl, _, _, _, rfl⟩,
      rfl, rfl, rfl, rfl⟩
  · have reply := (defineDrive_accepted (s := s.requestWindow p) drive fit (.inr (good.2 fine))
      (Bool.eq_false_iff.2 fun u => idle (used.1 u))).trans
        (acceptDefine_define clean (Bool.eq_false_iff.2 fun u => define (form.1 u)))
    exact ⟨_, exec_defineDrive len link reply, answered_place rfl _ _ _ _ other, ⟨rfl, rfl, _, _, _, rfl⟩,
      rfl, rfl, rfl, rfl⟩

end Sys2Proof.Machine
end

