-- ==== Sys2Proof/Proofs/Revolution.lean ====
section
/-! SUPPORT. One open revolution in the words of the statements (R5 to R12): whose it is, what its holder wants, what a header gives, what a data field's outcome is, and what report an attempt makes. -/

namespace Sys2Proof.Machine

open Sys2Proof.Stated

variable {s : State} {g : Grant} {geo : Geometry}

/-! ## The open revolution -/

theorem openGrant_of_open (h : openRevolution s g geo) : s.openGrant = some (g, geo) := by
  obtain ⟨grant, opened, geometry⟩ := h
  unfold State.openGrant
  rw [grant]
  dsimp only
  rw [if_pos opened, geometry]
  rfl

theorem openGrant_none (h : ∀ g geo, ¬ openRevolution s g geo) : s.openGrant = none := by
  unfold State.openGrant
  split
  · rfl
  · rename_i g grant
    split
    · rename_i opened
      cases geometry : s.geometry.get g.addr.drive with
      | none => rfl
      | some geo => exact absurd ⟨grant, opened, geometry⟩ (h g geo)
    · rfl

/-- The holder's wanted set holds a sector (R12). -/
theorem wantedBy_contains_iff (s : State) (h : Holder) (k : Nat) :
    (s.wantedBy h).contains k = true ↔ wantedNow s h k := by
  cases h with
  | ctx c => simp [State.wantedBy, wantedNow]
  | drs => cases e : s.drs.target <;> simp [State.wantedBy, wantedNow, e, eq_comm]

/-! ## Headers -/

theorem blindable_iff (x : HeaderResult) : x.blindable = true ↔ blindHeader x := by
  cases x <;> simp [HeaderResult.blindable, blindHeader]

theorem flag_isSome_iff (x : HeaderResult) : x.flag.isSome = true ↔ ∃ f, x = .addressed f := by
  cases x <;> simp [HeaderResult.flag]

theorem looksForData_iff (b w : Bool) (x : HeaderResult) : looksForData b w x = true ↔
    (∃ f, x = .addressed f) ∨ (b = true ∧ w = true ∧ blindHeader x) := by
  simp [looksForData, blindable_iff, flag_isSome_iff, and_assoc]

theorem wordOf_toNat (hi lo : Byte) : (wordOf hi lo).toNat = hi.toNat * 256 + lo.toNat := by
  unfold wordOf
  rw [BitVec.toNat_append, Nat.shiftLeft_eq, Nat.mul_comm, ← Nat.two_pow_add_eq_or_of_lt lo.isLt]

/-- A header field's result, its check said by the two bytes that it ends with (R7, R8). -/
theorem classifyHeader_eq (seed : Word16) (a : TrackAddr) (h : HeaderBytes) :
    classifyHeader seed a h = headerIs seed a h := by
  have check : verifies seed (headerList h) = true ↔
      [h.cylHigh, h.cylLow, h.head, h.sector, h.flag, h.checkHigh, h.checkLow]
        = withCheck seed [h.cylHigh, h.cylLow, h.head, h.sector, h.flag] :=
    verifies_iff seed (headerList h) (by simp [headerList])
  unfold classifyHeader headerIs
  by_cases v : verifies seed (headerList h) = true
  · rw [if_neg (by simp [v]), if_neg (not_not.2 (check.1 v))]
    simp [wordOf_toNat]
  · rw [if_pos (by simp [v]), if_pos (fun e => v (check.2 e))]

theorem headerIs_cases (seed : Word16) (a : TrackAddr) (h : HeaderBytes) :
    headerIs seed a h = .headerCheck ∨ headerIs seed a h = .wrongAddress
      ∨ headerIs seed a h = .addressed h.flag := by
  unfold headerIs
  split
  · exact .inl rfl
  · split
    · exact .inr (.inl rfl)
    · exact .inr (.inr rfl)

/-- The revolution after a header with one of the three results that a header field has (R8, R13). -/
theorem withHeader_eq (v : Revolution) (f : Byte) {x : HeaderResult}
    (h : x = .headerCheck ∨ x = .wrongAddress ∨ x = .addressed f) :
    v.withHeader x = { v with
      header := x, data := if x = .headerCheck then v.data else none
      anyVerified := v.anyVerified || decide (x ≠ .headerCheck)
      anyAddressed := v.anyAddressed || decide (x = .addressed f) } := by
  rcases h with h | h | h <;> subst h <;> simp [Revolution.withHeader, HeaderResult.blindable, HeaderResult.flag]

/-! ## Data fields and reports -/

@[simp] theorem fieldBytes_length (b : Nat) (bytes : List Byte) : (fieldBytes b bytes).length = b + 2 := by
  simp [fieldBytes]

/-- A data field is GOOD exactly when it ends with the check of its data bytes (R7, R9). -/
theorem dataOutcome_eq (seed : Word16) (b : Nat) (bytes : List Byte) :
    let field := fieldBytes b bytes
    dataOutcome seed field = if field = withCheck seed (field.take b) then .good else .checkFail := by
  have check := verifies_iff seed (fieldBytes b bytes) (by simp)
  rw [fieldBytes_length, Nat.add_sub_cancel] at check
  unfold dataOutcome
  simp only [check]

/-- An attempt's report from its header result and its data outcome (R9 to R12). -/
theorem makeReport_eq (k : Nat) (x : HeaderResult) (data : Option AttemptOutcome) (b : Bool) :
    makeReport k x data b = takenReport k x (data.getD .noSync) b := by
  cases x <;> cases b <;> rfl

/-! ## Writes to the store -/

/-- Bytes have been written to the store from an address on, and nothing else has changed but the claims on it. -/
structure Written (s m : State) (a : Nat) (bytes : List Byte) : Prop where
  read : readBytes m.store.mem a bytes.length = bytes
  others : ∀ i, i < a ∨ a + bytes.length ≤ i → readByte m.store.mem i = readByte s.store.mem i
  store : onlyAsks { s.store with mem := m.store.mem } m.store
  frame : m = { s with store := m.store }

theorem State.Sound.memory (h : s.Sound) : Memory.wf s.store.mem = true := ((StoreRec.sound_iff _).1 h.store).1

theorem askStore_onlyAsks (s : State) (cl : StoreClaimant) (n : Nat) : onlyAsks s.store (s.askStore cl n).store :=
  ⟨_, _, _, rfl⟩

/-- A write of a claim in a store without bit errors: its bytes, and its bursts asked for (R39, R119). -/
theorem writeStore_clean (clean : s.store.flips = []) (cl : StoreClaimant) (a : Nat) (bytes : List Byte) :
    s.writeStore cl a bytes = ({ s with store := { s.store with mem := writeBytes s.store.mem a bytes } } : State).askStore
      cl (burstsFor (((a + bytes.length + 7) / 8 - a / 8) * 8)) := by
  unfold State.writeStore
  dsimp only
  rw [clean, List.filter_nil, ← clean]

theorem writeStore_written (wf : Memory.wf s.store.mem = true) (clean : s.store.flips = []) (cl : StoreClaimant)
    (a : Nat) (bytes : List Byte) : Written s (s.writeStore cl a bytes) a bytes := by
  rw [writeStore_clean clean]
  exact ⟨readBytes_writeBytes bytes _ a wf, fun i hi => readByte_writeBytes_outside bytes _ a i hi,
    askStore_onlyAsks _ _ _, rfl⟩

end Sys2Proof.Machine
end

