-- ==== Sys2Proof/Proofs/Fields.lean ====
section
/-! SUPPORT. Header and data fields within an open revolution, and the close of a blind window (R8 to R10, R12). -/

namespace Sys2Proof.Machine

open Sys2Proof.Stated

variable {s : State} {g : Grant} {geo : Geometry}

/-! ## HEADER_FIELD and BLIND_WINDOW_CLOSE -/

/-- A header outside a window that awaits one changes nothing (R8, log entry 14). -/
theorem takeHeader_ignored (o : openRevolution s g geo) (h : HeaderBytes)
    (x : geo.sectors ≤ s.path.rev.slot ∨ s.path.rev.taking ≠ none ∨ s.path.rev.header ≠ .noHeader) :
    s.takeHeader h = s := by
  unfold State.takeHeader
  rw [openGrant_of_open o]
  exact if_pos (by simpa [Option.isSome_iff_ne_none, or_assoc] using x)

/-- The first header of a slot's window gives the slot its result (R8). -/
theorem takeHeader_first (o : openRevolution s g geo) (h : HeaderBytes) (inside : s.path.rev.slot < geo.sectors)
    (taking : s.path.rev.taking = none) (first : s.path.rev.header = .noHeader) :
    s.takeHeader h = onlyRev s (s.path.rev.withHeader (headerIs geo.checkSeed g.addr h)) := by
  unfold State.takeHeader
  rw [openGrant_of_open o]
  dsimp only
  rw [if_neg (by simp [taking, first, inside]), classifyHeader_eq]
  rfl

/-- A blind attempt that has found no data mark is NO_SYNC when the blind window closes (R10). -/
theorem closeBlindWindow_noSync (o : openRevolution s g geo) (inside : s.path.rev.slot < geo.sectors)
    (blind : g.blind = true) (header : blindHeader s.path.rev.header) (data : s.path.rev.data = none)
    (taking : s.path.rev.taking = none) :
    s.closeBlindWindow = onlyRev s { s.path.rev with data := some .noSync } := by
  unfold State.closeBlindWindow
  rw [openGrant_of_open o]
  exact if_pos (by simp [inside, blind, (blindable_iff _).2 header, data, taking])

theorem closeBlindWindow_ignored (o : openRevolution s g geo)
    (x : geo.sectors ≤ s.path.rev.slot ∨ g.blind = false ∨ ¬ blindHeader s.path.rev.header
      ∨ s.path.rev.data ≠ none ∨ s.path.rev.taking ≠ none) : s.closeBlindWindow = s := by
  unfold State.closeBlindWindow
  rw [openGrant_of_open o]
  refine if_neg fun y => ?_
  simp only [Bool.and_eq_true, decide_eq_true_eq, blindable_iff, Option.isNone_iff_eq_none] at y
  obtain ⟨⟨⟨⟨inside, blind⟩, header⟩, data⟩, taking⟩ := y
  rcases x with x | x | x | x | x
  · omega
  · simp [blind] at x
  · exact x header
  · exact x data
  · exact x taking

/-! ## DATA_FIELD -/

/-- A data field begins a wanted slot's attempt (R8 to R10, R12). -/
def fieldTaken (s : State) (g : Grant) (geo : Geometry) (inBlind : Bool) : Prop :=
  s.path.rev.slot < geo.sectors ∧ s.path.rev.data = none ∧ wantedNow s g.holder (geo.sectorAt s.path.rev.slot)
    ∧ ((∃ f, s.path.rev.header = .addressed f) ∨ (g.blind = true ∧ inBlind = true ∧ blindHeader s.path.rev.header))

/-- The model's test of a data field in the slot's window. -/
theorem fieldTaken_iff (s : State) (g : Grant) (geo : Geometry) (inBlind : Bool) :
    (s.path.rev.slot < geo.sectors && s.path.rev.data.isNone && looksForData g.blind inBlind s.path.rev.header
      && (s.wantedBy g.holder).contains (geo.sectorAt s.path.rev.slot)) = true ↔ fieldTaken s g geo inBlind := by
  simp only [Bool.and_eq_true, decide_eq_true_eq, looksForData_iff, wantedBy_contains_iff,
    Option.isNone_iff_eq_none, fieldTaken]
  tauto

/-- A data field that no attempt looks for changes nothing. -/
theorem takeData_ignored (o : openRevolution s g geo) (inBlind : Bool) (bytes : List Byte)
    (taking : s.path.rev.taking = none) (x : ¬ fieldTaken s g geo inBlind) : s.takeData inBlind bytes = s := by
  unfold State.takeData
  rw [openGrant_of_open o]
  dsimp only
  rw [taking]
  exact if_neg fun y => x ((fieldTaken_iff s g geo inBlind).1 y)

/-- A data field that the slot's attempt looks for is captured and its check judged (R9, R12). -/
theorem takeData_taken (o : openRevolution s g geo) (inBlind : Bool) (bytes : List Byte)
    (taking : s.path.rev.taking = none) (x : fieldTaken s g geo inBlind) :
    s.takeData inBlind bytes
      = onlyRev (s.writeCapture g.holder geo.sectorBytes (geo.sectorAt s.path.rev.slot)
          (fieldBytes geo.sectorBytes bytes))
        { s.path.rev with data := some (dataOutcome geo.checkSeed (fieldBytes geo.sectorBytes bytes)) } := by
  unfold State.takeData
  rw [openGrant_of_open o]
  dsimp only
  rw [taking]
  exact if_pos ((fieldTaken_iff s g geo inBlind).2 x)

variable {f : TakenField}

/-- A field taken past its slot's window whose sector is wanted no more is taken for nothing (R12). -/
theorem takeData_unwanted (o : openRevolution s g geo) (inBlind : Bool) (bytes : List Byte)
    (taking : s.path.rev.taking = some f) (x : ¬ wantedNow s g.holder (geo.sectorAt f.slot)) :
    s.takeData inBlind bytes = onlyRev s { s.path.rev with taking := none } := by
  unfold State.takeData
  rw [openGrant_of_open o]
  dsimp only
  rw [taking]
  exact if_neg fun y => x ((wantedBy_contains_iff s _ _).1 y)

/-- A field taken past its slot's window ends its wanted sector's attempt: captured, judged and reported (R9, R12). -/
theorem takeData_finished (o : openRevolution s g geo) (inBlind : Bool) (bytes : List Byte)
    (taking : s.path.rev.taking = some f) (wanted : wantedNow s g.holder (geo.sectorAt f.slot)) :
    s.takeData inBlind bytes
      = ((onlyRev s { s.path.rev with taking := none }).writeCapture g.holder geo.sectorBytes (geo.sectorAt f.slot)
          (fieldBytes geo.sectorBytes bytes)).deliverReport g.holder
        (takenReport (geo.sectorAt f.slot) f.header
          (dataOutcome geo.checkSeed (fieldBytes geo.sectorBytes bytes)) g.blind) := by
  unfold State.takeData
  rw [openGrant_of_open o]
  dsimp only
  rw [taking]
  refine (if_pos ((wantedBy_contains_iff s _ _).2 wanted)).trans ?_
  rw [makeReport_eq]
  rfl

/-- The capture of a context's attempt lies in its capture frame, in the entry of the sector (R12, R38). -/
theorem writeCapture_ctx (wf : Memory.wf s.store.mem = true) (clean : s.store.flips = []) (c : Fin 4) (b k : Nat)
    (field : List Byte) : Written s (s.writeCapture (.ctx c) b k field)
      ((s.usable + 32 + 8 * c.val) * 16384 + k * ((b + 2 + 7) / 8 * 8)) field :=
  writeStore_written wf clean _ _ _

/-- Settles O52: a case for each field event, inside and outside the window that takes it. -/
theorem fieldsTakenInTheirWindow : Obligations.FieldsTakenInTheirWindow := by
  intro h inBlind bytes s
  refine ⟨fun closed => ?_, fun g geo o => ?_⟩
  · have none := openGrant_none closed
    refine ⟨congrArg Host.Outcome.next ?_, congrArg (fun t : State => Host.Outcome.next t.finish) ?_,
      congrArg Host.Outcome.next ?_⟩
    · unfold State.takeHeader; rw [none]
    · unfold State.takeData; rw [none]
    · unfold State.closeBlindWindow; rw [none]
  have judged := dataOutcome_eq geo.checkSeed geo.sectorBytes bytes
  dsimp only at judged
  have len := fieldBytes_length geo.sectorBytes bytes
  dsimp only
  have data : ∀ {t : State}, s.takeData inBlind bytes = t → exec (.dataField inBlind bytes) s = .next t.finish :=
    fun e => congrArg (fun t : State => Host.Outcome.next t.finish) e
  refine ⟨fun x => congrArg Host.Outcome.next (takeHeader_ignored o h x), fun inside taking first => ?_,
    fun f taking x => data (takeData_unwanted o inBlind bytes taking x), fun f taking wanted => ⟨fun drs => ?_, ?_⟩,
    fun taking x => data (takeData_ignored o inBlind bytes taking x), fun taking x drs => ?_, ?_,
    fun inside blind header data taking =>
      congrArg Host.Outcome.next (closeBlindWindow_noSync o inside blind header data taking),
    fun x => congrArg Host.Outcome.next (closeBlindWindow_ignored o x)⟩
  · refine congrArg Host.Outcome.next ((takeHeader_first o h inside taking first).trans ?_)
    rw [withHeader_eq _ h.flag (headerIs_cases _ _ _)]
  · have e := takeData_finished o inBlind bytes taking wanted
    rw [drs, judged] at e
    exact data e
  · intro c ctx sound clean
    have e := takeData_finished o inBlind bytes taking wanted
    rw [ctx, judged] at e
    obtain ⟨read, others, store, frame⟩ := writeCapture_ctx (s := onlyRev s { s.path.rev with taking := none })
      sound.memory clean c geo.sectorBytes (geo.sectorAt f.slot) (fieldBytes geo.sectorBytes bytes)
    rw [len] at read others
    exact ⟨_, data e, read, others, store, frame⟩
  · have e := takeData_taken o inBlind bytes taking x
    rw [drs, judged] at e
    exact data e
  · intro c taking x ctx sound clean
    have e := takeData_taken o inBlind bytes taking x
    rw [ctx, judged] at e
    obtain ⟨read, others, store, frame⟩ := writeCapture_ctx sound.memory clean c geo.sectorBytes
      (geo.sectorAt s.path.rev.slot) (fieldBytes geo.sectorBytes bytes)
    rw [len] at read others
    exact ⟨_, data e, read, others, store, congrArg (onlyRev · _) frame⟩

end Sys2Proof.Machine
end

