-- ==== Sys2Proof/Proofs/DirectRead.lean ====
section
/-! SUPPORT. The ends of a direct read (R29, R33, R157): what the giving back of its drive leaves on the system side, and how its unit's list ends or its sector is delivered. -/

namespace Sys2Proof.Machine

open Sys2Proof.Stated

/-! ## The system side -/

/-- The units, the requester and the Direct Read Slot are as they were. -/
structure SystemSide (s m : State) : Prop where
  units : m.units = s.units
  req : m.req = s.req
  drs : m.drs = s.drs

theorem SystemSide.refl (s : State) : SystemSide s s := ⟨rfl, rfl, rfl⟩

variable {s t : State} {d c u : Fin 4}

theorem SystemSide.modDrive (h : SystemSide s t) (d : Fin 4) (f : DriveRec → DriveRec) :
    SystemSide s (t.modDrive d f) := ⟨h.units, h.req, h.drs⟩

theorem SystemSide.modCtx (h : SystemSide s t) (c : Fin 4) (f : CtxRec → CtxRec) : SystemSide s (t.modCtx c f) :=
  ⟨h.units, h.req, h.drs⟩

theorem SystemSide.setPath (h : SystemSide s t) (p : PathRec) : SystemSide s { t with path := p } :=
  ⟨h.units, h.req, h.drs⟩

theorem SystemSide.grantCtx (h : SystemSide s t) (c : Fin 4) : SystemSide s (t.grantCtx c) := by
  unfold State.grantCtx
  dsimp only
  split
  · split
    · exact (h.setPath _).modCtx c _
    · exact h
  · exact h

/-- A grant decision changes nothing of the system side while the Direct Read Slot does not wait for the path. -/
theorem SystemSide.grantPath (h : SystemSide s t) (w : s.drs.state ≠ .waitPath) : SystemSide s t.grantPath := by
  unfold State.grantPath
  split
  · exact h
  · split
    · rename_i e _; exact absurd e (h.drs ▸ w)
    · split
      · exact h.grantCtx _
      · exact h

theorem SystemSide.releaseGrant (h : SystemSide s t) (w : s.drs.state ≠ .waitPath) (x : Holder) :
    SystemSide s (t.releaseGrant x) := by
  unfold State.releaseGrant
  split
  · exact (h.setPath _).grantPath w
  · exact h

theorem SystemSide.enterWaitPath (h : SystemSide s t) (w : s.drs.state ≠ .waitPath) (c : Fin 4) :
    SystemSide s (t.enterWaitPath c) := (h.modCtx c _).grantPath w

/-- A drive that the Direct Read Slot does not hold has come to its place. -/
theorem SystemSide.tellPositioned (h : SystemSide s t) (w : s.drs.state ≠ .waitPath)
    (g : (t.drives.get d).claim ≠ some .drs) : SystemSide s (t.tellPositioned d) := by
  have same : ((t.modDrive d fun r => { r with positioning := none }).drives.get d).claim = (t.drives.get d).claim := by
    simp
  unfold State.tellPositioned
  dsimp only
  split
  · exact (h.modDrive d _).enterWaitPath w _
  · rename_i e; exact absurd (same.symm.trans e) g
  · exact h.modDrive d _

theorem SystemSide.beginPositioning (h : SystemSide s t) (w : s.drs.state ≠ .waitPath)
    (g : (t.drives.get d).claim ≠ some .drs) (cyl : Nat) (offset : Offset) :
    SystemSide s (t.beginPositioning d cyl offset) := by
  unfold State.beginPositioning State.offsetStage
  split
  · exact h.modDrive d _
  · split
    · split
      · exact h.tellPositioned w g
      · exact h.modDrive d _
    · exact h.modDrive d _

/-- A context prepares a revolution on a drive that the Direct Read Slot does not hold. -/
theorem SystemSide.prepareRevolution (h : SystemSide s t) (w : s.drs.state ≠ .waitPath)
    (b : t.boundOn c d = true) (g : (t.drives.get d).claim ≠ some .drs) : SystemSide s (t.prepareRevolution c) := by
  unfold State.prepareRevolution
  dsimp only
  split
  · rename_i n st track _
    split
    · rename_i a addr
      have on : a.drive = d := by simpa [State.boundOn, track, addr] using b
      split
      · exact h.enterWaitPath w c
      · exact (h.modCtx c _).beginPositioning w (on ▸ g) _ _
    · exact h
  · exact h

theorem SystemSide.returnToContext (h : SystemSide s t) (w : s.drs.state ≠ .waitPath)
    (b : t.boundOn c d = true) (g : (t.drives.get d).claim ≠ some .drs) :
    SystemSide s (t.returnToContext c d) := by
  unfold State.returnToContext
  split
  · exact h.modCtx c _
  · split
    · exact h.prepareRevolution w b g
    · exact h.modCtx c _
    all_goals exact h

/-- The Direct Read Slot gives up its drive: the claim goes to the context it displaced, or to nobody (R29). -/
theorem SystemSide.drsGiveUp (h : SystemSide s t) (w : s.drs.state ≠ .waitPath) (d : Fin 4) :
    SystemSide s (t.drsGiveUp d) := by
  have bound : ∀ c, ((t.drives.get d).displacedContext.filter
      (fun c => (t.ctxs.get c).state = .displaced && t.boundOn c d)) = some c → t.boundOn c d = true := fun c e => by
    have := (Option.filter_eq_some_iff.1 e).2
    simp only [Bool.and_eq_true] at this
    exact this.2
  unfold State.drsGiveUp
  revert bound
  generalize (t.drives.get d).displacedContext.filter _ = back
  intro bound
  dsimp only
  split
  · exact h.modDrive d _
  · exact (h.modDrive d _).returnToContext w (bound _ rfl) (by simp)

/-- A direct read ends: the slot is FREE, its waiting units kept, and the system side is else as it was (R157). -/
theorem endRead_side (s : State) : SystemSide { s with drs := s.drs.freed } s.endRead := by
  have free : s.drs.freed.state ≠ .waitPath := nofun
  have freed := SystemSide.refl { s with drs := s.drs.freed }
  unfold State.endRead
  split
  · exact freed
  · rename_i t _
    have released := (freed.modDrive t.addr.drive fun r => { r with drsWaiting := false }).releaseGrant free .drs
    dsimp only
    split
    · exact released.drsGiveUp free _
    · exact released

/-! ## The end of the unit's list -/

/-- The end of a list, said of a state with the same units, requester and settings. -/
theorem listEnds_congr {s t m r : State} {k : Completion} {cs : List Condition} (h : listEnds s m u k cs)
    (units : t.units = s.units) (req : t.req = s.req) (settings : t.port.settings = s.port.settings)
    (drive : (t.drives.get u).state = (s.drives.get u).state) (after : r.units = m.units) (asked : r.req = m.req) :
    listEnds t r u k cs := by
  unfold listEnds statusStoring at h ⊢
  rw [units, req, settings, drive, after, asked]
  exact h

theorem four_set_set {α : Type} (f : Four α) (i : Fin 4) (x y : α) : (f.set i x).set i y = f.set i y :=
  Four.ext_get fun j => by simp only [Four.get_set]; split <;> rfl

/-- A list is closed, in one record: what the unit held is gone, and its status store begins (R149, R160). -/
theorem closeList_units (base : s.port.settings.statusBase ≤ 0xFFFFC0) (k : Completion) (cs : List Condition) :
    let r := s.units.get u
    let out := wordsToBytes (statusWords k cs (s.drives.get u).state r.residual r.orderAddress r.guessed)
    let at_ := s.port.settings.statusBase + 16 * u.val
    s.closeList u k cs = { s with
      units := s.units.set u { r with
        order := none, prefetched := .absent, haltTold := false, waitOn := none, patience := none, guess := false
        writeTrack := none, notified := false, state := .ending, conditions := cs
        transfer := some { kind := .statusStore, key := s.port.settings.key.get u, addr := at_, left := 16
                           out := out, got := [] } }
      req := unitAsks s.req u
        { claimant := .unit u, direction := .store, addr := at_, count := min s.port.settings.burst 8
          key := s.port.settings.key.get u, words := busWords (out.take (2 * min s.port.settings.burst 8)) } } := by
  dsimp only
  rw [closeList_eq, storeStatus_eq (by exact base)]
  simp only [Four.get_set_self, four_set_set]
  rfl

/-- A list that is closed has ended, and its sense record is as it was. -/
theorem closeList_listEnds (base : s.port.settings.statusBase ≤ 0xFFFFC0) (k : Completion) (cs : List Condition) :
    listEnds s (s.closeList u k cs) u k cs ∧ ((s.closeList u k cs).units.get u).sense = (s.units.get u).sense
      ∧ (s.closeList u k cs).drs = s.drs := by
  rw [closeList_units base]
  refine ⟨⟨⟨?_, ?_, ?_, rfl, fun v hv => Four.get_set_ne _ _ hv⟩, ?_, ?_, ?_, ?_, ?_⟩, ?_, rfl⟩
  all_goals simp only [Four.get_set_self]

/-- The replacement of the sense record is no part of what the end of the list tells. -/
theorem listEnds_of_setSense {m : State} {x : SenseRec} {k : Completion} {cs : List Condition}
    (h : listEnds (s.setSense u x) m u k cs) : listEnds s m u k cs := by
  have own : (s.setSense u x).units.get u = { s.units.get u with sense := x } := Four.get_modify_self _ _ _
  obtain ⟨⟨state, conditions, transfer, req, others⟩, rest⟩ := h
  rw [own] at transfer req
  exact ⟨⟨state, conditions, transfer, req, fun v hv => (others v hv).trans (Four.get_modify_ne _ _ hv)⟩, rest⟩

/-- A direct read fails: its unit's list ends CHECK with DATA_CHECK and the read's own counts, and the slot is FREE
(R157). -/
theorem directFails_spec (serving : s.drs.serving = some u) (base : s.port.settings.statusBase ≤ 0xFFFFC0)
    (x : SenseReason) :
    let m := s.directFails x
    listEnds s m u .check [.dataCheck] ∧ (m.units.get u).sense.reason = x
      ∧ (m.units.get u).sense.attempts = s.drs.attempts ∧ (m.units.get u).sense.checkFails = s.drs.checkFails
      ∧ m.drs = { DrsRec.reset with waitingUnits := s.drs.waitingUnits } := by
  have e : s.directFails x = (s.endDirect u .dataCheck x).endRead := by unfold State.directFails; rw [serving]
  have side := endRead_side (s.endDirect u .dataCheck x)
  dsimp only
  rw [e, side.units, side.drs]
  obtain ⟨ends, sense, drs⟩ := closeList_listEnds (u := u)
    (s := s.setSense u (s.senseOf u x none (some (s.drs.attempts, s.drs.checkFails)))) base .check [.dataCheck]
  have shown : ((s.endDirect u .dataCheck x).units.get u).sense
      = s.senseOf u x none (some (s.drs.attempts, s.drs.checkFails)) := by
    unfold State.endDirect
    rw [sense]
    simp [State.setSense]
  refine ⟨?_, by rw [shown]; exact ⟨rfl, rfl, rfl, congrArg DrsRec.freed drs⟩⟩
  have ended : listEnds s (s.endDirect u .dataCheck x) u .check [.dataCheck] := listEnds_of_setSense ends
  exact listEnds_congr ended rfl rfl rfl rfl side.units side.req

/-- A sector's bytes are in the unit's buffer, and the first burst of its share waits for the bus (R153). -/
theorem deliver_eq {bytes : List Byte} {guess : Bool}
    (fits : (s.units.get u).dataAt
      + 2 * min s.port.settings.burst ((min (s.units.get u).residual bytes.length + 1) / 2) ≤ 0x1000000) :
    let r := s.units.get u
    let share := min r.residual bytes.length
    let n := min s.port.settings.burst ((share + 1) / 2)
    s.deliver u bytes guess = { s with
      units := s.units.set u { r with
        state := .run, waitOn := none, patience := none, buffer := bytes, guess := guess
        transfer := some { kind := .deliver, key := s.port.settings.key.get u, addr := r.dataAt, left := share
                           out := bytes.take share, got := [] } }
      req := unitAsks s.req u
        { claimant := .unit u, direction := .store, addr := r.dataAt, count := n
          key := s.port.settings.key.get u, words := busWords ((bytes.take share).take (2 * n)) } } := by
  dsimp only
  unfold State.deliver
  dsimp only
  rw [askTransfer_some (by exact fits)]
  simp only [State.modUnit, State.putBurst, Four.modify, Four.get_set_self, four_set_set]
  rfl

end Sys2Proof.Machine
end

