-- ==== Sys2Proof/Proofs/Reports.lean ====
section
/-! SUPPORT. What a holder does with an attempt report (R12, R88 to R90, R157): a context in the record of its track's sector, the Direct Read Slot in its counts. -/

namespace Sys2Proof.Machine

open Sys2Proof.Stated

variable {s t : State} {c : Fin 4} {n : Nat} {p : Report}

/-! ## Claims on the store, and bytes written -/

/-- The store as it was, but for its bytes, the claims that wait and the self-refresh that they end. -/
def asksAndBytes (x y : StoreRec) : Prop := onlyAsks { x with mem := y.mem } y

theorem asksAndBytes_of_onlyAsks {x y : StoreRec} (h : onlyAsks x y) : asksAndBytes x y := by
  obtain ⟨a, b, e, rfl⟩ := h
  exact ⟨a, b, e, rfl⟩

theorem asksAndBytes.trans {x y z : StoreRec} (h : asksAndBytes x y) (g : asksAndBytes y z) : asksAndBytes x z := by
  obtain ⟨a, b, e, h⟩ := h
  obtain ⟨a', b', e', g⟩ := g
  refine ⟨a', b', e', ?_⟩
  rw [h] at g
  exact g

/-! ## Reports -/

theorem marked_iff (p : Report) : p.marked = true ↔ ∃ f, p.flag = some f ∧ 0x80 ≤ f.toNat := by
  unfold Report.marked
  cases p.flag <;> simp

/-- The sector record's counters after a report (R88). -/
theorem counted_eq (x : SectorRec) (p : Report) : x.counted p = attemptCounted x p := by
  rcases p with ⟨_, outcome, _, _, _⟩
  cases outcome <;> rfl

theorem deliverReport_blind (h : Holder) (b : p.blind = true) :
    s.deliverReport h p = onlyRev s { s.path.rev with held := s.path.rev.held ++ [p] } := if_pos b

theorem deliverReport_atOnce (h : Holder) (b : p.blind = false) : s.deliverReport h p = s.handOver h p :=
  if_neg (by simp [b])

theorem handOver_unwanted {h : Holder} (w : ¬ wantedNow s h p.sector) : s.handOver h p = s :=
  if_neg fun x => w ((wantedBy_contains_iff s h _).1 x)

theorem handOver_drs (w : wantedNow s .drs p.sector) : s.handOver .drs p = s.reportToDrs p :=
  if_pos ((wantedBy_contains_iff s _ _).2 w)

/-- A wanted report reaches a context once its record is read, which a store without bit errors lets pass (R128). -/
theorem handOver_ctx (w : wantedNow s (.ctx c) p.sector) (track : (s.ctxs.get c).track = some n)
    (clean : s.store.flips = []) : s.handOver (.ctx c) p = (s.askStore (.ctx c) 1).reportTo c n p := by
  refine (if_pos ((wantedBy_contains_iff s _ _).2 w)).trans ?_
  show s.reportToContext c p = _
  unfold State.reportToContext
  rw [track]
  dsimp only
  rw [touchTrack_clean clean]
  exact if_pos track

/-! ## A context's sector -/

/-- The context's record once a report is noted: its FLAG becomes the sector's latest (R88). -/
def CtxRec.told (x : CtxRec) (p : Report) : CtxRec :=
  { x with lastFlags := if p.flag = none then x.lastFlags else x.lastFlags.set p.sector p.flag }

/-- The context's record once a sector of its track is resolved (R97). -/
def CtxRec.resolved (x : CtxRec) (k : Nat) : CtxRec :=
  { x with candidates := x.candidates.set k [], wanted := x.wanted.filter (· ≠ k) }

/-- The track's record once a report of a sector is counted (R88). -/
def TrackRec.attempted (r : TrackRec) (p : Report) : TrackRec :=
  { r with sectors := r.sectors.set p.sector (attemptCounted (r.sectors.getD p.sector SectorRec.fresh) p) }

/-- A report is counted and noted: the first half of what a context does with it (R88). -/
def State.noted (s : State) (c : Fin 4) (n : Nat) (p : Report) : State :=
  { s with tracks := (s.setTrack n ((s.track n).attempted p)).tracks
           ctxs := s.ctxs.set c ((s.ctxs.get c).told p) }

/-- The report counted and its FLAG noted, as the model does them one after the other. -/
theorem noted_eq (s : State) (c : Fin 4) (n : Nat) (p : Report) :
    ((s.modTrack n fun r => r.setSector p.sector ((r.sector p.sector).counted p)).modCtx c fun x =>
      { x with lastFlags := if p.flag.isSome then x.lastFlags.set p.sector p.flag else x.lastFlags })
      = s.noted c n p := by
  have flags : ∀ x : CtxRec, ({ x with
      lastFlags := if p.flag.isSome then x.lastFlags.set p.sector p.flag else x.lastFlags } : CtxRec) = x.told p := by
    intro x
    unfold CtxRec.told
    cases p.flag <;> rfl
  simp only [flags, counted_eq]
  rfl

theorem reportTo_marked (m : p.marked = true) : s.reportTo c n p = (s.noted c n p).claimMarked c n p := by
  unfold State.reportTo
  dsimp only
  rw [noted_eq, if_pos m]

theorem reportTo_good (m : p.marked = false) (o : p.outcome = .good) :
    s.reportTo c n p = (s.noted c n p).reportGood c n p := by
  unfold State.reportTo
  dsimp only
  rw [noted_eq, if_neg (by simp [m]), o]

theorem reportTo_checkFail (m : p.marked = false) (o : p.outcome = .checkFail) :
    s.reportTo c n p = (s.noted c n p).reportCheckFail c n p := by
  unfold State.reportTo
  dsimp only
  rw [noted_eq, if_neg (by simp [m]), o]

theorem reportTo_counted (m : p.marked = false) (good : p.outcome ≠ .good) (fail : p.outcome ≠ .checkFail) :
    s.reportTo c n p = s.noted c n p := by
  unfold State.reportTo
  dsimp only
  rw [noted_eq, if_neg (by simp [m])]
  split
  · rename_i o; exact absurd o good
  · rename_i o; exact absurd o fail
  all_goals rfl

/-- A sector of an ACTIVE track, still to be recovered, of which a context is told. -/
structure Recovering (s : State) (c : Fin 4) (n : Nat) (k : Nat) : Prop where
  active : (s.track n).state = .active
  bound : (s.track n).context = some c
  inside : k < (s.track n).sectors.length
  unresolved : ((s.track n).sectors.getD k SectorRec.fresh).status = .pending
    ∨ ((s.track n).sectors.getD k SectorRec.fresh).status = .damaged

theorem Recovering.live {k : Nat} (h : Recovering s c n k) : (s.track n).state ≠ .free := by simp [h.active]

theorem Recovering.taken {k : Nat} (h : Recovering s c n k) : s.recoveryTaken c n k = true := by
  have u := h.unresolved
  simp only [State.recoveryTaken, h.active, h.bound, TrackRec.sector, SectorStatus.unresolved]
  simpa using u

theorem Recovering.congr {k : Nat} (h : Recovering s c n k) (e : t.tracks = s.tracks) : Recovering t c n k := by
  have : t.track n = s.track n := track_congr e n
  exact ⟨this ▸ h.active, this ▸ h.bound, this ▸ h.inside, this ▸ h.unresolved⟩

theorem noted_track (live : (s.track n).state ≠ .free) (c : Fin 4) (p : Report) :
    onlyTrack s (s.noted c n p) n ((s.track n).attempted p) :=
  ⟨track_setTrack_self s n _ live, fun _ hk => track_setTrack_ne s _ hk⟩

theorem attempted_sector (r : TrackRec) (inside : p.sector < r.sectors.length) :
    (r.attempted p).sectors.getD p.sector SectorRec.fresh
      = attemptCounted (r.sectors.getD p.sector SectorRec.fresh) p := by
  simp [TrackRec.attempted, List.getD_eq_getElem?_getD, inside]

/-- A report counted leaves the sector to be recovered. -/
theorem Recovering.noted (h : Recovering s c n p.sector) : Recovering (s.noted c n p) c n p.sector := by
  have e := (noted_track h.live c p).1
  refine ⟨e ▸ h.active, e ▸ h.bound, ?_, ?_⟩
  · rw [e]; simpa [TrackRec.attempted] using h.inside
  · rw [e, attempted_sector _ h.inside]; exact h.unresolved

theorem noted_sectorBytes (live : (s.track n).state ≠ .free) (c : Fin 4) (p : Report) :
    ((s.noted c n p).track n).sectorBytes = (s.track n).sectorBytes := by
  rw [(noted_track live c p).1]
  rfl

theorem noted_ctx (s : State) (c : Fin 4) (n : Nat) (p : Report) :
    (s.noted c n p).ctxs.get c = (s.ctxs.get c).told p := Four.get_set_self _ _ _

/-- A sector told of is resolved: its record as given, REVISION up by one, EXPORTED cleared, and its candidates gone
(R48, R49, R97). -/
theorem noted_resolve (h : Recovering s c n p.sector) (e : t.tracks = (s.noted c n p).tracks)
    (x : t.ctxs = (s.noted c n p).ctxs) (f : SectorRec → SectorRec) :
    let m := t.resolveSector n p.sector f
    onlyTrack s m n { s.track n with
        revision := (s.track n).revision + 1, exported := false
        sectors := (s.track n).sectors.set p.sector
          (f (attemptCounted ((s.track n).sectors.getD p.sector SectorRec.fresh) p)) }
      ∧ m.ctxs = s.ctxs.set c (((s.ctxs.get c).told p).resolved p.sector)
      ∧ m = { t with tracks := m.tracks, ctxs := m.ctxs } := by
  have r : Recovering t c n p.sector := h.noted.congr e
  have here : t.track n = (s.track n).attempted p := (track_congr e n).trans (noted_track h.live c p).1
  have resolved : ((t.track n).setSector p.sector (f ((t.track n).sector p.sector))).imageChanged
      = { s.track n with
        revision := (s.track n).revision + 1, exported := false
        sectors := (s.track n).sectors.set p.sector
          (f (attemptCounted ((s.track n).sectors.getD p.sector SectorRec.fresh) p)) } := by
    rw [here]
    unfold TrackRec.sector TrackRec.setSector
    rw [attempted_sector _ h.inside]
    simp [TrackRec.attempted, TrackRec.imageChanged]
  dsimp only
  rw [resolveSector_bound n p.sector c f r.live r.bound, resolved]
  refine ⟨⟨track_setTrack_self t n _ h.live, fun k hk => ?_⟩, ?_, rfl⟩
  · refine (track_setTrack_ne t _ hk).trans ?_
    exact (track_congr e k).trans ((noted_track h.live c p).2 k hk)
  · dsimp only
    rw [x]
    simp only [State.noted, Four.get_set_self, four_set_set]
    rfl

/-! ## What follows a report -/

/-- A report has acted on a sector of a context: the track's record, the context's record, and nothing else but the
store. -/
structure Reported (s m : State) (c : Fin 4) (n : Nat) (r : TrackRec) (x : CtxRec) : Prop where
  track : onlyTrack s m n r
  ctxs : m.ctxs = s.ctxs.set c x
  frame : m = { s with tracks := m.tracks, ctxs := m.ctxs, store := m.store }

/-- The track's record once a sector told of is resolved, its sector record as given (R48, R49). -/
def TrackRec.sectorResolved (r : TrackRec) (p : Report) (f : SectorRec → SectorRec) : TrackRec :=
  { r with
    revision := r.revision + 1, exported := false
    sectors := r.sectors.set p.sector (f (attemptCounted (r.sectors.getD p.sector SectorRec.fresh) p)) }

/-- A report that is neither marked, GOOD nor CHECK_FAIL is counted only (R88). -/
theorem noted_reported (h : Recovering s c n p.sector) :
    Reported s (s.noted c n p) c n ((s.track n).attempted p) ((s.ctxs.get c).told p) :=
  ⟨noted_track h.live c p, rfl, rfl⟩

/-- A marked header's claim (R45, R89). -/
theorem marked_reported (h : Recovering s c n p.sector) :
    let m := (s.noted c n p).claimMarked c n p
    Reported s m c n ((s.track n).sectorResolved p fun x => { x with status := .marked, headerFlag := p.flag })
      (((s.ctxs.get c).told p).resolved p.sector) ∧ m.store = s.store := by
  have e : (s.noted c n p).claimMarked c n p = (s.noted c n p).resolveSector n p.sector _ := if_pos h.noted.taken
  obtain ⟨track, ctxs, frame⟩ := noted_resolve (t := s.noted c n p) h rfl rfl
    fun x => { x with status := .marked, headerFlag := p.flag }
  dsimp only
  rw [e]
  exact ⟨⟨track, ctxs, by rw [frame]; rfl⟩, by rw [frame]; rfl⟩

/-- The captured bytes of a sector (R38, R91). -/
def State.captured (s : State) (c : Fin 4) (n k : Nat) : List Byte :=
  readBytes s.store.mem (s.entryAddr c 0 (s.track n).sectorBytes k) ((s.track n).sectorBytes + 2)

/-- The read of a capture slot in a store without bit errors: the bytes, and bursts asked for. -/
theorem readCapture_clean (clean : s.store.flips = []) (c : Fin 4) (n k : Nat) :
    ∃ j, s.readCapture c n k = (some (s.captured c n k), s.askStore (.ctx c) j) :=
  ⟨_, readStore_clean clean _ _ _⟩

theorem noted_captured (h : Recovering s c n p.sector) (k : Nat) :
    (s.noted c n p).captured c n k = s.captured c n k := by
  unfold State.captured
  rw [(noted_track h.live c p).1]
  rfl

/-- The sector record after a clean read (R44, R45, R89). -/
def SectorRec.cleaned (y : CtxRec) (p : Report) (x : SectorRec) : SectorRec :=
  { x with status := .clean, resolvedStep := y.step.map (·.index), blind := p.blind
           headerFlag := y.lastFlags.getD p.sector none }

/-- A GOOD report's claim writes the captured bytes to the track's frame and resolves the sector (R45, R89, R91). -/
theorem reportGood_eq (h : Recovering s c n p.sector) (clean : s.store.flips = []) :
    ∃ j, (s.noted c n p).reportGood c n p = (((s.noted c n p).askStore (.ctx c) j).writeStore (.ctx c)
        (sectorAddr n (s.track n).sectorBytes p.sector)
        ((s.captured c n p.sector).take (s.track n).sectorBytes)).resolveSector n p.sector
      (SectorRec.cleaned ((s.ctxs.get c).told p) p) := by
  obtain ⟨j, read⟩ := readCapture_clean (s := s.noted c n p) clean c n p.sector
  rw [noted_captured h] at read
  refine ⟨j, ?_⟩
  unfold State.reportGood
  rw [read]
  refine (if_pos (h.noted.congr (t := (s.noted c n p).askStore (.ctx c) j) rfl).taken).trans ?_
  rw [← noted_sectorBytes h.live c p, ← noted_ctx s c n p]
  rfl

/-- A clean read's claim: the captured bytes in the track's frame, and the sector CLEAN (R45, R89, R91). -/
theorem good_reported (h : Recovering s c n p.sector) (wf : Memory.wf s.store.mem = true)
    (clean : s.store.flips = []) :
    let m := (s.noted c n p).reportGood c n p
    let told := (s.ctxs.get c).told p
    let b := (s.track n).sectorBytes
    Reported s m c n ((s.track n).sectorResolved p (SectorRec.cleaned told p)) (told.resolved p.sector)
      ∧ readBytes m.store.mem (sectorAddr n b p.sector) b = (s.captured c n p.sector).take b
      ∧ (∀ i, i < sectorAddr n b p.sector ∨ sectorAddr n b p.sector + b ≤ i →
          readByte m.store.mem i = readByte s.store.mem i)
      ∧ asksAndBytes s.store m.store := by
  obtain ⟨j, e⟩ := reportGood_eq h clean
  have written := writeStore_written (s := (s.noted c n p).askStore (.ctx c) j) wf clean (.ctx c)
    (sectorAddr n (s.track n).sectorBytes p.sector) ((s.captured c n p.sector).take (s.track n).sectorBytes)
  dsimp only
  rw [e]
  generalize ((s.noted c n p).askStore (.ctx c) j).writeStore (.ctx c) _ _ = w at written ⊢
  obtain ⟨stored, others, store, same⟩ := written
  rw [show ((s.captured c n p.sector).take (s.track n).sectorBytes).length = (s.track n).sectorBytes by
    simp [State.captured]] at stored others
  obtain ⟨track, ctxs, frame⟩ := noted_resolve (t := w) h (by rw [same]; rfl) (by rw [same]; rfl)
    (SectorRec.cleaned ((s.ctxs.get c).told p) p)
  have kept := congrArg State.store frame
  dsimp only at kept
  rw [kept]
  refine ⟨⟨track, ctxs, by rw [frame, same]; rfl⟩, stored, others, ?_⟩
  exact (asksAndBytes_of_onlyAsks (askStore_onlyAsks (s.noted c n p) (.ctx c) j)).trans store

/-! ## Candidates -/

/-- The position that a joining attempt takes, and the list it joins: the oldest of seven gives its place, or else the
lowest position not in use is taken (R90). -/
theorem joinPosition_spec (l : List Nat) :
    let pos := (joinPosition l).1
    (7 ≤ l.length → l.head? = some pos)
      ∧ (l.length < 7 → 1 ≤ pos ∧ pos ≤ 7 ∧ pos ∉ l ∧ ∀ j, 1 ≤ j → j < pos → j ∈ l)
      ∧ (joinPosition l).2 = if 7 ≤ l.length then l.tail else l := by
  unfold joinPosition
  by_cases full : 7 ≤ l.length
  · cases l with
    | nil => simp at full
    | cons x rest => simp_all
  · refine ⟨fun x => absurd x full, fun _ => ?_, by simp [full]⟩
    rw [if_neg full]
    dsimp only
    have positions : ([1, 2, 3, 4, 5, 6, 7] : List Nat) = List.range' 1 7 := rfl
    cases found : ([1, 2, 3, 4, 5, 6, 7] : List Nat).find? (fun p => !l.contains p) with
    | none =>
      have used : List.range' 1 7 ⊆ l := fun j hj => by
        simpa using List.find?_eq_none.1 found j (positions ▸ hj)
      have := ((List.nodup_range' (step := 1)).subperm used).length_le
      simp at this
      omega
    | some j =>
      rw [positions, List.find?_range'_eq_some] at found
      simp only [List.mem_range'_1, Bool.not_eq_true', List.contains_eq_mem, decide_eq_false_iff_not,
        Bool.not_not, decide_eq_true_eq] at found
      obtain ⟨new, ⟨low, high⟩, before⟩ := found
      exact ⟨low, by simpa using by omega, new, before⟩

/-- A context's record once an attempt has joined a sector's candidates at a position (R90). -/
def CtxRec.joined (x : CtxRec) (k : Nat) (join : Nat × List Nat) : CtxRec :=
  { x with candidates := x.candidates.set k (join.2 ++ [join.1]) }

/-- A CHECK_FAIL report of an unresolved sector writes the captured bytes to the position they join at (R90, R91). -/
theorem reportCheckFail_eq (h : Recovering s c n p.sector) (clean : s.store.flips = []) :
    let join := joinPosition (((s.ctxs.get c).told p).list p.sector)
    ∃ j, (s.noted c n p).reportCheckFail c n p = (((s.noted c n p).askStore (.ctx c) j).writeStore (.ctx c)
        (s.entryAddr c join.1 (s.track n).sectorBytes p.sector) (s.captured c n p.sector)).modCtx c
      fun x => x.joined p.sector join := by
  obtain ⟨j, read⟩ := readCapture_clean (s := s.noted c n p) clean c n p.sector
  rw [noted_captured h] at read
  have unresolved : (((s.noted c n p).track n).sector p.sector).status.unresolved = true := by
    have := h.noted.taken
    simp only [State.recoveryTaken, Bool.and_eq_true] at this
    exact this.2
  refine ⟨j, ?_⟩
  unfold State.reportCheckFail
  rw [if_pos unresolved, read, ← noted_sectorBytes h.live c p, ← noted_ctx s c n p]
  rfl

/-- A CHECK_FAIL report's captured bytes join the sector's candidates (R90, R91). -/
theorem checkFail_reported (h : Recovering s c n p.sector) (wf : Memory.wf s.store.mem = true)
    (clean : s.store.flips = []) :
    let m := (s.noted c n p).reportCheckFail c n p
    let told := (s.ctxs.get c).told p
    let b := (s.track n).sectorBytes
    let join := joinPosition (told.list p.sector)
    Reported s m c n ((s.track n).attempted p) (told.joined p.sector join)
      ∧ readBytes m.store.mem (s.entryAddr c join.1 b p.sector) (b + 2) = s.captured c n p.sector
      ∧ (∀ i, i < s.entryAddr c join.1 b p.sector ∨ s.entryAddr c join.1 b p.sector + (b + 2) ≤ i →
          readByte m.store.mem i = readByte s.store.mem i)
      ∧ asksAndBytes s.store m.store := by
  obtain ⟨j, e⟩ := reportCheckFail_eq h clean
  dsimp only
  rw [e]
  generalize joinPosition (((s.ctxs.get c).told p).list p.sector) = join
  have written := writeStore_written (s := (s.noted c n p).askStore (.ctx c) j) wf clean (.ctx c)
    (s.entryAddr c join.1 (s.track n).sectorBytes p.sector) (s.captured c n p.sector)
  generalize ((s.noted c n p).askStore (.ctx c) j).writeStore (.ctx c) _ _ = w at written ⊢
  obtain ⟨stored, others, store, same⟩ := written
  rw [show (s.captured c n p.sector).length = (s.track n).sectorBytes + 2 by simp [State.captured]] at stored others
  obtain ⟨counted, rest⟩ := noted_track h.live c p
  have tracks : w.tracks = (s.noted c n p).tracks := by rw [same]; rfl
  refine ⟨⟨⟨?_, fun k hk => ?_⟩, ?_, ?_⟩, stored, others, ?_⟩
  · exact (track_congr (w := w.modCtx c _) tracks n).trans counted
  · exact (track_congr (w := w.modCtx c _) tracks k).trans (rest k hk)
  · have ctxs : w.ctxs = s.ctxs.set c ((s.ctxs.get c).told p) := by rw [same]; rfl
    rw [modCtx_ctxs, ctxs, Four.modify, Four.get_set_self, four_set_set]
  · show w.modCtx c _ = { s with tracks := w.tracks, ctxs := _, store := w.store }
    rw [same]
    rfl
  · exact (asksAndBytes_of_onlyAsks (askStore_onlyAsks (s.noted c n p) (.ctx c) j)).trans store

/-! ## The Direct Read Slot's report -/

/-- The Direct Read Slot's record once a report is counted (R157). -/
def DrsRec.attempted (r : DrsRec) (p : Report) : DrsRec :=
  { r with
    attempts := min 255 (r.attempts + 1)
    checkFails := if p.outcome = .checkFail then min 255 (r.checkFails + 1) else r.checkFails }

theorem reportToDrs_eq (s : State) (p : Report) :
    s.reportToDrs p = if p.marked then ({ s with drs := s.drs.attempted p } : State).directFails .marked
      else if p.outcome = .good then ({ s with drs := s.drs.attempted p } : State).directGood
      else { s with drs := s.drs.attempted p } := rfl

/-- A GOOD direct read delivers the captured data, and the slot is FREE (R153, R157). -/
theorem directGood_spec {u : Fin 4} (serving : s.drs.serving = some u) {data : List Byte}
    (captured : data = s.drs.capture.take (s.drs.capture.length - 2))
    (fits : (s.units.get u).dataAt
      + 2 * min s.port.settings.burst ((min (s.units.get u).residual data.length + 1) / 2) ≤ 0x1000000) :
    s.directGood.units = (s.deliver u data false).units ∧ s.directGood.req = (s.deliver u data false).req
      ∧ s.directGood.drs = { DrsRec.reset with waitingUnits := s.drs.waitingUnits } := by
  have e : s.directGood = (s.deliver u data false).endRead := by
    unfold State.directGood
    rw [serving, captured]
  have side := endRead_side (s.deliver u data false)
  have drs : (s.deliver u data false).drs = s.drs := by rw [deliver_eq fits]
  exact ⟨e ▸ side.units, e ▸ side.req, e ▸ side.drs.trans (congrArg DrsRec.freed drs)⟩

/-- Settles O54: a report is held, dropped, or acts as its mark and its outcome say. -/
theorem reportsActOnTheSector : Obligations.ReportsActOnTheSector := by
  intro s p
  refine ⟨fun h => deliverReport_blind h, fun h => deliverReport_atOnce h, fun h => handOver_unwanted,
    fun c n wanted track sound clean active bound inside unresolved => ?_, fun u wanted serving base => ?_⟩
  · have recovering : Recovering (s.askStore (.ctx c) 1) c n p.sector := ⟨active, bound, inside, unresolved⟩
    have asked : onlyAsks s.store (s.askStore (.ctx c) 1).store := askStore_onlyAsks s _ _
    dsimp only
    rw [handOver_ctx wanted track clean, ← marked_iff]
    by_cases marked : p.marked = true
    · obtain ⟨done, store⟩ := marked_reported recovering
      rw [reportTo_marked marked]
      refine ⟨fun _ => ⟨done.track, done.ctxs, store ▸ asked⟩, fun x => absurd marked x, fun x => absurd marked x,
        fun x => absurd marked x, done.frame⟩
    · have unmarked : p.marked = false := by simpa using marked
      cases outcome : p.outcome with
      | good =>
        obtain ⟨done, read, others, store⟩ := good_reported recovering sound.memory clean
        rw [reportTo_good unmarked outcome]
        exact ⟨fun x => absurd x marked, fun _ _ => ⟨done.track, done.ctxs, read, others,
          (asksAndBytes_of_onlyAsks asked).trans store⟩, fun _ => nofun, fun _ x => absurd rfl x, done.frame⟩
      | checkFail =>
        obtain ⟨done, read, others, store⟩ := checkFail_reported recovering sound.memory clean
        obtain ⟨full, room, list⟩ := joinPosition_spec ((((s.askStore (.ctx c) 1).ctxs.get c).told p).list p.sector)
        have joined := done.ctxs
        unfold CtxRec.joined at joined
        rw [list] at joined
        rw [reportTo_checkFail unmarked outcome]
        exact ⟨fun x => absurd x marked, fun _ => nofun, fun _ _ => ⟨_, full, room, done.track, joined, read, others,
          (asksAndBytes_of_onlyAsks asked).trans store⟩, fun _ _ x => absurd rfl x, done.frame⟩
      | noSync | noHeader | headerCheck | wrongAddress =>
        have done := noted_reported recovering
        rw [reportTo_counted unmarked (by simp [outcome]) (by simp [outcome])]
        exact ⟨fun x => absurd x marked, fun _ => nofun, fun _ => nofun,
          fun _ _ _ => ⟨done.track, done.ctxs, asked⟩, done.frame⟩
  · dsimp only
    rw [handOver_drs wanted, reportToDrs_eq, ← marked_iff]
    refine ⟨fun unmarked bad => ?_, fun marked => ?_, fun unmarked good fits => ?_⟩
    · rw [if_neg unmarked, if_neg bad]; rfl
    · rw [if_pos marked]
      obtain ⟨ends, reason, attempts, fails, drs⟩ :=
        directFails_spec (s := { s with drs := s.drs.attempted p }) serving base .marked
      exact ⟨listEnds_congr ends rfl rfl rfl rfl rfl rfl, reason, attempts, fails, drs⟩
    · rw [if_neg unmarked, if_pos good]
      obtain ⟨units, req, drs⟩ :=
        directGood_spec (s := { s with drs := s.drs.attempted p }) serving rfl fits
      rw [deliver_eq (by exact fits)] at units req
      have own := (congrArg (fun x => x.get u) units).trans (Four.get_set_self _ _ _)
      dsimp only at own
      rw [own]
      exact ⟨rfl, rfl, rfl, rfl, rfl, req, drs⟩

end Sys2Proof.Machine
end

