-- ==== Sys2Proof/Proofs/WindowClose.lean ====
section
/-! SUPPORT. The close of a slot's window (R8 to R10, R12): which attempt is left to end, which is classified, and what its report does. -/

namespace Sys2Proof.Machine

open Sys2Proof.Stated

variable {s : State} {g : Grant} {geo : Geometry}

/-- The data field of the slot's attempt is still being taken when its window closes (R9, log entry 1). -/
def stillTaken (s : State) (g : Grant) (taking : Bool) : Prop :=
  taking = true ∧ s.path.rev.taking = none ∧ s.path.rev.data = none ∧ looks g s.path.rev.header

/-- The model's test of a field that is still being taken. -/
theorem stillTaken_iff (s : State) (g : Grant) (taking : Bool) :
    (taking && s.path.rev.taking.isNone && s.path.rev.data.isNone && looksForData g.blind true s.path.rev.header) = true
      ↔ stillTaken s g taking := by
  simp [stillTaken, looksForData_iff, looks, and_assoc]

/-- A header result that tells of a fault at once looks for no data field. -/
theorem not_stillTaken {taking : Bool}
    (h : s.path.rev.header = .wrongAddress ∨ (g.blind = false ∧ blindHeader s.path.rev.header)) :
    ¬ stillTaken s g taking := by
  rintro ⟨-, -, -, ⟨f, e⟩ | ⟨b, e⟩⟩
  · rcases h with h | ⟨-, h | h⟩ <;> simp [h] at e
  · rcases h with h | ⟨h, -⟩
    · simp [blindHeader, h] at e
    · simp [h] at b

theorem closePitchWindow_past (o : openRevolution s g geo) (taking : Bool) (past : geo.sectors ≤ s.path.rev.slot) :
    s.closePitchWindow taking = s := by
  unfold State.closePitchWindow
  rw [openGrant_of_open o]
  exact if_pos past

/-- The field still being taken is left to end (R9). -/
theorem closePitchWindow_still (o : openRevolution s g geo) (taking : Bool) (inside : s.path.rev.slot < geo.sectors)
    (still : stillTaken s g taking) :
    s.closePitchWindow taking = onlyRev s { nextSlot s.path.rev with
      taking := some { slot := s.path.rev.slot, header := s.path.rev.header } } := by
  have test := (stillTaken_iff s g taking).2 still
  unfold State.closePitchWindow
  rw [openGrant_of_open o]
  dsimp only
  rw [if_neg (by omega), test]
  simp only [Bool.not_true, Bool.and_false, Bool.false_eq_true, if_false, if_true]
  rfl

/-- An attempt whose sector is not wanted makes no report (R12). -/
theorem closePitchWindow_unwanted (o : openRevolution s g geo) (taking : Bool)
    (inside : s.path.rev.slot < geo.sectors) (unwanted : ¬ wantedNow s g.holder (geo.sectorAt s.path.rev.slot))
    (still : ¬ stillTaken s g taking) : s.closePitchWindow taking = onlyRev s (nextSlot s.path.rev) := by
  have test := Bool.eq_false_iff.2 fun x => still ((stillTaken_iff s g taking).1 x)
  have wants := Bool.eq_false_iff.2 fun x => unwanted ((wantedBy_contains_iff s _ _).1 x)
  unfold State.closePitchWindow
  rw [openGrant_of_open o]
  dsimp only
  rw [if_neg (by omega), test, wants]
  rfl

/-- Any other attempt of a wanted sector is classified, and its report delivered (R9, R12). -/
theorem closePitchWindow_classified (o : openRevolution s g geo) (taking : Bool)
    (inside : s.path.rev.slot < geo.sectors) (wanted : wantedNow s g.holder (geo.sectorAt s.path.rev.slot))
    (still : ¬ stillTaken s g taking) :
    s.closePitchWindow taking = (onlyRev s (nextSlot s.path.rev)).deliverReport g.holder
      (takenReport (geo.sectorAt s.path.rev.slot) s.path.rev.header (s.path.rev.data.getD .noSync) g.blind) := by
  have test := Bool.eq_false_iff.2 fun x => still ((stillTaken_iff s g taking).1 x)
  have wants := (wantedBy_contains_iff s _ _).2 wanted
  unfold State.closePitchWindow
  rw [openGrant_of_open o]
  dsimp only
  rw [if_neg (by omega), test, wants, makeReport_eq]
  rfl

/-! ## The reports of the close -/

/-- The report of a blind attempt of a blind step. -/
theorem takenReport_blind {v : Revolution} (h : blindHeader v.header) (k : Nat) :
    takenReport k v.header (v.data.getD .noSync) true = blindReport k v := by
  rcases h with h | h <;> simp [takenReport, blindReport, headerOutcome, h]

/-- The report of a header that failed, where no blind attempt is made of it: the header result is the outcome (R9). -/
structure HeaderFault (p : Report) (k : Nat) : Prop where
  sector : p.sector = k
  unflagged : p.flag = none
  seen : p.blind = false
  failed : p.outcome = .noHeader ∨ p.outcome = .headerCheck ∨ p.outcome = .wrongAddress

theorem takenReport_headerFault {x : HeaderResult} {b : Bool}
    (h : x = .wrongAddress ∨ (b = false ∧ blindHeader x)) (k : Nat) (o : AttemptOutcome) :
    HeaderFault (takenReport k x o b) k := by
  rcases h with h | ⟨hb, h | h⟩
  · subst h; exact ⟨rfl, rfl, rfl, .inr (.inr rfl)⟩
  · subst h hb; exact ⟨rfl, rfl, rfl, .inl rfl⟩
  · subst h hb; exact ⟨rfl, rfl, rfl, .inr (.inl rfl)⟩

variable {p : Report} {k : Nat}

theorem HeaderFault.unmarked (h : HeaderFault p k) : p.marked = false := by
  simp [Report.marked, h.unflagged]

theorem HeaderFault.not_good (h : HeaderFault p k) : p.outcome ≠ .good := by
  rcases h.failed with e | e | e <;> simp [e]

theorem HeaderFault.not_checkFail (h : HeaderFault p k) : p.outcome ≠ .checkFail := by
  rcases h.failed with e | e | e <;> simp [e]

/-- A failed header counts one attempt and one header fault (R88). -/
theorem HeaderFault.attemptCounted_eq (h : HeaderFault p k) (x : SectorRec) :
    attemptCounted x p = headerFaultCounted x := by
  have quiet : p.outcome ≠ .noSync := by rcases h.failed with e | e | e <;> simp [e]
  unfold attemptCounted headerFaultCounted
  simp [h.seen, h.failed, h.not_checkFail, quiet]

/-- A failed header's report to a context is counted in the sector's record, and nothing else comes of it. -/
theorem headerFault_toContext {c : Fin 4} {n : Nat} (h : HeaderFault p k) (wanted : wantedNow s (.ctx c) k)
    (track : (s.ctxs.get c).track = some n) (clean : s.store.flips = []) (live : (s.track n).state ≠ .free) :
    let m := s.deliverReport (.ctx c) p
    onlyTrack s m n { s.track n with
        sectors := (s.track n).sectors.set k (headerFaultCounted ((s.track n).sectors.getD k SectorRec.fresh)) }
      ∧ onlyAsks s.store m.store ∧ m = { s with tracks := m.tracks, store := m.store } := by
  have told : (s.ctxs.get c).told p = s.ctxs.get c := by simp [CtxRec.told, h.unflagged]
  have counted : (s.track n).attempted p = { s.track n with
      sectors := (s.track n).sectors.set k (headerFaultCounted ((s.track n).sectors.getD k SectorRec.fresh)) } := by
    unfold TrackRec.attempted
    rw [h.attemptCounted_eq, h.sector]
  dsimp only
  rw [deliverReport_atOnce _ h.seen, handOver_ctx (h.sector ▸ wanted) track clean,
    reportTo_counted h.unmarked h.not_good h.not_checkFail, ← counted]
  refine ⟨noted_track (s := s.askStore (.ctx c) 1) live c p, askStore_onlyAsks s _ _, ?_⟩
  show (s.askStore (.ctx c) 1).noted c n p = _
  unfold State.noted
  rw [show (s.askStore (.ctx c) 1).ctxs = s.ctxs from rfl, told, four_set_self]
  rfl

/-- A failed header's report to the Direct Read Slot is an attempt counted (R157). -/
theorem headerFault_toDrs (h : HeaderFault p k) (wanted : wantedNow s .drs k) :
    s.deliverReport .drs p
      = { s with drs := { s.drs with attempts := min 255 (s.drs.attempts + 1) } } := by
  rw [deliverReport_atOnce _ h.seen, handOver_drs (h.sector ▸ wanted), reportToDrs_eq,
    if_neg (by simp [h.unmarked]), if_neg h.not_good, DrsRec.attempted, if_neg h.not_checkFail]

end Sys2Proof.Machine
end

