-- ==== Sys2Proof/Proofs/Index.lean ====
section
/-! SUPPORT. The index of a granted drive (R13, R26, R30, R92, R93, R157): it opens the revolution, and it closes it COMPLETE or as a MIS_SEEK. -/

namespace Sys2Proof.Machine

open Sys2Proof.Stated

variable {s : State} {g : Grant} {c d : Fin 4} {n : Nat}

/-! ## Nothing to decide -/

/-- An index bounds no count where no discovery runs (R19). -/
theorem countIndex_idle (h : (s.drives.get d).discovery = none) : s.countIndex d = s := by
  unfold State.countIndex State.stage
  rw [h]
  rfl

/-- Nobody waits for the drive: no request for it is decided again (R28). -/
theorem drsRecheck_idle (h : (s.drives.get d).drsWaiting = false) : s.drsRecheck d = s := if_neg (by simp [h])

theorem handOverHeld_none (h : s.path.rev.held = []) (x : Holder) : s.handOverHeld x = s := by
  unfold State.handOverHeld
  rw [h]
  rfl

/-- One context changed to another state than WAIT_PATH: nobody waits for the path who did not before. -/
theorem notWaiting_set {f : Four CtxRec} (h : ∀ c', (f.get c').state ≠ .waitPath) (c : Fin 4) {x : CtxRec}
    (hx : x.state ≠ .waitPath) (c' : Fin 4) : ((f.set c x).get c').state ≠ .waitPath := by
  rw [Four.get_set]
  split
  · exact hx
  · exact h c'

/-- The drive of a grant sees an index: an unopened revolution opens, an opened one closes (R30). -/
theorem revolutionIndex_granted (grant : s.path.grant = some g) (drive : g.addr.drive = d) :
    s.revolutionIndex d = if g.opened then s.closeRevolution g else s.openRevolution g := by
  unfold State.revolutionIndex
  rw [grant]
  exact if_neg (by simp [drive])

/-- An index without a discovery on its drive does what it does to the revolution (R4, R19, R30). -/
theorem exec_index {t : State} (h : s.revolutionIndex d = t) (quiet : (t.drives.get d).discovery = none) :
    exec (.index d) s = .next t.finish := by
  refine congrArg (fun t : State => Host.Outcome.next t.finish) ?_
  unfold State.indexArrives
  rw [h, countIndex_idle quiet]

/-! ## COMPLETE -/

/-- A revolution closes COMPLETE: none of its headers verified, or one was of the track sought (R13). -/
theorem closeRevolution_complete (found : s.path.rev.anyVerified = false ∨ s.path.rev.anyAddressed = true)
    (grant : s.path.grant = some g) (drive : g.addr.drive = d) (held : s.path.rev.held = []) :
    let t := s.modDrive d fun r => { r with seekRetried := false }
    (∀ c, g.holder = .ctx c → s.closeRevolution g = t.ctxComplete c d)
      ∧ (g.holder = .drs → s.closeRevolution g = t.drsComplete) := by
  have e : s.closeRevolution g = s.revolutionComplete g := if_neg (by rcases found with e | e <;> simp [e])
  have holds : (s.path.grant.map (·.holder)) = some g.holder := by rw [grant]; rfl
  unfold State.revolutionComplete at e
  dsimp only at e
  rw [handOverHeld_none held, if_pos holds, drive] at e
  exact ⟨fun c h => by rw [e, h], fun h => by rw [e, h]⟩

/-- A revolution closes as a MIS_SEEK: headers verified, and none of the track sought (R13). -/
theorem closeRevolution_misSeek (lost : ¬ (s.path.rev.anyVerified = false ∨ s.path.rev.anyAddressed = true)) :
    s.closeRevolution g = s.revolutionMisSeek g := by
  unfold State.closeRevolution
  rw [if_pos (by simpa using lost)]

/-- An IN_LADDER evaluation is asked for a context that reads (R92, R107). -/
theorem requestEvaluation_reading (track : (s.ctxs.get c).track = some n) (reading : (s.ctxs.get c).state = .reading) :
    s.requestEvaluation c .inLadder = { s with
      vote := { s.vote with requests := s.vote.requests ++ [ladderRequest s c n] }
      ctxs := s.ctxs.set c { s.ctxs.get c with state := .evaluating, evaluation := .inLadder, wanted := [] } } := by
  unfold State.requestEvaluation
  dsimp only
  rw [track]
  dsimp only
  rw [State.modCtx, Four.modify]
  simp [State.queueVote, reading, ladderRequest, track]

/-- A context is told COMPLETE, in a store without bit errors, with nobody waiting for the drive or the path: the
revolution is counted, the evaluation asked for, and the path free (R92). -/
theorem ctxComplete_eq (clean : s.store.flips = []) (track : (s.ctxs.get c).track = some n)
    (reading : (s.ctxs.get c).state = .reading) (drive : (s.drives.get d).drsWaiting = false)
    (ctxs : ∀ c', (s.ctxs.get c').state ≠ .waitPath) (drs : s.drs.state ≠ .waitPath) :
    s.ctxComplete c d = { s.askStore (.ctx c) 1 with
      tracks := (s.setTrack n { s.track n with totalRevs := min 65535 ((s.track n).totalRevs + 1) }).tracks
      vote := { s.vote with requests := s.vote.requests ++ [ladderRequest s c n] }
      ctxs := s.ctxs.set c { s.ctxs.get c with state := .evaluating, evaluation := .inLadder, wanted := [] }
      path := { s.path with grant := none, rev := Revolution.start } } := by
  obtain ⟨counted, hc⟩ : ∃ t, t = (s.askStore (.ctx c) 1).modTrack n fun r =>
    { r with totalRevs := satAdd 65535 r.totalRevs 1 } := ⟨_, rfl⟩
  have e : s.ctxComplete c d = ((counted.requestEvaluation c .inLadder).drsRecheck d).dropGrant.grantPath := by
    unfold State.ctxComplete
    rw [track]
    dsimp only
    rw [touchTrack_clean clean, hc]
    exact if_pos track
  rw [e, requestEvaluation_reading (n := n) (by rw [hc]; exact track) (by rw [hc]; exact reading),
    drsRecheck_idle (by rw [hc]; exact drive), grantPath_idle, hc]
  · rfl
  · rw [hc]; exact notWaiting_set ctxs c nofun
  · rw [hc]; exact drs

/-- The Direct Read Slot is told COMPLETE before its third revolution: it is granted the next one at once, nobody
else waiting for the path (R30, R157). -/
theorem drsComplete_next {x : DrsTarget} (target : s.drs.target = some x) (few : s.drs.revsTried < 2)
    (ctxs : ∀ c', (s.ctxs.get c').state ≠ .waitPath) :
    s.drsComplete = { s with
      path := { s.path with
        grant := some { holder := .drs, addr := x.addr, strobe := .nominal, blind := false, opened := false }
        rev := Revolution.start }
      drs := { s.drs with revsTried := s.drs.revsTried + 1, state := .reading } } := by
  unfold State.drsComplete
  refine (if_pos (by simp; omega)).trans ?_
  exact grant_drs (t := x) ctxs rfl rfl target

/-- The Direct Read Slot is told COMPLETE after its third revolution: the read fails (R157). -/
theorem drsComplete_last (many : 2 ≤ s.drs.revsTried) :
    s.drsComplete
      = ({ s with drs := { s.drs with revsTried := s.drs.revsTried + 1 } } : State).directFails .directFailed := by
  unfold State.drsComplete
  exact if_neg (by simp; omega)

/-! ## MIS_SEEK -/

/-- A positioning begins from a place UNKNOWN: with a recalibration (R24). -/
theorem beginPositioning_unknown (h : (s.drives.get d).cylAt = none) (cyl : Nat) (offset : Offset) :
    s.beginPositioning d cyl offset = s.beginRecalibration d cyl offset false := by
  unfold State.beginPositioning
  rw [h]

/-- A context prepares a revolution on a drive whose heads' place is UNKNOWN (R24, R86). -/
theorem prepareRevolution_unknown {st : StepInForce} {a : TrackAddr} (track : (s.ctxs.get c).track = some n)
    (step : (s.ctxs.get c).step = some st) (addr : (s.track n).addr = some a)
    (place : (s.drives.get a.drive).cylAt = none) :
    s.prepareRevolution c = (s.modCtx c fun x => { x with state := .positioning }).beginRecalibration a.drive a.cyl
      st.step.offset false := by
  unfold State.prepareRevolution
  dsimp only
  rw [track, step]
  dsimp only
  rw [addr]
  dsimp only
  rw [if_neg (by simp [place]), beginPositioning_unknown (by exact place)]

/-- A context's MIS_SEEK where the drive was not sought again yet: the drive is recalibrated (R26, R93). -/
theorem revolutionMisSeek_ctx {st : StepInForce} {a : TrackAddr} (holder : g.holder = .ctx c)
    (track : (s.ctxs.get c).track = some n) (step : (s.ctxs.get c).step = some st) (addr : (s.track n).addr = some a)
    (drive : a.drive = d) (granted : g.addr.drive = d) (running : s.ctl.state ≠ .draining)
    (first : (s.drives.get d).seekRetried = false) (waiting : (s.drives.get d).drsWaiting = false)
    (ctxs : ∀ c', (s.ctxs.get c').state ≠ .waitPath) (drs : s.drs.state ≠ .waitPath) :
    s.revolutionMisSeek g = { s with
      path := { s.path with grant := none, rev := Revolution.start }
      ctxs := s.ctxs.set c { s.ctxs.get c with wanted := [], state := .positioning }
      drives := s.drives.set d { s.drives.get d with
        cylAt := none, seekRetried := true
        positioning := some { cyl := a.cyl, offset := st.step.offset, stage := .recalibrating false } } } := by
  obtain ⟨t, ht⟩ : ∃ t, t = (s.dropGrant.modCtx c fun x => { x with state := .positioning, wanted := [] }).modDrive d
    fun r => { r with cylAt := none } := ⟨_, rfl⟩
  have own : t.ctxs.get c = { s.ctxs.get c with state := .positioning, wanted := [] } := by
    rw [ht]; exact Four.get_modify_self _ _ _
  have place : t.drives.get d = { s.drives.get d with cylAt := none } := by rw [ht]; exact Four.get_modify_self _ _ _
  have again : t.ctxMisSeek c d = (t.modCtx c fun x => { x with state := .positioning }).beginRecalibration a.drive a.cyl
      st.step.offset false := by
    unfold State.ctxMisSeek
    rw [if_neg (by rw [ht]; exact running)]
    dsimp only
    rw [drsRecheck_idle (by rw [place]; exact waiting), if_neg (by rw [own]; nofun)]
    exact prepareRevolution_unknown (n := n) (by rw [own]; exact track) (by rw [own]; exact step)
      (by rw [ht]; exact addr) (by rw [drive, place])
  have e : s.revolutionMisSeek g = (t.ctxMisSeek c d).grantPath := by
    unfold State.revolutionMisSeek
    rw [holder, granted]
    dsimp only
    rw [if_neg (by simp [first])]
    unfold State.holderMisSeek
    rw [ht]
  rw [e, again, drive, ht]
  simp only [State.beginRecalibration, State.modCtx, State.modDrive, State.dropGrant, Four.modify, Four.get_set_self,
    four_set_set]
  exact grantPath_idle (notWaiting_set ctxs c nofun) drs

/-- The Direct Read Slot's MIS_SEEK where the drive was not sought again yet: the drive is recalibrated (R26, R157). -/
theorem revolutionMisSeek_drs {x : DrsTarget} (holder : g.holder = .drs) (target : s.drs.target = some x)
    (drive : x.addr.drive = d) (granted : g.addr.drive = d) (first : (s.drives.get d).seekRetried = false)
    (ctxs : ∀ c', (s.ctxs.get c').state ≠ .waitPath) :
    s.revolutionMisSeek g = { s with
      path := { s.path with grant := none, rev := Revolution.start }
      drs := { s.drs with state := .positioning }
      drives := s.drives.set d { s.drives.get d with
        cylAt := none, seekRetried := true
        positioning := some { cyl := x.addr.cyl, offset := .centre, stage := .recalibrating false } } } := by
  obtain ⟨t, ht⟩ : ∃ t, t = ({ s.dropGrant with drs := { s.drs with state := .positioning } } : State).modDrive d
    fun r => { r with cylAt := none } := ⟨_, rfl⟩
  have place : t.drives.get d = { s.drives.get d with cylAt := none } := by rw [ht]; exact Four.get_modify_self _ _ _
  have same : ({ t with drs := { t.drs with state := .positioning } } : State) = t := by rw [ht]; rfl
  have again : t.holderMisSeek .drs d = t.beginRecalibration d x.addr.cyl .centre false := by
    unfold State.holderMisSeek
    rw [show t.drs.target = some x by rw [ht]; exact target]
    dsimp only
    unfold State.drsPosition
    rw [drive, same]
    exact beginPositioning_unknown (by rw [place]) _ _
  have e : s.revolutionMisSeek g = (t.holderMisSeek .drs d).grantPath := by
    unfold State.revolutionMisSeek
    rw [holder, granted]
    dsimp only
    rw [if_neg (by simp [first]), ht]
    rfl
  rw [e, again, ht]
  simp only [State.beginRecalibration, State.modDrive, State.dropGrant, Four.modify, Four.get_set_self, four_set_set]
  exact grantPath_idle ctxs nofun

/-! ## SEEK_FAIL -/

/-- The offer of an unsolicited status touches a unit, the requester and the port (R163). -/
theorem offerStatus_frame (s : State) (u : Fin 4) :
    ∃ us q po, s.offerStatus u = { s with units := us, req := q, port := po } := by
  unfold State.offerStatus
  split
  · exact ⟨s.units, s.req, s.port, rfl⟩
  · split
    · unfold State.storeUnsolicited State.storeStatus State.askTransfer
      dsimp only
      split
      · rename_i e
        split at e
        · cases e
        · cases e; exact ⟨_, _, _, rfl⟩
      · exact ⟨_, _, _, rfl⟩
    · exact ⟨_, s.req, s.port, rfl⟩

/-- A context whose drive is being positioned is told of its fault: it waits in FAULT_HOLD, unless the controller drains
(R99). -/
theorem ctxFaulted_positioning (positioning : (s.ctxs.get c).state = .positioning)
    (running : s.ctl.state ≠ .draining) :
    s.ctxFaulted c = s.modCtx c fun x => { x with state := .faultHold, wanted := [] } := by
  unfold State.ctxFaulted
  dsimp only
  rw [positioning]
  exact if_neg running

/-- A context that comes back from a MIS_SEEK holds its drive, which latches a fault: the context is in FAULT_HOLD, and
the change is reported (R22, R23, R99). -/
theorem latchFault_holder (x : FaultKind) (fitted : (s.drives.get d).fitted = true)
    (ready : (s.drives.get d).state = DriveState.ready) (claim : (s.drives.get d).claim = some (.ctx c))
    (positioning : (s.ctxs.get c).state = .positioning) (free : s.path.grant = none)
    (running : s.ctl.state ≠ .draining) (waiting : (s.drives.get d).drsWaiting = false) :
    ∃ us q po, s.latchFault d x = { s.attnDrive d with
      drives := s.drives.set d (latched (s.drives.get d) x)
      ctxs := s.ctxs.set c { s.ctxs.get c with state := .faultHold, wanted := [] }
      units := us, req := q, port := po } := by
  obtain ⟨t, ht⟩ : ∃ t, t = (s.modDrive d fun r => latched r x).attnDrive d := ⟨_, rfl⟩
  have own : t.drives.get d = latched (s.drives.get d) x := by rw [ht]; exact Four.get_modify_self _ _ _
  have told : t.tellHolders d = t.modCtx c fun x => { x with state := .faultHold, wanted := [] } := by
    unfold State.tellHolders
    rw [own, show t.path.grant = none by rw [ht]; exact free]
    simp only [Option.map_none, reduceCtorEq, decide_false, Bool.and_false, Bool.false_eq_true, if_false]
    rw [show (t.drives.get d).claim = some (.ctx c) by rw [own]; exact claim]
    dsimp only [latched]
    rw [ctxFaulted_positioning (by rw [ht]; exact positioning) (by rw [ht]; exact running)]
    exact drsRecheck_idle (s := t.modCtx c _) (show (t.drives.get d).drsWaiting = false by rw [own]; exact waiting)
  obtain ⟨us, q, po, e⟩ := offerStatus_frame (t.tellHolders d) d
  refine ⟨us, q, po, ?_⟩
  have reported : s.latchFault d x = (t.tellHolders d).offerStatus d := by
    unfold State.latchFault
    dsimp only
    rw [if_neg (by simp [fitted, ready])]
    rw [ht]
    rfl
  rw [reported, e, told, ht]
  rfl

/-- A context's MIS_SEEK on a drive that was sought again already: SEEK_FAIL is latched, and the context is in
FAULT_HOLD (R22, R26, R99). -/
theorem revolutionMisSeek_fails (holder : g.holder = .ctx c) (granted : g.addr.drive = d)
    (again : (s.drives.get d).seekRetried = true) (fitted : (s.drives.get d).fitted = true)
    (ready : (s.drives.get d).state = DriveState.ready) (claim : (s.drives.get d).claim = some (.ctx c))
    (running : s.ctl.state ≠ .draining) (waiting : (s.drives.get d).drsWaiting = false)
    (ctxs : ∀ c', (s.ctxs.get c').state ≠ .waitPath) (drs : s.drs.state ≠ .waitPath) :
    ∃ us q po, s.revolutionMisSeek g = { s.attnDrive d with
      drives := s.drives.set d (latched (s.drives.get d) .seekFail)
      ctxs := s.ctxs.set c { s.ctxs.get c with state := .faultHold, wanted := [] }
      path := { s.path with grant := none, rev := Revolution.start }
      units := us, req := q, port := po } := by
  obtain ⟨t, ht⟩ : ∃ t, t = s.dropGrant.modCtx c fun x => { x with state := .positioning, wanted := [] } := ⟨_, rfl⟩
  have own : t.ctxs.get c = { s.ctxs.get c with state := .positioning, wanted := [] } := by
    rw [ht]; exact Four.get_modify_self _ _ _
  have e : s.revolutionMisSeek g = (t.latchFault d .seekFail).grantPath := by
    unfold State.revolutionMisSeek
    rw [holder, granted]
    dsimp only
    rw [← ht, if_pos (show (t.drives.get d).seekRetried = true by rw [ht]; exact again)]
  obtain ⟨us, q, po, fault⟩ := latchFault_holder (s := t) (d := d) (c := c) .seekFail (by rw [ht]; exact fitted)
    (by rw [ht]; exact ready) (by rw [ht]; exact claim) (by rw [own]) (by rw [ht]; rfl) (by rw [ht]; exact running)
    (by rw [ht]; exact waiting)
  refine ⟨us, q, po, ?_⟩
  rw [e, fault, ht]
  simp only [State.modCtx, State.dropGrant, Four.modify, Four.get_set_self, four_set_set]
  exact grantPath_idle (notWaiting_set ctxs c nofun) drs

/-- The index closes with the failure of a direct read: its drive's discovery is no part of that. -/
theorem directFails_discovery (x : SenseReason) : ((s.directFails x).drives.get d).discovery = (s.drives.get d).discovery :=
  ((Kept.refl ⟨true, false, false, false⟩ s).directFails x).discovery rfl d

/-! ## The statement -/

/-- Settles O53: the cases of the window close, and of the index that opens or closes a revolution. -/
theorem attemptsClassifiedAtTheClose : Obligations.AttemptsClassifiedAtTheClose := by
  intro taking s
  refine ⟨fun closed => ?_, fun g geo o => ?_, fun d g quiet grant drive => ?_⟩
  · refine congrArg (fun t : State => Host.Outcome.next t.finish) ?_
    unfold State.closePitchWindow
    rw [openGrant_none closed]
  · have close : ∀ {t : State}, s.closePitchWindow taking = t →
        exec (.pitchWindowClose taking) s = .next t.finish :=
      fun e => congrArg (fun t : State => Host.Outcome.next t.finish) e
    dsimp only
    refine ⟨fun past => close (closePitchWindow_past o taking past),
      fun inside unwanted still => close (closePitchWindow_unwanted o taking inside unwanted still),
      fun inside still => close (closePitchWindow_still o taking inside still),
      fun inside wanted still => close (closePitchWindow_classified o taking inside wanted still),
      fun inside wanted still blind header => ?_,
      fun c n inside wanted fault ctx track sound clean live => ?_, fun inside wanted fault drs => ?_⟩
    · have e := closePitchWindow_classified o taking inside wanted still
      rw [blind, takenReport_blind header, deliverReport_blind _ rfl] at e
      exact close e
    · have e := closePitchWindow_classified o taking inside wanted (not_stillTaken fault)
      rw [ctx] at e wanted
      obtain ⟨counted, asks, frame⟩ := headerFault_toContext (s := onlyRev s (nextSlot s.path.rev))
        (takenReport_headerFault fault (geo.sectorAt s.path.rev.slot) _) wanted track clean live
      exact ⟨_, close e, counted, asks, frame⟩
    · have e := closePitchWindow_classified o taking inside wanted (not_stillTaken fault)
      rw [drs] at e wanted
      exact close (e.trans (headerFault_toDrs (takenReport_headerFault fault _ _) wanted))
  · have index := revolutionIndex_granted grant drive
    refine ⟨fun unopened clean => ?_, fun opened held clean waiting ctxs idle => ?_⟩
    · rw [if_neg (by simp [unopened]), openRevolution_clean clean grant] at index
      exact ⟨_, askStore_onlyAsks s .table 1, exec_index index quiet⟩
    rw [if_pos opened] at index
    -- the drive's record once COMPLETE has been noted, and once a MIS_SEEK has begun a recalibration
    have noted : ∀ f : DriveRec → DriveRec, (∀ r, (f r).discovery = r.discovery) →
        ((s.drives.set d (f (s.drives.get d))).get d).discovery = none := fun f h => by
      rw [Four.get_set_self, h, quiet]
    dsimp only
    refine ⟨fun c n found ctx track reading sound live => ?_, fun x found holder target few => ?_,
      fun u found holder serving many base => ?_,
      fun c n st a lost ctx track step addr on running => ⟨fun first => ?_, fun again fitted ready claim => ?_⟩,
      fun x lost holder target on first => ?_⟩
    · have e := ((closeRevolution_complete found grant drive held).1 c ctx).trans
        (ctxComplete_eq (d := d) clean track reading (by simpa using waiting) ctxs idle)
      exact ⟨_, exec_index (index.trans e) (noted (fun r => { r with seekRetried := false }) fun _ => rfl),
        ⟨track_setTrack_self s n _ live, fun k hk => track_setTrack_ne s _ hk⟩, rfl, rfl, rfl, rfl,
        askStore_onlyAsks s _ _, rfl⟩
    · have e := ((closeRevolution_complete found grant drive held).2 holder).trans
        (drsComplete_next target few ctxs)
      exact exec_index (index.trans e) (noted (fun r => { r with seekRetried := false }) fun _ => rfl)
    · have e := ((closeRevolution_complete found grant drive held).2 holder).trans (drsComplete_last many)
      have settled : ((s.modDrive d fun r => { r with seekRetried := false }).drives.get u).state
          = (s.drives.get u).state := by
        rw [modDrive_drives, Four.get_modify]
        split
        · rename_i h; rw [h]
        · rfl
      obtain ⟨ends, reason, attempts, fails, drs⟩ := directFails_spec
        (s := { s.modDrive d fun r => { r with seekRetried := false } with
          drs := { s.drs with revsTried := s.drs.revsTried + 1 } }) serving base .directFailed
      refine ⟨_, exec_index (index.trans e) ?_, listEnds_congr ends rfl rfl rfl settled.symm rfl rfl, reason, attempts,
        fails, drs⟩
      rw [directFails_discovery]
      exact noted (fun r => { r with seekRetried := false }) fun _ => rfl
    · have e := (closeRevolution_misSeek lost).trans
        (revolutionMisSeek_ctx ctx track step addr on drive running first waiting ctxs idle)
      exact exec_index (index.trans e) (noted (fun r => { r with
        cylAt := none, seekRetried := true
        positioning := some { cyl := a.cyl, offset := st.step.offset, stage := .recalibrating false } }) fun _ => rfl)
    · obtain ⟨us, q, po, fails⟩ :=
        revolutionMisSeek_fails ctx drive again fitted ready claim running waiting ctxs idle
      have e := (closeRevolution_misSeek lost).trans fails
      refine ⟨_, exec_index (index.trans e) ?_, rfl, rfl, rfl, ?_, rfl, rfl⟩
      · show ((s.drives.set d _).get d).discovery = none
        rw [Four.get_set_self]
        rfl
      · exact Four.get_set_self _ _ _
    · have e := (closeRevolution_misSeek lost).trans
        (revolutionMisSeek_drs holder target on drive first ctxs)
      exact exec_index (index.trans e) (noted (fun r => { r with
        cylAt := none, seekRetried := true
        positioning := some { cyl := x.addr.cyl, offset := .centre, stage := .recalibrating false } }) fun _ => rfl)

end Sys2Proof.Machine
end

