-- ==== Sys2Proof/Proofs/DriveReports.lean ====
section
/-! SUPPORT. What a change of one drive's record brings about (R23, R163): its announcement, its unit's offer, and the
words of the statements for them. -/

namespace Sys2Proof.Machine

open Sys2Proof.Stated

variable {s t m : State} {d : Fin 4} {r : DriveRec} {anyhow : Bool}

/-- The chain that keeps the drives' shown fields. -/
def Keep.shown : Keep := ⟨true, false, false, false⟩

/-- What the chain that keeps the drives' shown fields does not ask of a unit. -/
theorem Keep.shown_units {p : Prop} : Keep.shown.units = true → p := nofun

/-! ## One drive's record -/

@[simp] theorem onlyDrive_self (s : State) (d : Fin 4) (r : DriveRec) : (onlyDrive s d r).drives.get d = r :=
  Four.get_set_self _ _ _

theorem onlyDrive_ne (s : State) (r : DriveRec) {e : Fin 4} (h : e ≠ d) :
    (onlyDrive s d r).drives.get e = s.drives.get e := Four.get_set_ne _ _ h

@[simp] theorem onlyDrive_onlyDrive (s : State) (d : Fin 4) (x y : DriveRec) :
    onlyDrive (onlyDrive s d x) d y = onlyDrive s d y := by
  simp only [onlyDrive, four_set_set]

/-- A drive's record put back as it is. -/
theorem onlyDrive_same (h : s.drives.get d = r) : onlyDrive s d r = s := by
  subst h
  simp only [onlyDrive, four_set_self]

/-- A change of a drive's record is its replacement by the changed one. -/
theorem modDrive_onlyDrive (f : DriveRec → DriveRec) (h : f (s.drives.get d) = r) :
    s.modDrive d f = onlyDrive s d r := by
  subst h
  rfl

/-! ## The announcement -/

/-- An unclaimed drive that nobody waits for, with the path free, has no holder to be told of its STATE. -/
theorem tellHolders_alone (claim : (s.drives.get d).claim = none) (waiting : (s.drives.get d).drsWaiting = false)
    (free : s.path.grant = none) : s.tellHolders d = s := by
  unfold State.tellHolders
  simp [free, claim, drsRecheck_idle waiting]

/-- A unit is offered its drive's status: the unit and the requester change as the statements say, and nothing else. -/
theorem offerStatus_spec (base : s.port.settings.statusBase ≤ 0xFFFFC0) (d : Fin 4) :
    statusOffered s (s.offerStatus d) d
      ∧ s.offerStatus d = { s with units := (s.offerStatus d).units, req := (s.offerStatus d).req } := by
  unfold State.offerStatus
  by_cases line : s.port.clearLine = true
  · rw [if_pos line]
    exact ⟨⟨fun _ => ⟨rfl, rfl⟩, fun h => absurd line (by simp [h]), fun h => absurd line (by simp [h])⟩, rfl⟩
  rw [if_neg line]
  by_cases idle : (s.units.get d).state = .idle
  · rw [if_pos idle, State.storeUnsolicited, storeStatus_eq base]
    refine ⟨⟨fun h => absurd h line, fun _ h => absurd idle h, fun _ _ => ⟨?_, ?_⟩⟩, rfl⟩
    · refine ⟨?_, ?_, ?_, rfl, fun v hv => Four.get_set_ne _ _ hv⟩ <;> simp only [Four.get_set_self]
    · simp only [Four.get_set_self]
  · rw [if_neg idle]
    exact ⟨⟨fun h => absurd h line, fun _ _ => ⟨rfl, rfl⟩, fun _ h => absurd h idle⟩, rfl⟩

/-- A unit's offer, said of states with the same units, requester, port and drive. -/
theorem statusOffered_congr {s' m' : State} (h : statusOffered s m d) (units : s'.units = s.units)
    (req : s'.req = s.req) (port : s'.port = s.port) (drives : (s'.drives.get d).state = (s.drives.get d).state)
    (units' : m'.units = m.units) (req' : m'.req = m.req) : statusOffered s' m' d := by
  unfold statusOffered statusStoring at h ⊢
  rw [units, req, port, drives, units', req']
  exact h

/-- The change of STATE of a drive that stands alone is reported: DRIVE_CHANGE and the offer to its unit (R23). -/
theorem reportDrive_alone (claim : (s.drives.get d).claim = none) (waiting : (s.drives.get d).drsWaiting = false)
    (free : s.path.grant = none) : s.reportDrive d = (s.attnDrive d).offerStatus d := by
  unfold State.reportDrive
  rw [tellHolders_alone (s := s.attnDrive d) claim waiting free]

/-- What becomes of the rest of the part when the record of a drive that stands alone has changed from a STATE: its
unit is offered the status where STATE differs, and DRIVE_CHANGE is set then, or where the change is announced anyhow. -/
def aloneChanged (s m : State) (d : Fin 4) (before : DriveState) (anyhow : Bool) : Prop :=
  ((s.drives.get d).state ≠ before → statusOffered s m d)
    ∧ ((s.drives.get d).state = before → m.units = s.units ∧ m.req = s.req)
    ∧ m = { s with
      units := m.units
      req := m.req
      link := if (s.drives.get d).state ≠ before ∨ anyhow = true then
          { s.link with attention :=
            { s.link.attention with driveChange := s.link.attention.driveChange.set d true } }
        else s.link }

theorem aloneChanged_drives {before : DriveState} (h : aloneChanged s m d before anyhow) : m.drives = s.drives :=
  (congrArg State.drives h.2.2 :)

theorem reportIfChanged_alone (claim : (s.drives.get d).claim = none)
    (waiting : (s.drives.get d).drsWaiting = false) (free : s.path.grant = none)
    (base : s.port.settings.statusBase ≤ 0xFFFFC0) (before : DriveState) :
    aloneChanged s (s.reportIfChanged d before) d before false := by
  unfold State.reportIfChanged
  by_cases same : (s.drives.get d).state = before
  · rw [if_pos same]
    exact ⟨fun h => absurd same h, fun _ => ⟨rfl, rfl⟩, by simp [same]⟩
  · rw [if_neg same, reportDrive_alone claim waiting free]
    obtain ⟨offered, rest⟩ := offerStatus_spec (s := s.attnDrive d) base d
    refine ⟨fun _ => statusOffered_congr offered rfl rfl rfl rfl rfl rfl, fun h => absurd h same, ?_⟩
    rw [if_pos (.inl same)]
    exact rest

/-- DRIVE_CHANGE is set besides, where the change is announced anyhow. -/
theorem aloneChanged_announced {before : DriveState} (h : aloneChanged s m d before false) (anyhow : Bool) :
    aloneChanged s (if anyhow then m.attnDrive d else m) d before anyhow := by
  cases anyhow with
  | false => exact h
  | true =>
    obtain ⟨changed, same, rest⟩ := h
    refine ⟨fun x => statusOffered_congr (changed x) rfl rfl rfl rfl rfl rfl, same, ?_⟩
    have link := congrArg State.link rest
    have shape : m = { s with units := m.units, req := m.req, link := m.link } := rest.trans (by rw [link])
    have set : ∀ us q l, m = { s with units := us, req := q, link := l } → m.attnDrive d = { s with
        units := us, req := q
        link := { l with attention := { l.attention with driveChange := l.attention.driveChange.set d true } } } := by
      rintro us q l rfl
      rfl
    rw [if_pos rfl, if_pos (Or.inr rfl), set _ _ _ shape, link]
    split <;> simp only [four_set_set]

/-! ## The statements' words -/

/-- A drive's record has changed, from what the operations after it keep, tell, and do to a drive that stands alone. -/
theorem driveChanged_of_kept (kept : Kept Keep.shown (onlyDrive s d r) m)
    (told : r.state ≠ (s.drives.get d).state ∨ anyhow = true → m.link.attention.driveChange.get d = true)
    (alone : (s.drives.get d).claim = none → driveAlone s d → s.port.settings.statusBase ≤ 0xFFFFC0 →
      aloneChanged (onlyDrive s d r) m d (s.drives.get d).state anyhow) : driveChanged s m d r anyhow := by
  have own := onlyDrive_self s d r
  refine ⟨?_, ?_, ?_, ?_, ?_, ?_, fun e he => ?_, told, kept.ctl, kept.ladder, kept.limits, kept.slot, kept.settings,
    fun claim free base => ?_⟩
  · rw [kept.driveState rfl, own]
  · rw [kept.faultKind rfl, own]
  · rw [kept.discovery rfl, own]
  · rw [kept.observedSectors rfl, own]
  · rw [kept.readyLine, own]
  · rw [kept.faultHeld, own]
  · rw [kept.driveState rfl, kept.faultKind rfl, kept.discovery rfl, onlyDrive_ne s r he]
    exact ⟨rfl, rfl, rfl⟩
  · have h := alone claim free base
    unfold aloneChanged at h
    rw [own] at h
    exact h

/-- A report leaves DRIVE_CHANGE set (R23). -/
theorem reportDrive_told (s : State) (d : Fin 4) : (s.reportDrive d).link.attention.driveChange.get d = true := by
  have kept : Kept Keep.shown (s.attnDrive d) (s.reportDrive d) :=
    ((Kept.refl Keep.shown _).tellHolders d).offerStatus Keep.shown_units
  refine kept.attention.driveChange d ?_
  simp [State.attnDrive]

theorem reportIfChanged_told {before : DriveState} (h : (s.drives.get d).state ≠ before) :
    (s.reportIfChanged d before).link.attention.driveChange.get d = true := by
  unfold State.reportIfChanged
  rw [if_neg h]
  exact reportDrive_told s d

/-- A drive's record replaced, and its STATE reported if it differs: that is a change of the record as the statements
say it (R23). The claim and a direct read's wait are no part of what changes. -/
theorem driveChanged_reportIfChanged (claim : r.claim = (s.drives.get d).claim)
    (waiting : r.drsWaiting = (s.drives.get d).drsWaiting) :
    driveChanged s ((onlyDrive s d r).reportIfChanged d (s.drives.get d).state) d r false := by
  have own := onlyDrive_self s d r
  refine driveChanged_of_kept ((Kept.refl Keep.shown _).reportIfChanged Keep.shown_units _) (fun h => ?_)
    fun none ⟨_, _, nobody, _, free, _⟩ base => ?_
  · exact reportIfChanged_told (by rw [own]; simpa using h)
  · exact reportIfChanged_alone (s := onlyDrive s d r) (by rw [own, claim, none]) (by rw [own, waiting, nobody]) free
      base _

/-- A drive that latches a fault: its record changes as R22 says, and the change is reported. -/
theorem driveChanged_latchFault (kind : FaultKind) (fitted : (s.drives.get d).fitted = true)
    (fault : (s.drives.get d).state ≠ DriveState.faulted) (service : (s.drives.get d).state ≠ DriveState.withdrawn) :
    driveChanged s (s.latchFault d kind) d (latched (s.drives.get d) kind) false := by
  have e : s.latchFault d kind
      = (onlyDrive s d (latched (s.drives.get d) kind)).reportIfChanged d (s.drives.get d).state := by
    unfold State.latchFault State.reportIfChanged
    rw [onlyDrive_self]
    dsimp only
    rw [if_neg (by simp [fault, service, fitted]), if_neg (by simpa [latched] using Ne.symm fault)]
    rfl
  rw [e]
  exact driveChanged_reportIfChanged rfl rfl

/-- The change of one drive's record, said from a state whose record of that drive differs in nothing that tells. -/
theorem driveChanged_from {x : DriveRec} (h : driveChanged (onlyDrive s d x) m d r anyhow)
    (state : x.state = (s.drives.get d).state) (claim : x.claim = (s.drives.get d).claim)
    (waiting : x.drsWaiting = (s.drives.get d).drsWaiting) : driveChanged s m d r anyhow := by
  unfold driveChanged at h ⊢
  rw [onlyDrive_self, onlyDrive_onlyDrive, state, claim] at h
  obtain ⟨st, kind, disc, seen, ready, held, others, told, ctl, ladder, limits, slot, settings, alone⟩ := h
  refine ⟨st, kind, disc, seen, ready, held, fun e he => ?_, told, ctl, ladder, limits, slot, settings,
    fun none free base => alone none ?_ base⟩
  · simpa only [onlyDrive_ne s x he] using others e he
  · obtain ⟨ctxs, target, nobody, rest⟩ := free
    exact ⟨ctxs, target, by rw [onlyDrive_self, waiting, nobody], rest⟩

end Sys2Proof.Machine
end

