-- ==== Sys2Proof/Proofs/DriveLines.lean ====
section
/-! SUPPORT. The ready and fault lines of a drive (R20 to R22): what a fall and a rise do where they are watched, and
where they are not. -/

namespace Sys2Proof.Machine

open Sys2Proof.Stated

variable {s : State} {d : Fin 4}

/-- The lines of a drive are watched where the model says that they are, on a fitted position (R21). -/
theorem linesWatched_iff (s : State) (d : Fin 4) : linesWatched s d ↔ (s.watched && s.fitted d) = true := by
  simp only [linesWatched, State.watched, State.fitted, Bool.and_eq_true, decide_eq_true_eq, and_assoc]
  tauto

/-! ## The levels noted -/

/-- The level of a ready line is no part of whether the lines are watched. -/
theorem watched_setReadyLine (s : State) (d : Fin 4) (level : Bool) :
    ((s.setReadyLine d level).watched && (s.setReadyLine d level).fitted d) = true ↔ linesWatched s d := by
  rw [← linesWatched_iff]
  simp [linesWatched, State.setReadyLine]

theorem readyLineFalls_unwatched (h : ¬ linesWatched s d) :
    s.readyLineFalls d = onlyDrive s d { s.drives.get d with readyLine := false } :=
  if_neg fun w => h ((watched_setReadyLine s d false).1 w)

theorem readyLineFalls_watched (h : linesWatched s d) :
    s.readyLineFalls d = (onlyDrive s d { s.drives.get d with readyLine := false }).readyFalls d :=
  if_pos ((watched_setReadyLine s d false).2 h)

theorem readyLineRises_unwatched (h : ¬ linesWatched s d) :
    s.readyLineRises d = onlyDrive s d { s.drives.get d with readyLine := true } :=
  if_neg fun w => h ((watched_setReadyLine s d true).1 w)

theorem readyLineRises_watched (h : linesWatched s d) :
    s.readyLineRises d = (onlyDrive s d { s.drives.get d with readyLine := true }).readyRises d :=
  if_pos ((watched_setReadyLine s d true).2 h)

theorem faultLineRises_unwatched (h : ¬ linesWatched s d) :
    s.faultLineRises d = onlyDrive s d { s.drives.get d with faultHeld := true } :=
  if_neg fun w => h ((linesWatched_iff s d).2 w)

theorem faultLineRises_watched (h : linesWatched s d) :
    s.faultLineRises d = (onlyDrive s d { s.drives.get d with faultHeld := false }).faultRises d :=
  if_pos ((linesWatched_iff s d).1 h)

/-! ## A watched fall of the ready line -/

/-- A drive that is WITHDRAWN, or neither READY nor in discovery, takes no notice of a fall. -/
theorem readyFalls_unmoved (h : (s.drives.get d).state = DriveState.withdrawn
      ∨ ((s.drives.get d).state ≠ DriveState.ready ∧ (s.drives.get d).discovery = none)) : s.readyFalls d = s := by
  unfold State.readyFalls DriveRec.discovering
  dsimp only
  rcases h with h | ⟨h, none⟩
  · rw [if_pos h]
  · simp [h, none]

/-- A drive that a fall reaches: claimed it drops as its claim asks, unclaimed to NOT_READY. -/
theorem readyFalls_moved (service : (s.drives.get d).state ≠ DriveState.withdrawn)
    (h : (s.drives.get d).state = DriveState.ready ∨ (s.drives.get d).discovery ≠ none) :
    s.readyFalls d = if (s.drives.get d).claim.isSome then s.dropClaimed d else s.dropToNotReady d := by
  unfold State.readyFalls DriveRec.discovering
  dsimp only
  rw [if_neg service, if_pos]
  rcases h with h | h
  · simp [h]
  · simp [Option.isSome_iff_ne_none, h]

/-- An unclaimed drive falls to NOT_READY, and the change is reported if it is one. -/
theorem driveChanged_dropToNotReady :
    driveChanged s (s.dropToNotReady d) d
      { s.drives.get d with state := .notReady, faultKind := none, discovery := none } false :=
  driveChanged_reportIfChanged rfl rfl

/-! ## A watched rise of the ready line -/

theorem readyRises_unmoved
    (h : ¬ ((s.drives.get d).state = DriveState.notReady ∨ (s.drives.get d).state = DriveState.absent)
      ∨ (s.drives.get d).discovery ≠ none) : s.readyRises d = s := by
  unfold State.readyRises DriveRec.discovering
  refine if_neg fun c => ?_
  simp only [Bool.and_eq_true, Bool.or_eq_true, decide_eq_true_eq, Bool.not_eq_true', Option.isSome_eq_false_iff,
    Option.isNone_iff_eq_none] at c
  exact h.elim (fun x => x c.1) fun x => x c.2

/-- A drive at rest that becomes ready is discovered, recalibration included (R18, R21). -/
theorem readyRises_discovers
    (h : (s.drives.get d).state = DriveState.notReady ∨ (s.drives.get d).state = DriveState.absent)
    (quiet : (s.drives.get d).discovery = none) :
    s.readyRises d = onlyDrive s d (atStage (s.drives.get d) false .awaitAnswer) := by
  have e : s.readyRises d = s.startDiscovery d false := if_pos (by simpa [DriveRec.discovering, quiet] using h)
  rw [e, startDiscovery_plain (by rcases h with h | h <;> simp [h]) (by rcases h with h | h <;> simp [h])]
  rfl

/-! ## The statement -/

/-- Settles O48: by whether the lines are watched, the drive's STATE, its discovery and its claim. -/
theorem driveLinesWatched : Obligations.DriveLinesWatched := by
  intro d s
  dsimp only
  -- the record with the ready line's new level differs in nothing that a report goes by
  have own (x : DriveRec) : (onlyDrive s d x).drives.get d = x := onlyDrive_self s d x
  have fall {t : State} (e : s.readyLineFalls d = t) : exec (.readyLineFall d) s = .next t.finish :=
    congrArg (fun t : State => Host.Outcome.next t.finish) e
  have rise {t : State} (e : s.readyLineRises d = t) : exec (.readyLineRise d) s = .next t.finish :=
    congrArg (fun t : State => Host.Outcome.next t.finish) e
  have fault {t : State} (e : s.faultLineRises d = t) : exec (.faultLineRise d) s = .next t.finish :=
    congrArg (fun t : State => Host.Outcome.next t.finish) e
  refine ⟨fun h => fall ?_, fun w faulted disc claim => fall ?_, fun w moved claim => ⟨_, fall rfl, ?_⟩,
    fun w service moved claim => ⟨_, fall rfl, ?_⟩, fun h => rise ?_, fun w rests quiet => rise ?_, fun u => fault ?_,
    fun w withdrawn => fault ?_, fun w faulted => fault ?_, fun w nofault service => ⟨_, fault rfl, ?_⟩⟩
  · by_cases w : linesWatched s d
    · rw [readyLineFalls_watched w, readyFalls_unmoved (by rw [own]; exact h.resolve_left (fun x => x w))]
    · exact readyLineFalls_unwatched w
  · have drops : (onlyDrive s d { s.drives.get d with readyLine := false }).dropClaimed d
        = (onlyDrive s d { s.drives.get d with readyLine := false }).abandonDiscovery d :=
      if_pos (by rw [own]; exact faulted)
    rw [readyLineFalls_watched w, readyFalls_moved (by rw [own]; simp [faulted]) (by rw [own]; exact .inr disc),
      own, if_pos (Option.isSome_iff_ne_none.2 claim), drops, State.abandonDiscovery,
      modDrive_onlyDrive _ (congrArg _ (own _)), onlyDrive_onlyDrive]
  · have state : (s.drives.get d).state ≠ DriveState.faulted ∧ (s.drives.get d).state ≠ DriveState.withdrawn := by
      rcases moved with h | ⟨h | h, _⟩ <;> simp [h]
    have drops : (onlyDrive s d { s.drives.get d with readyLine := false }).dropClaimed d
        = (onlyDrive s d { s.drives.get d with readyLine := false }).latchFault d .readyDrop :=
      if_neg (by rw [own]; exact state.1)
    rw [readyLineFalls_watched w, readyFalls_moved (by rw [own]; exact state.2)
      (by rw [own]; exact moved.imp_right And.right), own, if_pos (Option.isSome_iff_ne_none.2 claim), drops]
    have latch := driveChanged_latchFault (s := onlyDrive s d { s.drives.get d with readyLine := false }) .readyDrop
      (by rw [own]; exact w.1) (by rw [own]; exact state.1) (by rw [own]; exact state.2)
    rw [own] at latch
    exact driveChanged_from latch rfl rfl rfl
  · rw [readyLineFalls_watched w, readyFalls_moved (by rw [own]; exact service) (by rw [own]; exact moved), own,
      if_neg (by simp [claim])]
    have drop := driveChanged_dropToNotReady (s := onlyDrive s d { s.drives.get d with readyLine := false }) (d := d)
    rw [own] at drop
    exact driveChanged_from drop rfl rfl rfl
  · by_cases w : linesWatched s d
    · rw [readyLineRises_watched w, readyRises_unmoved (by rw [own]; exact h.resolve_left (fun x => x w))]
    · exact readyLineRises_unwatched w
  · rw [readyLineRises_watched w, readyRises_discovers (by rw [own]; exact rests) (by rw [own]; exact quiet), own,
      onlyDrive_onlyDrive]
  · exact faultLineRises_unwatched u
  · rw [faultLineRises_watched w]
    have latch : (onlyDrive s d { s.drives.get d with faultHeld := false }).latchFault d .driveSignalled
        = onlyDrive s d { s.drives.get d with faultHeld := false } := if_pos (by rw [own]; simp [withdrawn])
    exact (if_neg (by rw [own]; simp [withdrawn])).trans latch
  · rw [faultLineRises_watched w]
    have stays : (onlyDrive s d { s.drives.get d with faultHeld := false }).faultRises d
        = (onlyDrive s d { s.drives.get d with faultHeld := false }).abandonDiscovery d :=
      if_pos (by rw [own]; exact faulted)
    rw [stays, State.abandonDiscovery, modDrive_onlyDrive _ (congrArg _ (own _)), onlyDrive_onlyDrive]
  · rw [faultLineRises_watched w]
    have latch := driveChanged_latchFault (s := onlyDrive s d { s.drives.get d with faultHeld := false }) .driveSignalled
      (by rw [own]; exact w.1) (by rw [own]; exact nofault) (by rw [own]; exact service)
    rw [own] at latch
    have rises : (onlyDrive s d { s.drives.get d with faultHeld := false }).faultRises d
        = (onlyDrive s d { s.drives.get d with faultHeld := false }).latchFault d .driveSignalled :=
      if_neg (by rw [own]; exact nofault)
    rw [rises]
    exact driveChanged_from latch rfl rfl rfl

end Sys2Proof.Machine
end

