-- ==== Sys2Proof/Proofs/DiscoveryStages.lean ====
section
/-! SUPPORT. A discovery from stage to stage (R19): what its stages await, the record that each outcome gives, and
the report that follows. -/

namespace Sys2Proof.Machine

open Sys2Proof.Stated

variable {s : State} {d : Fin 4} {skip : Bool}

/-! ## The outcome -/

/-- An outcome that leaves the drive FAULTED (R19, R22). -/
theorem endDiscovery_fault {r : DriveRec} {o : DiscoveryOutcome} {kind : FaultKind}
    (h : o.faultKind r.claim.isSome = some kind) : r.endDiscovery o = discoveryFault r kind := by
  unfold DriveRec.endDiscovery
  rw [h]
  rfl

/-- An outcome that is no fault (R19). -/
theorem endDiscovery_ends {r : DriveRec} {o : DiscoveryOutcome} (h : o.faultKind r.claim.isSome = none) :
    r.endDiscovery o = discoveryEnds r o.state := by
  unfold DriveRec.endDiscovery
  rw [h]
  rfl

/-- Without an answer, or with the ready line low, a claimed drive is FAULTED and an unclaimed one is not (R19). -/
theorem endDiscovery_byClaim (r : DriveRec) {o : DiscoveryOutcome} (h : o = .noAnswer ∨ o = .notReady) :
    r.endDiscovery o = if r.claim = none then discoveryEnds r o.state else discoveryFault r .readyDrop := by
  by_cases claim : r.claim = none
  · rw [if_pos claim, endDiscovery_ends]
    rcases h with rfl | rfl <;> simp [DiscoveryOutcome.faultKind, claim]
  · rw [if_neg claim, endDiscovery_fault]
    have some : r.claim.isSome = true := Option.isSome_iff_ne_none.2 claim
    rcases h with rfl | rfl <;> simp [DiscoveryOutcome.faultKind, some]

theorem endDiscovery_claim (r : DriveRec) (o : DiscoveryOutcome) : (r.endDiscovery o).claim = r.claim := by
  unfold DriveRec.endDiscovery
  split <;> rfl

theorem endDiscovery_drsWaiting (r : DriveRec) (o : DiscoveryOutcome) :
    (r.endDiscovery o).drsWaiting = r.drsWaiting := by
  unfold DriveRec.endDiscovery
  split <;> rfl

/-! ## The report of an outcome -/

/-- A drive's record replaced, its STATE reported if it differs, the change announced anyhow where that is asked, and
a waiting direct read decided again: a change of the record as the statements say it (R19, R23, R28). -/
theorem driveChanged_outcome {r : DriveRec} (anyhow : Bool) (claim : r.claim = (s.drives.get d).claim)
    (waiting : r.drsWaiting = (s.drives.get d).drsWaiting) :
    let m := (onlyDrive s d r).reportIfChanged d (s.drives.get d).state
    driveChanged s ((if anyhow then m.attnDrive d else m).drsRecheck d) d r anyhow := by
  have own := onlyDrive_self s d r
  have reported := (Kept.refl Keep.shown (onlyDrive s d r)).reportIfChanged (d := d) Keep.shown_units
    (s.drives.get d).state
  intro m
  have announced : Kept Keep.shown (onlyDrive s d r) (if anyhow then m.attnDrive d else m) := by
    cases anyhow
    · exact reported
    · exact reported.attnDrive d
  refine driveChanged_of_kept (announced.drsRecheck d) (fun h => ?_) fun none ⟨_, _, nobody, _, free, _⟩ base => ?_
  · have recheck := ((Kept.refl Keep.shown (if anyhow then m.attnDrive d else m)).drsRecheck d).attention.driveChange d
    refine recheck ?_
    cases anyhow
    · exact reportIfChanged_told (by rw [own]; simpa using h)
    · simp [State.attnDrive]
  · have alone := aloneChanged_announced (reportIfChanged_alone (s := onlyDrive s d r) (by rw [own, claim, none])
      (by rw [own, waiting, nobody]) free base (s.drives.get d).state) anyhow
    have same : ((if anyhow then m.attnDrive d else m).drives.get d).drsWaiting = false := by
      rw [aloneChanged_drives alone, own, waiting, nobody]
    rw [drsRecheck_idle same]
    exact alone

/-- A discovery ends with another outcome than READY (R19). -/
theorem driveChanged_endDiscovery {o : DiscoveryOutcome} (h : o ≠ .ready) :
    driveChanged s (s.endDiscovery d o) d ((s.drives.get d).endDiscovery o) false := by
  have e : s.endDiscovery d o
      = ((onlyDrive s d ((s.drives.get d).endDiscovery o)).reportIfChanged d (s.drives.get d).state).drsRecheck d := by
    unfold State.endDiscovery State.readForOutcome
    rw [if_neg h]
    dsimp only
    rw [if_neg (by simp [h])]
    rfl
  rw [e]
  exact driveChanged_outcome false (endDiscovery_claim _ o) (endDiscovery_drsWaiting _ o)

/-- A discovery ends READY, in a store without bit errors: the geometry is read for the comparison (R19). -/
theorem driveChanged_endReady (clean : s.store.flips = []) :
    driveChanged { s with store := (s.askStore .table 1).store } (s.endDiscovery d .ready) d
      (discoveryEnds (s.drives.get d) .ready)
      ((s.geometry.get d).any fun g => g.sectors ≠ (s.drives.get d).observedSectors) := by
  have differ : (onlyDrive (s.askStore .table 1) d (discoveryEnds (s.drives.get d) .ready)).sectorsDiffer d
      = (s.geometry.get d).any fun g => g.sectors ≠ (s.drives.get d).observedSectors := by
    unfold State.sectorsDiffer
    rw [onlyDrive_self]
    show (match s.geometry.get d with
      | none => false
      | some g => _) = _
    cases s.geometry.get d with
    | none => rfl
    | some g => simp [discoveryEnds, eq_comm]
  rw [← differ]
  have e : s.endDiscovery d .ready =
      let t := onlyDrive (s.askStore .table 1) d (discoveryEnds (s.drives.get d) .ready)
      let m := t.reportIfChanged d (s.drives.get d).state
      (if t.sectorsDiffer d then m.attnDrive d else m).drsRecheck d := by
    unfold State.endDiscovery
    rw [readForOutcome_clean clean]
    simp only [decide_true, Bool.true_and]
    rfl
  rw [e]
  exact driveChanged_outcome (s := s.askStore .table 1) _ rfl rfl

/-! ## Stages -/

theorem stage_of {stage : DiscoveryStage}
    (h : (s.drives.get d).discovery = some { skipRecalibration := skip, stage := stage }) :
    s.stage d = some stage := by
  unfold State.stage
  rw [h]
  rfl

/-- A stage replaced is a change of the drive's record alone. -/
theorem setStage_onlyDrive {stage : DiscoveryStage}
    (h : (s.drives.get d).discovery = some { skipRecalibration := skip, stage := stage }) (next : DiscoveryStage) :
    s.setStage d next = onlyDrive s d (atStage (s.drives.get d) skip next) :=
  modDrive_onlyDrive _ (by rw [h]; rfl)

/-- A header count runs, or waits for the index that opens it (R19 step 3). -/
def State.countsHeaders (s : State) (d : Fin 4) : Prop :=
  (∃ skip, (s.drives.get d).discovery = some { skipRecalibration := skip, stage := .awaitIndex })
    ∨ ∃ skip n, (s.drives.get d).discovery = some { skipRecalibration := skip, stage := .counting n }

/-- Where no header count runs or waits, the discovery is at another stage, or there is none. -/
theorem stage_of_notCounting (h : ¬ s.countsHeaders d) :
    s.stage d = none ∨ s.stage d = some .awaitAnswer ∨ ∃ again, s.stage d = some (.recalibrating again) := by
  unfold State.stage
  unfold State.countsHeaders at h
  rcases e : (s.drives.get d).discovery with _ | ⟨skip, _ | again | _ | n⟩
  · exact .inl rfl
  · exact .inr (.inl rfl)
  · exact .inr (.inr ⟨again, rfl⟩)
  · exact absurd (.inl ⟨skip, e⟩) h
  · exact absurd (.inr ⟨skip, n, e⟩) h

/-- An index of a drive without a granted revolution bounds its discovery's header count, if one runs (R19, R30). -/
theorem indexArrives_ungranted (h : ∀ g, s.path.grant = some g → g.addr.drive ≠ d) :
    s.indexArrives d = s.countIndex d := by
  have e : s.revolutionIndex d = s := by
    unfold State.revolutionIndex
    split
    · rfl
    · rename_i g grant
      exact if_pos (h g grant)
  unfold State.indexArrives
  rw [e]

/-- An answer line that rises, or a time limit that ends, where no discovery awaits an answer (log entry 1). -/
theorem answers_unawaited
    (h : ¬ ∃ skip, (s.drives.get d).discovery = some { skipRecalibration := skip, stage := .awaitAnswer }) :
    s.answers d = s ∧ s.noAnswer d = s := by
  constructor
  · unfold State.answers
    split
    · rename_i skip e
      exact absurd ⟨skip, e⟩ h
    · rfl
  · refine if_neg fun st => h ?_
    unfold State.stage at st
    obtain ⟨⟨skip, stage⟩, disc, rfl⟩ := Option.map_eq_some_iff.1 st
    exact ⟨skip, disc⟩

/-- The answer of a drive whose discovery awaits it: its fault level first, then its ready line (R19 step 1, R21). -/
theorem answers_awaited
    (h : (s.drives.get d).discovery = some { skipRecalibration := skip, stage := .awaitAnswer }) :
    s.answers d = if (s.drives.get d).faultHeld then (s.setFaultHeld d false).endDiscovery d (.fault .driveSignalled)
      else if !(s.drives.get d).readyLine then s.endDiscovery d .notReady
      else if skip then s.setStage d .awaitIndex
      else s.setStage d (.recalibrating false) := by
  unfold State.answers
  rw [h]

/-! ## The statement -/

/-- Settles O49: the stages of R19 in turn, each with the events that it awaits and those that it does not. -/
theorem discoveryByStages : Obligations.DiscoveryByStages := by
  intro d s
  have done {c : Instr} {f t : State} (e : f = t) (c_eq : exec c s = .next f.finish) : exec c s = .next t.finish :=
    e ▸ c_eq
  dsimp only
  refine ⟨fun unawaited => ⟨done (answers_unawaited unawaited).1 rfl, done (answers_unawaited unawaited).2 rfl⟩,
    fun skip stage => ⟨fun held => ⟨_, rfl, ?_⟩, fun unheld high => done ?_ rfl, fun unheld low => ⟨_, rfl, ?_⟩,
      _, rfl, ?_⟩,
    fun skip again stage => ⟨done ?_ rfl, fun first => done ?_ rfl, fun second => ⟨_, rfl, ?_⟩⟩,
    fun skip stage => ⟨fun ungranted => done ?_ rfl, ?_⟩,
    fun skip n stage => ⟨?_, fun ungranted clean => ⟨_, (s.askStore .table 1).store, rfl, ⟨_, _, _, rfl⟩, ?_⟩⟩,
    fun idle => ?_, fun counting => ⟨_, rfl, ?_⟩, fun idle watched ready => ⟨_, rfl, ?_⟩, fun idle quiet => done ?_ rfl⟩
  · -- the fault level that rose unwatched is found
    rw [answers_awaited stage, if_pos held]
    have ends := driveChanged_endDiscovery (s := s.setFaultHeld d false) (d := d) (o := .fault .driveSignalled) nofun
    rw [show (s.setFaultHeld d false).drives.get d = { s.drives.get d with faultHeld := false } from
      Four.get_modify_self _ _ _, endDiscovery_fault rfl] at ends
    exact driveChanged_from (x := { s.drives.get d with faultHeld := false }) ends rfl rfl rfl
  · rw [answers_awaited stage, if_neg (by simp [unheld]), if_neg (by simp [high])]
    cases skip <;> exact setStage_onlyDrive stage _
  · rw [answers_awaited stage, if_neg (by simp [unheld]), if_pos (by simp [low]),
      show discoveryEnds (s.drives.get d) .notReady = discoveryEnds (s.drives.get d) DiscoveryOutcome.notReady.state
        from rfl, ← endDiscovery_byClaim _ (.inr rfl)]
    exact driveChanged_endDiscovery nofun
  · rw [show s.noAnswer d = s.endDiscovery d .noAnswer from if_pos (stage_of stage),
      show discoveryEnds (s.drives.get d) .absent = discoveryEnds (s.drives.get d) DiscoveryOutcome.noAnswer.state
        from rfl, ← endDiscovery_byClaim _ (.inl rfl)]
    exact driveChanged_endDiscovery nofun
  · unfold State.seekDone
    rw [stage_of stage]
    dsimp only
    rw [modDrive_onlyDrive _ rfl, setStage_onlyDrive (skip := skip) (by rw [onlyDrive_self]; exact stage),
      onlyDrive_onlyDrive, onlyDrive_self]
    rfl
  · unfold State.recalibrationTimesOut
    rw [stage_of stage, first]
    exact setStage_onlyDrive stage _
  · unfold State.recalibrationTimesOut
    rw [stage_of stage, second]
    have ends := driveChanged_endDiscovery (s := s) (d := d) (o := .fault .seekFail) nofun
    rwa [endDiscovery_fault rfl] at ends
  · rw [indexArrives_ungranted ungranted]
    unfold State.countIndex
    rw [stage_of stage]
    exact setStage_onlyDrive stage _
  · show Host.Outcome.next (s.countPulse d) = _
    unfold State.countPulse
    rw [stage_of stage]
  · show Host.Outcome.next (s.countPulse d) = _
    unfold State.countPulse
    rw [stage_of stage]
    exact congrArg Host.Outcome.next (setStage_onlyDrive stage _)
  · rw [indexArrives_ungranted ungranted]
    have counted : s.countIndex d
        = (onlyDrive s d { s.drives.get d with observedSectors := min 63 n }).endDiscovery d .ready := by
      unfold State.countIndex
      rw [stage_of stage]
      rfl
    rw [counted]
    have ends := driveChanged_endReady (s := onlyDrive s d { s.drives.get d with observedSectors := min 63 n }) (d := d)
      clean
    rw [onlyDrive_self] at ends
    exact driveChanged_from (s := { s with store := (s.askStore .table 1).store })
      (x := { s.drives.get d with observedSectors := min 63 n }) ends rfl rfl rfl
  · show Host.Outcome.next (s.countPulse d) = _
    unfold State.countPulse
    rcases stage_of_notCounting idle with e | e | ⟨again, e⟩ <;> rw [e]
  · have ends := driveChanged_endDiscovery (s := s) (d := d) (o := .fault .indexLost) nofun
    rw [endDiscovery_fault rfl] at ends
    unfold State.loseIndex
    rcases counting with ⟨skip, stage⟩ | ⟨skip, n, stage⟩
    · rw [stage_of stage]; exact ends
    · rw [stage_of stage]; exact ends
  · have latch : s.loseIndex d = s.latchFault d .indexLost := by
      have test : (s.watched && (s.drives.get d).state = DriveState.ready) = true := by
        have := (linesWatched_iff s d).1 watched
        simp only [Bool.and_eq_true] at this
        simp [this.1, ready]
      unfold State.loseIndex
      rcases stage_of_notCounting idle with e | e | ⟨again, e⟩ <;> rw [e] <;> exact if_pos test
    rw [latch]
    exact driveChanged_latchFault _ watched.1 (by simp [ready]) (by simp [ready])
  · have test : s.loseIndex d = if s.watched && (s.drives.get d).state = DriveState.ready then
        s.latchFault d .indexLost else s := by
      unfold State.loseIndex
      rcases stage_of_notCounting idle with e | e | ⟨again, e⟩ <;> rw [e]
    rw [test]
    split
    · rename_i h
      simp only [Bool.and_eq_true, decide_eq_true_eq] at h
      have unfitted : (s.drives.get d).fitted = false := by
        refine Bool.eq_false_iff.2 fun fit => quiet.elim (fun x => x ?_) fun x => x h.2
        exact (linesWatched_iff s d).2 (by simp [h.1, State.fitted, fit])
      exact if_pos (by simp [unfitted])
    · rfl

end Sys2Proof.Machine
end

