-- ==== Sys2Proof/Proofs/Positioning.lean ====
section
/-! SUPPORT. A positioning from stage to stage (R24, R25), and its end: the holder waits for the read path or is
granted it (R30, R31, R86, R87). -/

namespace Sys2Proof.Machine

open Sys2Proof.Stated

variable {s : State} {c d : Fin 4} {r : DriveRec} {cyl : Nat} {offset : Offset}

/-! ## What is left to read -/

theorem unresolved_iff (r : TrackRec) : unresolved r ↔ r.anyUnresolved = true := by
  simp [unresolved, TrackRec.anyUnresolved, SectorStatus.unresolved]

theorem openSectors_eq (r : TrackRec) : openSectors r = r.unresolvedSectors :=
  List.filter_congr fun k _ => by simp [TrackRec.sector, SectorStatus.unresolved]

/-! ## The decision on the path -/

theorem grantPath_taken (h : s.path.grant ≠ none) : s.grantPath = s :=
  if_pos (Option.isSome_iff_ne_none.2 h)

/-- No context waits with a sector to read, nor the Direct Read Slot: the path is granted to nobody (R30, R87). -/
theorem grantPath_unwanted (ctxs : ∀ c, s.ctxWaits c = false) (drs : s.drs.state ≠ .waitPath) : s.grantPath = s := by
  have first : ∀ rank, s.firstOfRank rank = none := fun rank => by
    unfold State.firstOfRank
    exact List.find?_eq_none.2 fun c _ => by simp [ctxs c]
  have best : s.bestContext = none := by
    unfold State.bestContext
    rw [first, first, first]
  unfold State.grantPath
  rw [best]
  split
  · rfl
  · split
    · rename_i e _; exact absurd e drs
    · rfl

/-! ## POSITIONED -/

/-- The heads stand where they were wanted: the positioning ends, and the claim holder waits for the path or is granted
it, as the statements say. -/
theorem tellPositioned_positioned (s : State) (d : Fin 4) (r : DriveRec) :
    positioned s ((onlyDrive s d r).tellPositioned d) d r := by
  obtain ⟨there, ht⟩ : ∃ t, t = onlyDrive s d { r with positioning := none } := ⟨_, rfl⟩
  have told : (onlyDrive s d r).tellPositioned d = match r.claim with
      | some (.ctx c) => there.enterWaitPath c
      | some .drs => { there with drs := { there.drs with state := .waitPath } }.grantPath
      | none => there := by
    have e : ((onlyDrive s d r).modDrive d fun r => { r with positioning := none }) = there := by
      rw [modDrive_onlyDrive _ rfl, onlyDrive_self, onlyDrive_onlyDrive, ht]
    unfold State.tellPositioned
    dsimp only
    rw [e, show (there.drives.get d).claim = r.claim by rw [ht, onlyDrive_self]] <;> rfl
  unfold positioned
  dsimp only
  rw [told, ← ht]
  have waiting : ∀ c, there.enterWaitPath c
      = { there with ctxs := s.ctxs.set c { s.ctxs.get c with state := .waitPath } }.grantPath := fun c => by
    rw [ht]; rfl
  refine ⟨fun claim => by rw [claim], fun ctxs drs => ⟨fun c claim => ?_, fun claim => ?_⟩⟩
  · rw [claim]
    dsimp only
    rw [waiting c]
    refine ⟨fun taken => grantPath_taken (by rw [ht]; exact taken), fun n st a free track step addr => ?_⟩
    obtain ⟨w, hw⟩ : ∃ w : State, w = { there with
      ctxs := s.ctxs.set c { s.ctxs.get c with state := .waitPath } } := ⟨_, rfl⟩
    have self : w.ctxs.get c = { s.ctxs.get c with state := .waitPath } := by rw [hw]; exact Four.get_set_self _ _ _
    have others : ∀ e, e ≠ c → (w.ctxs.get e).state ≠ .waitPath := fun e he => by
      rw [hw]
      show ((s.ctxs.set c _).get e).state ≠ _
      rw [Four.get_set_ne _ _ he]
      exact ctxs e
    have record : w.track n = s.track n := by rw [hw, ht]; rfl
    rw [← hw]
    refine ⟨fun left => ?_, fun nothing => ?_⟩
    · rw [grant_one (c := c) (n := n) (st := st) (a := a) (by rw [self]) others (by rw [hw, ht]; exact drs)
        (by rw [hw, ht]; exact free) (by rw [self]; exact track) (by rw [self]; exact step)
        (by rw [record]; exact addr) (by rw [record]; exact (unresolved_iff _).1 left), self, record, openSectors_eq,
        hw, ht]
      simp only [onlyDrive, four_set_set]
    · rw [grantPath_unwanted (fun e => ?_) (by rw [hw, ht]; exact drs), hw]
      by_cases he : e = c
      · subst he
        have none : w.ctxUnresolved e = false := by
          unfold State.ctxUnresolved
          rw [self]
          simpa [track, record, unresolved_iff] using nothing
        simp [State.ctxWaits, none]
      · simp [State.ctxWaits, others e he]
  · rw [claim]
    refine ⟨fun taken => ?_, fun t free target => ?_⟩
    · rw [ht]; exact grantPath_taken taken
    · rw [ht]; exact grant_drs ctxs rfl free target

/-! ## Stages -/

/-- The heads have come to rest on a drive that no direct read waits for: the seek is made, or the offset is brought to
its target (R24, R25). -/
theorem headsRest_unwaited (waiting : r.drsWaiting = false) (p : Positioning) (seek : Bool) :
    (onlyDrive s d r).headsRest d p seek
      = if seek then (onlyDrive s d { r with positioning := none }).beginSeek d p.cyl p.offset
      else (onlyDrive s d { r with positioning := none }).offsetStage d p.cyl p.offset := by
  have e : ((onlyDrive s d r).modDrive d fun r => { r with positioning := none })
      = onlyDrive s d { r with positioning := none } := by
    rw [modDrive_onlyDrive _ rfl, onlyDrive_self, onlyDrive_onlyDrive]
  unfold State.headsRest
  dsimp only
  rw [e, drsRecheck_idle (by rw [onlyDrive_self]; exact waiting), onlyDrive_self, onlyDrive_self]
  exact if_neg (by simp)

/-- The offset is not the one wanted: it settles (R25). -/
theorem offsetStage_settles (h : r.offsetAt ≠ some offset) (cyl : Nat) :
    (onlyDrive s d r).offsetStage d cyl offset = onlyDrive s d
      { r with offsetAt := none, positioning := some { cyl := cyl, offset := offset, stage := .settling } } := by
  unfold State.offsetStage
  rw [if_neg (by rw [onlyDrive_self]; exact h), modDrive_onlyDrive _ rfl, onlyDrive_self, onlyDrive_onlyDrive]

/-- The offset is the one wanted: the heads stand in place (R25). -/
theorem offsetStage_positioned (h : r.offsetAt = some offset) (cyl : Nat) :
    positioned s ((onlyDrive s d { r with positioning := none }).offsetStage d cyl offset) d r := by
  unfold State.offsetStage
  rw [if_pos (by rw [onlyDrive_self]; exact h)]
  exact tellPositioned_positioned s d { r with positioning := none }

theorem beginSeek_onlyDrive (s : State) (d : Fin 4) (r : DriveRec) (cyl : Nat) (offset : Offset) :
    (onlyDrive s d r).beginSeek d cyl offset = onlyDrive s d
      { r with cylAt := none, positioning := some { cyl := cyl, offset := offset, stage := .seeking } } := by
  unfold State.beginSeek
  rw [modDrive_onlyDrive _ rfl, onlyDrive_self, onlyDrive_onlyDrive]

/-- A drive that is in no recalibration of a discovery is recalibrated, if it is, for its positioning. -/
def State.noDiscoveryRecalibration (s : State) (d : Fin 4) : Prop :=
  ∀ skip again, (s.drives.get d).discovery ≠ some { skipRecalibration := skip, stage := .recalibrating again }

theorem stage_not_recalibrating (h : s.noDiscoveryRecalibration d) (again : Bool) :
    s.stage d ≠ some (.recalibrating again) := fun st => by
  unfold State.stage at st
  obtain ⟨⟨skip, stage⟩, disc, rfl⟩ := Option.map_eq_some_iff.1 st
  exact h skip again disc

/-- The end of a seek is then the positioning's own (R24). -/
theorem seekDone_positioning (h : s.noDiscoveryRecalibration d) :
    s.seekDone d = match (s.drives.get d).positioning with
      | some p => s.seekEnds d p
      | none => s := by
  have st := stage_not_recalibrating h
  unfold State.seekDone
  cases e : s.stage d with
  | none => cases (s.drives.get d).positioning <;> rfl
  | some stage =>
    cases stage with
    | recalibrating again => exact absurd e (st again)
    | _ => cases (s.drives.get d).positioning <;> rfl

/-- The time limit of a recalibration is then the positioning's own (R24). -/
theorem recalibrationTimesOut_positioning (h : s.noDiscoveryRecalibration d) :
    s.recalibrationTimesOut d = s.positioningFails d := by
  have st := stage_not_recalibrating h
  unfold State.recalibrationTimesOut
  cases e : s.stage d with
  | none => rfl
  | some stage =>
    cases stage with
    | recalibrating again => exact absurd e (st again)
    | _ => rfl

/-- A recalibration's time limit where the positioning awaits none (log entry 1). -/
theorem positioningFails_unawaited (h : (s.drives.get d).positioning.any (·.stage.recalibrates) = false) :
    s.positioningFails d = s := if_neg (by simp [h])

theorem seekTimesOut_unawaited (h : ∀ p, (s.drives.get d).positioning = some p → p.stage ≠ .seeking) :
    s.seekTimesOut d = s := by
  unfold State.seekTimesOut
  dsimp only
  split
  · rfl
  · rename_i p e
    exact if_pos (h p e)

theorem settles_unawaited (h : ∀ p, (s.drives.get d).positioning = some p → p.stage ≠ .settling) :
    s.settles d = s := by
  unfold State.settles
  split
  · rfl
  · rename_i p e
    exact if_neg (h p e)

/-! ## The statement -/

/-- Settles O50: by the stage of the positioning, each with the events that it awaits and those that it does not. -/
theorem positioningByStages : Obligations.PositioningByStages := by
  intro d s
  dsimp only
  intro apart
  have done {i : Instr} {f t : State} (e : f = t) (i_eq : exec i s = .next f.finish) : exec i s = .next t.finish :=
    e ▸ i_eq
  refine ⟨fun none => ?_, fun cyl offset waiting => ⟨fun at_ => ?_, fun again at_ => ?_, fun at_ => ?_⟩⟩
  · have only : ∀ (st : PositioningStage) p, (s.drives.get d).positioning = some p → p.stage ≠ st := fun _ p e => by
      rw [none] at e; cases e
    refine ⟨done ?_ rfl, done (seekTimesOut_unawaited (only _)) rfl, done ?_ rfl, done (settles_unawaited (only _)) rfl⟩
    · rw [seekDone_positioning apart, none]
    · rw [recalibrationTimesOut_positioning apart, positioningFails_unawaited (by rw [none]; rfl)]
  · have ends : s.seekDone d = (onlyDrive s d { s.drives.get d with cylAt := some cyl, positioning := none }).offsetStage d
        cyl offset := by
      rw [seekDone_positioning apart, at_]
      exact headsRest_unwaited (r := { s.drives.get d with cylAt := some cyl }) waiting _ false
    refine ⟨fun other => done ?_ rfl, fun same => ⟨_, rfl, ?_⟩, fun first => done ?_ rfl,
      fun again fitted ready => ⟨_, rfl, ?_⟩, done ?_ rfl, done ?_ rfl⟩
    · rw [ends]
      exact offsetStage_settles (r := { s.drives.get d with cylAt := some cyl, positioning := none }) other cyl
    · rw [ends]
      exact offsetStage_positioned (r := { s.drives.get d with cylAt := some cyl }) same cyl
    · unfold State.seekTimesOut
      dsimp only
      rw [at_]
      exact (if_neg (by simp)).trans (if_neg (by simp [first]))
    · have fails : s.seekTimesOut d = s.latchFault d .seekFail := by
        unfold State.seekTimesOut
        dsimp only
        rw [at_]
        exact (if_neg (by simp)).trans (if_pos again)
      rw [fails]
      exact driveChanged_latchFault _ fitted (by simp [ready]) (by simp [ready])
    · rw [recalibrationTimesOut_positioning apart, positioningFails_unawaited (by rw [at_]; rfl)]
    · exact settles_unawaited fun p e => by rw [at_] at e; cases e; nofun
  · have ends : s.seekDone d = (onlyDrive s d
        { s.drives.get d with cylAt := some 0, offsetAt := some .centre }).headsRest d
          { cyl := cyl, offset := offset, stage := .recalibrating again } (again || cyl ≠ 0) := by
      rw [seekDone_positioning apart, at_]
      rfl
    rw [headsRest_unwaited (r := { s.drives.get d with cylAt := some 0, offsetAt := some .centre }) waiting] at ends
    refine ⟨fun seek => done ?_ rfl, fun first zero other => done ?_ rfl, fun first zero same => ⟨_, rfl, ?_⟩,
      fun fitted ready => ⟨_, rfl, ?_⟩, done ?_ rfl, done ?_ rfl⟩
    · rw [ends, if_pos (by simpa using seek), beginSeek_onlyDrive]
    · rw [ends, if_neg (by simp [first, zero]), zero]
      exact offsetStage_settles (r := { s.drives.get d with
        cylAt := some 0, offsetAt := some .centre, positioning := none }) (by simpa using Ne.symm other) 0
    · rw [ends, if_neg (by simp [first, zero])]
      exact offsetStage_positioned (r := { s.drives.get d with cylAt := some 0, offsetAt := some .centre })
        (by rw [same]) cyl
    · rw [recalibrationTimesOut_positioning apart,
        show s.positioningFails d = s.latchFault d .seekFail from if_pos (by rw [at_]; rfl)]
      exact driveChanged_latchFault _ fitted (by simp [ready]) (by simp [ready])
    · exact seekTimesOut_unawaited fun p e => by rw [at_] at e; cases e; nofun
    · exact settles_unawaited fun p e => by rw [at_] at e; cases e; nofun
  · refine ⟨⟨_, rfl, ?_⟩, done ?_ rfl, done ?_ rfl, done ?_ rfl⟩
    · have ends : s.settles d = (onlyDrive s d { s.drives.get d with offsetAt := some offset }).tellPositioned d := by
        unfold State.settles
        rw [at_]
        exact if_pos rfl
      rw [ends]
      exact tellPositioned_positioned s d { s.drives.get d with offsetAt := some offset }
    · rw [seekDone_positioning apart, at_]
      rfl
    · exact seekTimesOut_unawaited fun p e => by rw [at_] at e; cases e; nofun
    · rw [recalibrationTimesOut_positioning apart, positioningFails_unawaited (by rw [at_]; rfl)]

end Sys2Proof.Machine
end

