-- ==== Sys2Proof/Proofs/DriveRequests.lean ====
section
/-! SUPPORT. WITHDRAW_DRIVE, RESTORE_DRIVE and CLEAR_DRIVE_FAULT (R34 to R36, R69, R71): what each does to a drive
that stands alone, to its tracks and to the queue. -/

namespace Sys2Proof.Machine

open Sys2Proof.Stated

variable {s t : State} {c : Instr} {d : Fin 4} {kind tag b : Byte}

/-! ## A request's answer -/

/-- The state with other claims on the store, as reads leave it (R119), and with the bytes driven out replaced. -/
def onlyRead (s t : State) : Prop :=
  ∃ out x, onlyAsks s.store x ∧ t = { s with link := { s.link with out := out }, store := x }

theorem onlyRead_requestWindow (s : State) (p : List Byte) : onlyRead s (s.requestWindow p) :=
  ⟨_, _, onlyAsks_refl _, rfl⟩

/-- The records of a request are read, in a store without bit errors. -/
theorem onlyRead_asking (h : onlyRead s t) (l : List StoreClaimant) : onlyRead s (t.asking l) := by
  obtain ⟨out, _, ⟨x, y, z, rfl⟩, rfl⟩ := h
  obtain ⟨x', y', z', e⟩ := asking_store (s := { s with
    link := { s.link with out := out }
    store := { s.store with asks := x, selfRefresh := y, timerRunning := z } }) l
  exact ⟨out, _, ⟨x', y', z', rfl⟩, e⟩

/-- The reply of a request that does no more than read is its only effect. -/
theorem onlyAnswers_of_read {r : Result} {p : List Byte} (other : kind ≠ attentionKind) (read : onlyRead s t)
    (e : exec c s = .next (t.place kind tag r p).finish) : onlyAnswers c s kind tag r p := by
  obtain ⟨out, x, asks, rfl⟩ := read
  exact ⟨_, e, answered_place rfl _ _ _ _ other, ⟨rfl, rfl, asks⟩, rfl⟩

/-- A request that names a fitted drive goes on with it, and one that does not is refused. -/
theorem withDrive_window (drive : b.toNat = d.val) (fit : (s.drives.get d).fitted = true)
    (k : State → Fin 4 → Reply) : (s.requestWindow [b]).withDrive [b] k = k (s.requestWindow [b]) d :=
  withDrive_some (s := s.requestWindow [b]) (p := [b]) drive fit k

theorem withDrive_unfitted (unfitted : ∀ d : Fin 4, b.toNat = d.val → (s.drives.get d).fitted = false)
    (k : State → Fin 4 → Reply) : (s.requestWindow [b]).withDrive [b] k = (s.requestWindow [b]).reply .range :=
  withDrive_none (s := s.requestWindow [b]) (p := [b]) unfitted k

/-- A request on a drive is performed with the reply that its rule gives on the window's state. -/
theorem exec_driveRequest {owner : State → Reply} {r : Result} {p : List Byte} (link : linkReady s)
    (row : exec c s = .next (s.request kind tag [1] .readyOnly [b] owner State.finish))
    (reply : owner (s.requestWindow [b]) = { result := r, payload := p, after := t }) :
    exec c s = .next (t.place kind tag r p).finish :=
  request_performed (rest := State.finish) row { result := r, payload := p, after := t } reply link.1 (by simp) (by simp)
    (ready_performs _ link.2)

/-! ## WITHDRAW_DRIVE -/

/-- A drive that stands alone is withdrawn: its record, its QUEUED tracks, DRIVE_CHANGE and the offer to its unit are
all that changes (R34, R69). -/
theorem withdraw_alone (alone : driveAlone s d) (base : s.port.settings.statusBase ≤ 0xFFFFC0) :
    ∃ us q, s.withdraw d = { s.attnDrive d with
        drives := s.drives.set d (s.drives.get d).withdrawn
        tracks := (s.dequeueDrive d).tracks
        queue := (s.dequeueDrive d).queue
        units := us, req := q }
      ∧ statusOffered { s with drives := s.drives.set d (s.drives.get d).withdrawn }
          { s with units := us, req := q } d := by
  obtain ⟨unbound, target, waiting, waits, free, ctxs, drs⟩ := alone
  obtain ⟨w, hw⟩ : ∃ w, w = ((s.modDrive d DriveRec.withdrawn).dequeueDrive d).attnDrive d := ⟨_, rfl⟩
  have context : (s.modDrive d DriveRec.withdrawn).withdrawContext d = s.modDrive d DriveRec.withdrawn := by
    unfold State.withdrawContext
    rw [(ctxOn_none_iff (s.modDrive d DriveRec.withdrawn) d).2 unbound]
  have waiter : w.withdrawWaiter d = w := if_neg (by rw [hw]; simp [UnitRec.waitsOnTrack, UnitRec.waitSlot,
    State.dequeueDrive, State.mapTracks, State.attnDrive, waits])
  have e : s.withdraw d = (w.offerStatus d).grantPath := by
    unfold State.withdraw
    dsimp only
    rw [if_neg (by simp [free, target]), if_neg (by simp [free]), context, ← hw, waiter]
  obtain ⟨offered, rest⟩ := offerStatus_spec (s := w) (by rw [hw]; exact base) d
  have still : (w.offerStatus d).grantPath = w.offerStatus d := grantPath_idle
    (fun c => by rw [rest, hw]; exact ctxs c) (by rw [rest, hw]; exact drs)
  refine ⟨(w.offerStatus d).units, (w.offerStatus d).req, ?_, ?_⟩
  · rw [e, still]
    conv_lhs => rw [rest, hw]
    rw [hw]
    rfl
  · exact statusOffered_congr offered (by rw [hw]; rfl) (by rw [hw]; rfl) (by rw [hw]; rfl) (by rw [hw]; rfl) rfl rfl

/-- The QUEUED tracks of a drive leave the queue and become PENDING, in the statements' words (R69). -/
theorem dequeueDrive_tracks (s : State) (d : Fin 4) : (s.dequeueDrive d).tracks = s.tracks.map fun e =>
    if queuedOn e.2 d then (e.1, { e.2 with state := .pending, cls := none }) else e := by
  refine List.map_congr_left fun e _ => ?_
  show (e.1, if queuedOn e.2 d then e.2.madePending else e.2) = _
  split <;> rfl

theorem dequeueDrive_queue (s : State) (d : Fin 4) : (s.dequeueDrive d).queue =
    { demand := s.queue.demand.filter (fun n => ¬ queuedOn (s.track n) d)
      archive := s.queue.archive.filter (fun n => ¬ queuedOn (s.track n) d)
      sweep := s.queue.sweep.filter (fun n => ¬ queuedOn (s.track n) d) } := by
  have on : (fun n => !(s.track n).queuedOn d) = fun n => decide (¬ queuedOn (s.track n) d = true) := by
    funext n
    rw [show (s.track n).queuedOn d = queuedOn (s.track n) d from rfl]
    simp
  show RecoveryQueue.mk (s.queue.demand.filter fun n => !(s.track n).queuedOn d)
    (s.queue.archive.filter fun n => !(s.track n).queuedOn d)
    (s.queue.sweep.filter fun n => !(s.track n).queuedOn d) = _
  rw [on]

/-- Settles O46: refused, without effect on a WITHDRAWN drive, and the withdrawal of a drive that stands alone. -/
theorem withdrawDriveEndsItsWork : Obligations.WithdrawDriveEndsItsWork := by
  intro tag b s link
  have other : (0x06 : Byte) ≠ attentionKind := by decide
  refine ⟨fun unfitted => ?_, fun d drive fit => ⟨fun withdrawn => ?_, fun service alone clean base => ?_⟩⟩
  · have reply : (s.requestWindow [b]).withdrawDrive [b] = (s.requestWindow [b]).reply .range :=
      withDrive_unfitted unfitted _
    exact onlyAnswers_of_read other (onlyRead_requestWindow s [b]) (exec_driveRequest link rfl reply)
  · have reply : (s.requestWindow [b]).withdrawDrive [b] = (s.requestWindow [b]).reply .ok := by
      unfold State.withdrawDrive
      rw [withDrive_window drive fit]
      exact if_pos withdrawn
    exact onlyAnswers_of_read other (onlyRead_requestWindow s [b]) (exec_driveRequest link rfl reply)
  · obtain ⟨w, hw⟩ : ∃ w, w = (s.requestWindow [b]).asking
      ((((s.requestWindow [b]).withdrawnTracks d).map WordOwner.trackRecord).map fun _ => StoreClaimant.link) :=
      ⟨_, rfl⟩
    have reply : (s.requestWindow [b]).withdrawDrive [b] = (w.withdraw d).reply .ok := by
      unfold State.withdrawDrive
      rw [withDrive_window drive fit]
      refine (if_neg service).trans ?_
      rw [withRecords_clean (s := s.requestWindow [b]) clean, hw]
    obtain ⟨out, x, asks, same⟩ := hw ▸ onlyRead_asking (onlyRead_requestWindow s [b]) _
    obtain ⟨us, q, e, offered⟩ := withdraw_alone (s := w) (d := d) (by rw [same]; exact alone) (by rw [same]; exact base)
    have performed := exec_driveRequest (c := .withdrawDrive tag [b]) link rfl reply
    rw [e, same] at performed
    refine ⟨_, performed, answered_place rfl _ _ _ _ other, rfl, ?_, ?_, ?_, rfl, asks, rfl⟩
    · exact dequeueDrive_tracks s d
    · exact dequeueDrive_queue s d
    · exact statusOffered_congr offered (by rw [same]) (by rw [same]) (by rw [same]) (by rw [same]; rfl) rfl rfl

/-! ## Tracks restored -/

/-- Keys that rise are listed in ascending order. -/
theorem keys_pairwise {α : Type} {l : List (Nat × α)} {bound : Nat} (h : keysRiseFrom bound l = true) :
    (l.map (·.1)).Pairwise (· < ·) ∧ ∀ n ∈ l.map (·.1), bound ≤ n := by
  induction l generalizing bound with
  | nil => exact ⟨List.Pairwise.nil, by simp⟩
  | cons e rest ih =>
    simp only [keysRiseFrom, Bool.and_eq_true, decide_eq_true_eq] at h
    obtain ⟨rises, above⟩ := ih h.2
    refine ⟨List.pairwise_cons.2 ⟨fun n hn => above n hn, rises⟩, fun n hn => ?_⟩
    rcases List.mem_cons.1 hn with rfl | hn
    · exact h.1
    · have := above n hn; omega

theorem pendingTracks_pairwise (sound : tracksSound s.tracks = true) (d : Fin 4) :
    (s.pendingTracks d).Pairwise (· < ·) := by
  simp only [tracksSound, Bool.and_eq_true] at sound
  exact (keys_pairwise sound.1).1.sublist (List.filter_sublist.map _)

theorem mem_pendingTracks (sound : tracksSound s.tracks = true) (d : Fin 4) (n : Nat) :
    n ∈ s.pendingTracks d ↔ pendingOn (s.track n) d := by
  simp only [State.pendingTracks, List.mem_map, List.mem_filter, Bool.and_eq_true, decide_eq_true_eq, pendingOn]
  constructor
  · rintro ⟨⟨k, r⟩, ⟨listed, on⟩, rfl⟩
    rw [((mem_tracks sound k r).1 listed).1]
    exact on
  · intro on
    exact ⟨⟨n, s.track n⟩, ⟨(mem_tracks sound n _).2 ⟨rfl, by simp [on.1]⟩, on⟩, rfl⟩

theorem restoredClass_archive_iff (r : TrackRec) :
    r.restoredClass = .archive ↔ r.origins.archive = true ∨ r.origins.system = true := by
  unfold TrackRec.restoredClass
  split <;> simp_all

theorem restoredClass_sweep_iff (r : TrackRec) :
    r.restoredClass = .sweep ↔ r.origins.archive = false ∧ r.origins.system = false := by
  simp [TrackRec.restoredClass]

/-- A restored record as it joins the queue (R71). -/
def TrackRec.restored (r : TrackRec) : TrackRec := { r with state := .queued, cls := some r.restoredClass }

theorem TrackRec.restored_eq (r : TrackRec) : r.restored = { r with
    state := .queued
    cls := some (if r.origins.archive = true ∨ r.origins.system = true then .archive else .sweep) } := by
  simp [TrackRec.restored, TrackRec.restoredClass]

/-- PENDING records in ascending order are enqueued by their ORIGINS, one after another: each is QUEUED, and the groups
grow at their tails (R66, R71). -/
theorem foldl_enqueue (l : List Nat) {s : State} (sound : tracksSound s.tracks = true) (rises : l.Pairwise (· < ·))
    (pending : ∀ n ∈ l, (s.track n).state = .pending) :
    ∃ ts, l.foldl (fun s n => s.enqueue n (s.track n).restoredClass) s = { s with
        tracks := ts
        queue := { s.queue with
          archive := s.queue.archive ++ l.filter fun n => (s.track n).restoredClass = .archive
          sweep := s.queue.sweep ++ l.filter fun n => (s.track n).restoredClass = .sweep } }
      ∧ ∀ n, (assocFind n ts).getD TrackRec.free = if n ∈ l then (s.track n).restored else s.track n := by
  induction l generalizing s with
  | nil => exact ⟨s.tracks, by simp, fun n => rfl⟩
  | cons k rest ih =>
    obtain ⟨above, rises⟩ := List.pairwise_cons.1 rises
    obtain ⟨t, ht⟩ : ∃ t, t = s.queueTail k (s.track k).restoredClass := ⟨_, rfl⟩
    have first : s.enqueue k (s.track k).restoredClass = t := by
      rw [ht]; exact if_pos (pending k List.mem_cons_self)
    have record : ∀ n, t.track n = if n = k then (s.track k).restored else s.track n := fun n => by
      rw [ht]; exact track_queueTail sound k n _
    have other : ∀ n ∈ rest, t.track n = s.track n := fun n hn => by
      rw [record, if_neg (by have := above n hn; omega)]
    obtain ⟨ts, e, found⟩ := ih (s := t) (by rw [ht]; exact tracksSound_queueTail sound k _) rises fun n hn => by
      rw [other n hn]; exact pending n (List.mem_cons_of_mem _ hn)
    refine ⟨ts, ?_, fun n => ?_⟩
    · have group : ∀ x : TrackClass, (rest.filter fun n => (t.track n).restoredClass = x)
          = rest.filter fun n => (s.track n).restoredClass = x := fun x =>
        List.filter_congr fun n hn => by rw [other n hn]
      rw [List.foldl_cons, first, e, group, group, ht]
      rcases h : (s.track k).restoredClass with _ | _ | _
      · unfold TrackRec.restoredClass at h
        split at h <;> cases h
      all_goals simp [State.queueTail, RecoveryQueue.joinTail, State.modTrack, State.setTrack, h]
    · rw [found, record]
      by_cases hk : n = k
      · subst hk
        have : n ∉ rest := fun hn => absurd (above n hn) (lt_irrefl n)
        simp [this]
      · by_cases hn : n ∈ rest
        · simp [hn, hk]
        · simp [hn, hk]

/-- The start of a WITHDRAWN drive's discovery takes it back into service (R18, R35). -/
def DriveRec.recalled (r : DriveRec) : DriveRec :=
  { r with discovery := some { skipRecalibration := false, stage := .awaitAnswer }, state := .notReady, faultKind := none }

theorem startDiscovery_withdrawn (h : (s.drives.get d).state = DriveState.withdrawn) :
    s.startDiscovery d false = (onlyDrive s d (s.drives.get d).recalled).reportIfChanged d .withdrawn := by
  unfold State.startDiscovery
  rw [modDrive_onlyDrive (r := (s.drives.get d).recalled) _
    (by simp [DriveRec.startDiscovery, DriveRec.recalled, h]), h]

/-- A change of STATE of a drive that stands alone: its record, DRIVE_CHANGE and the offer to its unit are all that
changes (R23, R163). -/
theorem changed_alone {r : DriveRec} {before : DriveState} (alone : driveAlone s d) (claim : r.claim = none)
    (waiting : r.drsWaiting = (s.drives.get d).drsWaiting) (changed : r.state ≠ before)
    (base : s.port.settings.statusBase ≤ 0xFFFFC0) :
    ∃ us q, (onlyDrive s d r).reportIfChanged d before = { s.attnDrive d with
        drives := s.drives.set d r, units := us, req := q }
      ∧ statusOffered { s with drives := s.drives.set d r } { s with units := us, req := q } d := by
  obtain ⟨_, _, nobody, _, free, _⟩ := alone
  have own := onlyDrive_self s d r
  obtain ⟨offered, _, rest⟩ := reportIfChanged_alone (s := onlyDrive s d r) (by rw [own, claim])
    (by rw [own, waiting, nobody]) free base before
  rw [own] at offered rest
  refine ⟨_, _, rest.trans ?_, statusOffered_congr (offered changed) rfl rfl rfl rfl rfl rfl⟩
  rw [if_pos (Or.inl changed)]
  rfl

/-- A WITHDRAWN drive that stands alone is restored: its discovery starts and its PENDING records are enqueued, and
nothing else changes but DRIVE_CHANGE and the offer to its unit (R35, R71). -/
theorem restore_alone (alone : driveAlone s d) (claim : (s.drives.get d).claim = none)
    (withdrawn : (s.drives.get d).state = DriveState.withdrawn) (sound : tracksSound s.tracks = true)
    (base : s.port.settings.statusBase ≤ 0xFFFFC0) :
    ∃ us q ts, (s.startDiscovery d false).restoreTracks d = { s.attnDrive d with
        drives := s.drives.set d (s.drives.get d).recalled, units := us, req := q, tracks := ts
        queue := { s.queue with
          archive := s.queue.archive ++ (s.pendingTracks d).filter fun n => (s.track n).restoredClass = .archive
          sweep := s.queue.sweep ++ (s.pendingTracks d).filter fun n => (s.track n).restoredClass = .sweep } }
      ∧ statusOffered { s with drives := s.drives.set d (s.drives.get d).recalled } { s with units := us, req := q } d
      ∧ ∀ n, (assocFind n ts).getD TrackRec.free
          = if n ∈ s.pendingTracks d then (s.track n).restored else s.track n := by
  obtain ⟨us, q, e, offered⟩ := changed_alone (r := (s.drives.get d).recalled) (before := .withdrawn) alone claim rfl
    (by simp [DriveRec.recalled]) base
  obtain ⟨w, hw⟩ : ∃ w, w = { s.attnDrive d with
    drives := s.drives.set d (s.drives.get d).recalled, units := us, req := q } := ⟨_, rfl⟩
  have started : s.startDiscovery d false = w := by rw [startDiscovery_withdrawn withdrawn, e, hw]
  have tracks : w.tracks = s.tracks := by rw [hw]; rfl
  have record : w.track = s.track := by funext n; unfold State.track; rw [tracks]
  obtain ⟨ts, folded, found⟩ := foldl_enqueue (s := w) (w.pendingTracks d) (by rw [tracks]; exact sound)
    (pendingTracks_pairwise (by rw [tracks]; exact sound) d)
    fun n hn => ((mem_pendingTracks (by rw [tracks]; exact sound) d n).1 hn).1
  have pending : w.pendingTracks d = s.pendingTracks d := by unfold State.pendingTracks; rw [tracks]
  rw [pending] at folded found
  rw [record] at found
  refine ⟨us, q, ts, ?_, offered, found⟩
  unfold State.restoreTracks
  rw [started, pending, folded, record, hw]
  rfl

/-- The tracks of one class among those restored, in ascending order. -/
theorem restoredGroup (sound : tracksSound s.tracks = true) (d : Fin 4) (x : TrackClass) {p : Nat → Prop}
    (h : ∀ n, (s.track n).restoredClass = x ↔ p n) :
    ((s.pendingTracks d).filter fun n => (s.track n).restoredClass = x).Pairwise (· < ·)
      ∧ ∀ n, n ∈ (s.pendingTracks d).filter (fun n => (s.track n).restoredClass = x)
          ↔ pendingOn (s.track n) d ∧ p n := by
  refine ⟨(pendingTracks_pairwise sound d).sublist List.filter_sublist, fun n => ?_⟩
  rw [List.mem_filter, mem_pendingTracks sound, decide_eq_true_iff, h]

/-! ## CLEAR_DRIVE_FAULT -/

/-- A FAULTED drive that nobody claims, cleared: NOT_READY, its discovery started where its ready line is high (R36). -/
def DriveRec.cleared (r : DriveRec) : DriveRec :=
  { r with
    state := .notReady, faultKind := none, seekRetried := false
    discovery := if r.readyLine then some { skipRecalibration := true, stage := .awaitAnswer } else r.discovery }

/-- The reply of CLEAR_DRIVE_FAULT on a FAULTED drive, by its ready line. -/
theorem clearDriveFault_faulted (drive : b.toNat = d.val) (fit : (s.drives.get d).fitted = true)
    (faulted : (s.drives.get d).state = DriveState.faulted) : (s.requestWindow [b]).clearDriveFault [b]
      = if (s.drives.get d).readyLine then
          (((s.requestWindow [b]).modDrive d fun r => { r with seekRetried := false }).startDiscovery d true).reply
            .accepted
        else ((s.requestWindow [b]).clearFaultLow d).reply .ok := by
  unfold State.clearDriveFault
  rw [withDrive_window drive fit]
  exact if_neg (not_not.2 faulted)

/-- A claimed drive keeps its STATE while its discovery starts. -/
theorem startDiscovery_claimed (faulted : (s.drives.get d).state = DriveState.faulted)
    (claimed : (s.drives.get d).claim ≠ none) : s.startDiscovery d true = onlyDrive s d { s.drives.get d with
      discovery := some { skipRecalibration := true, stage := .awaitAnswer } } := by
  unfold State.startDiscovery
  rw [modDrive_onlyDrive (r := { s.drives.get d with
    discovery := some { skipRecalibration := true, stage := .awaitAnswer } }) _
    (by simp [DriveRec.startDiscovery, faulted, claimed])]
  exact if_pos (by rw [onlyDrive_self])

/-- A FAULTED drive that nobody claims is cleared, its ready line high or low. -/
theorem startDiscovery_unclaimed (faulted : (s.drives.get d).state = DriveState.faulted)
    (claim : (s.drives.get d).claim = none) (ready : (s.drives.get d).readyLine = true) :
    (s.modDrive d fun r => { r with seekRetried := false }).startDiscovery d true
      = (onlyDrive s d (s.drives.get d).cleared).reportIfChanged d .faulted := by
  obtain ⟨w, hw⟩ : ∃ w, w = onlyDrive s d { s.drives.get d with seekRetried := false } := ⟨_, rfl⟩
  have own : w.drives.get d = { s.drives.get d with seekRetried := false } := by rw [hw, onlyDrive_self]
  rw [modDrive_onlyDrive (r := { s.drives.get d with seekRetried := false }) _ rfl, ← hw]
  unfold State.startDiscovery
  rw [modDrive_onlyDrive (r := (s.drives.get d).cleared) _
    (by rw [own]; simp [DriveRec.startDiscovery, DriveRec.cleared, faulted, claim, ready]), own, hw, onlyDrive_onlyDrive]
  exact congrArg _ faulted

theorem clearFaultLow_unclaimed (faulted : (s.drives.get d).state = DriveState.faulted)
    (claim : (s.drives.get d).claim = none) (low : (s.drives.get d).readyLine = false) :
    s.clearFaultLow d = (onlyDrive s d (s.drives.get d).cleared).reportIfChanged d .faulted := by
  unfold State.clearFaultLow
  rw [if_neg (by simp [claim]), modDrive_onlyDrive (r := (s.drives.get d).cleared) _
    (by simp [DriveRec.cleared, low]), faulted]

/-- The status records lie where the settings' range allows it (R138). -/
theorem statusBase_of_sound (sound : s.Sound) : s.port.settings.statusBase ≤ 0xFFFFC0 := by
  have h := sound.settings
  simp only [Settings.sound, Bool.and_eq_true, decide_eq_true_eq] at h
  omega

/-- Settles O47: refused, the restoring of a WITHDRAWN drive, and the clearing of a fault by the claim and the ready
line. -/
theorem restoreAndFaultClearing : Obligations.RestoreAndFaultClearing := by
  intro tag b s link sound
  have restores : (0x07 : Byte) ≠ attentionKind := by decide
  have clears : (0x08 : Byte) ≠ attentionKind := by decide
  have window : onlyRead s (s.requestWindow [b]) := onlyRead_requestWindow s [b]
  refine ⟨fun unfitted => ⟨?_, ?_⟩, fun d drive fit => ⟨fun service => ?_, fun withdrawn alone claim clean => ?_,
    fun fine => ?_, fun faulted => ⟨fun claimed low => ?_, fun claimed ready => ?_, fun claim alone => ?_⟩⟩⟩
  · have reply : (s.requestWindow [b]).restoreDrive [b] = (s.requestWindow [b]).reply .range :=
      withDrive_unfitted unfitted _
    exact onlyAnswers_of_read restores window (exec_driveRequest link rfl reply)
  · have reply : (s.requestWindow [b]).clearDriveFault [b] = (s.requestWindow [b]).reply .range :=
      withDrive_unfitted unfitted _
    exact onlyAnswers_of_read clears window (exec_driveRequest link rfl reply)
  · have reply : (s.requestWindow [b]).restoreDrive [b] = (s.requestWindow [b]).reply .driveCondition := by
      unfold State.restoreDrive
      rw [withDrive_window drive fit]
      exact if_neg service
    exact onlyAnswers_of_read restores window (exec_driveRequest link rfl reply)
  · obtain ⟨w, hw⟩ : ∃ w, w = (s.requestWindow [b]).asking
      ((((s.requestWindow [b]).pendingTracks d).map WordOwner.trackRecord).map fun _ => StoreClaimant.link) :=
      ⟨_, rfl⟩
    have reply : (s.requestWindow [b]).restoreDrive [b] = ((w.startDiscovery d false).restoreTracks d).reply
        .accepted := by
      unfold State.restoreDrive
      rw [withDrive_window drive fit]
      refine (if_pos withdrawn).trans ?_
      rw [withRecords_clean (s := s.requestWindow [b]) clean, hw]
    obtain ⟨out, x, asks, same⟩ := hw ▸ onlyRead_asking window _
    have base := statusBase_of_sound sound
    have tracks : tracksSound s.tracks = true := sound.tracks
    obtain ⟨us, q, ts, e, offered, found⟩ := restore_alone (s := w) (d := d) (by rw [same]; exact alone)
      (by rw [same]; exact claim) (by rw [same]; exact withdrawn) (by rw [same]; exact tracks)
      (by rw [same]; exact base)
    have performed := exec_driveRequest (c := .restoreDrive tag [b]) link rfl reply
    rw [e] at performed
    rw [same] at performed offered found
    have pending := mem_pendingTracks tracks d
    refine ⟨_, performed, answered_place rfl _ _ _ _ restores, ?_, ?_, ?_, fun e he => ?_, rfl, fun n hn => ?_,
      fun n hn => ?_, rfl, ⟨_, rfl, restoredGroup tracks d .archive fun n => ?_⟩,
      ⟨_, rfl, restoredGroup tracks d .sweep fun n => ?_⟩, asks, rfl, rfl, rfl, fun _ => ⟨?_, rfl⟩⟩
    · exact congrArg DriveRec.state (Four.get_set_self _ _ _)
    · exact congrArg DriveRec.faultKind (Four.get_set_self _ _ _)
    · exact congrArg DriveRec.discovery (Four.get_set_self _ _ _)
    · exact Four.get_set_ne _ _ he
    · exact (found n).trans ((if_pos ((pending n).2 hn)).trans (TrackRec.restored_eq _))
    · exact (found n).trans (if_neg fun h => hn ((pending n).1 h))
    · exact restoredClass_archive_iff _
    · exact restoredClass_sweep_iff _
    · exact statusOffered_congr offered rfl rfl rfl rfl rfl rfl
  · have reply : (s.requestWindow [b]).clearDriveFault [b] = (s.requestWindow [b]).reply .driveCondition := by
      unfold State.clearDriveFault
      rw [withDrive_window drive fit]
      exact if_pos fine
    exact onlyAnswers_of_read clears window (exec_driveRequest link rfl reply)
  · have reply := clearDriveFault_faulted drive fit faulted
    rw [if_neg (by simp [low]), show (s.requestWindow [b]).clearFaultLow d = _ from
      if_pos (Option.isSome_iff_ne_none.2 claimed)] at reply
    exact ⟨_, exec_driveRequest link rfl reply, answered_place rfl _ _ _ _ clears, ⟨rfl, rfl, onlyAsks_refl _⟩, rfl⟩
  · have reply := clearDriveFault_faulted drive fit faulted
    obtain ⟨w, hw⟩ : ∃ w, w = onlyDrive (s.requestWindow [b]) d { s.drives.get d with seekRetried := false } :=
      ⟨_, rfl⟩
    have own : w.drives.get d = { s.drives.get d with seekRetried := false } := by rw [hw, onlyDrive_self]
    rw [if_pos ready, modDrive_onlyDrive (s := s.requestWindow [b]) (r := { s.drives.get d with seekRetried := false })
      _ rfl, ← hw, startDiscovery_claimed (by rw [own]; exact faulted) (by rw [own]; exact claimed), own, hw,
      onlyDrive_onlyDrive] at reply
    exact ⟨_, exec_driveRequest link rfl reply, answered_place rfl _ _ _ _ clears, ⟨rfl, rfl, onlyAsks_refl _⟩, rfl⟩
  · have reply : (s.requestWindow [b]).clearDriveFault [b]
        = ((onlyDrive (s.requestWindow [b]) d (s.drives.get d).cleared).reportIfChanged d .faulted).reply
            (if (s.drives.get d).readyLine then .accepted else .ok) := by
      rw [clearDriveFault_faulted drive fit faulted]
      cases line : (s.drives.get d).readyLine with
      | true =>
        exact congrArg (State.reply · .accepted)
          (startDiscovery_unclaimed (s := s.requestWindow [b]) faulted claim line)
      | false =>
        exact congrArg (State.reply · .ok) (clearFaultLow_unclaimed (s := s.requestWindow [b]) faulted claim line)
    have base := statusBase_of_sound sound
    obtain ⟨us, q, e, offered⟩ := changed_alone (s := s.requestWindow [b]) (r := (s.drives.get d).cleared)
      (before := .faulted) alone claim rfl (by simp [DriveRec.cleared]) base
    rw [e] at reply
    refine ⟨_, exec_driveRequest link rfl reply, answered_place rfl _ _ _ _ clears, rfl, rfl, rfl, rfl, rfl, rfl,
      fun _ => ⟨?_, rfl⟩⟩
    exact statusOffered_congr offered rfl rfl rfl rfl rfl rfl

end Sys2Proof.Machine
end

