-- ==== Sys2Proof/Proofs/RecordRequests.lean ====
section
/-! SUPPORT. DRIVE_STATE, TRACK_RECORD and LIST_TRACKS (R37, R57 to R59): the payloads byte by byte, and the track that
an operand names. -/

namespace Sys2Proof.Machine

open Sys2Proof.Stated

variable {s t : State} {c : Instr} {kind tag : Byte} {ls : List Nat} {g : RequestGroup} {p q : List Byte} {r : Result}

/-- A request whose owner replies from a state that was only read has its reply as its only effect. -/
theorem onlyAnswers_of_reply {owner : State → Reply} (other : kind ≠ attentionKind)
    (row : exec c s = .next (s.request kind tag ls g p owner State.finish)) (line : s.link.rstLine = false)
    (listed : p.length ∈ ls) (short : p.length ≤ 544) (group : g.refusal s.ctl.state = none)
    (reply : owner (s.requestWindow p) = { result := r, payload := q, after := t }) (read : onlyRead s t) :
    onlyAnswers c s kind tag r q :=
  onlyAnswers_of_read other read
    (request_performed (rest := State.finish) row { result := r, payload := q, after := t } reply line listed short group)

/-! ## DRIVE_STATE -/

/-- A yes or no field is the byte 1 or 0. -/
theorem byteOf_bitOf (b : Bool) : byteOf (bitOf b) = if b then 1 else 0 := by cases b <;> rfl

theorem claimByte_eq (x : Option Holder) : claimByte x = match x with
    | some (.ctx c) => BitVec.ofNat 8 c.val
    | some .drs => 4
    | none => 0xFF := by
  rcases x with _ | ⟨_ | _⟩ <;> rfl

theorem geometryBytes_eq (x : Option Geometry) : geometryBytes x = match x with
    | none => [0, 0, 0, 0, 0, 0, 0, 0, 0, 0, 0]
    | some g => [1] ++ be2 g.cylinders ++ [BitVec.ofNat 8 g.heads, BitVec.ofNat 8 g.sectors]
        ++ be2 g.sectorBytes ++ [BitVec.ofNat 8 g.interleave, BitVec.ofNat 8 g.period]
        ++ be2 g.checkSeed.toNat := by
  cases x <;> rfl

theorem driveStatePayload_eq (s : State) (d : Fin 4) :
    s.driveStatePayload d = driveBytes (s.drives.get d) d (s.geometry.get d) := by
  unfold State.driveStatePayload driveBytes
  simp only [byteOf_bitOf, claimByte_eq, geometryBytes_eq]
  rfl

/-! ## TRACK_RECORD -/

/-- A bit's weight in a flag byte. -/
theorem mul_bitOf (k : Nat) (b : Bool) : k * bitOf b = if b then k else 0 := by cases b <;> simp [bitOf]

theorem sectorEntry_eq (x : SectorRec) (n : Nat) : sectorEntry x n = trackEntry x n := by
  unfold sectorEntry trackEntry
  rw [mul_bitOf]
  rfl

theorem trackRecordPayload_eq (s : State) (n : Nat) : s.trackRecordPayload n = trackHeader n (s.track n)
    ++ ((List.range (s.track n).sectors.length).map fun k =>
          trackEntry ((s.track n).sectors.getD k SectorRec.fresh) (s.candidateCount n k)).flatten := by
  unfold State.trackRecordPayload trackHeader
  simp only [mul_bitOf, sectorEntry_eq]
  rfl

/-- The track that an operand names is the one that the operand comes to (R57). -/
theorem trackOperand_named (sound : s.Sound) {n : Nat} (named : names s p n) : s.trackOperand p = .slot n := by
  rcases named with ⟨form, rfl, below, live⟩ | ⟨form, d, drive, inside, only⟩
  · have form : at1 p 0 = 1 := form
    unfold State.trackOperand State.operandSlot
    rw [if_neg (by omega), if_pos form]
    exact (if_neg (Nat.not_le.2 below)).trans (if_neg live)
  · have form : at1 p 0 = 0 := form
    have found : s.findTrack ⟨d, at2 p 2, at1 p 4⟩ = some n := find_only sound only
    unfold State.trackOperand State.operandAddress
    rw [if_pos form, show at1 p 1 = d.val from drive, fin4_val]
    dsimp only
    rw [found]
    refine if_neg ?_
    cases geometry : s.geometry.get d with
    | none => simp
    | some g =>
      have within : at2 p 2 < g.cylinders ∧ at1 p 4 < g.heads := inside g geometry
      simpa [Geometry.contains] using within

/-- A request on a track that is named goes on with it, in a store without bit errors (R57). -/
theorem withTrack_named (sound : s.Sound) (clean : s.store.flips = []) {n : Nat} (named : names s p n)
    (k : State → Nat → Reply) :
    ∃ t, onlyRead s t ∧ (s.requestWindow p).withTrack p k = k t n := by
  refine ⟨_, onlyRead_asking (onlyRead_requestWindow s p) (((s.requestWindow p).operandOwners p).map fun _ => .link), ?_⟩
  unfold State.withTrack
  rw [withRecords_clean (s := s.requestWindow p) clean]
  obtain ⟨a, b, c, e⟩ := asking_store (s := s.requestWindow p)
    (((s.requestWindow p).operandOwners p).map fun _ => .link)
  have operand : ((s.requestWindow p).asking (((s.requestWindow p).operandOwners p).map fun _ => .link)).trackOperand p
      = .slot n := by
    rw [e]
    exact trackOperand_named sound named
  rw [operand]

/-! ## LIST_TRACKS -/

theorem continuation_eq (s : State) (found : List Nat) : s.continuation found
    = if found.length = 32 ∧ found.getLastD 0 + 1 < s.usable then found.getLastD 0 + 1 else 0xFFFF := by
  simp [State.continuation]

/-- LIST_TRACKS from a slot that is usable, with a filter that asks for something. -/
theorem listTracks_reply (clean : s.store.flips = []) {start filter : Nat} (start_ : at2 p 0 = start)
    (filter_ : at1 p 2 % 64 = filter) (below : start < s.usable) (asks : filter ≠ 0) :
    s.listTracks p = (s.asking ((s.walked start filter).map fun _ => .link)).replyWith .ok
      (be2 (s.continuation (s.listed start filter)) ++ [byteOf (s.listed start filter).length]
        ++ ((s.listed start filter).map fun n => listedBytes n (s.track n)).flatten) := by
  unfold State.listTracks
  rw [start_, filter_]
  dsimp only
  rw [touchTracks_clean clean, if_neg (by simp [below, asks]), if_neg (by simp [recordBad_clean clean])]
  obtain ⟨a, b, c, e⟩ := asking_store (s := s) ((s.walked start filter).map fun _ => .link)
  rw [e]
  rfl

/-- Settles O36: each payload is the one that the statement spells, and each request only reads. -/
theorem recordsReported : Obligations.RecordsReported := by
  intro tag s line clean
  refine ⟨fun b failed => ⟨fun high => ?_, fun d drive => ?_⟩, fun ready sound =>
    ⟨fun p n length named => ?_, fun hi lo f => ⟨fun refused => ?_, fun below asks => ?_⟩⟩⟩
  · have reply : (s.requestWindow [b]).reportDriveState [b] = (s.requestWindow [b]).reply .range := by
      unfold State.reportDriveState
      rw [show fin4? (at1 [b] 0) = none from fin4_none high]
    exact onlyAnswers_of_reply (by decide) rfl line (by simp) (by simp) (notStoreFailed_performs failed) reply
      (onlyRead_requestWindow s [b])
  · obtain ⟨w, hw⟩ : ∃ w, w = (s.requestWindow [b]).asking
      ((if s.formatted then [WordOwner.geometry d] else []).map fun _ => StoreClaimant.link) := ⟨_, rfl⟩
    have read : onlyRead s w := hw ▸ onlyRead_asking (onlyRead_requestWindow s [b]) _
    have reply : (s.requestWindow [b]).reportDriveState [b] = w.replyWith .ok (w.driveStatePayload d) := by
      unfold State.reportDriveState
      rw [show fin4? (at1 [b] 0) = some d by rw [show at1 [b] 0 = d.val from drive, fin4_val]]
      dsimp only
      rw [withRecords_clean (s := s.requestWindow [b]) clean, hw]
      rfl
    rw [driveStatePayload_eq] at reply
    obtain ⟨out, x, asks, same⟩ := id read
    rw [show driveBytes (w.drives.get d) d (w.geometry.get d) = driveBytes (s.drives.get d) d (s.geometry.get d) by
      rw [same]] at reply
    exact onlyAnswers_of_reply (by decide) rfl line (by simp) (by simp) (notStoreFailed_performs failed) reply read
  · obtain ⟨w, read, reply⟩ := withTrack_named sound clean named
      fun s n => s.replyWith .ok (s.trackRecordPayload n)
    have reply : (s.requestWindow p).reportTrack p = _ := reply
    rw [trackRecordPayload_eq] at reply
    obtain ⟨out, x, asks, rfl⟩ := id read
    exact onlyAnswers_of_reply (by decide) rfl line (by simp [length]) (by omega) (ready_performs _ ready) reply read
  · have reply : (s.requestWindow [hi, lo, f]).listTracks [hi, lo, f]
        = (s.requestWindow [hi, lo, f]).reply .range := by
      unfold State.listTracks
      refine if_pos ?_
      rw [Bool.or_eq_true, decide_eq_true_iff, decide_eq_true_iff]
      exact refused
    exact onlyAnswers_of_reply (by decide) rfl line (by simp) (by simp) (ready_performs _ ready) reply
      (onlyRead_requestWindow s _)
  · have reply := listTracks_reply (s := s.requestWindow [hi, lo, f]) clean (p := [hi, lo, f]) rfl rfl below asks
    rw [continuation_eq] at reply
    exact onlyAnswers_of_reply (by decide) rfl line (by simp) (by simp) (ready_performs _ ready) reply
      (onlyRead_asking (onlyRead_requestWindow s _) _)

end Sys2Proof.Machine
end

