-- ==== Sys2Proof/Proofs/PowerOn.lean ====
section
/-! SUPPORT. The power-on values of every block (R173), for any straps and any levels of the input pins. -/

namespace Sys2Proof.Machine

open Sys2Proof.Stated

variable (straps : Straps) (ready held : Four Bool) (clear rst : Bool) (q : List Instr)

/-- Each drive's record at power-on. -/
theorem powerOn_drive (d : Fin 4) : (State.powerOn straps ready held clear rst q).drives.get d
    = DriveRec.powerOn (decide (d.val < straps.drives)) (ready.get d) (held.get d) := by
  simp [State.powerOn]

theorem powerOn_recovery : recoveryPoweredOn straps (State.powerOn straps ready held clear rst q) := by
  refine ⟨rfl, fun d => ?_, fun d => ?_, rfl, fun e => ?_, rfl, rfl, fun c => ?_, rfl, rfl, fun c => ?_, rfl, rfl, rfl⟩
  · rw [powerOn_drive]
    simp [drivePoweredOn, DriveRec.powerOn]
  · exact Four.get_all _ _
  · exact Four.get_all _ _
  · rw [show (State.powerOn straps ready held clear rst q).ctxs.get c = CtxRec.free from Four.get_all _ _]
    exact ⟨rfl, rfl, rfl, rfl⟩
  · exact Four.get_all _ _

theorem powerOn_ports : portsPoweredOn (State.powerOn straps ready held clear rst q) := by
  have units : ∀ u, (State.powerOn straps ready held clear rst q).units.get u = UnitRec.reset := Four.get_all _
  refine ⟨rfl, rfl, rfl, rfl, rfl, rfl, rfl, rfl, rfl, rfl, rfl, rfl, rfl, rfl, rfl, rfl, rfl, rfl, rfl, rfl, rfl,
    fun u => ?_, rfl, rfl, rfl, rfl, rfl, rfl⟩
  rw [units]
  exact ⟨rfl, rfl, rfl, rfl⟩

/-- Settles O3: reset is a power-on with every pin released and no command waiting. -/
theorem resetIsPoweredOn : Obligations.ResetIsPoweredOn :=
  ⟨powerOn_recovery _ _ _ _ _ _, powerOn_ports _ _ _ _ _ _, rfl, powerOn_sound _ _ _ _ _ _⟩

/-- Settles O5: POWER_ON is the power-on state with the straps sampled and the pins' levels kept. -/
theorem powerOnResetsEveryBlock : Obligations.PowerOnResetsEveryBlock := by
  intro straps s
  refine ⟨_, rfl, powerOn_recovery _ _ _ _ _ _, powerOn_ports _ _ _ _ _ _, fun d => ?_, rfl, rfl⟩
  rw [powerOn_drive]
  simp [DriveRec.powerOn]

end Sys2Proof.Machine
end

