-- ==== Sys2Proof/Proofs/HoldExit.lean ====
section
/-! SUPPORT. HOLD_EXIT (R176): the sweeps resumed as DRAINING ends, and the discoveries begun as HOLD ends. -/

namespace Sys2Proof.Machine

open Sys2Proof.Stated

variable {s t : State} {d : Fin 4} {tag : Byte}

/-! ## DRAINING -/

/-- The controller becomes READY in a store without bit errors: the sweeps' records are asked for, and the STALLED
sweeps run again (R76, R173). -/
theorem becomeReady_clean (clean : s.store.flips = []) : ∃ x, onlyAsks s.store x ∧ s.becomeReady = { s with
    ctl := { s.ctl with state := .ready, phase := none }
    port := { s.port with stateChange := true }
    sweeps := s.sweeps.map sweepResumed, store := x } := by
  obtain ⟨w, hw⟩ : ∃ w, w = { s with ctl := { s.ctl with state := .ready, phase := none } }.stateChange := ⟨_, rfl⟩
  obtain ⟨a, b, c, e⟩ := asking_store (s := w)
    ((fourNumbers.filter fun d => (w.sweeps.get d).state = .stalled).map fun _ => .table)
  have resumed : (fun x : SweepRec => { x with state := if x.state = .stalled then .running else x.state })
      = sweepResumed := by
    funext x
    rcases x with ⟨state, _⟩
    cases state <;> rfl
  refine ⟨_, ⟨a, b, c, rfl⟩, ?_⟩
  unfold State.becomeReady State.resumeSweeps
  rw [← hw]
  dsimp only
  rw [touchSweeps_clean (by rw [hw]; exact clean), e, resumed, hw]
  rfl

/-! ## HOLD -/

/-- The discovery of a drive in service begins (R18, R176). -/
def State.resumeDrive (s : State) (d : Fin 4) : State :=
  if (s.drives.get d).inService then s.startDiscovery d false else s

theorem discoverAll_inService (s : State) : s.discoverAll DriveRec.inService = fourNumbers.foldl State.resumeDrive s :=
  rfl

theorem resumeDrive_fitted (s : State) (d e : Fin 4) :
    ((s.resumeDrive d).drives.get e).fitted = (s.drives.get e).fitted := by
  unfold State.resumeDrive
  split
  · exact ((Kept.refl Keep.least s).startDiscovery rfl (by simp [Keep.least]) false).fitted e
  · rfl

/-- What the start of a discovery shows of the drives. -/
theorem startDiscovery_shown (s : State) (d e : Fin 4) (skip : Bool) : ((s.startDiscovery d skip).drives.get e).shown
    = (if e = d then (s.drives.get d).startDiscovery skip else s.drives.get e).shown := by
  have kept : Kept Keep.shown (s.modDrive d fun r => r.startDiscovery skip) (s.startDiscovery d skip) :=
    (Kept.refl Keep.shown _).reportIfChanged Keep.shown_units _
  rw [kept.drives rfl e, modDrive_drives, Four.get_modify]

/-- A drive that is not in service shows what it showed. -/
theorem resumeDrive_unserved (s : State) (d : Fin 4) {e : Fin 4} (out : (s.drives.get e).inService = false) :
    ((s.resumeDrive d).drives.get e).shown = (s.drives.get e).shown := by
  unfold State.resumeDrive
  split
  · next service =>
    have other : e ≠ d := by rintro rfl; rw [out] at service; cases service
    rw [startDiscovery_shown, if_neg other]
  · rfl

/-- A drive's discovery stands at its first stage, recalibration included. -/
def DriveRec.begun (r : DriveRec) : Prop := r.discovery = some { skipRecalibration := false, stage := .awaitAnswer }

/-- A drive in service stays so; its discovery has begun if it is the one resumed, or had begun before. -/
theorem resumeDrive_served (s : State) (d : Fin 4) {e : Fin 4} (service : (s.drives.get e).inService = true) :
    ((s.resumeDrive d).drives.get e).inService = true
      ∧ (e = d ∨ (s.drives.get e).begun → ((s.resumeDrive d).drives.get e).begun) := by
  have fitted := resumeDrive_fitted s d e
  simp only [DriveRec.inService, Bool.and_eq_true, decide_eq_true_eq, DriveRec.begun] at service ⊢
  rw [fitted]
  unfold State.resumeDrive
  by_cases same : e = d
  · subst same
    rw [if_pos (by simpa [DriveRec.inService] using service)]
    have shown := startDiscovery_shown s e e false
    rw [if_pos rfl] at shown
    rw [show ((s.startDiscovery e false).drives.get e).state = ((s.drives.get e).startDiscovery false).state from
        congrArg Prod.fst shown,
      show ((s.startDiscovery e false).drives.get e).discovery = ((s.drives.get e).startDiscovery false).discovery from
        congrArg (·.2.2.1) shown]
    refine ⟨⟨service.1, ?_⟩, fun _ => rfl⟩
    unfold DriveRec.startDiscovery
    dsimp only
    split
    · simp
    · exact service.2
  · split
    · have shown := startDiscovery_shown s d e false
      rw [if_neg same] at shown
      rw [show ((s.startDiscovery d false).drives.get e).state = (s.drives.get e).state from congrArg Prod.fst shown,
        show ((s.startDiscovery d false).drives.get e).discovery = (s.drives.get e).discovery from
          congrArg (·.2.2.1) shown]
      exact ⟨service, fun h => h.resolve_left same⟩
    · exact ⟨service, fun h => h.resolve_left same⟩

/-- Once some drives have been resumed, the discoveries of those in service among them have begun. -/
theorem foldl_resumeDrive_begun (l : List (Fin 4)) {s : State} {d : Fin 4}
    (service : (s.drives.get d).inService = true) (begins : d ∈ l ∨ (s.drives.get d).begun) :
    ((l.foldl State.resumeDrive s).drives.get d).begun := by
  induction l generalizing s with
  | nil => exact begins.resolve_left List.not_mem_nil
  | cons k rest ih =>
    obtain ⟨still, begun⟩ := resumeDrive_served s k service
    refine ih still ?_
    rcases begins with listed | before
    · rcases List.mem_cons.1 listed with same | listed
      · exact .inr (begun (.inl same))
      · exact .inl listed
    · exact .inr (begun (.inr before))

theorem foldl_resumeDrive_unserved (l : List (Fin 4)) {s : State} {d : Fin 4}
    (out : (s.drives.get d).inService = false) :
    ((l.foldl State.resumeDrive s).drives.get d).shown = (s.drives.get d).shown := by
  induction l generalizing s with
  | nil => rfl
  | cons k rest ih =>
    have shown := resumeDrive_unserved s k out
    refine (ih ?_).trans shown
    unfold DriveRec.inService at out ⊢
    rw [resumeDrive_fitted, show ((s.resumeDrive k).drives.get d).state = (s.drives.get d).state from
      congrArg Prod.fst shown, out]

/-- With no FAULTED drive the resuming reports nothing: it changes the drives' records only. -/
theorem foldl_resumeDrive_unfaulted (l : List (Fin 4)) {s : State}
    (fine : ∀ d, (s.drives.get d).state ≠ DriveState.faulted) :
    ∃ ds, l.foldl State.resumeDrive s = { s with drives := ds } := by
  induction l generalizing s with
  | nil => exact ⟨_, rfl⟩
  | cons k rest ih =>
    obtain ⟨ds, first, still⟩ : ∃ ds, s.resumeDrive k = { s with drives := ds }
        ∧ ∀ d, (ds.get d).state = (s.drives.get d).state := by
      unfold State.resumeDrive
      split
      · next service =>
        have stays : (s.drives.get k).state ≠ DriveState.withdrawn := by
          simp only [DriveRec.inService, Bool.and_eq_true, decide_eq_true_eq] at service
          exact service.2
        refine ⟨_, startDiscovery_plain (fine k) stays, fun d => ?_⟩
        rw [Four.get_modify]
        split
        · next same => subst same; rfl
        · rfl
      · exact ⟨_, rfl, fun _ => rfl⟩
    obtain ⟨ds', e⟩ := ih (s := { s with drives := ds }) fun d => by rw [still]; exact fine d
    exact ⟨ds', by rw [List.foldl_cons, first, e]⟩

/-! ## HOLD_EXIT -/

/-- HOLD_EXIT is performed with the reply that its rule gives on the window's state. -/
theorem exec_holdExit {r : Result} (line : s.link.rstLine = false) (works : s.ctl.state ≠ .storeFailed)
    (reply : (s.requestWindow []).holdExit = t.reply r) :
    exec (.holdExit tag []) s = .next (t.place 0x18 tag r []).finish :=
  request_performed (rest := State.finish) rfl { result := r, payload := [], after := t } reply line (by simp) (by simp)
    (notStoreFailed_performs works)

/-- Settles O13: by the controller STATE. -/
theorem holdExitByState : Obligations.HoldExitByState := by
  intro tag s line
  have other : (0x18 : Byte) ≠ attentionKind := by decide
  refine ⟨fun draining clean => ?_, fun hold => ?_, fun rest => ?_⟩
  · obtain ⟨x, asks, e⟩ := becomeReady_clean (s := s.requestWindow []) clean
    have reply : (s.requestWindow []).holdExit = (s.requestWindow []).becomeReady.reply .ok := by
      unfold State.holdExit
      rw [show (s.requestWindow []).ctl.state = .draining from draining]
    rw [e] at reply
    exact ⟨_, exec_holdExit line (by simp [draining]) reply, answered_place rfl _ _ _ _ other, ⟨rfl, rfl, asks⟩, rfl⟩
  · obtain ⟨w, hw⟩ : ∃ w, w = { s.requestWindow [] with
      ctl := { s.ctl with state := .resuming }, store := s.store.leaveSelfRefresh } := ⟨_, rfl⟩
    have drives : w.drives = s.drives := by rw [hw]; rfl
    have reply : (s.requestWindow []).holdExit = (fourNumbers.foldl State.resumeDrive w).reply .accepted := by
      unfold State.holdExit
      rw [show (s.requestWindow []).ctl.state = .hold from hold, hw]
      rfl
    have kept : Kept Keep.least w (fourNumbers.foldl State.resumeDrive w) :=
      (Kept.refl Keep.least w).discoverAll rfl rfl DriveRec.inService
    refine ⟨_, exec_holdExit line (by simp [hold]) reply, answered_place ?_ _ _ _ _ other, ?_, fun d fit service => ?_,
      fun d out => ?_, ?_, ?_, ?_, fun fine => ?_⟩
    · rw [kept.slot, hw]; rfl
    · exact kept.ctl.trans (by rw [hw])
    · exact foldl_resumeDrive_begun fourNumbers (by rw [drives]; simp [DriveRec.inService, fit, service])
        (.inl (mem_fourNumbers d))
    · have shown := foldl_resumeDrive_unserved fourNumbers (s := w) (d := d)
        (by rw [drives]; rcases out with h | h <;> simp [DriveRec.inService, h])
      rw [drives] at shown
      exact ⟨congrArg (·.2.2.1) shown, congrArg Prod.fst shown⟩
    · exact kept.ladder.trans (by rw [hw]; rfl)
    · exact kept.limits.trans (by rw [hw]; rfl)
    · exact kept.settings.trans (by rw [hw]; rfl)
    · obtain ⟨ds, e⟩ := foldl_resumeDrive_unfaulted fourNumbers (s := w) fun d => by rw [drives]; exact fine d
      rw [e, hw]
      rfl
  · have reply : (s.requestWindow []).holdExit = (s.requestWindow []).reply .ok := by
      unfold State.holdExit
      rcases rest with h | h | h <;> rw [show (s.requestWindow []).ctl.state = _ from h]
    refine ⟨_, exec_holdExit line ?_ reply, answered_place rfl _ _ _ _ other, ⟨rfl, rfl, onlyAsks_refl _⟩, rfl⟩
    rcases rest with h | h | h <;> simp [h]

end Sys2Proof.Machine
end

