-- ==== Sys2Proof/Proofs/ControllerReset.lean ====
section
/-! SUPPORT. RESET_CONTROLLER (R174): the tracks of the bound contexts return to the queue, and the blocks take their
values. -/

namespace Sys2Proof.Machine

open Sys2Proof.Stated

variable {s t : State} {c : Fin 4} {n : Nat} {tag : Byte}

theorem onlyAsks_trans {x y z : StoreRec} (h : onlyAsks x y) (g : onlyAsks y z) : onlyAsks x z := by
  obtain ⟨_, _, _, rfl⟩ := h
  obtain ⟨_, _, _, rfl⟩ := g
  exact ⟨_, _, _, rfl⟩

/-! ## The bound tracks -/

/-- The record of a bound track once it is QUEUED again (R83, R174). -/
def TrackRec.requeued (r : TrackRec) : TrackRec :=
  { r with state := .queued, cls := some (r.cls.getD .sweep), context := none }

theorem mem_order_joinTail (q : RecoveryQueue) (cls : TrackClass) (n k : Nat) :
    k ∈ (q.joinTail cls n).order ↔ k = n ∨ k ∈ q.order := by
  cases cls <;> simp [RecoveryQueue.joinTail, RecoveryQueue.order] <;> tauto

/-- Some contexts' tracks have been queued again: what that changes, the contexts given by the test. -/
structure Requeued (p : Fin 4 → Prop) (s t : State) : Prop where
  rest : ∃ ts q x, onlyAsks s.store x ∧ t = { s with tracks := ts, queue := q, store := x }
  sound : tracksSound t.tracks = true
  bound : ∀ c n, p c → (s.ctxs.get c).track = some n → t.track n = (s.track n).requeued ∧ n ∈ t.queue.order
  unbound : ∀ n, (∀ c, p c → (s.ctxs.get c).track ≠ some n) → t.track n = s.track n
  queued : ∀ n ∈ s.queue.order, n ∈ t.queue.order

theorem Requeued.ctxs {p : Fin 4 → Prop} (h : Requeued p s t) : t.ctxs = s.ctxs := by
  obtain ⟨_, _, _, _, rfl⟩ := h.rest
  rfl

theorem Requeued.clean {p : Fin 4 → Prop} (h : Requeued p s t) (clean : s.store.flips = []) : t.store.flips = [] := by
  obtain ⟨_, _, _, ⟨_, _, _, rfl⟩, rfl⟩ := h.rest
  exact clean

/-- A track's record after the requeueing is the one it was, or that one QUEUED again. -/
theorem Requeued.track {p : Fin 4 → Prop} (h : Requeued p s t) (n : Nat) :
    t.track n = s.track n ∨ t.track n = (s.track n).requeued := by
  by_cases bound : ∃ c, p c ∧ (s.ctxs.get c).track = some n
  · obtain ⟨c, hc, e⟩ := bound
    exact .inr (h.bound c n hc e).1
  · exact .inl (h.unbound n fun c hc e => bound ⟨c, hc, e⟩)

theorem requeueContext_requeued (sound : tracksSound s.tracks = true) (clean : s.store.flips = []) (c : Fin 4) :
    Requeued (· = c) s (s.requeueContext c) := by
  cases e : (s.ctxs.get c).track with
  | none =>
    have same : s.requeueContext c = s := by simp [State.requeueContext, e]
    rw [same]
    refine ⟨⟨_, _, _, onlyAsks_refl _, rfl⟩, sound, ?_, fun _ _ => rfl, fun _ h => h⟩
    rintro _ n rfl at_
    rw [e] at at_
    cases at_
  | some k =>
    obtain ⟨w, hw⟩ : ∃ w, w = s.askStore .table 1 := ⟨_, rfl⟩
    obtain ⟨v, hv⟩ : ∃ v, v = w.modTrack k fun r => { r with context := none } := ⟨_, rfl⟩
    have tracks : tracksSound w.tracks = true := by rw [hw]; exact sound
    have freed : ∀ n, v.track n = if n = k then { s.track k with context := none } else s.track n := fun n => by
      rw [hv]
      refine (track_mod_same tracks k n (fun r => { r with context := none }) (fun _ => rfl) rfl).trans ?_
      rw [hw]
      rfl
    have next : s.requeueContext c = v.queueTail k ((s.track k).cls.getD .sweep) := by
      unfold State.requeueContext
      rw [e]
      dsimp only
      rw [touchTrack_clean clean, ← hw, if_pos (by rw [hw]; exact e), ← hv]
      rw [show w.track k = s.track k by rw [hw]; rfl]
    have vsound : tracksSound v.tracks = true := by rw [hv]; exact tracksSound_mod tracks k _
    have record : ∀ n, (s.requeueContext c).track n = if n = k then (s.track k).requeued else s.track n := fun n => by
      rw [next, track_queueTail vsound, freed, freed, if_pos rfl]
      split <;> rfl
    have order : ∀ n, n ∈ (s.requeueContext c).queue.order ↔ n = k ∨ n ∈ s.queue.order := fun n => by
      rw [next]
      refine (mem_order_joinTail v.queue _ k n).trans ?_
      rw [hv, hw]
      rfl
    refine ⟨?_, ?_, ?_, fun n free => ?_, fun n hn => (order n).2 (.inr hn)⟩
    · rw [next, hv, hw]
      exact ⟨_, _, _, askStore_onlyAsks s .table 1, rfl⟩
    · rw [next]
      exact tracksSound_queueTail vsound k _
    · rintro _ n rfl at_
      obtain rfl : k = n := Option.some.inj (e.symm.trans at_)
      exact ⟨(record k).trans (if_pos rfl), (order k).2 (.inl rfl)⟩
    · rw [record, if_neg (fun same => free c rfl (by rw [e, same]))]

/-- A track QUEUED again twice is as it was QUEUED again once. -/
theorem TrackRec.requeued_requeued (r : TrackRec) : r.requeued.requeued = r.requeued := rfl

theorem foldl_requeued (l : List (Fin 4)) {s : State} (sound : tracksSound s.tracks = true)
    (clean : s.store.flips = []) : Requeued (· ∈ l) s (l.foldl State.requeueContext s) := by
  induction l generalizing s with
  | nil => exact ⟨⟨_, _, _, onlyAsks_refl _, rfl⟩, sound, fun _ _ h => absurd h List.not_mem_nil, fun _ _ => rfl,
      fun _ h => h⟩
  | cons k rest ih =>
    have first := requeueContext_requeued sound clean k
    have later := ih first.sound (first.clean clean)
    rw [List.foldl_cons]
    refine ⟨?_, later.sound, fun c n listed at_ => ?_, fun n free => ?_,
      fun n hn => later.queued n (first.queued n hn)⟩
    · obtain ⟨_, _, _, asks, e⟩ := first.rest
      obtain ⟨ts, q, x, asks', e'⟩ := later.rest
      refine ⟨ts, q, x, onlyAsks_trans asks (by rw [e] at asks'; exact asks'), ?_⟩
      exact e'.trans (congrArg (fun v : State => { v with tracks := ts, queue := q, store := x }) e)
    · have at' : ((s.requeueContext k).ctxs.get c).track = some n := by rw [first.ctxs]; exact at_
      rcases List.mem_cons.1 listed with rfl | listed
      · obtain ⟨record, order⟩ := first.bound c n rfl at_
        refine ⟨?_, later.queued n order⟩
        rcases later.track n with same | again
        · exact same.trans record
        · rw [again, record, TrackRec.requeued_requeued]
      · obtain ⟨record, order⟩ := later.bound c n listed at'
        refine ⟨?_, order⟩
        rcases first.track n with same | again
        · rw [record, same]
        · rw [record, again, TrackRec.requeued_requeued]
    · rw [later.unbound n fun c hc e => free c (List.mem_cons_of_mem _ hc) (by rw [← first.ctxs]; exact e)]
      exact first.unbound n fun c hc e => free c (by rw [hc]; exact List.mem_cons_self) e

/-! ## The blocks -/

/-- What RESET_CONTROLLER does, from the state after the tracks have been queued again (R174). -/
theorem resetNow_clean (sound : tracksSound s.tracks = true) (clean : s.store.flips = []) :
    ∃ t, Requeued (fun _ => True) s t ∧ s.resetNow = t.resetBlocks := by
  have requeued : Requeued (· ∈ fourNumbers) s s.requeueContexts := foldl_requeued fourNumbers sound clean
  obtain ⟨w, hw⟩ : ∃ w, w = s.requeueContexts.touchSweeps fun _ => true := ⟨_, rfl⟩
  obtain ⟨a, b, c, e⟩ := asking_store (s := s.requeueContexts)
    ((fourNumbers.filter fun _ => true).map fun _ => StoreClaimant.table)
  have same : w = { s.requeueContexts with
      store := { s.requeueContexts.store with asks := a, selfRefresh := b, timerRunning := c } } := by
    rw [hw, touchSweeps_clean (requeued.clean clean), e]
  refine ⟨w, ⟨?_, ?_, fun c n _ at_ => ?_, fun n free => ?_, fun n hn => ?_⟩, by rw [hw]; rfl⟩
  · obtain ⟨ts, q, _, asks, e⟩ := requeued.rest
    exact ⟨ts, q, _, onlyAsks_trans asks ⟨a, b, c, rfl⟩, by rw [same, e]⟩
  · rw [same]; exact requeued.sound
  · rw [same]; exact requeued.bound c n (mem_fourNumbers c) at_
  · rw [same]; exact requeued.unbound n fun c _ => free c trivial
  · rw [same]; exact requeued.queued n hn

/-- The requester's STATE after RESET_CONTROLLER (R140): a cycle that has begun comes to its end. -/
theorem Requester.cleared_state (q : Requester) :
    q.cleared.state = if q.state = .inCycle ∨ q.state = .finishing then .finishing else .free := by
  unfold Requester.cleared
  cases q.state <;> rfl

theorem Requester.cleared_waiting (q : Requester) : q.cleared.lastServed = .setup ∧ q.cleared.setupWaiting = none
    ∧ ∀ u, q.cleared.unitWaiting.get u = none := by
  unfold Requester.cleared
  cases q.state <;> exact ⟨rfl, rfl, Four.get_all _⟩

/-- Nothing is left to react to after RESET_CONTROLLER. -/
theorem still_of_resetBlocks (s : State) {m : State} (rest : m = { s.resetBlocks with link := m.link }) : m.Still := by
  have ctx : ∀ c, m.ctxs.get c = CtxRec.free := fun c => by rw [rest]; exact Four.get_all _ c
  have unit : ∀ u, m.units.get u = UnitRec.reset := fun u => by rw [rest]; exact Four.get_all _ u
  refine ⟨fun c => ?_, fun c => ?_, fun u => ?_, by rw [rest]; rfl, by rw [rest]; rfl, fun ready => ?_⟩
  · unfold State.settlesNow
    rw [ctx]
    rfl
  · rw [ctx]; nofun
  · rw [unit]; nofun
  · rw [rest] at ready
    cases ready

/-- A drive's record after RESET_CONTROLLER (R17, R174). -/
theorem controllerReset_drive (ds : Four DriveRec) (d : Fin 4) : let r := (ds.map DriveRec.controllerReset).get d
    r.state = (ds.get d).state ∧ r.faultKind = none ∧ r.readyLine = (ds.get d).readyLine
      ∧ r.faultHeld = (ds.get d).faultHeld ∧ r.observedSectors = (ds.get d).observedSectors ∧ r.discovery = none
      ∧ r.positioning = none ∧ r.claim = none ∧ r.displacedContext = none ∧ r.drsWaiting = false
      ∧ r.seekRetried = false := by
  dsimp only
  rw [Four.get_map]
  have pins := (ds.get d).abandonPositioning_pins
  have shown := (ds.get d).abandonPositioning_shown
  obtain ⟨_, positioning, state⟩ := abandonPositioning_spec (ds.get d)
  exact ⟨state, rfl, congrArg (·.2.1) pins, congrArg (·.2.2) pins, congrArg (·.2.2.2) shown, rfl, positioning, rfl, rfl,
    rfl, rfl⟩

/-- RESET_CONTROLLER is performed with the reply that its rule gives on the window's state. -/
theorem exec_resetController {r : Result} (line : s.link.rstLine = false) (works : s.ctl.state ≠ .storeFailed)
    (reply : (s.requestWindow []).resetController = t.reply r) :
    exec (.resetController tag []) s = .next (t.place 0x19 tag r []).finish :=
  request_performed (rest := State.finish) rfl { result := r, payload := [], after := t } reply line (by simp) (by simp)
    (notStoreFailed_performs works)

/-- Settles O14: STARTING in the first two phases, and else the tracks QUEUED again and the blocks' values. -/
theorem resetControllerRestartsFromRescan : Obligations.ResetControllerRestartsFromRescan := by
  intro tag s sound clean line works
  have other : (0x19 : Byte) ≠ attentionKind := by decide
  refine ⟨fun early => ?_, fun check format => ?_⟩
  · have reply : (s.requestWindow []).resetController = (s.requestWindow []).reply .starting := by
      refine if_pos ?_
      rw [Bool.or_eq_true, decide_eq_true_iff, decide_eq_true_iff]
      exact early
    exact ⟨_, exec_resetController line works reply, answered_place rfl _ _ _ _ other, ⟨rfl, rfl, onlyAsks_refl _⟩,
      rfl⟩
  · obtain ⟨t, requeued, e⟩ := resetNow_clean (s := s.requestWindow []) sound.tracks clean
    have reply : (s.requestWindow []).resetController = t.resetBlocks.reply .accepted := by
      rw [← e]
      refine if_neg ?_
      rw [Bool.or_eq_true, decide_eq_true_iff, decide_eq_true_iff]
      rintro (h | h)
      · exact check h
      · exact format h
    have performed := exec_resetController (tag := tag) line works reply
    rw [(still_of_resetBlocks t rfl).finish] at performed
    have record := requeued.track
    have bound := requeued.bound
    have unbound := requeued.unbound
    obtain ⟨ts, q, _, ⟨_, _, _, rfl⟩, rfl⟩ := requeued.rest
    refine ⟨_, performed, answered_place rfl _ _ _ _ other, rfl, fun d => ?_, fun d => Four.get_map _ _ d,
      fun e => Four.get_all _ e, rfl, fun c => Four.get_all _ c, rfl, rfl, fun c => Four.get_all _ c, rfl, rfl, rfl, rfl,
      rfl, rfl, rfl, rfl, rfl, rfl, rfl, rfl, rfl, rfl, rfl, rfl, rfl, s.req.cleared_waiting.1,
      s.req.cleared_waiting.2.1, s.req.cleared_waiting.2.2, s.req.cleared_state, fun u => Four.get_all _ u, rfl, rfl,
      rfl, rfl, fun n => ?_, fun c n cls at_ class_ => ?_, fun n free => ?_⟩
    · exact controllerReset_drive s.drives d
    · rcases record n with same | again
      · exact ⟨congrArg (·.sectors) same, congrArg (·.addr) same, congrArg (·.nextStep) same,
          congrArg (·.stepRevs) same, congrArg (·.revision) same⟩
      · exact ⟨congrArg (·.sectors) again, congrArg (·.addr) again, congrArg (·.nextStep) again,
          congrArg (·.stepRevs) again, congrArg (·.revision) again⟩
    · obtain ⟨again, order⟩ := bound c n trivial at_
      have kept : ((s.requestWindow []).track n).requeued.cls = some cls := by
        show some ((s.track n).cls.getD .sweep) = some cls
        rw [class_]
        rfl
      exact ⟨congrArg (·.state) again, (congrArg (·.cls) again).trans kept, congrArg (·.context) again, order⟩
    · exact unbound n fun c _ => free c

end Sys2Proof.Machine
end

