-- ==== Sys2Proof/Proofs/Unbinding.lean ====
section
/-! SUPPORT. A context unbound to the queue (R69): its track stands at the head of its class's group. -/

namespace Sys2Proof.Machine

open Sys2Proof.Stated

variable {s : State} {c : Fin 4} {n : Nat} {a : TrackAddr} {cls : TrackClass}

/-- A track that has a CLASS and joins the queue's head: its record QUEUED, and its class's group led by it (R69). -/
theorem queueHead_classed (class_ : (s.track n).cls = some cls) : s.queueHead n = { s with
    tracks := (s.setTrack n { s.track n with state := .queued }).tracks, queue := s.queue.joinHead cls n } := by
  unfold State.queueHead State.modTrack
  rw [class_]
  dsimp only [Option.getD_some]
  rw [← class_]
  rfl

/-- Settles O12: the unbinding of a context that holds its drive, and then the head of the queue. -/
theorem unboundTrackLeadsItsClass : Obligations.UnboundTrackLeadsItsClass := by
  intro c n a cls s bound class_ active addr claim nobody free drs others
  obtain ⟨w, hw⟩ : ∃ w, w = s.unbind c := ⟨_, rfl⟩
  have unbound := hw.trans (unbind_holding bound addr claim nobody free)
  have live : ({ s.track n with context := none } : TrackRec).state ≠ .free := by simp [active]
  have same : w.track n = { s.track n with context := none } := by
    rw [unbound]; exact track_setTrack_self s n _ live
  have other : ∀ k, k ≠ n → w.track k = s.track k := fun k hk => by
    rw [unbound]; exact track_setTrack_ne s _ hk
  have e : s.returnTrack c = { w with
      tracks := (w.setTrack n { w.track n with state := .queued }).tracks, queue := w.queue.joinHead cls n } := by
    unfold State.returnTrack
    rw [bound]
    dsimp only
    rw [← hw]
    exact queueHead_classed (by rw [same]; exact class_)
  have track : (s.returnTrack c).track = (w.setTrack n { w.track n with state := .queued }).track := by
    rw [e]; rfl
  have drive : (s.returnTrack c).drives.get a.drive = { (s.drives.get a.drive).abandonPositioning with
      seekRetried := false, claim := none } := by
    rw [e, unbound]; exact Four.get_set_self _ _ _
  have ctxs : (s.returnTrack c).ctxs = s.ctxs.set c CtxRec.free := by rw [e, unbound]
  have queue : (s.returnTrack c).queue = s.queue.joinHead cls n := by rw [e, unbound]
  obtain ⟨_, positioning, state⟩ := abandonPositioning_spec (s.drives.get a.drive)
  refine ⟨?_, fun x hx => ?_, ?_, fun k hk => ?_, ?_, ?_, ?_, ?_, ?_, fun d hd => ?_, ?_, ?_, ?_⟩
  · rw [ctxs]; exact Four.get_set_self _ _ _
  · rw [ctxs]; exact Four.get_set_ne _ _ hx
  · rw [track, track_setTrack_self w n _ (by simp), same]
  · rw [track, track_setTrack_ne w _ hk, other k hk]
  · rw [queue]; cases cls <;> rfl
  · rw [drive]
  · rw [drive]
  · rw [drive]; exact positioning
  · rw [drive]; exact state
  · rw [e, unbound]; exact Four.get_set_ne _ _ hd
  · rw [e, unbound]
  · rw [e, unbound]
  · rw [e, unbound]

end Sys2Proof.Machine
end

