-- ==== Sys2Proof/Proofs/Completion.lean ====
section
/-! SUPPORT. Every command answers a next state: but for POWER_ON and the drives' line events, one that keeps the
queue, the straps and the pins. -/

namespace Sys2Proof.Machine

variable {s t : State} {c : Instr}

/-- A next state is answered, with the queue, the straps and the pins as they were. -/
def Completes (s : State) (o : Result3) : Prop := ∃ t, o = .next t ∧ Moves s t

theorem Moves.completes (h : Moves s t) : Completes s (.next t) := ⟨t, rfl, h⟩

theorem Stays.completes (h : Stays s t) : Completes s (.next t) := h.moves.completes

theorem Kept.completes (h : Kept Keep.least s t) : Completes s (.next t) := h.stays.completes

theorem Kept.completes_finish (h : Kept Keep.least s t) : Completes s (.next t.finish) := h.stays.finish.completes

/-! ## Requests -/

/-- Every archive request, whether it comes by name or as its bytes, completes. -/
theorem request_completes (request : Stated.requestRow c ≠ none) (s : State) : Completes s (exec c s) := by
  have ends {kind tag ls g p} {owner : State → Reply} (h : ∀ t, Stays t (owner t).after) :
      Completes s (.next (s.request kind tag ls g p owner State.finish)) :=
    (Stays.request s _ _ _ _ _ _ _ h (.inr rfl)).completes
  have stops {kind tag ls g p} {owner : State → Reply} (h : ∀ t, Stays t (owner t).after) :
      Completes s (.next (s.request kind tag ls g p owner id)) :=
    (Stays.request s _ _ _ _ _ _ _ h (.inl rfl)).completes
  have moves {kind tag ls g p} {owner : State → Reply} (h : ∀ t, Moves t (owner t).after) :
      Completes s (.next (s.request kind tag ls g p owner State.finish)) :=
    (Moves.request s _ _ _ _ _ _ h).completes
  cases c
  case identify => exact stops fun t => Stays.refl t
  case attention => exact ends Stays.attention
  case setLimits p => exact ends (Stays.setLimits · p)
  case storeState p => exact stops (Stays.reportStore · p)
  case defineDrive p => exact ends (Stays.defineDrive · p)
  case withdrawDrive p => exact ends (Stays.withdrawDrive · p)
  case restoreDrive p => exact ends (Stays.restoreDrive · p)
  case clearDriveFault p => exact ends (Stays.clearDriveFault · p)
  case driveState p => exact ends (Stays.reportDriveState · p)
  case trackRecord p => exact ends (Stays.reportTrack · p)
  case listTracks p => exact ends (Stays.listTracks · p)
  case pull p => exact ends (Stays.pull · p)
  case pushSector p => exact ends (Stays.pushSector · p)
  case lockTrack p => exact ends (Stays.lockTrack · p)
  case unlockTrack p => exact ends (Stays.unlockTrack · p)
  case markExported p => exact ends (Stays.markExported · p)
  case releaseTrack p => exact ends (Stays.releaseTrack · p)
  case queueTrack p => exact ends (Stays.queueTrack · p)
  case retryTrack p => exact ends (Stays.retryTrack · p)
  case sweepStart p => exact ends (Stays.startSweep · p)
  case sweepStop p => exact ends (Stays.stopSweep · p)
  case setLadder p => exact stops (Stays.setLadder · p)
  case holdEnter => exact moves Moves.holdEnter
  case holdExit => exact moves Moves.holdExit
  case resetController => exact moves Moves.resetController
  all_goals exact absurd rfl request

theorem unknownRequest_completes (s : State) (w : List Byte) : Completes s (execUnknownRequest w s) := by
  unfold execUnknownRequest
  split
  · exact (Stays.refl s).completes
  · split
    · exact (Stays.readWindow s _).completes
    · split
      · obtain ⟨c, request, e⟩ | e := byKind_cases s w
        · exact e ▸ request_completes request s
        · exact e ▸ (Stays.refuseFrame s w _).completes
      · exact (Stays.refuseFrame s w _).completes

/-! ## The memory bus -/

theorem busAdvance_completes (s : State) (o : MemoryOutcome) (ws : List Word16) :
    Completes s (execBusAdvance o ws s) := by
  unfold execBusAdvance
  split
  · exact (Stays.burstEnds s _ _).completes
  · exact (Stays.freeReq s).finish.completes
  all_goals exact (Stays.refl s).completes

theorem advanceTimeout_completes (s : State) : Completes s (execAdvanceTimeout s) := by
  unfold execAdvanceTimeout
  split
  · exact (Stays.burstEnds s _ _).completes
  · exact (Stays.freeReq s).finish.completes
  all_goals exact (Stays.refl s).completes

/-! ## Every command but those that sample the straps or the drives' lines -/

/-- The commands that note no strap and no level of a drive's line. -/
def leavesPins : Instr → Bool
  | .powerOn _ => false
  | .readyLineFall _ => false
  | .readyLineRise _ => false
  | .faultLineRise _ => false
  | .driveAnswer _ => false
  | _ => true

theorem exec_completes (leaves : leavesPins c = true) (s : State) : Completes s (exec c s) := by
  by_cases request : Stated.requestRow c ≠ none
  · exact request_completes request s
  have kept := Kept.refl Keep.least s
  have same := Stays.refl s
  have quiet : ∀ u, Keep.least.units = true → ¬ s.Apart u := fun _ => Keep.least_units
  cases c
  case storeCheckEnd => exact (Moves.ite (Moves.endStoreCheck s _).finish (.refl s)).completes
  case formatEnd => exact (Moves.ite (Moves.formatEnd s) (.refl s)).completes
  case discoveryPhaseEnd => exact (Moves.ite (Moves.discoveryPhaseEnd s) (.refl s)).completes
  case rescanEnd => exact (Moves.ite (Moves.rescanEnd s _) (.refl s)).completes
  case holdEntry => exact (Moves.ite (Moves.enterHold s) (.refl s)).completes
  case resumingEnd => exact (Moves.ite (Moves.becomeReady s).finish (.refl s)).completes
  case systemClear => exact (Stays.systemClear s).completes
  case systemClearRelease => exact (same.setPort { s.port with clearLine := false } id).completes
  case addressHi => exact (Stays.setAddress s _).completes
  case addressLo => exact (Stays.setAddress s _).completes
  case registerWriteIgnored => exact kept.completes
  case start u => exact (Stays.command s _ (Stays.startCommand s u)).completes
  case probe u => exact (Stays.command s _ (Stays.probeCommand s u)).completes
  case halt u => exact (Stays.command s _ (Stays.haltCommand s u)).completes
  case acknowledge u => exact (Stays.command s _ (Stays.acknowledgeCommand s u)).completes
  case ackController => exact (Stays.command s _ (Stays.ackController s)).completes
  case setup => exact (Stays.command s _ (Stays.setupCommand s)).completes
  case illegalCommand w => exact (Stays.command s _ (Stays.commandWord s w)).completes
  case busGrant => exact (Stays.ite (Stays.busReq s _) same).completes
  case busAccept => exact (Stays.ite (Stays.busReq s _) same).completes
  case busAdvance => exact busAdvance_completes s _ _
  case grantTimeout => exact (Stays.ite (Stays.burstEnds s _ _) same).completes
  case advanceTimeout => exact advanceTimeout_completes s
  case patienceTimerExpiry u => exact (Stays.ite (kept.patienceExpires (quiet u)).stays.finish same).completes
  case readWindow => exact (Stays.readWindow s _).completes
  case unknownRequest w => exact unknownRequest_completes s w
  case linkRst => exact (Stays.linkReset s).completes
  case linkRstRelease => exact (same.setLink _).completes
  case index d => exact (kept.indexArrives rfl (quiet d)).completes_finish
  case indexLost d => exact (kept.loseIndex rfl (quiet d)).completes_finish
  case answerTimeout d => exact (kept.noAnswer rfl (quiet d)).completes_finish
  case markPulse => exact (kept.countPulse rfl).completes
  case seekDone => exact (kept.seekDone rfl).completes_finish
  case seekTimeout d => exact (kept.seekTimesOut rfl (quiet d)).completes_finish
  case recalibrationTimeout d => exact (kept.recalibrationTimesOut rfl (quiet d)).completes_finish
  case settleEnd => exact kept.settles.completes_finish
  case headerField h => exact (kept.takeHeader h).completes
  case dataField b bytes => exact (kept.takeData b bytes).completes_finish
  case pitchWindowClose b => exact (kept.closePitchWindow b).completes_finish
  case blindWindowClose => exact kept.closeBlindWindow.completes
  case refreshTimer l =>
    exact ((Stays.addFlips s l).setStore (s.addFlips l).store.timerExpires id).completes
  case storeBurstEnd => exact (Stays.storeBurstEnds s _).completes
  case scrubGroup => exact (Stays.scrub s).completes
  case voteSector => exact kept.voteSectorStep.completes_finish
  case powerOn | readyLineFall | readyLineRise | faultLineRise | driveAnswer => cases leaves
  all_goals exact absurd nofun request

/-! ## The drives' lines -/

/-- The level of one drive's ready line has been noted, and what follows keeps the queue and the pins. -/
theorem readyLine_framed {d : Fin 4} {level : Bool} (kept : Kept Keep.least (s.setReadyLine d level) t) :
    t.finish.pending = s.pending ∧ (∀ e, (t.finish.drives.get e).fitted = (s.drives.get e).fitted)
      ∧ ∀ e, (t.finish.drives.get e).faultHeld = (s.drives.get e).faultHeld := by
  have ended := kept.stays.moves.finish
  have noted : ∀ e, ((s.setReadyLine d level).drives.get e).fitted = (s.drives.get e).fitted
      ∧ ((s.setReadyLine d level).drives.get e).faultHeld = (s.drives.get e).faultHeld := fun e => by
    unfold State.setReadyLine
    rw [modDrive_drives, Four.get_modify]
    split
    · next same => rw [same]; exact ⟨rfl, rfl⟩
    · exact ⟨rfl, rfl⟩
  exact ⟨ended.pending, fun e => (congrArg (·.1) (ended.pins e)).trans (noted e).1,
    fun e => (congrArg (·.2.2) (ended.pins e)).trans (noted e).2⟩

/-- The level of one drive's fault line has been noted, and what follows keeps the queue and the pins. -/
theorem faultLine_framed {d : Fin 4} {held : Bool} (kept : Kept Keep.least (s.setFaultHeld d held) t) :
    t.finish.pending = s.pending ∧ (∀ e, (t.finish.drives.get e).fitted = (s.drives.get e).fitted)
      ∧ ∀ e, (t.finish.drives.get e).readyLine = (s.drives.get e).readyLine := by
  have ended := kept.stays.moves.finish
  have noted : ∀ e, ((s.setFaultHeld d held).drives.get e).fitted = (s.drives.get e).fitted
      ∧ ((s.setFaultHeld d held).drives.get e).readyLine = (s.drives.get e).readyLine := fun e => by
    unfold State.setFaultHeld
    rw [modDrive_drives, Four.get_modify]
    split
    · next same => rw [same]; exact ⟨rfl, rfl⟩
    · exact ⟨rfl, rfl⟩
  exact ⟨ended.pending, fun e => (congrArg (·.1) (ended.pins e)).trans (noted e).1,
    fun e => (congrArg (·.2.1) (ended.pins e)).trans (noted e).2⟩

/-- What a drive's answer leaves as it was: a fault that is held may be taken up. -/
theorem answers_framed (s : State) (d : Fin 4) : (s.answers d).finish.pending = s.pending
    ∧ (∀ e, ((s.answers d).finish.drives.get e).fitted = (s.drives.get e).fitted)
    ∧ ∀ e, ((s.answers d).finish.drives.get e).readyLine = (s.drives.get e).readyLine := by
  obtain ⟨w, noted, kept⟩ := answers_kept (k := Keep.least) (d := d) rfl s
  rcases noted with same | level
  · rw [same] at kept
    have ended := (kept Keep.least_units).stays.moves.finish
    exact ⟨ended.pending, fun e => congrArg (·.1) (ended.pins e), fun e => congrArg (·.2.1) (ended.pins e)⟩
  · rw [level] at kept
    exact faultLine_framed (kept Keep.least_units)

theorem readyLineFalls_kept (s : State) (d : Fin 4) :
    Kept Keep.least (s.setReadyLine d false) (s.readyLineFalls d) := by
  have noted := Kept.refl Keep.least (s.setReadyLine d false)
  unfold State.readyLineFalls
  dsimp only
  split
  · exact noted.readyFalls rfl Keep.least_units
  · exact noted

theorem readyLineRises_kept (s : State) (d : Fin 4) :
    Kept Keep.least (s.setReadyLine d true) (s.readyLineRises d) := by
  have noted := Kept.refl Keep.least (s.setReadyLine d true)
  unfold State.readyLineRises
  dsimp only
  split
  · exact noted.readyRises rfl Keep.least_units
  · exact noted

/-- Settles O2: a command that leaves the pins by what its operation keeps, the line events by the level they note. -/
theorem everyCommandCompletes : Obligations.EveryCommandCompletes := by
  intro c s
  by_cases leaves : leavesPins c = true
  · obtain ⟨t, e, moves⟩ := exec_completes leaves s
    exact ⟨t, e, moves.pending, fun _ d => congrArg (·.1) (moves.pins d),
      fun _ _ d => congrArg (·.2.1) (moves.pins d), fun _ _ d => congrArg (·.2.2) (moves.pins d)⟩
  · cases c
    case powerOn straps =>
      obtain ⟨t, e, _, _, pins, _⟩ := powerOnResetsEveryBlock straps s
      refine ⟨t, e, ?_, fun other => absurd rfl (other straps), fun _ _ d => (pins d).1, fun _ _ d => (pins d).2⟩
      obtain rfl : _ = t := Host.Outcome.next.inj e
      rfl
    case readyLineFall d =>
      obtain ⟨pending, fitted, held⟩ := readyLine_framed (readyLineFalls_kept s d)
      exact ⟨_, rfl, pending, fun _ => fitted, fun other => absurd rfl (other d), fun _ _ => held⟩
    case readyLineRise d =>
      obtain ⟨pending, fitted, held⟩ := readyLine_framed (readyLineRises_kept s d)
      exact ⟨_, rfl, pending, fun _ => fitted, fun _ other => absurd rfl (other d), fun _ _ => held⟩
    case faultLineRise d =>
      obtain ⟨level, kept⟩ := faultLineRises_kept (k := Keep.least) (d := d) rfl s
      obtain ⟨pending, fitted, ready⟩ := faultLine_framed (kept Keep.least_units)
      exact ⟨_, rfl, pending, fun _ => fitted, fun _ _ => ready, fun other => absurd rfl (other d)⟩
    case driveAnswer d =>
      obtain ⟨pending, fitted, ready⟩ := answers_framed s d
      exact ⟨_, rfl, pending, fun _ => fitted, fun _ _ => ready, fun _ other => absurd rfl (other d)⟩
    all_goals exact absurd rfl leaves

end Sys2Proof.Machine
end

