-- ==== Sys2Proof/Proofs/TrackRequests.lean ====
section
/-! SUPPORT. The requests that name a track (R55 to R63, R78): how one is refused by its operand or goes on with the
track named, and what PULL, the locks, MARK_EXPORTED, RELEASE_TRACK and RETRY_TRACK do with it. -/

namespace Sys2Proof.Machine

open Sys2Proof.Stated

variable {s t : State} {c : Instr} {kind tag : Byte} {ls : List Nat} {p q : List Byte} {r : Result} {n : Nat}
  {k : State → Nat → Reply}

/-! ## The operand -/

/-- The address form is refused where its cylinder or head lies outside the drive's geometry (R57). -/
theorem operandAddress_outside {d : Fin 4} {cyl head : Nat} (outside : ¬ withinGeometry s d cyl head) :
    s.operandAddress d.val cyl head = .refused .range := by
  unfold State.operandAddress
  rw [fin4_val]
  dsimp only
  unfold withinGeometry at outside
  cases geometry : s.geometry.get d with
  | none => simp [geometry] at outside
  | some g => exact if_pos (by simpa [geometry, Geometry.contains, imp_iff_not_or] using outside)

/-- The address form finds nothing where no record holds the address (R57). -/
theorem operandAddress_nobody {d : Fin 4} {cyl head : Nat} (inside : withinGeometry s d cyl head)
    (nobody : s.findTrack ⟨d, cyl, head⟩ = none) : s.operandAddress d.val cyl head = .refused .noSuchTrack := by
  unfold State.operandAddress
  rw [fin4_val]
  dsimp only
  rw [nobody]
  cases geometry : s.geometry.get d with
  | none => rfl
  | some g => exact if_neg (by simpa [Geometry.contains] using inside g geometry)

/-- An operand that R57 refuses comes to that refusal. -/
theorem trackOperand_refused (sound : s.Sound) (refused : operandRefused s p r) : s.trackOperand p = .refused r := by
  have other : 1 < at1 p 0 → s.trackOperand p = .refused .range := fun form =>
    (if_neg (by omega)).trans (if_neg (by omega))
  have slot : at1 p 0 = 1 → s.trackOperand p = s.operandSlot (at2 p 1) := fun form =>
    (if_neg (by omega)).trans (if_pos form)
  have address : at1 p 0 = 0 → s.trackOperand p = s.operandAddress (at1 p 1) (at2 p 2) (at1 p 4) :=
    fun form => if_pos form
  have drive : ∀ d : Fin 4, (p.getD 1 0).toNat = d.val → at1 p 1 = d.val := fun _ => id
  rcases refused with ⟨rfl, form | ⟨form, above⟩ | ⟨form, high | ⟨d, named, outside⟩⟩⟩
    | ⟨rfl, ⟨form, below, free⟩ | ⟨form, d, named, inside, nobody⟩⟩
  · exact other form
  · exact (slot form).trans (if_pos above)
  · rw [address form, State.operandAddress, show fin4? (at1 p 1) = none from fin4_none high]
  · rw [address form, drive d named]
    exact operandAddress_outside outside
  · exact (slot form).trans ((if_neg (Nat.not_le.2 below)).trans (if_pos free))
  · rw [address form, drive d named]
    exact operandAddress_nobody inside (find_nobody sound nobody)

/-- A request whose operand is refused is answered so, in a store without bit errors (R57). -/
theorem withTrack_refused (sound : s.Sound) (clean : s.store.flips = []) (refused : operandRefused s p r)
    (k : State → Nat → Reply) : ∃ t, onlyRead s t ∧ (s.requestWindow p).withTrack p k = t.reply r := by
  refine ⟨_, onlyRead_asking (onlyRead_requestWindow s p) (((s.requestWindow p).operandOwners p).map fun _ => .link),
    ?_⟩
  unfold State.withTrack
  rw [withRecords_clean (s := s.requestWindow p) clean]
  obtain ⟨a, b, c, e⟩ := asking_store (s := s.requestWindow p)
    (((s.requestWindow p).operandOwners p).map fun _ => .link)
  have operand : ((s.requestWindow p).asking (((s.requestWindow p).operandOwners p).map fun _ => .link)).trackOperand p
      = .refused r := by
    rw [e]
    exact trackOperand_refused (s := s) sound refused
  rw [operand]

/-- A request that names a track, as the dispatch and the request table have it: its payload has a length of the
table, and `k` is what its rule does with the track. -/
structure OnTrack (c : Instr) (s : State) (kind tag : Byte) (p : List Byte) (k : State → Nat → Reply) : Prop where
  row : ∃ ls, p.length ∈ ls ∧ exec c s
    = .next (s.request kind tag ls .readyOnly p (fun s => s.withTrack p k) State.finish)
  short : p.length ≤ 544
  other : kind ≠ attentionKind

/-- Each of the eight requests is one that names a track. -/
theorem onTrack_of_row {group : RequestGroup} (tracks : namesATrack c = true)
    (row : requestRow c = some (kind, tag, ls, group, p)) (listed : p.length ∈ ls) (s : State) :
    ∃ k, OnTrack c s kind tag p k := by
  cases c
  case trackRecord | pull | pushSector | lockTrack | unlockTrack | markExported | releaseTrack | retryTrack =>
    cases row
    exact ⟨_, ⟨_, listed, rfl⟩, by simp only [List.mem_cons, List.not_mem_nil, or_false] at listed; omega, by decide⟩
  all_goals cases tracks

/-- A request on a track is performed with the reply that its rule gives. -/
theorem OnTrack.performed (h : OnTrack c s kind tag p k) (link : linkReady s) {y : Reply}
    (reply : (s.requestWindow p).withTrack p k = y) :
    exec c s = .next (y.after.place kind tag y.result y.payload).finish := by
  obtain ⟨ls, listed, row⟩ := h.row
  exact request_performed (rest := State.finish) row y reply link.1 listed h.short (ready_performs _ link.2)

/-- A request on a track whose operand R57 refuses. -/
theorem OnTrack.refused (h : OnTrack c s kind tag p k) (link : linkReady s) (sound : s.Sound)
    (clean : s.store.flips = []) (refused : operandRefused s p r) : onlyAnswers c s kind tag r [] := by
  obtain ⟨t, read, reply⟩ := withTrack_refused sound clean refused k
  exact onlyAnswers_of_read h.other read (h.performed link (y := t.reply r) reply)

/-- Settles O35: the operand is judged before the request's own rule is asked. -/
theorem trackOperandRefused : Obligations.TrackOperandRefused := by
  intro c kind tag ls group p s r tracks row listed link sound clean refused
  obtain ⟨k, h⟩ := onTrack_of_row tracks row listed s
  exact h.refused link sound clean refused

/-! ## A named track -/

/-- The state in which a request's rule is asked: bytes have been driven out, and claims on the store wait. -/
def State.reading (s : State) (out : List Byte) (x : StoreRec) : State :=
  { s with link := { s.link with out := out }, store := x }

@[simp] theorem reading_track (s : State) (out : List Byte) (x : StoreRec) (n : Nat) :
    (s.reading out x).track n = s.track n := rfl

/-- Claims that wait leave the store's bit errors as they were. -/
theorem onlyAsks_flips {x y : StoreRec} (asks : onlyAsks x y) : y.flips = x.flips := by
  obtain ⟨_, _, _, rfl⟩ := asks
  rfl

theorem onlyRead_reading {x : StoreRec} (asks : onlyAsks s.store x) (out : List Byte) : onlyRead s (s.reading out x) :=
  ⟨out, x, asks, rfl⟩

/-- A request on a track that its operand names, where the link takes it and the store has no bit error. -/
structure OnNamed (c : Instr) (s : State) (kind tag : Byte) (p : List Byte) (k : State → Nat → Reply) (n : Nat) : Prop
    extends OnTrack c s kind tag p k where
  link : linkReady s
  sound : s.Sound
  clean : s.store.flips = []
  named : names s p n

/-- A request on a named track is performed with the reply that its rule gives in a state that has only read. -/
theorem OnNamed.asked (h : OnNamed c s kind tag p k n) : ∃ out x, onlyAsks s.store x ∧ ∀ y,
    k (s.reading out x) n = y → exec c s = .next (y.after.place kind tag y.result y.payload).finish := by
  obtain ⟨_, ⟨out, x, asks, rfl⟩, reply⟩ := withTrack_named h.sound h.clean h.named k
  exact ⟨out, x, asks, fun y e => h.performed h.link (reply.trans e)⟩

/-- A request on a named track whose rule reads and replies. -/
theorem OnNamed.answers (h : OnNamed c s kind tag p k n) (reply : ∀ out x, onlyAsks s.store x →
    ∃ w, onlyRead s w ∧ k (s.reading out x) n = w.replyWith r q) : onlyAnswers c s kind tag r q := by
  obtain ⟨out, x, asks, perform⟩ := h.asked
  obtain ⟨w, after, e⟩ := reply out x asks
  exact onlyAnswers_of_read h.other after (perform (w.replyWith r q) e)

/-- A request on a named track whose rule replies at once. -/
theorem OnNamed.refuses (h : OnNamed c s kind tag p k n)
    (reply : ∀ out x, k (s.reading out x) n = (s.reading out x).replyWith r q) : onlyAnswers c s kind tag r q :=
  h.answers fun out x asks => ⟨_, onlyRead_reading asks out, reply out x⟩

/-- A named track's record is not FREE (R57). -/
theorem names_live (named : names s p n) : (s.track n).state ≠ .free := by
  rcases named with ⟨_, _, _, live⟩ | ⟨_, d, _, _, only⟩
  · exact live
  · have holds := (only n).2 rfl
    simp only [TrackRec.holds, Bool.and_eq_true, decide_eq_true_eq] at holds
    exact holds.1.1

theorem onlyTrack_setTrack (s : State) (n : Nat) {x : TrackRec} (live : x.state ≠ .free) :
    onlyTrack s (s.setTrack n x) n x :=
  ⟨track_setTrack_self s n x live, fun _ other => track_setTrack_ne s x other⟩

theorem onlyTrack_modTrack (s : State) (n : Nat) {f : TrackRec → TrackRec} (live : (f (s.track n)).state ≠ .free) :
    onlyTrack s (s.modTrack n f) n (f (s.track n)) := onlyTrack_setTrack s n live

theorem onlyTrack_queueTail (s : State) (n : Nat) (cls : TrackClass) :
    onlyTrack s (s.queueTail n cls) n { s.track n with state := .queued, cls := some cls } :=
  onlyTrack_setTrack s n (x := { s.track n with state := .queued, cls := some cls }) nofun

theorem onlyTrack_trans {m : State} {x y : TrackRec} (h : onlyTrack s t n x) (g : onlyTrack t m n y) :
    onlyTrack s m n y := ⟨g.1, fun i other => (g.2 i other).trans (h.2 i other)⟩

/-! ## PULL -/

/-- Bytes are read in a store without bit errors: no more than the claims that wait changes. -/
theorem readStore_read {x : StoreRec} (clean : s.store.flips = []) (asks : onlyAsks s.store x) (out : List Byte)
    (cl : StoreClaimant) (a m : Nat) : ∃ y, onlyAsks s.store y
      ∧ (s.reading out x).readStore cl a m = (some (readBytes s.store.mem a m), s.reading out y) := by
  have bits : (s.reading out x).store.flips = [] := (onlyAsks_flips asks).trans clean
  obtain ⟨u, v, w, e⟩ := asks
  refine ⟨((s.reading out x).askStore cl (burstsFor (((a + m + 7) / 8 - a / 8) * 8))).store, ?_, ?_⟩
  · rw [e]
    exact ⟨_, _, _, rfl⟩
  · rw [readStore_clean bits, e]
    rfl

/-- A PULL from IMAGE gives the frame's bytes where the STATUS says that the sector holds an image (R60). -/
theorem pullImage_imaged {j : Nat} (h : ((s.track n).sector j).status = .clean
      ∨ ((s.track n).sector j).status = .voted ∨ ((s.track n).sector j).status = .written
      ∨ ((s.track n).sector j).status = .replaced
      ∨ (((s.track n).sector j).status = .failed ∧ ((s.track n).sector j).guess ≠ .damaged)) :
    s.pullImage n j = s.pullFrame n j := by
  unfold State.pullImage
  dsimp only
  rcases h with e | e | e | e | ⟨e, undamaged⟩ <;> rw [e]
  exact if_neg undamaged

/-- A PULL from IMAGE gives no bytes where the sector holds no image (R60). -/
theorem pullImage_bare {j : Nat} (h : ((s.track n).sector j).status = .pending
      ∨ ((s.track n).sector j).status = .damaged ∨ ((s.track n).sector j).status = .marked
      ∨ ((s.track n).sector j).status = .lost
      ∨ (((s.track n).sector j).status = .failed ∧ ((s.track n).sector j).guess = .damaged)) :
    s.pullImage n j = s.pulled n j .ok [] := by
  unfold State.pullImage
  dsimp only
  rcases h with e | e | e | e | ⟨e, damaged⟩ <;> rw [e]
  exact if_pos damaged

/-- The frame's bytes of a sector are pulled as they are read (R60). -/
theorem pullFrame_bytes {j : Nat} {bytes : List Byte} {w : State}
    (read : s.readStore .link (sectorAddr n (s.track n).sectorBytes j) (s.track n).sectorBytes = (some bytes, w)) :
    s.pullFrame n j = w.pulled n j .ok bytes := by
  unfold State.pullFrame State.readFrame
  dsimp only
  rw [read]

/-- A PULL of a candidate that the context's list does not hold (R60). -/
theorem pullCandidate_none {j i : Nat}
    (past : ∀ c, (s.track n).context = some c → ((s.ctxs.get c).list j).length ≤ i) :
    s.pullCandidate n j i = s.reply .range := by
  have nothing : s.candidateEntry n j i = none := by
    unfold State.candidateEntry
    cases bound : (s.track n).context with
    | none => rfl
    | some c => simp [List.getElem?_eq_none (past c bound)]
  unfold State.pullCandidate
  rw [nothing]

/-- A PULL of a candidate that the context's list holds reads its entry (R60). -/
theorem pullCandidate_entry {j i entry : Nat} {c : Fin 4} {bytes : List Byte} {w : State}
    (bound : (s.track n).context = some c) (listed : ((s.ctxs.get c).list j)[i]? = some entry)
    (read : s.readStore .link (s.entryAddr c entry (s.track n).sectorBytes j) ((s.track n).sectorBytes + 2)
      = (some bytes, w)) : s.pullCandidate n j i = w.pulled n j .ok bytes := by
  have found : s.candidateEntry n j i = some (c, entry) := by
    unfold State.candidateEntry
    simp [bound, listed]
  unfold State.pullCandidate
  rw [found]
  dsimp only
  rw [read]

/-- Settles O37: PULL's tests in their order, and the answer by the sector's STATUS or by the candidate named. -/
theorem pullReturnsTheSector : Obligations.PullReturnsTheSector := by
  intro tag p n s length link sound clean named
  dsimp only
  have h : OnNamed (.pull tag p) s 0x0C tag p _ n :=
    ⟨⟨⟨[8], by simp [length], rfl⟩, by omega, by decide⟩, link, sound, clean, named⟩
  refine ⟨fun broken => ?_, fun whole outside => ?_, fun whole inside => ?_⟩
  · exact h.refuses fun _ _ => if_pos broken
  · exact h.refuses fun _ _ => (if_neg whole).trans (if_pos outside)
  have inside : ¬ (s.track n).sectors.length ≤ at1 p 6 := Nat.not_le.2 inside
  refine ⟨fun image held => ?_, fun image bare => ?_, fun c entry candidate bound listed => ?_,
    fun candidate past => ?_⟩
  · refine h.answers fun out x asks => ?_
    obtain ⟨y, asked, read⟩ := readStore_read clean asks out .link
      (sectorAddr n (s.track n).sectorBytes (at1 p 6)) (s.track n).sectorBytes
    exact ⟨_, onlyRead_reading asked out, (if_neg whole).trans <| (if_neg inside).trans <| (if_pos image).trans <|
      (pullImage_imaged (s := s.reading out x) held).trans (pullFrame_bytes read)⟩
  · exact h.refuses fun out x => (if_neg whole).trans <| (if_neg inside).trans <| (if_pos image).trans <|
      pullImage_bare (s := s.reading out x) bare
  · refine h.answers fun out x asks => ?_
    obtain ⟨y, asked, read⟩ := readStore_read clean asks out .link
      (s.entryAddr c entry (s.track n).sectorBytes (at1 p 6)) ((s.track n).sectorBytes + 2)
    exact ⟨_, onlyRead_reading asked out, (if_neg whole).trans <| (if_neg inside).trans <|
      (if_neg (Nat.ne_of_gt candidate)).trans (pullCandidate_entry (s := s.reading out x) bound listed read)⟩
  · exact h.refuses fun out x => (if_neg whole).trans <| (if_neg inside).trans <|
      (if_neg (Nat.ne_of_gt candidate)).trans <| pullCandidate_none (s := s.reading out x)
        fun c bound => Nat.le_sub_one_of_lt (past c bound)

/-! ## Locks -/

theorem emptyLock_some {e : Fin 4} (empty : s.locks.get e = none) (lowest : ∀ e', e' < e → s.locks.get e' ≠ none) :
    s.emptyLock = some e :=
  find_fourNumbers_some.2 ⟨by simp [empty], fun e' below => by simpa [Option.isSome_iff_ne_none] using lowest e' below⟩

theorem emptyLock_none (full : ∀ e, s.locks.get e ≠ none) : s.emptyLock = none :=
  (find_fourNumbers_none _).2 fun e => by simpa [Option.isSome_iff_ne_none] using full e

/-- A record's lock is released (R56). -/
theorem releaseLock_locked {e : Fin 4} (locked : (s.track n).lock = some e) : s.releaseLock n
    = ({ s.modTrack n fun r => { r with lock := none } with locks := s.locks.set e none } : State).notifyWaiters
        fun m => m = n := by
  unfold State.releaseLock
  rw [locked]
  rfl

/-- The units that wait on one of some tracks are notified (R47). -/
theorem notifyWaiters_notified {on : Nat → Bool} {P : Nat → Prop} (h : ∀ m, on m = true ↔ P m)
    (s : State) : notifiedOn s (s.notifyWaiters on) P := by
  intro u
  have told : (s.notifyWaiters on).units.get u = (s.units.get u).notify on := Four.get_map _ _ u
  have waits : (s.units.get u).waitSlot.any on = true ↔ ∃ m, P m ∧ waitsOn (s.units.get u) m := by
    unfold UnitRec.waitSlot waitsOn
    rcases (s.units.get u).waitOn with _ | ⟨m, j⟩ | m | _ <;> simp [h]
  rw [told]
  constructor
  · intro some_
    simp [UnitRec.notify, waits.2 some_]
  · intro none_
    have quiet : (s.units.get u).waitSlot.any on = false :=
      Bool.eq_false_iff.2 fun any => by
        obtain ⟨m, on, waiting⟩ := waits.1 any
        exact none_ m on waiting
    simp [UnitRec.notify, quiet]

/-- Settles O39: the tests of LOCK_TRACK and UNLOCK_TRACK in their order, and the entry taken or emptied. -/
theorem locksGivenAndReleased : Obligations.LocksGivenAndReleased := by
  intro tag p n s length link sound clean named
  dsimp only
  have live := names_live named
  have lock : OnNamed (.lockTrack tag p) s 0x0E tag p _ n :=
    ⟨⟨⟨[6], by simp [length], rfl⟩, by omega, by decide⟩, link, sound, clean, named⟩
  have unlock : OnNamed (.unlockTrack tag p) s 0x0F tag p _ n :=
    ⟨⟨⟨[6], by simp [length], rfl⟩, by omega, by decide⟩, link, sound, clean, named⟩
  refine ⟨fun active => ?_, fun broken => ?_, fun inactive whole => ⟨fun locked => ?_, fun unlocked full => ?_,
    fun e unlocked empty lowest => ?_⟩, fun unlocked => ?_, fun e locked => ?_⟩
  · exact lock.refuses fun _ _ => if_pos active
  · exact lock.refuses fun _ _ => (if_neg (by simp [broken])).trans (if_pos broken)
  · exact lock.refuses fun _ _ => (if_neg inactive).trans <| (if_neg whole).trans <|
      if_pos (Option.isSome_iff_ne_none.2 locked)
  · refine lock.refuses fun out x => (if_neg inactive).trans <| (if_neg whole).trans <|
      (if_neg (by simp [unlocked])).trans ?_
    rw [emptyLock_none (s := s.reading out x) full]
    rfl
  · obtain ⟨out, x, asks, perform⟩ := lock.asked
    have done := perform (((s.reading out x).putLock n e).replyWith .ok [byteOf e.val]) <|
      (if_neg inactive).trans <| (if_neg whole).trans <| (if_neg (by simp [unlocked])).trans <| by
        rw [emptyLock_some (s := s.reading out x) empty lowest]
    exact ⟨_, done, answered_place rfl _ _ _ _ lock.other, ⟨rfl, rfl, asks⟩,
      onlyTrack_setTrack s n (x := { s.track n with lock := some e }) live, rfl, rfl⟩
  · exact unlock.refuses fun _ _ => if_pos (by simp [unlocked])
  · obtain ⟨out, x, asks, perform⟩ := unlock.asked
    have done := perform (((s.reading out x).releaseLock n).replyWith .ok []) <| if_neg (by simp [locked])
    rw [releaseLock_locked (s := s.reading out x) locked] at done
    exact ⟨_, done, answered_place rfl _ _ _ _ unlock.other, ⟨rfl, rfl, asks⟩,
      onlyTrack_setTrack s n (x := { s.track n with lock := none }) live, rfl,
      notifyWaiters_notified (fun _ => decide_eq_true_iff) s, rfl⟩

/-! ## MARK_EXPORTED -/

theorem discardCandidates_tracks (s : State) (n j : Nat) : (s.discardCandidates n j).tracks = s.tracks := by
  unfold State.discardCandidates
  split <;> rfl

/-- A resolved sector counts in REVISION and clears EXPORTED (R48, R49). -/
theorem resolveSector_track (live : (s.track n).state ≠ .free) (j : Nat) (f : SectorRec → SectorRec) :
    (s.resolveSector n j f).track n = ((s.track n).setSector j (f ((s.track n).sector j))).imageChanged :=
  (track_congr (discardCandidates_tracks _ n j) n).trans (track_setTrack_self s n _ live)

/-- Settles O40: MARK_EXPORTED's tests in their order, and what a resolution does to the mark. -/
theorem exportMarkedAtItsRevision : Obligations.ExportMarkedAtItsRevision := by
  refine ⟨fun tag p n s length link sound clean => ?_, fun s n j f _ live => ?_⟩
  · have track : OnTrack (.markExported tag p) s 0x10 tag p _ := ⟨⟨[8], by simp [length], rfl⟩, by omega, by decide⟩
    refine ⟨fun r refused => track.refused link sound clean refused, fun named => ?_⟩
    have h : OnNamed (.markExported tag p) s 0x10 tag p _ n := ⟨track, link, sound, clean, named⟩
    refine ⟨fun broken => ?_, fun whole stale => ?_, fun whole current => ?_⟩
    · exact h.refuses fun _ _ => if_pos broken
    · exact h.refuses fun _ _ => (if_neg whole).trans (if_pos stale)
    · obtain ⟨out, x, asks, perform⟩ := h.asked
      have done := perform (((s.reading out x).modTrack n fun r => { r with exported := true }).replyWith .ok []) <|
        (if_neg whole).trans (if_neg (not_not.2 current))
      have marked := onlyTrack_setTrack s n (x := { s.track n with exported := true }) (names_live named)
      refine ⟨_, done, answered_place rfl _ _ _ _ h.other, ⟨rfl, rfl, asks⟩, marked, fun already => ?_, rfl⟩
      exact marked.1.trans (by rw [← already])
  · rw [resolveSector_track live]
    exact ⟨rfl, rfl⟩

/-! ## RELEASE_TRACK -/

/-- The STALLED sweeps run again, in a store without bit errors (R76). -/
theorem resumeSweeps_clean (clean : s.store.flips = []) : ∃ x, onlyAsks s.store x
    ∧ s.resumeSweeps = { s with sweeps := s.sweeps.map sweepResumed, store := x } := by
  obtain ⟨a, b, c, e⟩ := asking_store (s := s)
    ((fourNumbers.filter fun d => (s.sweeps.get d).state = .stalled).map fun _ => .table)
  have resumed : (fun x : SweepRec => { x with state := if x.state = .stalled then .running else x.state })
      = sweepResumed := by
    funext x
    rcases x with ⟨state, _⟩
    cases state <;> rfl
  refine ⟨_, ⟨a, b, c, rfl⟩, ?_⟩
  unfold State.resumeSweeps
  dsimp only
  rw [touchSweeps_clean clean, e, resumed]

/-- A slot that leaves the queue leaves its order, and no other slot does (R69). -/
theorem leave_order (q : RecoveryQueue) (n : Nat) : (q.leave n).order = q.order.filter (· ≠ n) := by
  simp [RecoveryQueue.leave, RecoveryQueue.order]

theorem onlyTrack_free (sound : s.Sound) (n : Nat) : onlyTrack s (s.setTrack n TrackRec.free) n TrackRec.free :=
  ⟨(track_set sound.tracks n n _ fun _ => rfl).trans (if_pos rfl), fun _ other => track_setTrack_ne s _ other⟩

/-- Settles O41: RELEASE_TRACK's tests in their order, and the record given back to the pool. -/
theorem releaseGivesTheFrameBack : Obligations.ReleaseGivesTheFrameBack := by
  intro tag p n s length link sound clean named
  dsimp only
  have h : OnNamed (.releaseTrack tag p) s 0x11 tag p _ n :=
    ⟨⟨⟨[7], by simp [length], rfl⟩, by omega, by decide⟩, link, sound, clean, named⟩
  have force : (at1 p 6).testBit 0 = true ↔ (p.getD 6 0).toNat % 2 = 1 := by simp [at1, Nat.testBit_zero]
  refine ⟨fun active => ?_, fun inactive locked => ?_, fun inactive unlocked waited => ?_,
    fun inactive unlocked unwaited => ⟨fun whole kept unforced => ?_, fun released => ?_⟩⟩
  · exact h.refuses fun _ _ => if_pos active
  · exact h.refuses fun _ _ => (if_neg inactive).trans (if_pos (Option.isSome_iff_ne_none.2 locked))
  · exact h.refuses fun _ _ => (if_neg inactive).trans <| (if_neg (by simp [unlocked])).trans (if_pos waited)
  · exact h.refuses fun _ _ => (if_neg inactive).trans <| (if_neg (by simp [unlocked])).trans <|
      (if_neg (by simp [unwaited])).trans <| if_pos (by
        rw [← force] at unforced
        rw [reading_track, kept, Bool.eq_false_iff.2 unforced]
        simp [whole])
  · obtain ⟨out, x, asks, perform⟩ := h.asked
    have done := perform (((s.reading out x).freeTrack n).replyWith .ok []) <|
      (if_neg inactive).trans <| (if_neg (by simp [unlocked])).trans <| (if_neg (by simp [unwaited])).trans <|
        if_neg (by
          rw [← force] at released
          rcases released with e | e | e <;> simp only [reading_track, e] <;> simp)
    obtain ⟨y, again, resumed⟩ := resumeSweeps_clean (s := { ((s.reading out x).leaveQueue n).setTrack n TrackRec.free with
      freeList := s.freeList ++ [n] }) ((onlyAsks_flips asks).trans clean)
    have freed : (s.reading out x).freeTrack n = _ := resumed
    rw [freed] at done
    exact ⟨_, done, answered_place rfl _ _ _ _ h.other, ⟨rfl, rfl, onlyAsks_trans asks again⟩,
      onlyTrack_free sound n, rfl, leave_order _ n, rfl, rfl⟩

/-! ## RETRY_TRACK -/

/-- A track retried: FAILED sectors PENDING, and the record at the tail of the ARCHIVE group from step 0 (R78). -/
theorem retried_queued (settled : (s.track n).state = .settled) (failed : Nat) :
    let m := (s.setTrack n ((s.track n).retried failed)).queueTail n .archive
    onlyTrack s m n { s.track n with
      state := .queued, cls := some .archive, nextStep := 0, stepRevs := 0, exported := false
      revision := (s.track n).revision + BitVec.ofNat 16 failed
      origins := { (s.track n).origins with archive := true }
      sectors := (s.track n).sectors.map fun x => if x.status = .failed then
        { x with status := .pending, resolvedStep := none, blind := false, uncertain := none, guess := .none }
        else x } := by
  have live : ((s.track n).retried failed).state ≠ .free := by
    show (s.track n).state ≠ .free
    rw [settled]
    nofun
  have set := onlyTrack_setTrack s n live
  have queued := onlyTrack_queueTail (s.setTrack n ((s.track n).retried failed)) n .archive
  rw [set.1] at queued
  exact onlyTrack_trans set queued

/-- Settles O43: RETRY_TRACK's tests in their order, and the record queued again with its FAILED sectors PENDING. -/
theorem retryRequeuesFailedSectors : Obligations.RetryRequeuesFailedSectors := by
  intro tag p n s length link sound clean named
  dsimp only
  have h : OnNamed (.retryTrack tag p) s 0x13 tag p _ n :=
    ⟨⟨⟨[6], by simp [length], rfl⟩, by omega, by decide⟩, link, sound, clean, named⟩
  refine ⟨fun broken => ?_, fun busy => ?_, fun settled none_ => ?_, fun settled some_ => ?_⟩
  · exact h.refuses fun _ _ => if_pos broken
  · exact h.refuses fun _ _ => (if_neg (by rcases busy with e | e | e <;> simp [e])).trans
      (if_pos (by rcases busy with e | e | e <;> simp [e]))
  · exact h.refuses fun _ _ => (if_neg (by simp [settled])).trans <| (if_neg (by simp [settled])).trans (if_pos none_)
  · obtain ⟨out, x, asks, perform⟩ := h.asked
    have retried := retried_queued settled ((s.track n).countStatus .failed)
    have done := perform ((((s.reading out x).setTrack n
        ((s.track n).retried ((s.track n).countStatus .failed))).queueTail n .archive).replyWith .ok
          ([byteOf ((s.track n).countStatus .failed)]
            ++ be2 ((s.track n).revision + BitVec.ofNat 16 ((s.track n).countStatus .failed)).toNat)) <|
      (if_neg (by simp [settled])).trans <| (if_neg (by simp [settled])).trans <| (if_neg some_).trans <|
        congrArg (fun r : TrackRec => State.replyWith _ .ok (_ ++ be2 r.revision.toNat)) retried.1
    exact ⟨_, done, answered_place rfl _ _ _ _ h.other, ⟨rfl, rfl, asks⟩, retried, rfl, rfl⟩

end Sys2Proof.Machine
end

