-- ==== Sys2Proof/Proofs/ImageClaims.lean ====
section
/-! SUPPORT. A claim that gives a sector of an unbound track a new image (R43, R44, R46, R61): the bytes written to the
frame, the record, and the settling of the track when it was its last unresolved sector. PUSH_SECTOR with it. -/

namespace Sys2Proof.Machine

open Sys2Proof.Stated

variable {s v : State} {n k : Nat} {x : TrackRec} {bytes : List Byte}

/-- Claims that wait leave the store's bytes as they were. -/
theorem onlyAsks_mem {x y : StoreRec} (asks : onlyAsks x y) : y.mem = x.mem := by
  obtain ⟨_, _, _, rfl⟩ := asks
  rfl

/-- A sector of a track that no context is bound to is resolved: its record and image count, and no more (R44). -/
theorem resolveSector_unbound (live : (s.track n).state ≠ .free) (unbound : (s.track n).context = none)
    (f : SectorRec → SectorRec) :
    s.resolveSector n k f = s.setTrack n ((s.track n).setSector k (f ((s.track n).sector k))).imageChanged := by
  have context : ((s.setTrack n ((s.track n).setSector k (f ((s.track n).sector k))).imageChanged).track n).context
      = none := by
    rw [track_setTrack_self s n _
      (show ((s.track n).setSector k (f ((s.track n).sector k))).imageChanged.state ≠ .free from live)]
    exact unbound
  unfold State.resolveSector State.discardCandidates
  dsimp only
  rw [context]

/-! ## Settling -/

/-- A track whose last unresolved sector a claim has not resolved does not settle (R43). -/
theorem settleIfResolved_stays {before : Bool}
    (h : before = false ∨ (s.track n).anyUnresolved = true ∨ (s.track n).state = .settled) :
    s.settleIfResolved n before = s := by
  unfold State.settleIfResolved
  dsimp only
  rcases h with rfl | open_ | settled
  · exact if_pos rfl
  · exact if_pos (by simp [open_])
  · split
    · rfl
    · rw [settled]

/-- A PENDING or QUEUED track whose last unresolved sector a claim has resolved settles (R43). -/
theorem settleIfResolved_settles (closed : (s.track n).anyUnresolved = false) :
    ((s.track n).state = .pending → s.settleIfResolved n true = s.settle n)
      ∧ ((s.track n).state = .queued → s.settleIfResolved n true = (s.leaveQueue n).settle n) := by
  unfold State.settleIfResolved
  dsimp only
  rw [if_neg (by simp [closed])]
  exact ⟨fun pending => by rw [pending], fun queued => by rw [queued]⟩

/-- A claim has made one record of the table `x`, and the track has settled if the claim has resolved its last
unresolved sector (R43, R46, R61). -/
structure ImageTaken (s m : State) (n : Nat) (x : TrackRec) : Prop where
  stays : unresolved x ∨ ¬ unresolved (s.track n) ∨ (s.track n).state = .settled →
    onlyTrack s m n x ∧ m.queue = s.queue ∧ m.link = s.link
  settles : unresolved (s.track n) → ¬ unresolved x → (s.track n).state = .pending ∨ (s.track n).state = .queued →
    onlyTrack s m n { x with state := .settled }
      ∧ ((s.track n).state = .queued → m.queue.order = s.queue.order.filter (· ≠ n))
      ∧ ((s.track n).state = .pending → m.queue = s.queue) ∧ settledSeen s m (s.track n)
  frame : m = { s with tracks := m.tracks, queue := m.queue, link := m.link, store := m.store }

theorem seen_slot {m : State} {r : TrackRec} (h : settledSeen s m r) : m.link.slot = s.link.slot := by
  unfold settledSeen at h
  rw [h]
  split <;> rfl

theorem seen_attention {m : State} {r : TrackRec} (h : settledSeen s m r) : m.link.attention
    = if r.origins.archive then { s.link.attention with settled := true } else s.link.attention := by
  unfold settledSeen at h
  rw [h]
  split <;> rfl

/-- The track stays with the claim's record, or settles with it (R43). -/
theorem ImageTaken.stays_or_settles {m : State} (h : ImageTaken s m n x)
    (place : (s.track n).state = .pending ∨ (s.track n).state = .queued ∨ (s.track n).state = .settled) :
    (m.track n = x ∧ m.link = s.link) ∨ (m.track n = { x with state := .settled } ∧ settledSeen s m (s.track n)) := by
  by_cases stays : unresolved x ∨ ¬ unresolved (s.track n) ∨ (s.track n).state = .settled
  · obtain ⟨one, _, link⟩ := h.stays stays
    exact .inl ⟨one.1, link⟩
  · simp only [not_or, not_not] at stays
    obtain ⟨closed, was, unsettled⟩ := stays
    obtain ⟨one, _, _, seen⟩ := h.settles was closed (by tauto)
    exact .inr ⟨one.1, seen⟩

/-- A track that settles: its record, and SETTLED attention when the workstation has named it (R43). -/
theorem settle_settled (one : onlyTrack s v n x) (link : v.link = s.link)
    (named : x.origins.archive = (s.track n).origins.archive) :
    onlyTrack s (v.settle n) n { x with state := .settled } ∧ settledSeen s (v.settle n) (s.track n) := by
  have set : onlyTrack v (v.settle n) n { v.track n with state := .settled } := by
    rw [settle_eq]
    exact onlyTrack_setTrack v n (x := { v.track n with state := .settled }) nofun
  have seen : settledSeen s (v.settle n) (s.track n) := by
    unfold settledSeen
    rw [settle_eq, one.1, named, ← link]
    dsimp only
    split <;> rfl
  rw [one.1] at set
  exact ⟨onlyTrack_trans one set, seen⟩

theorem settleIfResolved_taken (one : onlyTrack s v n x) (frame : v = { s with tracks := v.tracks, store := v.store })
    (state : x.state = (s.track n).state) (named : x.origins.archive = (s.track n).origins.archive)
    (place : (s.track n).state = .pending ∨ (s.track n).state = .queued ∨ (s.track n).state = .settled) :
    let m := v.settleIfResolved n (s.track n).anyUnresolved
    ImageTaken s m n x ∧ m.store = v.store := by
  have queue : v.queue = s.queue := by rw [frame]
  have link : v.link = s.link := by rw [frame]
  dsimp only
  by_cases stays : (s.track n).anyUnresolved = false ∨ x.anyUnresolved = true ∨ (s.track n).state = .settled
  · rw [settleIfResolved_stays (by rwa [one.1, state])]
    refine ⟨⟨fun _ => ⟨one, queue, link⟩, fun was is_ at_ => ?_, ?_⟩, rfl⟩
    · rw [unresolved_iff] at was is_
      rcases stays with e | e | e
      · simp [e] at was
      · exact absurd e is_
      · rcases at_ with f | f <;> simp [e] at f
    · rw [frame]
  · simp only [not_or, Bool.not_eq_false, Bool.not_eq_true] at stays
    obtain ⟨was, closed, unsettled⟩ := stays
    obtain ⟨pending, queued⟩ := settleIfResolved_settles (s := v) (n := n) (by rwa [one.1])
    rw [one.1, state] at pending queued
    have resolved : ¬ (unresolved x ∨ ¬ unresolved (s.track n) ∨ (s.track n).state = .settled) := by
      simp [unresolved_iff, was, closed, unsettled]
    rw [was]
    rcases place with at_ | at_ | at_
    · rw [pending at_]
      obtain ⟨settled, seen⟩ := settle_settled one link named
      refine ⟨⟨fun h => absurd h resolved, fun _ _ _ => ⟨settled, fun e => ?_, fun _ => ?_, seen⟩, ?_⟩, ?_⟩
      · simp [at_] at e
      all_goals rw [settle_eq]
      · exact queue
      · rw [frame]
    · rw [queued at_]
      have left : onlyTrack s (v.leaveQueue n) n x := one
      obtain ⟨settled, seen⟩ := settle_settled left link named
      refine ⟨⟨fun h => absurd h resolved, fun _ _ _ => ⟨settled, fun _ => ?_, fun e => ?_, seen⟩, ?_⟩, ?_⟩
      · rw [settle_eq]
        exact (leave_order v.queue n).trans (by rw [queue])
      · simp [at_] at e
      · rw [settle_eq, frame]
        rfl
      · rw [settle_eq]
        rfl
    · exact absurd at_ unsettled

/-! ## PUSH_SECTOR -/

/-- A sector's frame bytes are written by a claim: no more of the store changes but the claims that wait (R39). -/
theorem writeFrame_written (wf : Memory.wf s.store.mem = true) (clean : s.store.flips = []) (cl : StoreClaimant)
    (n k : Nat) (bytes : List Byte) :
    Written s (s.writeFrame cl n k bytes) (n * 16384 + k * (s.track n).sectorBytes) bytes :=
  writeStore_written wf clean cl _ bytes

/-- The record of a track with a sector pushed (R44, R48, R49). -/
def TrackRec.pushed (r : TrackRec) (k : Nat) : TrackRec := (r.setSector k (r.sector k).replaced).imageChanged

/-- A push taken on a track that no context is bound to (R43, R61). -/
theorem takePush_taken (wf : Memory.wf s.store.mem = true) (clean : s.store.flips = [])
    (unbound : (s.track n).context = none)
    (place : (s.track n).state = .pending ∨ (s.track n).state = .queued ∨ (s.track n).state = .settled) :
    let m := s.takePush n k bytes
    ImageTaken s m n ((s.track n).pushed k)
      ∧ Written s { s with store := m.store } (n * 16384 + k * (s.track n).sectorBytes) bytes := by
  have live : (s.track n).state ≠ .free := by rcases place with e | e | e <;> simp [e]
  have written := writeFrame_written wf clean .link n k bytes
  have same : (s.writeFrame .link n k bytes).track n = s.track n := rfl
  have taken := settleIfResolved_taken (s := s) (v := (s.writeFrame .link n k bytes).setTrack n ((s.track n).pushed k))
    (onlyTrack_setTrack s n (x := (s.track n).pushed k) live) rfl rfl rfl place
  have push : s.takePush n k bytes = ((s.writeFrame .link n k bytes).setTrack n ((s.track n).pushed k)).settleIfResolved
      n (s.track n).anyUnresolved := by
    unfold State.takePush
    dsimp only
    rw [resolveSector_unbound (by rwa [same]) (by rwa [same]), same]
    rfl
  dsimp only at taken ⊢
  rw [push, taken.2]
  exact ⟨taken.1, written.read, written.others, written.store, rfl⟩

/-- Settles O38: PUSH_SECTOR's tests in their order, and the push taken. -/
theorem pushReplacesTheSector : Obligations.PushReplacesTheSector := by
  intro tag p n s length link sound clean named
  dsimp only
  have h : OnNamed (.pushSector tag p) s 0x0D tag p _ n :=
    ⟨⟨⟨[136, 264, 520], by simpa using length, rfl⟩, by omega, by decide⟩, link, sound, clean, named⟩
  refine ⟨fun broken => ?_, fun whole outside => ?_, fun whole inside => ?_⟩
  · exact h.refuses fun _ _ => if_pos broken
  · exact h.refuses fun _ _ => (if_neg whole).trans (if_pos outside)
  have inside : ¬ (s.track n).sectors.length ≤ at1 p 6 := Nat.not_le.2 inside
  refine ⟨fun other => ?_, fun size unlocked => ?_, fun size locked marked => ?_,
    fun size locked unmarked unbound inactive => ?_⟩
  · exact h.refuses fun _ _ => (if_neg whole).trans <| (if_neg inside).trans <| if_pos other
  · exact h.refuses fun _ _ => (if_neg whole).trans <| (if_neg inside).trans <| (if_neg (not_not.2 size)).trans <|
      if_pos (by simp [unlocked])
  · exact h.refuses fun _ _ => (if_neg whole).trans <| (if_neg inside).trans <| (if_neg (not_not.2 size)).trans <|
      (if_neg (by simpa using locked)).trans <| if_pos marked
  · obtain ⟨out, x, asks, perform⟩ := h.asked
    have place : (s.track n).state = .pending ∨ (s.track n).state = .queued ∨ (s.track n).state = .settled := by
      have live := names_live named
      cases e : (s.track n).state <;> simp [e] at whole inactive live ⊢
    obtain ⟨taken, read, others, store, _⟩ := takePush_taken (s := s.reading out x) (n := n) (k := at1 p 6)
      (bytes := p.drop 8) (by
        rw [show (s.reading out x).store.mem = s.store.mem from onlyAsks_mem asks]
        exact sound.memory)
      ((onlyAsks_flips asks).trans clean) unbound place
    have revision : (((s.reading out x).takePush n (at1 p 6) (p.drop 8)).track n).revision
        = (s.track n).revision + 1 := by
      rcases taken.stays_or_settles place with ⟨e, _⟩ | ⟨e, _⟩ <;> exact congrArg TrackRec.revision e
    have slot : ((s.reading out x).takePush n (at1 p 6) (p.drop 8)).link.slot = s.link.slot := by
      rcases taken.stays_or_settles place with ⟨_, e⟩ | ⟨_, seen⟩
      · exact (congrArg LinkRec.slot e).trans rfl
      · exact (seen_slot seen).trans rfl
    have done := perform (((s.reading out x).takePush n (at1 p 6) (p.drop 8)).replyWith .ok
      (be2 ((s.track n).revision + 1).toNat)) <|
        (if_neg whole).trans <| (if_neg inside).trans <| (if_neg (not_not.2 size)).trans <|
        (if_neg (by simpa using locked)).trans <| (if_neg unmarked).trans <|
        congrArg (fun v : Word16 => State.replyWith _ .ok (be2 v.toNat)) revision
    generalize (s.reading out x).takePush n (at1 p 6) (p.drop 8) = m at *
    obtain ⟨stays, settles, frame⟩ := taken
    refine ⟨_, done, answered_place slot _ _ _ _ h.other, (asksAndBytes_of_onlyAsks asks).trans store, read,
      fun a outside => (others a outside).trans (by rw [← onlyAsks_mem asks]; rfl), fun e => ?_,
      fun was closed at_ => ?_, ?_⟩
    · obtain ⟨one, queue, link⟩ := stays e
      exact ⟨one, queue, (congrArg LinkRec.attention link).trans rfl⟩
    · obtain ⟨one, queued, pending, seen⟩ := settles was closed at_
      exact ⟨one, queued, pending, (seen_attention seen).trans rfl⟩
    · rw [frame]
      rfl

end Sys2Proof.Machine
end

