-- ==== Sys2Proof/Proofs/LinkReset.lean ====
section
/-! SUPPORT. LINK_RST (R172): every lock of the lock table released, and the waiting units notified (R56). -/

namespace Sys2Proof.Machine

open Sys2Proof.Stated

variable {s : State}

theorem mem_lockedTracks (s : State) (n : Nat) : n ∈ s.lockedTracks ↔ ∃ e, s.locks.get e = some n := by
  simp [State.lockedTracks, Four.mem_toList]

/-- The locks of some slots dropped: their records' LOCK, and nothing else (R56). -/
theorem foldl_dropLock (l : List Nat) {s : State} (sound : tracksSound s.tracks = true) :
    (∃ ts, l.foldl State.dropLock s = { s with tracks := ts })
      ∧ ∀ n, (l.foldl State.dropLock s).track n = if n ∈ l then { s.track n with lock := none } else s.track n := by
  induction l generalizing s with
  | nil => exact ⟨⟨s.tracks, rfl⟩, fun n => rfl⟩
  | cons m rest ih =>
    obtain ⟨⟨ts, frame⟩, tracks⟩ := ih (s := s.dropLock m) (tracksSound_mod sound m _)
    refine ⟨⟨ts, frame⟩, fun n => (tracks n).trans ?_⟩
    have one : (s.dropLock m).track n = if n = m then { s.track m with lock := none } else s.track n :=
      track_mod_same sound m n _ (fun _ => rfl) rfl
    rw [one]
    by_cases same : n = m
    · subst same
      simp
    · simp [same]

/-- Settles O30: the locks of the table are dropped one by one, in a store without bit errors. -/
theorem linkResetReleasesLocks : Obligations.LinkResetReleasesLocks := by
  intro s
  refine ⟨fun line clean sound => ?_, fun line => congrArg Host.Outcome.next (if_pos line), rfl⟩
  obtain ⟨a, b, c, asked⟩ := asking_store (s := s) (s.lockedTracks.map fun _ => .link)
  obtain ⟨w, hw⟩ : ∃ w : State, w = { s with
    store := { s.store with asks := a, selfRefresh := b, timerRunning := c } } := ⟨_, rfl⟩
  have released : s.releaseAllLocks = { (s.lockedTracks.foldl State.dropLock w).notifyWaiters
      (fun n => s.lockedTracks.contains n) with locks := Four.all none } := by
    unfold State.releaseAllLocks
    dsimp only
    rw [touchTracks_clean clean, asked, hw]
    rfl
  obtain ⟨⟨ts, frame⟩, tracks⟩ := foldl_dropLock s.lockedTracks (s := w) (by rw [hw]; exact sound.tracks)
  have performed : exec .linkRst s = .next (State.finish { s.releaseAllLocks with link := _ }) :=
    congrArg Host.Outcome.next (if_neg (by simp [line]))
  refine ⟨_, performed, rfl, fun e => Four.get_all _ e, ?_⟩
  rw [released]
  have track : ∀ n, ((s.lockedTracks.foldl State.dropLock w).track n)
      = if n ∈ s.lockedTracks then { s.track n with lock := none } else s.track n := fun n => by
    rw [tracks n, hw]
    rfl
  have listed := mem_lockedTracks s
  refine ⟨fun n locked => (track n).trans (if_pos ((listed n).2 locked)),
    fun n unlocked => (track n).trans (if_neg fun m => ?_), ?_, ?_, ?_⟩
  · obtain ⟨e, at_⟩ := (listed n).1 m
    exact unlocked e at_
  all_goals rw [frame, hw]
  · exact notifyWaiters_notified (fun n => List.contains_iff_mem.trans (listed n)) s
  · exact ⟨_, _, _, rfl⟩
  · rfl

end Sys2Proof.Machine
end

