-- ==== Sys2Proof/Proofs/Rescan.lean ====
section
/-! SUPPORT. The rescan after RESET_CONTROLLER (R53, R65, R174), in a store without bit errors with no unit or context
holding a track: what it makes of each record, the queue and the free list, and the discoveries that follow it. -/

namespace Sys2Proof.Machine

open Sys2Proof.Stated

variable {s t : State} {n : Nat} {failed : List Nat}

/-! ## One record -/

/-- A record as the rescan leaves it, where no other record holds its address (R174). -/
def TrackRec.scanned (fails : Bool) (r : TrackRec) : TrackRec :=
  if r.state = .broken then r
  else if fails then TrackRec.broken r.diverged
  else if r.state = .free then r
  else r.rescanned

theorem scanned_scanned (fails : Bool) (r : TrackRec) : (r.scanned fails).scanned fails = r.scanned fails := by
  have twice : r.rescanned.rescanned = r.rescanned := by
    unfold TrackRec.rescanned TrackRec.demoted
    by_cases demand : r.cls = some .demand <;> simp [demand]
  have same : r.rescanned.state = r.state := rfl
  by_cases broken : r.state = .broken
  · simp [TrackRec.scanned, broken]
  · cases fails with
    | true => simp [TrackRec.scanned, broken, TrackRec.broken]
    | false => by_cases free : r.state = .free <;> simp [TrackRec.scanned, broken, free, same, twice]

/-- The rescan gives no record an address. -/
theorem scanned_holds {fails : Bool} {r : TrackRec} {a : TrackAddr} (h : (r.scanned fails).holds a = true) :
    r.holds a = true := by
  unfold TrackRec.scanned at h
  split at h
  · exact h
  · split at h
    · simp [TrackRec.holds, TrackRec.broken] at h
    · split at h
      · exact h
      · exact h

/-- A state that the rescan can walk over as the statement has it: no bit error, no unit or context holding a track,
and no address held twice. -/
structure State.Scannable (s : State) : Prop where
  clean : s.store.flips = []
  ctxs : ∀ c, s.ctxs.get c = CtxRec.free
  units : ∀ u, s.units.get u = UnitRec.reset
  sound : tracksSound s.tracks = true
  unique : ∀ n k a, n ≠ k → (s.track n).holds a = true → (s.track k).holds a = false

/-- What a change of a record to BROKEN or of its fields may touch in a state that the rescan walks over. -/
def onlyLists (s t : State) : Prop :=
  t = { s with tracks := t.tracks, queue := t.queue, freeList := t.freeList, locks := t.locks }

theorem onlyLists_trans {v : State} (h : onlyLists s t) (g : onlyLists t v) : onlyLists s v := by
  unfold onlyLists at h g ⊢
  rw [g, h]

theorem State.Scannable.removeTrack (h : s.Scannable) (n : Nat) :
    ∃ q l, s.removeTrack n = { s with queue := q, freeList := l } := by
  unfold State.removeTrack
  dsimp only
  split
  · exact ⟨_, _, rfl⟩
  · split
    · refine ⟨s.queue, s.freeList, ?_⟩
      unfold State.unbind
      rw [h.ctxs]
      rfl
    · exact ⟨_, _, rfl⟩
  all_goals exact ⟨_, _, rfl⟩

theorem notifyWaiters_reset (units : ∀ u, s.units.get u = UnitRec.reset) (on : Nat → Bool) :
    s.notifyWaiters on = s := by
  have same : s.units.map (fun r => r.notify on) = s.units := Four.ext_get fun u => by
    rw [Four.get_map, units u]
    rfl
  unfold State.notifyWaiters
  rw [same]

theorem endWaitersBroken_reset (units : ∀ u, s.units.get u = UnitRec.reset) (n : Nat) : s.endWaitersBroken n = s := by
  unfold State.endWaitersBroken
  induction fourNumbers with
  | nil => rfl
  | cons u rest ih =>
    have step : (if (s.units.get u).waitsOnSlot n then s.endBroken u else s) = s := by
      rw [units u]
      rfl
    rw [List.foldl_cons, step]
    exact ih

/-- The lock of a record is released where no unit waits: the record and the lock table alone change (R56). -/
theorem State.Scannable.releaseLock (sound : tracksSound s.tracks = true) (units : ∀ u, s.units.get u = UnitRec.reset)
    (n : Nat) : ∃ ts ls, s.releaseLock n = { s with tracks := ts, locks := ls } ∧ tracksSound ts = true
      ∧ ∀ k, k ≠ n → (s.releaseLock n).track k = s.track k := by
  cases lock : (s.track n).lock with
  | none =>
    have same : s.releaseLock n = s := by
      unfold State.releaseLock
      rw [lock]
    rw [same]
    exact ⟨s.tracks, s.locks, rfl, sound, fun _ _ => rfl⟩
  | some e =>
    rw [releaseLock_locked lock, notifyWaiters_reset (by exact units)]
    exact ⟨_, _, rfl, tracksSound_mod sound n _, fun k other =>
      track_modTrack_ne s (fun r => { r with lock := none }) other⟩

/-- The record of a slot becomes BROKEN, and nothing but the lists and the lock table goes with it (R53). -/
theorem State.Scannable.breakTrack (h : s.Scannable) (n : Nat) (d : Bool) : onlyLists s (s.breakTrack n d)
    ∧ tracksSound (s.breakTrack n d).tracks = true
    ∧ ∀ k, (s.breakTrack n d).track k = if k = n then TrackRec.broken d else s.track k := by
  obtain ⟨q, l, removed⟩ := h.removeTrack n
  obtain ⟨ts, ls, unlocked, sound, others⟩ := State.Scannable.releaseLock
    (s := { s with queue := q, freeList := l }) h.sound h.units n
  have broken : s.breakTrack n d
      = ({ s with tracks := ts, queue := q, freeList := l, locks := ls } : State).setTrack n (TrackRec.broken d) := by
    unfold State.breakTrack
    rw [removed, unlocked, endWaitersBroken_reset (by exact h.units)]
    exact clearFlips_clean (s := ({ s with tracks := ts, queue := q, freeList := l, locks := ls } : State).setTrack n
      (TrackRec.broken d)) h.clean _
  rw [unlocked] at others
  rw [broken]
  refine ⟨rfl, tracksSound_set sound n _, fun k => (track_set sound n k _ fun free => by cases free).trans ?_⟩
  split
  · rfl
  · next other => exact others k other

/-- The rescan of one slot leaves the record that it makes of it, and keeps what it walks over. -/
theorem State.Scannable.rescanTrack (h : s.Scannable) (failed : List Nat) (n : Nat) :
    onlyLists s (s.rescanTrack failed n) ∧ tracksSound (s.rescanTrack failed n).tracks = true
      ∧ ∀ k, (s.rescanTrack failed n).track k
        = if k = n then (s.track n).scanned (failed.contains n) else s.track k := by
  have unchanged : ∀ k, (if k = n then s.track n else s.track k) = s.track k := fun k => by
    split
    · next same => rw [same]
    · rfl
  have below : (s.track n).state ≠ .broken → s.heldBelow n = false := fun whole => by
    unfold State.heldBelow
    cases addr : (s.track n).addr with
    | none => rfl
    | some a =>
      have live : (s.track n).state ≠ .free := fun free => by
        rw [track_of_free h.sound free] at addr
        cases addr
      have holds : (s.track n).holds a = true := by simp [TrackRec.holds, live, whole, addr]
      refine List.any_eq_false.2 fun e listed => ?_
      obtain ⟨k, r⟩ := e
      rw [← ((mem_tracks h.sound k r).1 listed).1]
      simpa using fun lower : k < n => h.unique n k a (Nat.ne_of_gt lower) holds
  unfold State.rescanTrack TrackRec.scanned
  rw [flippedOf_clean h.clean, readWords_nil]
  dsimp only
  by_cases broken : (s.track n).state = .broken
  · rw [if_pos broken, if_pos broken]
    exact ⟨rfl, h.sound, fun k => (unchanged k).symm⟩
  · rw [if_neg broken, if_neg broken, below broken, Bool.or_false]
    split
    · exact h.breakTrack n _
    · split
      · exact ⟨rfl, h.sound, fun k => (unchanged k).symm⟩
      · next live => exact ⟨rfl, tracksSound_mod h.sound n _,
            fun k => track_mod h.sound n k _ fun free => absurd free live⟩

/-- The rescan's walk over some slots (R174). -/
theorem State.Scannable.foldl_rescanTrack (l : List Nat) (failed : List Nat) {s : State} (h : s.Scannable) :
    onlyLists s (l.foldl (State.rescanTrack failed) s)
      ∧ tracksSound (l.foldl (State.rescanTrack failed) s).tracks = true
      ∧ ∀ k, (l.foldl (State.rescanTrack failed) s).track k
        = if k ∈ l then (s.track k).scanned (failed.contains k) else s.track k := by
  induction l generalizing s with
  | nil => exact ⟨rfl, h.sound, fun k => rfl⟩
  | cons n rest ih =>
    obtain ⟨lists, sound, track⟩ := h.rescanTrack failed n
    have holds : ∀ k a, ((s.rescanTrack failed n).track k).holds a = true → (s.track k).holds a = true :=
        fun k a held => by
      rw [track] at held
      split at held
      · next same => rw [same]; exact scanned_holds held
      · exact held
    have next_ : (s.rescanTrack failed n).Scannable := by
      refine ⟨?_, ?_, ?_, sound, fun i k a other held => Bool.eq_false_iff.2 fun again => ?_⟩
      · rw [lists]; exact h.clean
      · rw [lists]; exact h.ctxs
      · rw [lists]; exact h.units
      · exact Bool.eq_false_iff.1 (h.unique i k a other (holds i a held)) (holds k a again)
    obtain ⟨lists', sound', track'⟩ := ih next_
    refine ⟨onlyLists_trans lists lists', sound', fun k => ?_⟩
    rw [List.foldl_cons, track' k, track k]
    by_cases same : k = n
    · subst same
      simp [scanned_scanned]
    · simp [same]

/-! ## The lists -/

theorem rescanUpper_clean (clean : s.store.flips = []) : s.rescanUpper = s := by
  unfold State.rescanUpper
  induction fourNumbers with
  | nil => rfl
  | cons d rest ih =>
    rw [List.foldl_cons]
    simp only [flippedOf_clean clean, readWords_nil]
    exact ih

theorem queuedOf_pairwise (sound : tracksSound s.tracks = true) (cls : TrackClass) :
    (s.queuedOf cls).Pairwise (· < ·) := by
  simp only [tracksSound, Bool.and_eq_true] at sound
  exact (keys_pairwise sound.1).1.sublist (List.filter_sublist.map _)

theorem mem_queuedOf (sound : tracksSound s.tracks = true) (cls : TrackClass) (n : Nat) :
    n ∈ s.queuedOf cls ↔ (s.track n).state = .queued ∧ (s.track n).cls = some cls := by
  simp only [State.queuedOf, List.mem_map, List.mem_filter, Bool.and_eq_true, decide_eq_true_eq]
  constructor
  · rintro ⟨⟨k, r⟩, ⟨listed, on⟩, rfl⟩
    rw [((mem_tracks sound k r).1 listed).1]
    exact on
  · intro on
    exact ⟨⟨n, s.track n⟩, ⟨(mem_tracks sound n _).2 ⟨rfl, by simp [on.1]⟩, on⟩, rfl⟩

/-! ## The discoveries -/

/-- The record of a position once the discovery of every drive in service has begun. -/
def DriveRec.servedBegun (r : DriveRec) : DriveRec := if r.inService then r.discoveryBegun else r

theorem servedBegun_fields (r : DriveRec) : r.servedBegun.state = r.state ∧ r.servedBegun.fitted = r.fitted := by
  unfold DriveRec.servedBegun
  split <;> exact ⟨rfl, rfl⟩

theorem foldl_resumeDrive_served (l : List (Fin 4)) {s : State}
    (fine : ∀ d, (s.drives.get d).state ≠ DriveState.faulted) : l.foldl State.resumeDrive s
      = { s with drives := l.foldl (fun x d => x.modify d DriveRec.servedBegun) s.drives } := by
  induction l generalizing s with
  | nil => rfl
  | cons d rest ih =>
    have step : s.resumeDrive d = s.modDrive d DriveRec.servedBegun := by
      unfold State.resumeDrive
      by_cases service : (s.drives.get d).inService = true
      · have stays : (s.drives.get d).state ≠ DriveState.withdrawn := by
          simp only [DriveRec.inService, Bool.and_eq_true, decide_eq_true_eq] at service
          exact service.2
        rw [if_pos service, startDiscovery_plain (fine d) stays]
        simp [State.modDrive, Four.modify, DriveRec.servedBegun, service]
      · rw [if_neg service]
        simp [State.modDrive, Four.modify, DriveRec.servedBegun, service, four_set_self]
    rw [List.foldl_cons, step]
    refine ih fun i => ?_
    rw [modDrive_drives, Four.get_modify]
    split
    · next same => rw [(servedBegun_fields _).1]; exact same ▸ fine i
    · exact fine i

/-- The DISCOVERY phase begins with the discovery of every drive in service, where none is FAULTED (R174). -/
theorem beginDiscoveryPhase_served (fine : ∀ d, (s.drives.get d).state ≠ DriveState.faulted) :
    s.beginDiscoveryPhase DriveRec.inService = { s with
      ctl := { s.ctl with phase := some .discovery }, drives := s.drives.map DriveRec.servedBegun } :=
  foldl_resumeDrive_served fourNumbers (s := { s with ctl := { s.ctl with phase := some .discovery } }) fine

/-! ## RESCAN_END -/

/-- The rescan: each usable slot's record as it makes it, and the queue and the free list in ascending order (R174). -/
theorem State.Scannable.rescan (h : s.Scannable) (failed : List Nat) : ∃ t, onlyLists s t ∧ tracksSound t.tracks = true
    ∧ (∀ k, t.track k = if k < s.usable then (s.track k).scanned (failed.contains k) else s.track k)
    ∧ s.rescan failed = t.rebuildLists := by
  obtain ⟨lists, sound, track⟩ := h.foldl_rescanTrack (List.range s.usable) failed
  refine ⟨_, lists, sound, fun k => by rw [track k]; simp only [List.mem_range], ?_⟩
  unfold State.rescan
  rw [rescanUpper_clean (by rw [lists]; exact h.clean)]

/-- Settles O15: the rescan's walk record by record, the lists rebuilt from it, and the discoveries begun. -/
theorem rescanPutsTracksInOrder : Obligations.RescanPutsTracksInOrder := by
  intro failed s starting rescan clean ctxs units sound _ unique fine
  have phase : s.inPhase .rescan = true := by simp [State.inPhase, starting, rescan]
  obtain ⟨t, lists, tracks, track, scanned⟩ := State.Scannable.rescan ⟨clean, ctxs, units, sound.tracks, unique⟩ failed
  have performed : exec (.rescanEnd failed) s
      = .next ((s.rescan failed).beginDiscoveryPhase DriveRec.inService).finish :=
    congrArg Host.Outcome.next (if_pos phase)
  have drives : t.drives = s.drives := by rw [lists]
  have usable : t.usable = s.usable := by rw [lists]; rfl
  rw [scanned, beginDiscoveryPhase_served (s := t.rebuildLists) (fun d => by
    rw [show t.rebuildLists.drives = s.drives from drives]; exact fine d)] at performed
  have made : ∀ n, n < s.usable → t.track n = (s.track n).scanned (failed.contains n) := fun n below =>
    (track n).trans (if_pos below)
  refine ⟨_, performed, ?_, fun n below fails whole => ?_, fun n below broken => ?_,
    fun n below passes whole live => ?_, fun n below passes free => ?_, rfl, queuedOf_pairwise tracks _, queuedOf_pairwise tracks _,
    mem_queuedOf tracks _, mem_queuedOf tracks _, ?_, fun n => ?_, fun d => ?_, ?_, ?_, ?_, ?_, ?_⟩
  · rw [lists]; rfl
  · refine (made n below).trans ?_
    simp [TrackRec.scanned, whole, fails, TrackRec.broken]
  · refine (made n below).trans ?_
    simp [TrackRec.scanned, broken]
  · refine (made n below).trans ?_
    simp [TrackRec.scanned, whole, passes, live, TrackRec.rescanned, TrackRec.demoted]
  · refine (made n below).trans ?_
    simp [TrackRec.scanned, passes, free]
  · exact (List.pairwise_lt_range).sublist List.filter_sublist
  · refine (List.mem_filter (p := fun n => decide ((t.track n).state = .free))).trans ?_
    rw [List.mem_range, usable, decide_eq_true_iff]
    rfl
  · show (t.drives.map _).get d = _
    rw [drives, Four.get_map]
    simp [DriveRec.servedBegun, DriveRec.inService, DriveRec.discoveryBegun]
  all_goals rw [lists]; rfl

end Sys2Proof.Machine
end

