-- ==== Sys2Proof/Proofs/QueueTrack.lean ====
section
/-! SUPPORT. QUEUE_TRACK (R52, R66, R67, R77): its tests in their order, and the record that it finds or allocates. -/

namespace Sys2Proof.Machine

open Sys2Proof.Stated

variable {s : State} {d : Fin 4} {p : List Byte} {n : Nat} {out : List Byte} {x : StoreRec} {a : TrackAddr}
  {g : Geometry} {cls : TrackClass} {o : OriginKind}

/-! ## Enqueueing and promotion -/

theorem enqueue_pending (pending : (s.track n).state = .pending) : s.enqueue n cls = s.queueTail n cls := if_pos pending

theorem promote_pending (pending : (s.track n).state = .pending) : s.promote n cls = s.queueTail n cls := by
  unfold State.promote
  dsimp only
  rw [pending]
  exact enqueue_pending pending

/-- A QUEUED track of a lower class leaves its place for the tail of the class given (R67). -/
theorem promote_queued (queued : (s.track n).state = .queued) (raised : (s.track n).raisedBy cls = true) :
    s.promote n cls = (s.leaveQueue n).queueTail n cls := by
  unfold State.promote
  dsimp only
  rw [queued]
  exact if_pos raised

/-- An ACTIVE track of a lower class takes the class given (R67). -/
theorem promote_active (active : (s.track n).state = .active) (raised : (s.track n).raisedBy cls = true) :
    s.promote n cls = s.modTrack n fun r => { r with cls := some cls } := by
  unfold State.promote
  dsimp only
  rw [active]
  exact if_pos raised

/-- A track that is not PENDING, and is SETTLED or of a class that is not lower, is not promoted (R67). -/
theorem promote_kept (placed : (s.track n).state ≠ .pending)
    (h : (s.track n).state = .settled ∨ (s.track n).raisedBy cls = false) : s.promote n cls = s := by
  unfold State.promote
  dsimp only
  cases state : (s.track n).state
  case pending => exact absurd state placed
  case queued | active =>
    rw [state] at h
    exact if_neg (by simpa using h)
  all_goals rfl

/-- A QUEUED track that moves to the tail of another class takes that class (R67). -/
theorem onlyTrack_moved (queued : (s.track n).state = .queued) (cls : TrackClass) :
    onlyTrack s ((s.leaveQueue n).queueTail n cls) n { s.track n with cls := some cls } := by
  have moved : onlyTrack s ((s.leaveQueue n).queueTail n cls) n { s.track n with state := .queued, cls := some cls } :=
    onlyTrack_queueTail (s.leaveQueue n) n cls
  rwa [← queued] at moved

/-- A track's ORIGINS gain an origin (R40). -/
theorem onlyTrack_addOrigin (live : (s.track n).state ≠ .free) (o : OriginKind) :
    onlyTrack s (s.addOrigin n o) n { s.track n with origins := (s.track n).origins.add o } :=
  onlyTrack_setTrack s n (x := { s.track n with origins := (s.track n).origins.add o }) live

/-- A record that holds an address is not FREE and not BROKEN (R52). -/
theorem holds_live {r : TrackRec} (h : r.holds a = true) : r.state ≠ .free ∧ r.state ≠ .broken := by
  simp only [TrackRec.holds, Bool.and_eq_true, decide_eq_true_eq] at h
  exact h.1

/-! ## The allocation claim -/

/-- A slot's record is allocated and gains its first origin (R52 step 4). -/
theorem onlyTrack_allocated (s : State) (n : Nat) (a : TrackAddr) (g : Geometry) (o : OriginKind) :
    onlyTrack s ((s.setTrack n (TrackRec.allocated a g)).addOrigin n o) n (freshRecord a g (Origins.empty.add o)) := by
  have set := onlyTrack_setTrack s n (x := TrackRec.allocated a g) nofun
  have named := onlyTrack_addOrigin (s := s.setTrack n (TrackRec.allocated a g)) (n := n)
    (by rw [set.1]; exact nofun) o
  rw [set.1] at named
  exact onlyTrack_trans set named

/-! ## The tests -/

/-- QUEUE_TRACK on a fitted drive: the records read, and the answer by the drive's geometry (R77). -/
theorem queueTrack_tested (clean : s.store.flips = []) (drive : at1 p 0 = d.val)
    (fit : (s.drives.get d).fitted = true) :
    ∃ out x, onlyAsks s.store x
      ∧ (s.geometry.get d = none → (s.requestWindow p).queueTrack p = (s.reading out x).reply .driveCondition)
      ∧ ∀ g, s.geometry.get d = some g →
        (g.contains (at2 p 1) (at1 p 3) = false → (s.requestWindow p).queueTrack p = (s.reading out x).reply .range)
        ∧ (g.contains (at2 p 1) (at1 p 3) = true →
            (s.requestWindow p).queueTrack p = (s.reading out x).queueAddress ⟨d, at2 p 1, at1 p 3⟩) := by
  obtain ⟨out, x, asks, asked⟩ := onlyRead_asking (onlyRead_requestWindow s p)
    (((s.requestWindow p).queueOwners ⟨d, at2 p 1, at1 p 3⟩).map fun _ => .link)
  have asked : _ = s.reading out x := asked
  refine ⟨out, x, asks, ?_⟩
  unfold State.queueTrack
  rw [withDrive_some (s := s.requestWindow p) drive fit]
  dsimp only
  rw [withRecords_clean (s := s.requestWindow p) clean, asked]
  refine ⟨fun undefined => ?_, fun g defined => ⟨fun outside => ?_, fun inside => ?_⟩⟩
  · rw [show (s.reading out x).geometry.get d = none from undefined]
  all_goals rw [show (s.reading out x).geometry.get d = some g from defined]
  · exact if_pos (by simp [outside])
  · exact if_neg (by simp [inside])

/-! ## The record found or allocated -/

/-- QUEUE_TRACK finds the track SETTLED (R77). -/
theorem queueAddress_settled (sound : s.Sound) (only : ∀ k, (s.track k).holds a = true ↔ k = n)
    (settled : (s.track n).state = .settled) : (s.reading out x).queueAddress a = (s.reading out x).reply .settled := by
  unfold State.queueAddress
  rw [show (s.reading out x).findTrack a = some n from find_only sound only]
  exact if_pos (by simp [settled])

/-- QUEUE_TRACK finds a record that is not SETTLED: the record gains ARCHIVE among its ORIGINS and is dealt with by its
STATE (R77). -/
theorem queueAddress_found (sound : s.Sound) (clean : s.store.flips = []) (asks : onlyAsks s.store x)
    (defined : s.geometry.get a.drive = some g) (inside : g.contains a.cyl a.head = true)
    (only : ∀ k, (s.track k).holds a = true ↔ k = n) (unsettled : (s.track n).state ≠ .settled) :
    ∃ y, onlyAsks s.store y
      ∧ (s.reading out x).queueAddress a = ((s.reading out y).addOrigin n .archive).queueFound n := by
  have twice : onlyAsks s.store (((s.reading out x).askStore .link 1).askStore .link 1).store :=
    onlyAsks_trans asks ⟨_, _, _, rfl⟩
  refine ⟨_, twice, ?_⟩
  unfold State.queueAddress
  rw [show (s.reading out x).findTrack a = some n from find_only sound only]
  dsimp only
  rw [if_neg (by simp [unsettled]),
    allocate_found (w := s.reading out x) sound ((onlyAsks_flips asks).trans clean) rfl defined inside only]
  rfl

/-- QUEUE_TRACK allocates the slot at the head of the free list (R52, R77). -/
theorem queueAddress_fresh {rest : List Nat} (sound : s.Sound) (clean : s.store.flips = []) (asks : onlyAsks s.store x)
    (defined : s.geometry.get a.drive = some g) (inside : g.contains a.cyl a.head = true)
    (nobody : ∀ k, (s.track k).holds a = false) (free : s.freeList = n :: rest) :
    ∃ y, onlyAsks s.store y ∧ (s.reading out x).queueAddress a
      = (((({ s.reading out y with freeList := rest } : State).setTrack n (TrackRec.allocated a g)).addOrigin n
          .archive).enqueue n .archive).queuedReply n .new := by
  have twice : onlyAsks s.store (((s.reading out x).askStore .link 1).askStore .link 1).store :=
    onlyAsks_trans asks ⟨_, _, _, rfl⟩
  refine ⟨_, twice, ?_⟩
  unfold State.queueAddress
  rw [show (s.reading out x).findTrack a = none from find_nobody sound nobody]
  dsimp only
  rw [if_neg (by simp),
    allocate_fresh (w := s.reading out x) sound ((onlyAsks_flips asks).trans clean) rfl defined inside nobody free]
  rfl

/-- QUEUE_TRACK finds no record and an empty pool (R77). -/
theorem queueAddress_empty (sound : s.Sound) (clean : s.store.flips = []) (asks : onlyAsks s.store x)
    (defined : s.geometry.get a.drive = some g) (inside : g.contains a.cyl a.head = true)
    (nobody : ∀ k, (s.track k).holds a = false) (empty : s.freeList = []) :
    ∃ y, onlyAsks s.store y ∧ (s.reading out x).queueAddress a = (s.reading out y).reply .poolFull := by
  have once : onlyAsks s.store ((s.reading out x).askStore .link 1).store := onlyAsks_trans asks ⟨_, _, _, rfl⟩
  refine ⟨_, once, ?_⟩
  unfold State.queueAddress
  rw [show (s.reading out x).findTrack a = none from find_nobody sound nobody]
  dsimp only
  rw [if_neg (by simp),
    allocate_empty (w := s.reading out x) sound ((onlyAsks_flips asks).trans clean) rfl defined inside nobody empty]
  rfl

/-- What QUEUE_TRACK does with a record that it has found (R66, R67, R77). -/
theorem queueFound_cases (s : State) (n : Nat) : let r := s.track n
    (r.state = .pending → s.queueFound n = (s.queueTail n .archive).queuedReply n .enqueued)
    ∧ (r.state = .queued → r.cls = some .sweep →
        s.queueFound n = ((s.leaveQueue n).queueTail n .archive).queuedReply n .promoted)
    ∧ (r.state = .active → r.cls = some .sweep →
        s.queueFound n = (s.modTrack n fun r => { r with cls := some .archive }).queuedReply n .promoted)
    ∧ (r.state = .queued ∨ r.state = .active → r.cls ≠ some .sweep → s.queueFound n = s.queuedReply n .already) := by
  have raised (sweep : (s.track n).cls = some .sweep) : (s.track n).raisedBy .archive = true := by
    simp [TrackRec.raisedBy, sweep, TrackClass.rank]
  unfold State.queueFound
  dsimp only
  refine ⟨fun pending => ?_, fun queued sweep => ?_, fun active sweep => ?_, fun placed other => ?_⟩
  · rw [pending]
    exact congrArg (State.queuedReply · n .enqueued) (enqueue_pending pending)
  · rw [queued]
    exact (if_pos sweep).trans (congrArg (State.queuedReply · n .promoted) (promote_queued queued (raised sweep)))
  · rw [active]
    exact (if_pos sweep).trans (congrArg (State.queuedReply · n .promoted) (promote_active active (raised sweep)))
  · rcases placed with state | state <;> rw [state] <;> exact if_neg other

/-! ## The answer -/

/-- QUEUE_TRACK is performed with the reply that its rule gives on the window's state. -/
theorem exec_queueTrack {tag : Byte} (length : p.length = 4) (link : linkReady s) (y : Reply)
    (reply : (s.requestWindow p).queueTrack p = y) :
    exec (.queueTrack tag p) s = .next (y.after.place 0x12 tag y.result y.payload).finish :=
  request_performed (rest := State.finish) rfl y reply link.1 (by simp [length]) (by omega) (ready_performs _ link.2)

/-- QUEUE_TRACK is answered OK with a slot and a disposition, and the state before the reactions is as told (R77). -/
def queuedAs (tag : Byte) (p : List Byte) (s : State) (n : Nat) (code : Byte) (told : State → Prop) : Prop :=
  ∃ m : State, exec (.queueTrack tag p) s = .next m.finish ∧ answered s m 0x12 tag .ok (be2 n ++ [code])
    ∧ requestFrame s m ∧ told m

theorem queuedAs_of_reply {tag : Byte} {m : State} {told : State → Prop} (length : p.length = 4)
    (link : linkReady s) (z : Disposition) (reply : (s.requestWindow p).queueTrack p = m.queuedReply n z)
    (same : m.link = { s.link with out := out }) (asks : onlyAsks s.store m.store)
    (h : told (m.place 0x12 tag .ok (be2 n ++ [byteOf z.code]))) : queuedAs tag p s n (byteOf z.code) told :=
  ⟨_, exec_queueTrack length link (m.queuedReply n z) reply,
    answered_place ((congrArg LinkRec.slot same).trans rfl) _ _ _ _ (by decide),
    ⟨(congrArg LinkRec.attention same).trans rfl, (congrArg LinkRec.rstLine same).trans rfl, asks⟩, h⟩

section
variable {tag : Byte} {y : StoreRec} (length : p.length = 4) (link : linkReady s) (asks : onlyAsks s.store y)
  (reply : (s.requestWindow p).queueTrack p = ((s.reading out y).addOrigin n .archive).queueFound n)
include length link asks reply

/-- A PENDING record that QUEUE_TRACK finds is enqueued ARCHIVE (R66, R77). -/
theorem queueTrack_pending (pending : (s.track n).state = .pending) : queuedAs tag p s n 1 fun m =>
    onlyTrack s m n { s.track n with
      origins := { (s.track n).origins with archive := true }, state := .queued, cls := some .archive }
    ∧ m.queue = { s.queue with archive := s.queue.archive ++ [n] }
    ∧ m = { s with tracks := m.tracks, queue := m.queue, link := m.link, store := m.store } := by
  have claimed := onlyTrack_addOrigin (s := s.reading out y) (n := n) (by simp [pending]) .archive
  have dealt := (queueFound_cases ((s.reading out y).addOrigin n .archive) n).1 (by rw [claimed.1]; exact pending)
  have one := onlyTrack_queueTail ((s.reading out y).addOrigin n .archive) n .archive
  rw [claimed.1] at one
  exact queuedAs_of_reply length link .enqueued (reply.trans dealt) rfl asks
    ⟨onlyTrack_trans claimed one, rfl, rfl⟩

/-- A QUEUED record of the SWEEP group that QUEUE_TRACK finds moves to the tail of the ARCHIVE group (R67, R77). -/
theorem queueTrack_queuedSweep (queued : (s.track n).state = .queued) (sweep : (s.track n).cls = some .sweep) :
    queuedAs tag p s n 2 fun m =>
    onlyTrack s m n { s.track n with origins := { (s.track n).origins with archive := true }, cls := some .archive }
    ∧ m.queue = { demand := s.queue.demand.filter (· ≠ n), archive := s.queue.archive.filter (· ≠ n) ++ [n]
                  sweep := s.queue.sweep.filter (· ≠ n) }
    ∧ m = { s with tracks := m.tracks, queue := m.queue, link := m.link, store := m.store } := by
  have claimed := onlyTrack_addOrigin (s := s.reading out y) (n := n) (by simp [queued]) .archive
  have dealt := (queueFound_cases ((s.reading out y).addOrigin n .archive) n).2.1 (by rw [claimed.1]; exact queued)
    (by rw [claimed.1]; exact sweep)
  have one := onlyTrack_moved (s := (s.reading out y).addOrigin n .archive) (n := n) (by rw [claimed.1]; exact queued)
    .archive
  rw [claimed.1] at one
  exact queuedAs_of_reply length link .promoted (reply.trans dealt) rfl asks
    ⟨onlyTrack_trans claimed one, rfl, rfl⟩

/-- An ACTIVE record of class SWEEP that QUEUE_TRACK finds takes class ARCHIVE (R67, R77). -/
theorem queueTrack_activeSweep (active : (s.track n).state = .active) (sweep : (s.track n).cls = some .sweep) :
    queuedAs tag p s n 2 fun m =>
    onlyTrack s m n { s.track n with origins := { (s.track n).origins with archive := true }, cls := some .archive }
    ∧ m = { s with tracks := m.tracks, link := m.link, store := m.store } := by
  have claimed := onlyTrack_addOrigin (s := s.reading out y) (n := n) (by simp [active]) .archive
  have dealt := (queueFound_cases ((s.reading out y).addOrigin n .archive) n).2.2.1 (by rw [claimed.1]; exact active)
    (by rw [claimed.1]; exact sweep)
  have one := onlyTrack_modTrack ((s.reading out y).addOrigin n .archive) n
    (f := fun r => { r with cls := some .archive }) (by rw [claimed.1]; simp [active])
  rw [claimed.1] at one
  exact queuedAs_of_reply length link .promoted (reply.trans dealt) rfl asks
    ⟨onlyTrack_trans claimed one, rfl⟩

/-- A record in recovery of a class that is not SWEEP is left where it is by QUEUE_TRACK (R77). -/
theorem queueTrack_already (placed : (s.track n).state = .queued ∨ (s.track n).state = .active)
    (higher : (s.track n).cls ≠ some .sweep) : queuedAs tag p s n 3 fun m =>
    onlyTrack s m n { s.track n with origins := { (s.track n).origins with archive := true } }
    ∧ m = { s with tracks := m.tracks, link := m.link, store := m.store } := by
  have claimed := onlyTrack_addOrigin (s := s.reading out y) (n := n)
    (by rcases placed with e | e <;> simp [e]) .archive
  have dealt := (queueFound_cases ((s.reading out y).addOrigin n .archive) n).2.2.2 (by rw [claimed.1]; exact placed)
    (by rw [claimed.1]; exact higher)
  exact queuedAs_of_reply length link .already (reply.trans dealt) rfl asks ⟨claimed, rfl⟩

end

/-- QUEUE_TRACK allocates a record for its address and enqueues it ARCHIVE (R52, R66, R77). -/
theorem queueTrack_fresh {tag : Byte} {y : StoreRec} {rest : List Nat} (length : p.length = 4) (link : linkReady s)
    (asks : onlyAsks s.store y) (reply : (s.requestWindow p).queueTrack p
      = (((({ s.reading out y with freeList := rest } : State).setTrack n (TrackRec.allocated a g)).addOrigin n
          .archive).enqueue n .archive).queuedReply n .new) : queuedAs tag p s n 0 fun m =>
    onlyTrack s m n
      { freshRecord a g { system := false, archive := true, sweep := false } with
        state := .queued, cls := some .archive }
    ∧ m.freeList = rest ∧ m.queue = { s.queue with archive := s.queue.archive ++ [n] }
    ∧ m = { s with tracks := m.tracks, queue := m.queue, freeList := m.freeList, link := m.link
                   store := m.store } := by
  have allocated : onlyTrack s _ n _ :=
    onlyTrack_allocated ({ s.reading out y with freeList := rest } : State) n a g .archive
  have one := onlyTrack_queueTail ((({ s.reading out y with freeList := rest } : State).setTrack n
    (TrackRec.allocated a g)).addOrigin n .archive) n .archive
  rw [enqueue_pending (by rw [allocated.1]; rfl)] at reply
  rw [allocated.1] at one
  exact queuedAs_of_reply length link .new reply rfl asks ⟨onlyTrack_trans allocated one, rfl, rfl, rfl⟩

/-- Settles O42: QUEUE_TRACK's tests in their order, and the record found or allocated by its STATE and CLASS. -/
theorem queueTrackByRecord : Obligations.QueueTrackByRecord := by
  intro tag b hi lo head s link sound clean
  dsimp only
  have refused {out : List Byte} {x : StoreRec} {r : Result} (asks : onlyAsks s.store x)
      (reply : (s.requestWindow [b, hi, lo, head]).queueTrack [b, hi, lo, head] = (s.reading out x).reply r) :
      onlyAnswers (.queueTrack tag [b, hi, lo, head]) s 0x12 tag r [] :=
    onlyAnswers_of_read (by decide) (onlyRead_reading asks out)
      (exec_queueTrack rfl link ((s.reading out x).reply r) reply)
  refine ⟨fun unfitted => refused (onlyAsks_refl _)
    (withDrive_none (s := s.requestWindow [b, hi, lo, head]) (p := [b, hi, lo, head]) unfitted _),
    fun d drive fit => ?_⟩
  obtain ⟨out, x, asks, undefined, defined⟩ := queueTrack_tested (p := [b, hi, lo, head]) clean drive fit
  refine ⟨fun none_ => refused asks (undefined none_), fun g some_ => ?_⟩
  obtain ⟨outOfRange, address⟩ := defined g some_
  have inside : g.contains (hi.toNat * 256 + lo.toNat) head.toNat = true
      ↔ hi.toNat * 256 + lo.toNat < g.cylinders ∧ head.toNat < g.heads := by simp [Geometry.contains]
  refine ⟨fun outside => refused asks (outOfRange (Bool.eq_false_iff.2 fun h => ?_)), fun cyl below => ?_⟩
  · have := inside.1 h
    omega
  have inside := inside.2 ⟨cyl, below⟩
  have address := address inside
  refine ⟨fun n only => ⟨fun settled => refused asks (address.trans (queueAddress_settled sound only settled)), ?_⟩,
    fun nobody => ⟨fun empty => ?_, fun n rest free => ?_⟩⟩
  · have found (unsettled : (s.track n).state ≠ .settled) := queueAddress_found (out := out) (a := ⟨d, _, _⟩)
      sound clean asks some_ inside only unsettled
    refine ⟨fun pending => ?_, fun queued sweep => ?_, fun active sweep => ?_, fun placed higher => ?_⟩
    · obtain ⟨y, again, reply⟩ := found (by simp [pending])
      exact queueTrack_pending rfl link again (address.trans reply) pending
    · obtain ⟨y, again, reply⟩ := found (by simp [queued])
      exact queueTrack_queuedSweep rfl link again (address.trans reply) queued sweep
    · obtain ⟨y, again, reply⟩ := found (by simp [active])
      exact queueTrack_activeSweep rfl link again (address.trans reply) active sweep
    · obtain ⟨y, again, reply⟩ := found (by rcases placed with e | e <;> simp [e])
      exact queueTrack_already rfl link again (address.trans reply) placed higher
  · obtain ⟨y, again, reply⟩ := queueAddress_empty (out := out) (a := ⟨d, _, _⟩) sound clean asks some_ inside
      nobody empty
    exact refused again (address.trans reply)
  · obtain ⟨y, again, reply⟩ := queueAddress_fresh (out := out) (a := ⟨d, _, _⟩) sound clean asks some_ inside
      nobody free
    exact queueTrack_fresh rfl link again (address.trans reply)

end Sys2Proof.Machine
end

