-- ==== Sys2Proof/Proofs/SweepFeeder.lean ====
section
/-! SUPPORT. The Sweep Feeder (R74, R75, R76): the drives that it feeds, the cursor, and one feeding step. -/

namespace Sys2Proof.Machine

open Sys2Proof.Stated

variable {s t : State} {d : Fin 4} {n : Nat} {x : StoreRec} {g : Geometry} {rest : List Nat}

/-! ## The drives that are fed -/

/-- The sweep count is the number of records of class SWEEP that are in recovery on the drive (R74). -/
theorem sweepCount_eq (s : State) (d : Fin 4) : s.sweepCount d
    = (s.tracks.filter (fun e => (e.2.addr.map (·.drive)) = some d ∧ e.2.cls = some .sweep
        ∧ (e.2.state = .queued ∨ e.2.state = .active))).length := by
  unfold State.sweepCount
  refine congrArg List.length (List.filter_congr fun e _ => ?_)
  simp [Bool.and_assoc]

/-- A drive is fed that is open for work, with its sweep RUNNING below its DEPTH, in READY (R75). -/
theorem feeds_iff (s : State) (d : Fin 4) : s.feeds d = true ↔ (s.sweeps.get d).state = .running
    ∧ ((s.drives.get d).state = DriveState.ready ∧ (s.drives.get d).discovery = none ∧ s.geometry.get d ≠ none)
    ∧ s.ctl.state = .ready ∧ s.sweepCount d < (s.sweeps.get d).depth := by
  rw [← openForWork_iff]
  unfold State.feeds
  simp only [Bool.and_eq_true, decide_eq_true_eq]
  tauto

/-- With nothing to do before the feeder, a reaction feeds the first drive that is fed. -/
theorem reactOnce_feeds (settling : s.settlingCtx = none) (notified : s.notifiedUnit = none)
    (served : s.servedUnit = none) (started : s.startedRequest = none) (feeds : s.feeds d = true)
    (first : ∀ e, e < d → s.feeds e = false) : s.reactOnce = some (s.feed d) := by
  have fed : s.fedDrive = some d := find_fourNumbers_some.2 ⟨feeds, first⟩
  unfold State.reactOnce
  rw [settling, notified, served, started, fed]

/-! ## The cursor -/

/-- The cursor moves on; after the last track it stays, and the sweep is DONE with SWEEP attention (R75, R76). -/
theorem advanceCursor_moved (s : State) (d : Fin 4) (g : Geometry) :
    let w := s.sweeps.get d
    let m := s.advanceCursor d g
    m.sweeps = s.sweeps.set d (cursorMoved w g)
      ∧ sweepTold s m (decide (g.heads ≤ w.head + 1 ∧ g.cylinders ≤ w.cyl + 1))
      ∧ m = { s with sweeps := m.sweeps, link := m.link } := by
  dsimp only
  unfold State.advanceCursor cursorMoved sweepTold
  dsimp only
  by_cases head : (s.sweeps.get d).head + 1 < g.heads
  · rw [if_pos head, if_pos head]
    exact ⟨rfl, by simp [Nat.not_le.2 head], rfl⟩
  rw [if_neg head, if_neg head]
  by_cases cyl : (s.sweeps.get d).cyl + 1 < g.cylinders
  · rw [if_pos cyl, if_pos cyl]
    exact ⟨rfl, by simp [Nat.not_le.2 cyl], rfl⟩
  · rw [if_neg cyl, if_neg cyl]
    exact ⟨rfl, (if_pos (decide_eq_true ⟨Nat.not_lt.1 head, Nat.not_lt.1 cyl⟩)).symm, rfl⟩

/-- What the cursor's move leaves: the table, the queue, the free list and the store of the state before it. -/
theorem advanceCursor_kept (s : State) (d : Fin 4) (g : Geometry) : let m := s.advanceCursor d g
    m.tracks = s.tracks ∧ m.queue = s.queue ∧ m.freeList = s.freeList ∧ m.store = s.store := by
  obtain ⟨_, _, frame⟩ := advanceCursor_moved s d g
  dsimp only
  rw [frame]
  exact ⟨rfl, rfl, rfl, rfl⟩

theorem onlyTrack_congr {m : State} {y : TrackRec} (h : onlyTrack s t n y) (same : m.tracks = t.tracks) :
    onlyTrack s m n y := ⟨(track_congr same n).trans h.1, fun i other => (track_congr same i).trans (h.2 i other)⟩

/-! ## A feeding step -/

/-- The address at a drive's cursor. -/
def State.cursor (s : State) (d : Fin 4) : TrackAddr := ⟨d, (s.sweeps.get d).cyl, (s.sweeps.get d).head⟩

/-- The feeder reads the drive's sweep record and takes a feeding step (R75). -/
theorem feed_step (clean : s.store.flips = []) (feeds : s.feeds d = true) (defined : s.geometry.get d = some g) :
    s.feed d = (s.askStore .table 1).feedStep d g := by
  unfold State.feed
  rw [touchRecord_clean clean]
  dsimp only
  rw [if_pos (show (s.askStore .table 1).feeds d = true from feeds),
    show (s.askStore .table 1).geometry.get d = some g from defined]

section
variable (sound : s.Sound) (clean : s.store.flips = []) (defined : s.geometry.get d = some g)
  (inside : g.contains (s.cursor d).cyl (s.cursor d).head = true) (asks : onlyAsks s.store x)
include sound clean defined inside asks

/-- A track that a record holds is named for the sweep and passed over (R75). -/
theorem feedStep_found (only : ∀ k, (s.track k).holds (s.cursor d) = true ↔ k = n) :
    ∃ y, onlyAsks s.store y ∧ ({ s with store := x } : State).feedStep d g
      = (({ s with store := y } : State).addOrigin n .sweep).advanceCursor d g := by
  refine ⟨((({ s with store := x } : State).askStore .table 1).askStore .table 1).store,
    onlyAsks_trans asks ⟨_, _, _, rfl⟩, ?_⟩
  unfold State.feedStep
  have allocated := allocate_found (w := { s with store := x }) (cl := .table) (o := .sweep) sound
    ((onlyAsks_flips asks).trans clean) rfl defined inside only
  unfold State.cursor at allocated
  dsimp only
  rw [allocated]
  rfl

/-- A track that no record holds is allocated for the sweep and enqueued SWEEP (R75). -/
theorem feedStep_fresh (nobody : ∀ k, (s.track k).holds (s.cursor d) = false) (free : s.freeList = n :: rest) :
    ∃ y, onlyAsks s.store y ∧ ({ s with store := x } : State).feedStep d g
      = (((({ s with store := y, freeList := rest } : State).setTrack n (TrackRec.allocated (s.cursor d) g)).addOrigin n
          .sweep).queueTail n .sweep).advanceCursor d g := by
  refine ⟨((({ s with store := x } : State).askStore .table 1).askStore .table 1).store,
    onlyAsks_trans asks ⟨_, _, _, rfl⟩, ?_⟩
  have allocated := allocate_fresh (w := { s with store := x }) (cl := .table) (o := .sweep) sound
    ((onlyAsks_flips asks).trans clean) rfl defined inside nobody free
  have record := (onlyTrack_allocated ({ ((({ s with store := x } : State).askStore .table 1).askStore .table 1) with
    freeList := rest } : State) n (s.cursor d) g .sweep).1
  unfold State.feedStep
  unfold State.cursor at allocated record ⊢
  dsimp only
  rw [allocated]
  dsimp only
  rw [enqueue_pending (by rw [record]; rfl)]
  rfl

/-- With no frame free the sweep is STALLED, with SWEEP attention (R76). -/
theorem feedStep_empty (nobody : ∀ k, (s.track k).holds (s.cursor d) = false) (empty : s.freeList = []) :
    ∃ y, onlyAsks s.store y ∧ ({ s with store := x } : State).feedStep d g
      = (({ s with store := y } : State).modSweep d fun w => { w with state := .stalled }).attnSweep := by
  refine ⟨(({ s with store := x } : State).askStore .table 1).store, onlyAsks_trans asks ⟨_, _, _, rfl⟩, ?_⟩
  have allocated := allocate_empty (w := { s with store := x }) (cl := .table) (o := .sweep) sound
    ((onlyAsks_flips asks).trans clean) rfl defined inside nobody empty
  unfold State.feedStep
  unfold State.cursor at allocated
  dsimp only
  rw [allocated]
  rfl

end

/-- Settles O59: the drives that the feeder feeds, when it does, and its step by the track at the cursor. -/
theorem sweepFeederFeedsInOrder : Obligations.SweepFeederFeedsInOrder := by
  intro s d
  refine ⟨?_, fun settling notified served started feeds first =>
    reactOnce_feeds settling notified served started feeds first, fun g feeds defined cyl head sound clean => ?_⟩
  · rw [feeds_iff, sweepCount_eq]
    tauto
  have inside : g.contains (s.cursor d).cyl (s.cursor d).head = true := by
    simp [Geometry.contains, State.cursor, cyl, head]
  have asks : onlyAsks s.store (s.askStore .table 1).store := ⟨_, _, _, rfl⟩
  have step : s.feed d = ({ s with store := (s.askStore .table 1).store } : State).feedStep d g :=
    feed_step clean feeds defined
  dsimp only
  rw [step]
  refine ⟨fun n only => ?_, fun n rest nobody free => ?_, fun nobody empty => ?_⟩
  · obtain ⟨y, again, found⟩ := feedStep_found sound clean defined inside asks only
    have live := (holds_live ((only n).2 rfl)).1
    have named := onlyTrack_addOrigin (s := { s with store := y }) live .sweep
    obtain ⟨sweeps, told, frame⟩ := advanceCursor_moved (({ s with store := y } : State).addOrigin n .sweep) d g
    obtain ⟨tracks, _, _, store⟩ := advanceCursor_kept (({ s with store := y } : State).addOrigin n .sweep) d g
    rw [found]
    exact ⟨onlyTrack_congr named tracks, sweeps, told, by rw [store]; exact again, by rw [frame]; rfl⟩
  · obtain ⟨y, again, fresh⟩ := feedStep_fresh sound clean defined inside asks nobody free
    have allocated := onlyTrack_allocated ({ s with store := y, freeList := rest } : State) n (s.cursor d) g .sweep
    generalize named : ((({ s with store := y, freeList := rest } : State).setTrack n
      (TrackRec.allocated (s.cursor d) g)).addOrigin n .sweep) = v at *
    have queued := onlyTrack_queueTail v n .sweep
    rw [allocated.1] at queued
    obtain ⟨sweeps, told, frame⟩ := advanceCursor_moved (v.queueTail n .sweep) d g
    obtain ⟨tracks, queue, list, store⟩ := advanceCursor_kept (v.queueTail n .sweep) d g
    rw [fresh]
    subst named
    exact ⟨onlyTrack_congr (onlyTrack_trans allocated queued) tracks, list, queue, sweeps, told,
      by rw [store]; exact again, by rw [frame]; rfl⟩
  · obtain ⟨y, again, stalled⟩ := feedStep_empty sound clean defined inside asks nobody empty
    rw [stalled]
    exact ⟨rfl, rfl, again, rfl⟩

end Sys2Proof.Machine
end

