-- ==== Sys2Proof/Proofs/LoadClaims.lean ====
section
/-! SUPPORT. The claims of a unit on the track at its POSITION (R47, R67, R153, R154): the record claimed, the demand
wait, the CHECK that ends the list, and what a READ's claim does by the lock and the sector's STATUS. -/

namespace Sys2Proof.Machine

open Sys2Proof.Stated

variable {s t : State} {u : Fin 4} {n k : Nat} {a : TrackAddr} {g : Geometry} {rest : List Nat} {r : TrackRec}
  {on : WaitOn}

/-! ## Promotion to DEMAND -/

/-- A record promoted to DEMAND: QUEUED if it was PENDING, and of CLASS DEMAND unless it is SETTLED (R66, R67). -/
def TrackRec.toDemand (r : TrackRec) : TrackRec :=
  { r with
    state := if r.state = .pending then .queued else r.state
    cls := if r.state = .settled then r.cls else some .demand }

/-- A record that a unit demands is named for the system and waited on, and promoted to DEMAND (R40, R47, R67). -/
theorem demanded_eq (live : r.state ≠ .free ∧ r.state ≠ .broken) : demanded r
    = { r.toDemand with origins := { r.origins with system := true }, waiters := r.waiters + 1 } := by
  unfold demanded TrackRec.toDemand
  cases state : r.state
  case free => exact absurd state live.1
  case broken => exact absurd state live.2
  all_goals simp

theorem toDemand_pending (pending : r.state = .pending) :
    r.toDemand = { r with state := .queued, cls := some .demand } := by simp [TrackRec.toDemand, pending]

theorem toDemand_recovering (placed : r.state = .queued ∨ r.state = .active) :
    r.toDemand = { r with cls := some .demand } := by
  rcases placed with e | e <;> simp [TrackRec.toDemand, e]

theorem toDemand_kept (placed : r.state ≠ .pending) (kept : r.state = .settled ∨ r.cls = some .demand) :
    r.toDemand = r := by
  unfold TrackRec.toDemand
  rw [if_neg placed]
  rcases kept with settled | demand
  · rw [if_pos settled]
  · rw [← demand, ite_self]

/-- The CLASSes below DEMAND are those that it raises (R67). -/
theorem raisedBy_demand (classed : r.cls ≠ none) : r.raisedBy .demand = true ↔ r.cls ≠ some .demand := by
  unfold TrackRec.raisedBy
  rcases e : r.cls with _ | _ | _ | _
  · exact absurd e classed
  all_goals simp [TrackClass.rank]

/-- Promotion to DEMAND of a record in use: the record and the queue that the statements tell (R66, R67). -/
theorem promote_demand (live : (s.track n).state ≠ .free ∧ (s.track n).state ≠ .broken)
    (placed : (s.track n).cls ≠ none ∨ (s.track n).state = .pending ∨ (s.track n).state = .settled) :
    let m := s.promote n .demand
    onlyTrack s m n (s.track n).toDemand ∧ m.queue = queueDemanded s.queue (s.track n) n
      ∧ m = { s with tracks := m.tracks, queue := m.queue } := by
  dsimp only
  unfold queueDemanded
  by_cases pending : (s.track n).state = .pending
  · rw [promote_pending pending, toDemand_pending pending, if_pos pending]
    exact ⟨onlyTrack_queueTail s n .demand, rfl, rfl⟩
  rw [if_neg pending]
  by_cases kept : (s.track n).state = .settled ∨ (s.track n).cls = some .demand
  · have unmoved : ¬ ((s.track n).state = .queued ∧ (s.track n).cls ≠ some .demand) := by
      rintro ⟨queued, lower⟩
      simp [queued, lower] at kept
    rw [promote_kept pending (kept.imp_right fun e => by simp [TrackRec.raisedBy, e]), toDemand_kept pending kept,
      if_neg unmoved]
    exact ⟨⟨rfl, fun _ _ => rfl⟩, rfl, rfl⟩
  obtain ⟨unsettled, lower⟩ := not_or.1 kept
  have raised := (raisedBy_demand (placed.resolve_right (not_or.2 ⟨pending, unsettled⟩))).2 lower
  cases state : (s.track n).state
  case queued =>
    rw [promote_queued state raised, toDemand_recovering (.inl state), if_pos ⟨rfl, lower⟩]
    exact ⟨onlyTrack_moved state .demand, rfl, rfl⟩
  case active =>
    rw [promote_active state raised, toDemand_recovering (.inr state), if_neg (by simp)]
    exact ⟨onlyTrack_modTrack s n (f := fun r => { r with cls := some .demand }) live.1, rfl, rfl⟩
  case free => exact absurd state live.1
  case broken => exact absurd state live.2
  case pending => exact absurd state pending
  case settled => exact absurd state unsettled

/-! ## The demand wait -/

/-- A unit waits on a track, before the track's promotion: its timer started or running on, and WAITERS up by one
(R47, R155). -/
def State.waitingOn (s : State) (u : Fin 4) (n : Nat) (on : WaitOn) : State :=
  (s.modUnit u fun r => { r with
    state := .wait, waitOn := some on
    patience := some (r.patience.getD s.port.settings.patience) }).modTrack n
      fun r => { r with waiters := r.waiters + 1 }

theorem demandWait_promotes (told : (s.units.get u).haltTold = false) :
    s.demandWait u n on = (s.waitingOn u n on).promote n .demand := if_neg (by simp [told])

theorem onlyTrack_waitingOn (live : (s.track n).state ≠ .free) (u : Fin 4) (on : WaitOn) :
    onlyTrack s (s.waitingOn u n on) n { s.track n with waiters := (s.track n).waiters + 1 } :=
  onlyTrack_modTrack (s.modUnit u _) n (f := fun r => { r with waiters := r.waiters + 1 }) live

/-- A unit's demand wait begins on a record that its claim has named for the system (R47, R155). -/
theorem demandWait_begins (told : (s.units.get u).haltTold = false)
    (live : (s.track n).state ≠ .free ∧ (s.track n).state ≠ .broken)
    (placed : (s.track n).cls ≠ none ∨ (s.track n).state = .pending ∨ (s.track n).state = .settled)
    (system : (s.track n).origins.system = true) :
    waitBegins s (s.demandWait u n on) u n on (s.track n) ∧ (s.demandWait u n on).store = s.store := by
  have waiting := onlyTrack_waitingOn live.1 u on
  obtain ⟨one, queue, frame⟩ := promote_demand (s := s.waitingOn u n on) (n := n) (by rw [waiting.1]; exact live)
    (by rw [waiting.1]; exact placed)
  have origins : ({ (s.track n).origins with system := true } : Origins) = (s.track n).origins := by rw [← system]
  have record : ((s.waitingOn u n on).track n).toDemand = demanded (s.track n) := by
    rw [demanded_eq live, waiting.1, origins]
    rfl
  rw [record] at one
  rw [waiting.1] at queue
  rw [demandWait_promotes told]
  refine ⟨⟨?_, onlyTrack_trans waiting one, queue, ?_⟩, ?_⟩
  all_goals
    rw [frame]
    rfl

/-! ## The CHECK that ends a list -/

/-- A sense record has the reason it is made for (R161). -/
theorem senseOf_reason (s : State) (u : Fin 4) (x : SenseReason) : (s.senseOf u x none none).reason = x := by
  unfold State.senseOf
  dsimp only
  split
  · rfl
  · split <;> rfl

/-- A list that ends in a store without bit errors: its status store, and the sense record as it was (R149, R160). -/
theorem endList_listEnds (clean : s.store.flips = []) (base : s.port.settings.statusBase ≤ 0xFFFFC0) (c : Completion)
    (cs : List Condition) : listEnds s (s.endList u c cs) u c cs
      ∧ ((s.endList u c cs).units.get u).sense = (s.units.get u).sense := by
  obtain ⟨ts, q, a, b, d, left⟩ := leaveWritten_shape clean u
  unfold State.endList
  rw [left]
  obtain ⟨⟨⟨state, conditions, transfer, req, others⟩, rest⟩, sense, _⟩ := closeList_listEnds (u := u)
    (s := { s with
      tracks := ts, queue := q, units := s.units.set u { s.units.get u with writeTrack := none }
      store := { s.store with asks := a, selfRefresh := b, timerRunning := d } }) base c cs
  simp only [Four.get_set_self] at transfer req sense
  exact ⟨⟨⟨state, conditions, transfer, req, fun v other => (others v other).trans (Four.get_set_ne _ _ other)⟩, rest⟩,
    sense⟩

/-- A list that ends CHECK with one condition, its reason in the sense record (R159, R161). -/
theorem endCheck_listEnds (clean : s.store.flips = []) (base : s.port.settings.statusBase ≤ 0xFFFFC0) (c : Condition)
    (x : SenseReason) : listEnds s (s.endCheck u c x) u .check [c]
      ∧ ((s.endCheck u c x).units.get u).sense.reason = x := by
  obtain ⟨ends, sense⟩ := endList_listEnds (u := u) (s := s.setSense u (s.senseOf u x none none)) clean base .check [c]
  refine ⟨listEnds_of_setSense ends, ?_⟩
  unfold State.endCheck
  rw [sense]
  simp [State.setSense, senseOf_reason]

/-! ## The record claimed -/

/-- A unit's claim on a track that a record holds: SYSTEM joins its ORIGINS, and claims on the store wait (R40). -/
structure Claimed (s t : State) (n : Nat) : Prop where
  one : onlyTrack s t n { s.track n with origins := { (s.track n).origins with system := true } }
  asks : onlyAsks s.store t.store
  frame : t = { s with tracks := t.tracks, store := t.store }

theorem Claimed.units (h : Claimed s t n) : t.units = s.units := by rw [h.frame]

theorem Claimed.port (h : Claimed s t n) : t.port = s.port := by rw [h.frame]

theorem Claimed.lock (h : Claimed s t n) : (t.track n).lock = (s.track n).lock := by rw [h.one.1]

theorem Claimed.sector (h : Claimed s t n) (k : Nat) : (t.track n).sector k = (s.track n).sector k := by
  rw [h.one.1]
  rfl

theorem Claimed.sectorBytes (h : Claimed s t n) : (t.track n).sectorBytes = (s.track n).sectorBytes := by rw [h.one.1]

theorem Claimed.clean (h : Claimed s t n) (clean : s.store.flips = []) : t.store.flips = [] :=
  (onlyAsks_flips h.asks).trans clean

/-- A unit's claim finds the record that holds the track at its POSITION (R52). -/
theorem claimTrack_claimed (sound : s.Sound) (clean : s.store.flips = [])
    (only : ∀ j, (s.track j).holds a = true ↔ j = n) :
    ∃ t, Claimed s t n ∧ s.claimTrack (.unit u) a .system = (some n, t) := by
  have holds : (s.track n).holds a = true := (only n).2 rfl
  refine ⟨(s.askStore (.unit u) 1).addOrigin n .system,
    ⟨onlyTrack_addOrigin (s := s.askStore (.unit u) 1) (holds_live holds).1 .system, ⟨_, _, _, rfl⟩, rfl⟩, ?_⟩
  unfold State.claimTrack
  rw [find_only sound only]
  dsimp only
  rw [touchTrack_clean clean]
  exact if_pos holds

/-- A unit's demand wait on a record that it has claimed (R47, R155). -/
theorem Claimed.waits (h : Claimed s t n) (told : (s.units.get u).haltTold = false)
    (live : (s.track n).state ≠ .free ∧ (s.track n).state ≠ .broken)
    (placed : (s.track n).cls ≠ none ∨ (s.track n).state = .pending ∨ (s.track n).state = .settled) :
    waitBegins s (t.demandWait u n on) u n on (s.track n) ∧ onlyAsks s.store (t.demandWait u n on).store := by
  obtain ⟨⟨units, one, queue, frame⟩, store⟩ := demandWait_begins (s := t) (u := u) (n := n) (on := on)
    (by rw [h.units]; exact told) (by rw [h.one.1]; exact live) (by rw [h.one.1]; exact placed) (by rw [h.one.1])
  have record : demanded (t.track n) = demanded (s.track n) := by rw [h.one.1]; rfl
  have queued : queueDemanded t.queue (t.track n) n = queueDemanded s.queue (s.track n) n := by
    rw [h.one.1, h.frame]
    rfl
  rw [record] at one
  rw [queued] at queue
  rw [h.units, h.port] at units
  refine ⟨⟨units, onlyTrack_trans h.one one, queue, ?_⟩, by rw [store]; exact h.asks⟩
  rw [frame, h.frame]

/-- A list that ends CHECK on a record that the unit has claimed (R153, R158). -/
theorem Claimed.ends (h : Claimed s t n) (clean : s.store.flips = []) (base : s.port.settings.statusBase ≤ 0xFFFFC0)
    (c : Condition) (x : SenseReason) :
    listEnds s (t.endCheck u c x) u .check [c] ∧ ((t.endCheck u c x).units.get u).sense.reason = x := by
  obtain ⟨ends, reason⟩ := endCheck_listEnds (u := u) (h.clean clean) (by rw [h.port]; exact base) c x
  exact ⟨listEnds_congr ends h.units.symm (by rw [h.frame]) (by rw [h.port]) (by rw [h.frame]) rfl rfl, reason⟩

/-! ## The load claim -/

/-- A READ waits on a locked track (R153). -/
theorem loadFrom_locked (locked : (s.track n).lock ≠ none) : s.loadFrom u n = s.demandWait u n (.lock n) :=
  if_pos (Option.isSome_iff_ne_none.2 locked)

section
variable (unlocked : (s.track n).lock = none) (sector : (s.units.get u).position.sector = k)
include unlocked sector

/-- A READ waits on an unresolved sector (R153). -/
theorem loadFrom_open (open_ : ((s.track n).sector k).status = .pending ∨ ((s.track n).sector k).status = .damaged) :
    s.loadFrom u n = s.demandWait u n (.sector n k) := by
  subst sector
  refine (if_neg (by simp [unlocked])).trans ?_
  rcases open_ with e | e <;> rw [e]

/-- A READ loads a sector that holds an image, or a guess that its order accepts (R153). -/
theorem loadFrom_frame (held : (((s.track n).sector k).status = .clean ∨ ((s.track n).sector k).status = .voted
      ∨ ((s.track n).sector k).status = .written ∨ ((s.track n).sector k).status = .replaced)
    ∨ (((s.track n).sector k).status = .failed ∧ ((s.track n).sector k).guess = .present
      ∧ (s.units.get u).acceptsGuess = true)) :
    s.loadFrom u n = s.loadFrame u n k (decide (((s.track n).sector k).status = .failed)) := by
  subst sector
  refine (if_neg (by simp [unlocked])).trans ?_
  rcases held with (e | e | e | e) | ⟨e, present, accepts⟩ <;> rw [e]
  case inr => exact if_pos (by simp [present, accepts])
  all_goals rfl

/-- A READ's list ends on a sector without an image that it may deliver (R153). -/
theorem loadFrom_ends :
    (((s.track n).sector k).status = .marked → s.loadFrom u n = s.endCheck u .dataCheck .marked)
    ∧ (((s.track n).sector k).status = .lost → s.loadFrom u n = s.endCheck u .dataCheck .lost)
    ∧ (((s.track n).sector k).status = .failed →
        ¬ (((s.track n).sector k).guess = .present ∧ (s.units.get u).acceptsGuess = true) →
        s.loadFrom u n = s.endCheck u .dataCheck .failed) := by
  subst sector
  refine ⟨fun e => ?_, fun e => ?_, fun e refused => ?_⟩
  all_goals refine (if_neg (by simp [unlocked])).trans ?_
  all_goals rw [e]
  exact if_neg (by simpa [and_comm] using refused)

end

/-- The unit's order accepts a guess (R147). -/
theorem acceptsGuess_iff (y : UnitRec) : y.acceptsGuess = true ↔ ∃ o, y.order = some o ∧ o.acceptGuess = true := by
  unfold UnitRec.acceptsGuess
  cases y.order <;> simp

/-- A sector of a frame is read by a claim: its bytes, and claims on the store wait (R39). -/
theorem readFrame_read (clean : s.store.flips = []) (cl : StoreClaimant) (n k : Nat) : ∃ y, onlyAsks s.store y
    ∧ s.readFrame cl n k = (some (readBytes s.store.mem (n * 16384 + k * (s.track n).sectorBytes)
        (s.track n).sectorBytes), { s with store := y }) :=
  ⟨_, ⟨_, _, _, rfl⟩, readStore_clean clean cl _ _⟩

/-- More claims on the store may wait after a unit's claim. -/
theorem Claimed.asking (h : Claimed s t n) {y : StoreRec} (asks : onlyAsks t.store y) :
    Claimed s { t with store := y } n :=
  ⟨h.one, onlyAsks_trans h.asks asks, by
    rw [h.frame]⟩

/-- Bytes of a claimed sector go to the unit's buffer, and their first burst to the requester (R153). -/
theorem Claimed.delivers (h : Claimed s t n) (guess : Bool) (bytes : List Byte)
    (fits : (s.units.get u).dataAt + 2 * min s.port.settings.burst
      ((min (s.units.get u).residual bytes.length + 1) / 2) ≤ 0x1000000) :
    let m := t.deliver u bytes guess
    delivering s m u bytes guess
      ∧ onlyTrack s m n { s.track n with origins := { (s.track n).origins with system := true } }
      ∧ onlyAsks s.store m.store
      ∧ m = { s with units := m.units, req := m.req, tracks := m.tracks, store := m.store } := by
  dsimp only
  rw [deliver_eq (by rw [h.units, h.port]; exact fits)]
  refine ⟨⟨?_, ?_⟩, h.one, h.asks, ?_⟩
  all_goals rw [h.frame]

theorem loadFrame_read {v : State} {bytes : List Byte} (read : s.readFrame (.unit u) n k = (some bytes, v))
    (guess : Bool) : s.loadFrame u n k guess = v.deliver u bytes guess := by
  unfold State.loadFrame
  rw [read]

/-- A claimed sector's frame is loaded and delivered (R153). -/
theorem Claimed.loads (h : Claimed s t n) (clean : s.store.flips = []) (guess : Bool)
    (fits : (s.units.get u).dataAt + 2 * min s.port.settings.burst
      ((min (s.units.get u).residual (s.track n).sectorBytes + 1) / 2) ≤ 0x1000000) :
    let m := t.loadFrame u n k guess
    delivering s m u (readBytes s.store.mem (n * 16384 + k * (s.track n).sectorBytes) (s.track n).sectorBytes) guess
      ∧ onlyTrack s m n { s.track n with origins := { (s.track n).origins with system := true } }
      ∧ onlyAsks s.store m.store
      ∧ m = { s with units := m.units, req := m.req, tracks := m.tracks, store := m.store } := by
  obtain ⟨y, asks, read⟩ := readFrame_read (h.clean clean) (.unit u) n k
  rw [onlyAsks_mem h.asks, h.sectorBytes] at read
  dsimp only
  rw [loadFrame_read read]
  exact (h.asking asks).delivers guess _ (by rwa [readBytes_length])

/-! ## A READ's claim with a record -/

section
variable (sound : s.Sound) (clean : s.store.flips = [])
  (only : ∀ j, (s.track j).holds (s.positionTrack u) = true ↔ j = n)
include sound clean only

/-- A READ's claim on a track that a record holds is decided on the record claimed (R153). -/
theorem loadClaim_claimed : ∃ t, Claimed s t n ∧ s.loadClaim u = t.loadFrom u n := by
  obtain ⟨t, claimed, found⟩ := claimTrack_claimed (u := u) sound clean only
  refine ⟨t, claimed, ?_⟩
  unfold State.loadClaim
  rw [found]

/-- A READ waits on a locked track, or on an unresolved sector (R153, R155). -/
theorem loadClaim_waits (told : (s.units.get u).haltTold = false)
    (placed : (s.track n).cls ≠ none ∨ (s.track n).state = .pending ∨ (s.track n).state = .settled) :
    let k := (s.units.get u).position.sector
    let status := ((s.track n).sector k).status
    let m := s.loadClaim u
    ((s.track n).lock ≠ none → waitBegins s m u n (.lock n) (s.track n) ∧ onlyAsks s.store m.store)
    ∧ ((s.track n).lock = none → status = .pending ∨ status = .damaged →
        waitBegins s m u n (.sector n k) (s.track n) ∧ onlyAsks s.store m.store) := by
  obtain ⟨t, claimed, claim⟩ := loadClaim_claimed sound clean only
  have live := holds_live ((only n).2 rfl)
  dsimp only
  rw [claim]
  refine ⟨fun locked => ?_, fun unlocked open_ => ?_⟩
  · rw [loadFrom_locked (by rwa [claimed.lock])]
    exact claimed.waits told live placed
  · rw [loadFrom_open (claimed.lock.trans unlocked) (by rw [claimed.units]) (by rwa [claimed.sector])]
    exact claimed.waits told live placed

/-- A READ delivers a sector's image, or a guess that its order accepts (R153). -/
theorem loadClaim_delivers (unlocked : (s.track n).lock = none)
    (fits : (s.units.get u).dataAt + 2 * min s.port.settings.burst
      ((min (s.units.get u).residual (s.track n).sectorBytes + 1) / 2) ≤ 0x1000000) :
    let x := (s.track n).sector (s.units.get u).position.sector
    (x.status = .clean ∨ x.status = .voted ∨ x.status = .written ∨ x.status = .replaced)
      ∨ (x.status = .failed ∧ x.guess = .present ∧ ∃ o, (s.units.get u).order = some o ∧ o.acceptGuess = true) →
    let m := s.loadClaim u
    delivering s m u (readBytes s.store.mem
        (n * 16384 + (s.units.get u).position.sector * (s.track n).sectorBytes) (s.track n).sectorBytes)
        (x.status = .failed)
      ∧ onlyTrack s m n { s.track n with origins := { (s.track n).origins with system := true } }
      ∧ onlyAsks s.store m.store
      ∧ m = { s with units := m.units, req := m.req, tracks := m.tracks, store := m.store } := by
  obtain ⟨t, claimed, claim⟩ := loadClaim_claimed sound clean only
  intro x held
  dsimp only
  rw [claim, loadFrom_frame (claimed.lock.trans unlocked) (by rw [claimed.units])
    (by rwa [claimed.sector, claimed.units, acceptsGuess_iff]), claimed.sector]
  exact claimed.loads clean _ fits

/-- A READ's list ends on a sector with nothing to deliver, the sector's STATUS being the reason (R153). -/
theorem loadClaim_ends (unlocked : (s.track n).lock = none) (base : s.port.settings.statusBase ≤ 0xFFFFC0) :
    let x := (s.track n).sector (s.units.get u).position.sector
    let m := s.loadClaim u
    let ends (reason : SenseReason) : Prop :=
      listEnds s m u .check [.dataCheck] ∧ (m.units.get u).sense.reason = reason
    (x.status = .marked → ends .marked) ∧ (x.status = .lost → ends .lost)
      ∧ (x.status = .failed → ¬ (x.status = .failed ∧ x.guess = .present
          ∧ ∃ o, (s.units.get u).order = some o ∧ o.acceptGuess = true) → ends .failed) := by
  obtain ⟨t, claimed, claim⟩ := loadClaim_claimed sound clean only
  obtain ⟨marked, lost, failed⟩ := loadFrom_ends (claimed.lock.trans unlocked) (u := u) rfl
  rw [claimed.sector, claimed.units] at marked lost failed
  rw [acceptsGuess_iff] at failed
  dsimp only
  rw [claim]
  refine ⟨fun e => ?_, fun e => ?_, fun e refused => ?_⟩
  · rw [marked e]
    exact claimed.ends clean base .dataCheck .marked
  · rw [lost e]
    exact claimed.ends clean base .dataCheck .lost
  · rw [failed e fun accepted => refused ⟨e, accepted⟩]
    exact claimed.ends clean base .dataCheck .failed

end

/-! ## A READ's claim without a record -/

/-- A READ's claim on a track that no record holds is an allocation claim (R154). -/
theorem loadClaim_nobody (sound : s.Sound) (nobody : ∀ j, (s.track j).holds (s.positionTrack u) = false) :
    s.loadClaim u = s.allocateForRead u fun t => t.askDirect u := by
  unfold State.loadClaim
  rw [claimTrack_nobody sound rfl nobody]

section
variable (sound : s.Sound) (clean : s.store.flips = []) (defined : s.geometry.get u = some g)
  (inside : g.contains (s.units.get u).position.cyl (s.units.get u).position.head = true)
  (nobody : ∀ j, (s.track j).holds (s.positionTrack u) = false)
include sound clean defined inside nobody

/-- A READ with no record for its track and a frame free: a record is allocated and demanded (R154). -/
theorem loadClaim_fresh (told : (s.units.get u).haltTold = false) (sector : (s.units.get u).position.sector = k)
    (free : s.freeList = n :: rest) :
    let y := s.units.get u
    let m := s.loadClaim u
    m.units = s.units.set u { y with
        state := .wait, waitOn := some (.sector n k)
        patience := some (y.patience.getD s.port.settings.patience) }
    ∧ onlyTrack s m n { freshRecord (s.positionTrack u) g { system := true, archive := false, sweep := false } with
        state := .queued, cls := some .demand, waiters := 1 }
    ∧ m.freeList = rest ∧ m.queue = { s.queue with demand := s.queue.demand ++ [n] }
    ∧ onlyAsks s.store m.store
    ∧ m = { s with units := m.units, tracks := m.tracks, freeList := m.freeList, queue := m.queue
                   store := m.store } := by
  subst sector
  have allocate := allocate_fresh (w := s) (cl := .unit u) (o := .system) sound clean rfl defined inside nobody free
  have allocated := onlyTrack_allocated
    ({ (s.askStore (.unit u) 1).askStore (.unit u) 1 with freeList := rest } : State) n (s.positionTrack u) g .system
  generalize record : ((({ (s.askStore (.unit u) 1).askStore (.unit u) 1 with freeList := rest } : State).setTrack n
    (TrackRec.allocated (s.positionTrack u) g)).addOrigin n .system) = v at *
  have claim : s.loadClaim u
      = (v.queueTail n .demand).demandWait u n (.sector n (s.units.get u).position.sector) := by
    rw [loadClaim_nobody sound nobody]
    unfold State.allocateForRead
    rw [allocate]
    dsimp only
    rw [enqueue_pending (by rw [allocated.1]; rfl), ← record]
    rfl
  have queued := onlyTrack_queueTail v n .demand
  rw [allocated.1] at queued
  obtain ⟨⟨units, one, queue, frame⟩, store⟩ := demandWait_begins (s := v.queueTail n .demand) (u := u) (n := n)
    (on := .sector n (s.units.get u).position.sector) (by rw [← record]; exact told)
    (by rw [queued.1]; exact ⟨nofun, nofun⟩) (by rw [queued.1]; exact .inl nofun) (by rw [queued.1]; rfl)
  rw [queued.1] at one queue
  have whole : v = { s with tracks := v.tracks, freeList := rest, store := v.store } := by rw [← record]; rfl
  have asks : onlyAsks s.store (v.queueTail n .demand).store := by rw [← record]; exact ⟨_, _, _, rfl⟩
  have settings : v.port = s.port := by rw [whole]
  have same : v.units = s.units := by rw [whole]
  have order : v.queue = s.queue := by rw [whole]
  dsimp only
  rw [claim]
  refine ⟨units.trans ?_, onlyTrack_trans (onlyTrack_trans allocated queued) one,
    (congrArg State.freeList frame).trans (congrArg State.freeList whole),
    queue.trans (congrArg (fun q : RecoveryQueue => q.joinTail .demand n) order), by rw [store]; exact asks, ?_⟩
  · rw [show (v.queueTail n .demand).units = s.units from same,
      show (v.queueTail n .demand).port = s.port from settings]
  · rw [frame, show v.queueTail n .demand = { s with
        tracks := (v.queueTail n .demand).tracks, freeList := rest, queue := s.queue.joinTail .demand n
        store := (v.queueTail n .demand).store } from congrArg (State.queueTail · n .demand) whole]

/-- A READ with no record for its track and no frame free asks the Direct Read Slot (R154). -/
theorem loadClaim_empty (empty : s.freeList = []) : ∃ z : StoreRec, onlyAsks s.store z ∧ s.loadClaim u = { s with
    store := z
    units := s.units.set u { s.units.get u with
      state := .wait, waitOn := some .drs, patience := some s.port.settings.patience }
    drs := { s.drs with waitingUnits := s.drs.waitingUnits ++ [u] } } := by
  refine ⟨(s.askStore (.unit u) 1).store, ⟨_, _, _, rfl⟩, ?_⟩
  rw [loadClaim_nobody sound nobody]
  unfold State.allocateForRead
  rw [allocate_empty (w := s) (cl := .unit u) (o := .system) sound clean rfl defined inside nobody empty]
  rfl

end

end Sys2Proof.Machine
end

