-- ==== Sys2Proof/Proofs/WriteClaims.lean ====
section
/-! SUPPORT. A WRITE's claim on the track at its POSITION (R46, R158): the Track Table's decision by the lock, the
sector's STATUS and the share, and the write taken. -/

namespace Sys2Proof.Machine

open Sys2Proof.Stated

variable {s t v : State} {u : Fin 4} {n k : Nat} {g : Geometry} {r : TrackRec} {cl : StoreClaimant} {bytes : List Byte}

/-! ## The decision -/

/-- The bytes that complete a short share: zeros on a FAILED or LOST sector, else the frame's own (R46). -/
def State.beneath (s : State) (n k : Nat) : List Byte :=
  if ((s.track n).sector k).status = .failed ∨ ((s.track n).sector k).status = .lost then
    List.replicate (s.track n).sectorBytes 0
  else readBytes s.store.mem (n * 16384 + k * (s.track n).sectorBytes) (s.track n).sectorBytes

@[simp] theorem beneath_length (s : State) (n k : Nat) : (s.beneath n k).length = (s.track n).sectorBytes := by
  unfold State.beneath
  split <;> simp

theorem completed_length {rest : List Byte} (short : bytes.length ≤ rest.length) :
    (completed bytes rest).length = rest.length := by
  unfold completed
  simp only [List.length_append, List.length_drop]
  omega

theorem completed_whole {rest : List Byte} (whole : bytes.length = rest.length) : completed bytes rest = bytes := by
  unfold completed
  rw [List.drop_eq_nil_of_le whole.ge, List.append_nil]

theorem shadowWrite_locked (locked : (s.track n).lock ≠ none) : s.shadowWrite cl n k bytes = (.locked, s) :=
  if_pos (Option.isSome_iff_ne_none.2 locked)

section
variable (unlocked : (s.track n).lock = none)
include unlocked

theorem shadowWrite_marked (marked : ((s.track n).sector k).status = .marked) :
    s.shadowWrite cl n k bytes = (.marked, s) :=
  (if_neg (by simp [unlocked])).trans (if_pos marked)

/-- A short share of an unresolved sector waits (R46). -/
theorem shadowWrite_unresolved (short : bytes.length ≠ (s.track n).sectorBytes)
    (open_ : ((s.track n).sector k).status = .pending ∨ ((s.track n).sector k).status = .damaged) :
    s.shadowWrite cl n k bytes = (.unresolved, s) := by
  refine (if_neg (by simp [unlocked])).trans <| (if_neg ?_).trans <| (if_neg short).trans ?_
  · rcases open_ with e | e <;> simp [e]
  · rcases open_ with e | e <;> rw [e]

/-- Any other share is taken, completed to a whole sector (R46). -/
theorem shadowWrite_taken (clean : s.store.flips = []) (unmarked : ((s.track n).sector k).status ≠ .marked)
    (taken : bytes.length = (s.track n).sectorBytes
      ∨ ¬ (((s.track n).sector k).status = .pending ∨ ((s.track n).sector k).status = .damaged)) :
    ∃ y, onlyAsks s.store y ∧ s.shadowWrite cl n k bytes
      = (.taken, ({ s with store := y } : State).takeWrite cl n k (completed bytes (s.beneath n k))) := by
  by_cases whole : bytes.length = (s.track n).sectorBytes
  · refine ⟨s.store, onlyAsks_refl _, ?_⟩
    rw [completed_whole (by rw [whole, beneath_length])]
    exact (if_neg (by simp [unlocked])).trans <| (if_neg unmarked).trans (if_pos whole)
  have resolved := taken.resolve_left whole
  obtain ⟨y, asks, read⟩ := readFrame_read clean cl n k
  have decide_ {w : State} {rest : List Byte} (e : s.beneath n k = rest)
      (h : s.shadowWrite cl n k bytes = (.taken, w.takeWrite cl n k (completed bytes rest))) :
      s.shadowWrite cl n k bytes = (.taken, w.takeWrite cl n k (completed bytes (s.beneath n k))) := by rw [e, h]
  have zeros (e : ((s.track n).sector k).status = .failed ∨ ((s.track n).sector k).status = .lost) :
      s.beneath n k = List.replicate (s.track n).sectorBytes 0 := if_pos e
  have image (e : ¬ (((s.track n).sector k).status = .failed ∨ ((s.track n).sector k).status = .lost)) :
      s.beneath n k = _ := if_neg e
  cases status : ((s.track n).sector k).status
  case pending => exact absurd (.inl status) resolved
  case damaged => exact absurd (.inr status) resolved
  case marked => exact absurd status unmarked
  case failed | lost =>
    refine ⟨s.store, onlyAsks_refl _, decide_ (zeros (by simp [status])) ?_⟩
    refine (if_neg (by simp [unlocked])).trans <| (if_neg unmarked).trans <| (if_neg whole).trans ?_
    rw [status]
  all_goals
    refine ⟨y, asks, decide_ (image (by simp [status])) ?_⟩
    refine (if_neg (by simp [unlocked])).trans <| (if_neg unmarked).trans <| (if_neg whole).trans ?_
    rw [status]
    dsimp only
    rw [read]

end

/-! ## The write taken -/

/-- The record of a track with a sector written by a unit's claim (R40, R44, R46, R48, R49). -/
def TrackRec.shadowed (r : TrackRec) (k : Nat) : TrackRec :=
  { (r.setSector k (r.sector k).written).imageChanged with
    diverged := true, origins := { r.origins with system := true } }

/-- A unit's write on a claimed track that no context is bound to, as its steps (R46). -/
theorem Claimed.takeWrite (h : Claimed s t n) (live : (s.track n).state ≠ .free)
    (unbound : (s.track n).context = none) : ∃ v, onlyTrack s v n ((s.track n).shadowed k)
      ∧ v = { s with tracks := v.tracks, store := v.store } ∧ v.store = (t.writeFrame cl n k bytes).store
      ∧ t.takeWrite cl n k bytes = v.settleIfResolved n (s.track n).anyUnresolved := by
  have same : (t.writeFrame cl n k bytes).track n
      = { s.track n with origins := { (s.track n).origins with system := true } } := h.one.1
  have resolve := resolveSector_unbound (s := t.writeFrame cl n k bytes) (n := n) (k := k)
    (by rw [same]; exact live) (by rw [same]; exact unbound) SectorRec.written
  have one := onlyTrack_setTrack (t.writeFrame cl n k bytes) n (x := (((t.writeFrame cl n k bytes).track n).setSector k
    (((t.writeFrame cl n k bytes).track n).sector k).written).imageChanged) (by rw [same]; exact live)
  rw [← resolve] at one
  have diverged := onlyTrack_modTrack ((t.writeFrame cl n k bytes).resolveSector n k SectorRec.written) n
    (f := fun r => { r with diverged := true }) (by rw [one.1, same]; exact live)
  rw [one.1, same] at diverged
  refine ⟨_, onlyTrack_trans h.one (onlyTrack_trans (show onlyTrack t _ n _ from one) diverged), ?_, ?_, ?_⟩
  · rw [resolve, h.frame]
    rfl
  · rw [resolve]
    rfl
  · unfold State.takeWrite
    dsimp only
    rw [show (t.track n).anyUnresolved = (s.track n).anyUnresolved by rw [h.one.1]; rfl]

/-- A unit's write taken on a track that no context is bound to (R43, R46). -/
theorem Claimed.takes (h : Claimed s t n) (wf : Memory.wf s.store.mem = true) (clean : s.store.flips = [])
    (unbound : (s.track n).context = none)
    (place : (s.track n).state = .pending ∨ (s.track n).state = .queued ∨ (s.track n).state = .settled) :
    let m := t.takeWrite cl n k bytes
    let base := n * 16384 + k * (s.track n).sectorBytes
    ImageTaken s m n ((s.track n).shadowed k)
      ∧ readBytes m.store.mem base bytes.length = bytes
      ∧ (∀ i, i < base ∨ base + bytes.length ≤ i → readByte m.store.mem i = readByte s.store.mem i)
      ∧ onlyAsks { s.store with mem := m.store.mem } m.store := by
  have live : (s.track n).state ≠ .free := by rcases place with e | e | e <;> simp [e]
  have mem : t.store.mem = s.store.mem := onlyAsks_mem h.asks
  have written := writeFrame_written (by rw [mem]; exact wf) (h.clean clean) cl n k bytes
  rw [h.sectorBytes] at written
  obtain ⟨v, one, frame, store, write⟩ := h.takeWrite (cl := cl) (k := k) (bytes := bytes) live unbound
  obtain ⟨taken, kept⟩ := settleIfResolved_taken one frame rfl rfl place
  dsimp only
  rw [write, kept, store]
  exact ⟨taken, written.read, fun i outside => (written.others i outside).trans (by rw [mem]),
    (asksAndBytes_of_onlyAsks h.asks).trans written.store⟩

/-! ## The write claim -/

/-- A unit whose order writes on the track at its POSITION (R158). -/
def State.writing (s : State) (u : Fin 4) : State :=
  s.modUnit u fun r => { r with writeTrack := some (s.positionTrack u), waitOn := none }

theorem writing_unit (s : State) (u : Fin 4) : (s.writing u).units.get u
    = { s.units.get u with writeTrack := some (s.positionTrack u), waitOn := none } := Four.get_modify_self _ _ _

/-- The unit's track is noted after the claim as it would be before it. -/
theorem Claimed.writing (h : Claimed s t n) : Claimed (s.writing u) (t.writing u) n :=
  ⟨h.one, h.asks, by rw [h.frame]; rfl⟩

/-- The track noted is no part of what the end of the list tells. -/
theorem listEnds_of_writing {m : State} {c : Completion} {cs : List Condition} (h : listEnds (s.writing u) m u c cs) :
    listEnds s m u c cs := by
  obtain ⟨⟨state, conditions, transfer, req, others⟩, rest⟩ := h
  rw [writing_unit] at transfer req
  exact ⟨⟨state, conditions, transfer, req, fun v other => (others v other).trans (Four.get_modify_ne _ _ other)⟩, rest⟩

/-- What a WRITE does on the Track Table's decision (R158). -/
theorem writeInto_decided (s : State) (u : Fin 4) (n : Nat) :
    let k := (s.units.get u).position.sector
    let decision := (s.writing u).shadowWrite (.unit u) n k (s.units.get u).buffer
    (∀ v, decision = (.taken, v) → s.writeInto u n = v.sectorDone u)
    ∧ (∀ v, decision = (.locked, v) → s.writeInto u n = v.demandWait u n (.lock n))
    ∧ (∀ v, decision = (.marked, v) → s.writeInto u n = v.endCheck u .marked .marked)
    ∧ (∀ v, decision = (.unresolved, v) → s.writeInto u n = v.demandWait u n (.sector n k)) := by
  unfold State.writeInto State.writing
  dsimp only
  refine ⟨fun v e => ?_, fun v e => ?_, fun v e => ?_, fun v e => ?_⟩
  all_goals rw [e]

section
variable (sound : s.Sound) (clean : s.store.flips = [])
  (only : ∀ j, (s.track j).holds (s.positionTrack u) = true ↔ j = n)
include sound clean only

/-- A WRITE's claim on a track that a record holds is decided on the record claimed (R158). -/
theorem writeClaim_claimed : ∃ t, Claimed s t n ∧ s.writeClaim u = t.writeInto u n := by
  obtain ⟨t, claimed, found⟩ := claimTrack_claimed (u := u) sound clean only
  refine ⟨t, claimed, ?_⟩
  unfold State.writeClaim
  rw [found]

/-- A WRITE waits on a locked track, or with a short share on an unresolved sector (R46, R158). -/
theorem writeClaim_waits (told : (s.units.get u).haltTold = false)
    (placed : (s.track n).cls ≠ none ∨ (s.track n).state = .pending ∨ (s.track n).state = .settled) :
    let k := (s.units.get u).position.sector
    let status := ((s.track n).sector k).status
    let m := s.writeClaim u
    ((s.track n).lock ≠ none →
        waitBegins (s.writing u) m u n (.lock n) (s.track n) ∧ onlyAsks s.store m.store)
    ∧ ((s.track n).lock = none → status = .pending ∨ status = .damaged →
        (s.units.get u).buffer.length ≠ (s.track n).sectorBytes →
        waitBegins (s.writing u) m u n (.sector n k) (s.track n) ∧ onlyAsks s.store m.store) := by
  obtain ⟨t, claimed, claim⟩ := writeClaim_claimed sound clean only
  have writing : Claimed (s.writing u) (t.writing u) n := claimed.writing
  obtain ⟨_, locks, _, waits⟩ := writeInto_decided t u n
  have live := holds_live ((only n).2 rfl)
  have told : ((s.writing u).units.get u).haltTold = false := by rw [writing_unit]; exact told
  rw [claimed.units] at locks waits
  dsimp only
  rw [claim]
  refine ⟨fun locked => ?_, fun unlocked open_ short => ?_⟩
  · rw [locks _ (shadowWrite_locked (by rw [writing.lock]; exact locked))]
    exact writing.waits told live placed
  · rw [waits _ (shadowWrite_unresolved (by rw [writing.lock]; exact unlocked)
      (by rw [writing.sectorBytes]; exact short) (by rw [writing.sector]; exact open_))]
    exact writing.waits told live placed

/-- A WRITE's list ends on a MARKED sector (R46, R158). -/
theorem writeClaim_marked (unlocked : (s.track n).lock = none)
    (marked : ((s.track n).sector (s.units.get u).position.sector).status = .marked)
    (base : s.port.settings.statusBase ≤ 0xFFFFC0) :
    listEnds s (s.writeClaim u) u .check [.marked] ∧ ((s.writeClaim u).units.get u).sense.reason = .marked := by
  obtain ⟨t, claimed, claim⟩ := writeClaim_claimed sound clean only
  have writing : Claimed (s.writing u) (t.writing u) n := claimed.writing
  obtain ⟨_, _, ends, _⟩ := writeInto_decided t u n
  rw [claimed.units] at ends
  rw [claim, ends _ (shadowWrite_marked (by rw [writing.lock]; exact unlocked) (by rw [writing.sector]; exact marked))]
  obtain ⟨list, reason⟩ := writing.ends (u := u) clean base .marked .marked
  exact ⟨listEnds_of_writing list, reason⟩

/-- Any other WRITE's share is taken, completed to a whole sector, and its sector is done (R43, R46, R158). -/
theorem writeClaim_taken (unbound : (s.track n).context = none) (inactive : (s.track n).state ≠ .active)
    (short : (s.units.get u).buffer.length ≤ (s.track n).sectorBytes) (unlocked : (s.track n).lock = none) :
    let k := (s.units.get u).position.sector
    let status := ((s.track n).sector k).status
    let base := n * 16384 + k * (s.track n).sectorBytes
    status ≠ .marked →
    (s.units.get u).buffer.length = (s.track n).sectorBytes ∨ ¬ (status = .pending ∨ status = .damaged) →
    ∃ t : State, s.writeClaim u = t.sectorDone u ∧ ImageTaken (s.writing u) t n ((s.track n).shadowed k)
      ∧ readBytes t.store.mem base (s.track n).sectorBytes = completed (s.units.get u).buffer (s.beneath n k)
      ∧ (∀ i, i < base ∨ base + (s.track n).sectorBytes ≤ i → readByte t.store.mem i = readByte s.store.mem i)
      ∧ onlyAsks { s.store with mem := t.store.mem } t.store := by
  obtain ⟨t, claimed, claim⟩ := writeClaim_claimed sound clean only
  have writing : Claimed (s.writing u) (t.writing u) n := claimed.writing
  obtain ⟨takes, _, _, _⟩ := writeInto_decided t u n
  rw [claimed.units] at takes
  intro k status base unmarked taken
  have place : (s.track n).state = .pending ∨ (s.track n).state = .queued ∨ (s.track n).state = .settled := by
    have live := holds_live ((only n).2 rfl)
    cases e : (s.track n).state <;> simp [e] at inactive live ⊢
  obtain ⟨y, asks, decision⟩ := shadowWrite_taken (s := t.writing u) (n := n) (k := k) (cl := .unit u)
    (bytes := (s.units.get u).buffer) (writing.lock.trans unlocked) (writing.clean clean)
    (by rw [writing.sector]; exact unmarked) (by rw [writing.sector, writing.sectorBytes]; exact taken)
  have old : (t.writing u).beneath n k = s.beneath n k := by
    unfold State.beneath
    rw [writing.sector, writing.sectorBytes, onlyAsks_mem writing.asks]
    rfl
  have length : (completed (s.units.get u).buffer (s.beneath n k)).length = (s.track n).sectorBytes := by
    rw [completed_length (by rwa [beneath_length]), beneath_length]
  rw [old] at decision
  obtain ⟨image, read, others, store⟩ := (writing.asking asks).takes (cl := .unit u) (k := k)
    (bytes := completed (s.units.get u).buffer (s.beneath n k)) sound.memory clean unbound place
  rw [length] at read others
  exact ⟨_, claim.trans (takes _ decision), image, read, others, store⟩

end

/-- A WRITE with no record for its track and no frame free ends its list POOL_FULL (R158). -/
theorem writeClaim_empty (sound : s.Sound) (clean : s.store.flips = []) (defined : s.geometry.get u = some g)
    (inside : g.contains (s.units.get u).position.cyl (s.units.get u).position.head = true)
    (nobody : ∀ j, (s.track j).holds (s.positionTrack u) = false) (empty : s.freeList = [])
    (base : s.port.settings.statusBase ≤ 0xFFFFC0) :
    listEnds s (s.writeClaim u) u .check [.poolFull]
      ∧ ((s.writeClaim u).units.get u).sense.reason = .poolFull := by
  have claim : s.writeClaim u = (s.askStore (.unit u) 1).endCheck u .poolFull .poolFull := by
    unfold State.writeClaim
    rw [claimTrack_nobody sound rfl nobody]
    dsimp only
    rw [allocate_empty (w := s) (cl := .unit u) (o := .system) sound clean rfl defined inside nobody empty]
  obtain ⟨ends, reason⟩ := endCheck_listEnds (s := s.askStore (.unit u) 1) (u := u) clean base .poolFull .poolFull
  rw [claim]
  exact ⟨listEnds_congr ends rfl rfl rfl rfl rfl rfl, reason⟩

/-- Settles O60: a READ's and a WRITE's claim, by the record that holds the track, its lock and the sector's STATUS. -/
theorem unitClaimsDecided : Obligations.UnitClaimsDecided := by
  intro u s sound clean told
  dsimp only
  refine ⟨fun n only => ?_, fun g defined cyl head nobody => ?_, fun n only inactive unbound _ short => ?_⟩
  · refine ⟨fun placed => loadClaim_waits sound clean only told placed,
      fun unlocked held fits => loadClaim_delivers sound clean only unlocked fits held, fun unlocked base bare => ?_⟩
    obtain ⟨marked, lost, failed⟩ := loadClaim_ends sound clean only unlocked base
    rcases bare with e | e | ⟨e, refused⟩
    · obtain ⟨ends, reason⟩ := marked e
      exact ⟨ends, fun _ => reason, fun f => (nomatch e.symm.trans f), fun f => (nomatch e.symm.trans f)⟩
    · obtain ⟨ends, reason⟩ := lost e
      exact ⟨ends, fun f => (nomatch e.symm.trans f), fun _ => reason, fun f => (nomatch e.symm.trans f)⟩
    · obtain ⟨ends, reason⟩ := failed e refused
      exact ⟨ends, fun f => (nomatch e.symm.trans f), fun f => (nomatch e.symm.trans f), fun _ => reason⟩
  · have inside : g.contains (s.units.get u).position.cyl (s.units.get u).position.head = true := by
      simp [Geometry.contains, cyl, head]
    exact ⟨fun n rest free => loadClaim_fresh sound clean defined inside nobody told rfl free,
      fun empty => ⟨loadClaim_empty sound clean defined inside nobody empty,
        writeClaim_empty sound clean defined inside nobody empty⟩⟩
  · refine ⟨fun placed => ?_, fun unlocked marked base => writeClaim_marked sound clean only unlocked marked base,
      fun unlocked unmarked taken => ?_⟩
    · have live := holds_live ((only n).2 rfl)
      refine writeClaim_waits sound clean only told ?_
      cases e : (s.track n).state <;> simp [e] at placed inactive live ⊢
      exact placed
    · obtain ⟨t, claim, ⟨stays, settles, frame⟩, read, others, store⟩ :=
        writeClaim_taken sound clean only unbound inactive short unlocked unmarked taken
      exact ⟨t, claim, read, others, store, stays, settles, frame⟩

end Sys2Proof.Machine
end

