-- ==== Sys2Proof/Proofs/StartUpEnds.lean ====
section
/-! SUPPORT. The ends of a start-up and of RESUMING in READY (R173, R174, R176). -/

namespace Sys2Proof.Machine

open Sys2Proof.Stated

variable {s : State}

/-- A discovery runs on some drive of those a test picks. -/
theorem anyDiscovering_iff (s : State) (pick : DriveRec → Bool) : s.anyDiscovering pick = true ↔
    ∃ d, pick (s.drives.get d) = true ∧ (s.drives.get d).discovery ≠ none := by
  simp [State.anyDiscovering, Four.mem_toList, DriveRec.discovering, Option.isSome_iff_ne_none]

theorem inService_iff (r : DriveRec) : r.inService = true ↔ r.fitted = true ∧ r.state ≠ DriveState.withdrawn := by
  simp [DriveRec.inService]

theorem inPhase_iff (s : State) (p : Phase) : s.inPhase p = true ↔ s.ctl.state = .starting ∧ s.ctl.phase = some p := by
  simp [State.inPhase]

/-- DISCOVERY_PHASE_END acts in the DISCOVERY phase once no fitted drive is discovering (R173). -/
theorem exec_discoveryPhaseEnd (s : State) : exec .discoveryPhaseEnd s = .next
    (if (s.ctl.state = .starting ∧ s.ctl.phase = some .discovery)
        ∧ ¬ ∃ d, (s.drives.get d).fitted = true ∧ (s.drives.get d).discovery ≠ none then
      (s.becomeReady.modAttention fun a => { a with started := true }).finish
    else s) :=
  congrArg Host.Outcome.next (if_congr
    (by rw [Bool.and_eq_true, inPhase_iff, Bool.not_eq_true', ← Bool.not_eq_true, anyDiscovering_iff]) rfl rfl)

/-- RESUMING_END acts in RESUMING once no drive in service is discovering (R176). -/
theorem exec_resumingEnd (s : State) : exec .resumingEnd s = .next
    (if s.ctl.state = .resuming ∧ ¬ ∃ d, ((s.drives.get d).fitted = true ∧ (s.drives.get d).state ≠ DriveState.withdrawn)
        ∧ (s.drives.get d).discovery ≠ none then s.becomeReady.finish else s) :=
  congrArg Host.Outcome.next (if_congr
    (by simp only [Bool.and_eq_true, decide_eq_true_eq, Bool.not_eq_true', ← Bool.not_eq_true, anyDiscovering_iff,
      inService_iff]) rfl rfl)

/-- Settles O9: by the STATE and PHASE, and by the discoveries that run. -/
theorem startUpEndsInReady : Obligations.StartUpEndsInReady := by
  intro s
  rw [exec_discoveryPhaseEnd, exec_resumingEnd]
  refine ⟨fun starting phase clean quiet => ?_, fun stays => ?_, fun resuming clean quiet => ?_, fun stays => ?_⟩
  · obtain ⟨x, asks, ready⟩ := becomeReady_clean clean
    rw [if_pos ⟨⟨starting, phase⟩, fun ⟨d, fitted, runs⟩ => runs (quiet d fitted)⟩, ready]
    exact ⟨_, rfl, asks, rfl⟩
  · exact congrArg _ (if_neg fun ⟨at_, quiet⟩ => stays.elim quiet fun other => other at_)
  · obtain ⟨x, asks, ready⟩ := becomeReady_clean clean
    rw [if_pos ⟨resuming, fun ⟨d, ⟨fitted, service⟩, runs⟩ => runs (quiet d fitted service)⟩, ready]
    exact ⟨_, rfl, asks, rfl⟩
  · exact congrArg _ (if_neg fun ⟨at_, quiet⟩ => stays.elim
      (fun ⟨d, fitted, service, runs⟩ => quiet ⟨d, ⟨fitted, service⟩, runs⟩) fun other => other at_)

end Sys2Proof.Machine
end

