-- ==== Sys2Proof/Proofs/SweepRequests.lean ====
section
/-! SUPPORT. SWEEP_START and SWEEP_STOP (R79): the requests' tests and the sweep record that they answer. -/

namespace Sys2Proof.Machine

open Sys2Proof.Stated

variable {s t : State} {d : Fin 4} {tag b hi lo : Byte} {p q : List Byte} {r : Result} {g : Geometry}

/-! ## Performing -/

/-- SWEEP_START is performed with the reply that its rule gives on the window's state. -/
theorem exec_sweepStart (link : linkReady s)
    (reply : (s.requestWindow [b, hi, lo]).startSweep [b, hi, lo] = { result := r, payload := q, after := t }) :
    exec (.sweepStart tag [b, hi, lo]) s = .next (t.place 0x14 tag r q).finish :=
  request_performed (rest := State.finish) rfl { result := r, payload := q, after := t } reply link.1 (by simp) (by simp)
    (ready_performs _ link.2)

/-- SWEEP_STOP is performed with the reply that its rule gives on the window's state. -/
theorem exec_sweepStop (link : linkReady s)
    (reply : (s.requestWindow [b]).stopSweep [b] = { result := r, payload := q, after := t }) :
    exec (.sweepStop tag [b]) s = .next (t.place 0x15 tag r q).finish :=
  request_performed (rest := State.finish) rfl { result := r, payload := q, after := t } reply link.1 (by simp) (by simp)
    (ready_performs _ link.2)

/-! ## The replies -/

section
variable (drive : at1 p 0 = d.val) (fit : (s.drives.get d).fitted = true) (clean : s.store.flips = [])
include drive fit clean

/-- SWEEP_START of a drive with no geometry (R79). -/
theorem startSweep_undefined (noGeometry : s.geometry.get d = none) :
    ∃ x, onlyAsks s.store x ∧ s.startSweep p = ({ s with store := x } : State).reply .driveCondition := by
  obtain ⟨a, b, c, e⟩ := records_clean clean [.geometry d, .sweepRecord d] _
  refine ⟨_, ⟨a, b, c, rfl⟩, ?_⟩
  unfold State.startSweep
  rw [withDrive_some drive fit]
  refine e.trans ?_
  dsimp only
  rw [noGeometry]

/-- SWEEP_START of a drive with a geometry, by the cylinder (R79). -/
theorem startSweep_defined (defined : s.geometry.get d = some g) :
    ∃ x, onlyAsks s.store x ∧ s.startSweep p = if g.cylinders ≤ at2 p 1 then ({ s with store := x } : State).reply .range
      else
        let m := ({ s with store := x } : State).modSweep d fun w => { w with state := .running, cyl := at2 p 1, head := 0 }
        m.replyWith .accepted (m.sweepPayload d) := by
  obtain ⟨a, b, c, e⟩ := records_clean clean [.geometry d, .sweepRecord d] _
  refine ⟨_, ⟨a, b, c, rfl⟩, ?_⟩
  unfold State.startSweep
  rw [withDrive_some drive fit]
  refine e.trans ?_
  dsimp only
  rw [defined]

/-- SWEEP_STOP (R79). -/
theorem stopSweep_reply : ∃ x, onlyAsks s.store x ∧ s.stopSweep p =
    let m := ({ s with store := x } : State).modSweep d fun w => { w with state := .off }
    m.replyWith .ok (m.sweepPayload d) := by
  obtain ⟨a, b, c, e⟩ := records_clean clean [.sweepRecord d] _
  refine ⟨_, ⟨a, b, c, rfl⟩, ?_⟩
  unfold State.stopSweep
  rw [withDrive_some drive fit]
  exact e

end

/-- The sweep record's bytes after a change of it (R79). -/
theorem sweepPayload_modSweep (drive : b.toNat = d.val) (f : SweepRec → SweepRec) :
    let w := f (s.sweeps.get d)
    (s.modSweep d f).sweepPayload d = [b, byteOf w.state.code] ++ be2 w.cyl ++ [byteOf w.head, byteOf w.depth] := by
  have named : byteOf d.val = b := by rw [← drive]; simp [byteOf]
  unfold State.sweepPayload
  rw [named, show (s.modSweep d f).sweeps.get d = f (s.sweeps.get d) from Four.get_modify_self _ _ _]

/-- Settles O44: refused by the drive, its geometry and the cylinder, and else the sweep record set and answered. -/
theorem sweepsStartAndStop : Obligations.SweepsStartAndStop := by
  intro tag b hi lo s link clean
  dsimp only
  have starts : (0x14 : Byte) ≠ attentionKind := by decide
  have stops : (0x15 : Byte) ≠ attentionKind := by decide
  have read : ∀ (p : List Byte) x, onlyAsks s.store x → onlyRead s { s.requestWindow p with store := x } :=
    fun p x asks => ⟨_, x, asks, rfl⟩
  refine ⟨fun unfitted => ⟨?_, ?_⟩, fun d drive fit => ⟨fun noGeometry => ?_, fun g defined => ⟨fun outside => ?_,
    fun inside => ?_⟩, ?_⟩⟩
  · exact onlyAnswers_of_read starts (onlyRead_requestWindow s _) (exec_sweepStart link
      (withDrive_none (s := s.requestWindow [b, hi, lo]) (p := [b, hi, lo]) unfitted _))
  · exact onlyAnswers_of_read stops (onlyRead_requestWindow s _) (exec_sweepStop link (withDrive_unfitted unfitted _))
  · obtain ⟨x, asks, reply⟩ := startSweep_undefined (s := s.requestWindow [b, hi, lo]) (p := [b, hi, lo]) drive fit
      clean noGeometry
    exact onlyAnswers_of_read starts (read _ x asks) (exec_sweepStart link reply)
  · obtain ⟨x, asks, reply⟩ := startSweep_defined (s := s.requestWindow [b, hi, lo]) (p := [b, hi, lo]) drive fit
      clean defined
    exact onlyAnswers_of_read starts (read _ x asks) (exec_sweepStart link (reply.trans (if_pos outside)))
  · obtain ⟨x, asks, reply⟩ := startSweep_defined (s := s.requestWindow [b, hi, lo]) (p := [b, hi, lo]) drive fit
      clean defined
    replace reply := reply.trans (if_neg (Nat.not_le.2 inside))
    dsimp only at reply
    rw [sweepPayload_modSweep drive] at reply
    exact ⟨_, exec_sweepStart link reply, answered_place rfl _ _ _ _ starts, ⟨rfl, rfl, asks⟩, rfl, rfl⟩
  · obtain ⟨x, asks, reply⟩ := stopSweep_reply (s := s.requestWindow [b]) (p := [b]) drive fit clean
    dsimp only at reply
    rw [sweepPayload_modSweep drive] at reply
    exact ⟨_, exec_sweepStop link reply, answered_place rfl _ _ _ _ stops, ⟨rfl, rfl, asks⟩, rfl, rfl⟩

end Sys2Proof.Machine
end

