-- ==== Sys2Proof/Proofs/Dispatcher.lean ====
section
/-! SUPPORT. The Dispatcher (R72, R73): the entries that it may offer, when it takes a decision, and what a binding and
the context bound then do (R85, R86). -/

namespace Sys2Proof.Machine

open Sys2Proof.Stated

variable {s : State} {c : Fin 4} {n : Nat} {a : TrackAddr}

/-! ## The decision -/

/-- An entry is dispatchable when its drive is open for work, unclaimed and without a bound context, the record is not
locked, and the controller is READY (R72). -/
theorem dispatchable_iff (s : State) (n : Nat) : s.dispatchable n = true ↔ ∃ a, (s.track n).addr = some a
    ∧ (s.drives.get a.drive).state = DriveState.ready ∧ (s.drives.get a.drive).discovery = none
    ∧ s.geometry.get a.drive ≠ none ∧ (s.drives.get a.drive).claim = none
    ∧ (∀ c k, (s.ctxs.get c).track = some k → ((s.track k).addr.map (·.drive)) ≠ some a.drive)
    ∧ (s.track n).lock = none ∧ s.ctl.state = .ready := by
  unfold State.dispatchable
  dsimp only
  cases addr : (s.track n).addr with
  | none => simp
  | some a =>
    simp only [Bool.and_eq_true, openForWork_iff, Option.isNone_iff_eq_none, ctxOn_none_iff, decide_eq_true_eq,
      Option.some.injEq, exists_eq_left', and_assoc]

/-- The FREE context of lowest number (R73). -/
theorem freeContext_iff (s : State) (c : Fin 4) : s.freeContext = some c ↔
    (s.ctxs.get c).state = .free ∧ ∀ e, e < c → (s.ctxs.get e).state ≠ .free := by
  unfold State.freeContext
  rw [find_fourNumbers_some]
  simp

/-- A decision begins with the FREE context of lowest number and the first dispatchable entry (R73). -/
theorem nextBinding_iff (s : State) (c : Fin 4) (n : Nat) : s.nextBinding = some (c, n) ↔
    s.freeContext = some c ∧ s.queue.order.find? s.dispatchable = some n := by
  unfold State.nextBinding
  cases s.freeContext <;> cases s.queue.order.find? s.dispatchable <;> simp

/-- With nothing to do before the Dispatcher, a reaction takes its decision. -/
theorem reactOnce_binds {x : Fin 4 × Nat} (settling : s.settlingCtx = none) (notified : s.notifiedUnit = none)
    (served : s.servedUnit = none) (started : s.startedRequest = none) (fed : s.fedDrive = none)
    (next : s.nextBinding = some x) : s.reactOnce = some s.bindFree := by
  unfold State.reactOnce
  rw [settling, notified, served, started, fed, next]

/-! ## The binding -/

/-- The record of a context that has just been bound, before it has taken a step (R83, R85). -/
def CtxRec.boundTo (n size : Nat) : CtxRec :=
  { state := .positioning, track := some n, step := none, evaluation := .none, wanted := []
    candidates := List.replicate size [], lastFlags := List.replicate size none }

/-- A binding made, the context not yet started: the record ACTIVE and out of the queue, the drive claimed (R73). -/
def State.boundTo (s : State) (c : Fin 4) (n : Nat) (d : Fin 4) : State :=
  { s with
    tracks := (s.setTrack n { s.track n with state := .active, context := some c }).tracks
    queue := s.queue.leave n
    drives := s.drives.set d { s.drives.get d with claim := some (.ctx c) }
    ctxs := s.ctxs.set c (CtxRec.boundTo n (s.track n).sectors.length) }

theorem onlyTrack_boundTo (s : State) (c : Fin 4) (n : Nat) (d : Fin 4) :
    onlyTrack s (s.boundTo c n d) n { s.track n with state := .active, context := some c } :=
  onlyTrack_setTrack s n (x := { s.track n with state := .active, context := some c }) (by simp)

theorem bindTrack_eq (s : State) (c : Fin 4) (n : Nat) (d : Fin 4) :
    s.bindTrack c n d = (s.boundTo c n d).startContext c n := by
  have size : ((((s.leaveQueue n).modTrack n fun r => { r with state := .active, context := some c }).modDrive d
      fun r => { r with claim := some (.ctx c) }).track n).sectors.length = (s.track n).sectors.length := by
    show ((s.boundTo c n d).track n).sectors.length = _
    rw [(onlyTrack_boundTo s c n d).1]
  unfold State.bindTrack
  dsimp only
  rw [size]
  rfl

/-- A QUEUED entry is dispatched, in a store without bit errors: two reads asked for, the binding, and the context's
start. -/
theorem dispatch_clean (clean : s.store.flips = []) (queued : (s.track n).state = .queued)
    (addr : (s.track n).addr = some a) (c : Fin 4) : ∃ x, onlyAsks s.store x
      ∧ s.dispatch c n = (({ s with store := x } : State).boundTo c n a.drive).startContext c n := by
  refine ⟨((s.askStore .table 1).askStore .table 1).store, ⟨_, _, _, rfl⟩, ?_⟩
  unfold State.dispatch
  rw [readEntry_clean clean queued addr]
  exact bindTrack_eq _ c n a.drive

/-! ## The context's start -/

/-- A context bound to a track without unresolved sectors settles it (R85). -/
theorem startContext_resolved (resolved : ¬ unresolved (s.track n)) (c : Fin 4) :
    s.startContext c n = s.settleBound c n := by
  rw [unresolved_iff] at resolved
  exact if_pos (by simpa using resolved)

/-- A context bound to a track that has run out of steps asks for the FINAL evaluation (R85). -/
theorem startContext_exhausted (open_ : unresolved (s.track n)) (step : s.ladder[(s.track n).nextStep]? = none)
    (c : Fin 4) : s.startContext c n = s.requestEvaluation c .final := by
  rw [unresolved_iff] at open_
  refine (if_neg (by simp [open_])).trans ?_
  rw [stepAt, step]
  rfl

/-- A context bound to a track with a step left takes the step and prepares a revolution (R85, R86). -/
theorem startContext_steps {st : LadderStep} (open_ : unresolved (s.track n))
    (step : s.ladder[(s.track n).nextStep]? = some st) (c : Fin 4) :
    s.startContext c n = (s.modCtx c fun x =>
      { x with step := some { index := (s.track n).nextStep, step := st } }).prepareRevolution c := by
  rw [unresolved_iff] at open_
  refine (if_neg (by simp [open_])).trans ?_
  rw [stepAt, step]
  rfl

/-- A context that is not DISPLACED asks for the FINAL evaluation of its track (R95, R107). -/
theorem requestEvaluation_final (track : (s.ctxs.get c).track = some n) (placed : (s.ctxs.get c).state ≠ .displaced) :
    s.requestEvaluation c .final = { s with
      vote := { s.vote with requests := s.vote.requests
        ++ [{ context := c, track := n, kind := .final, step := none, flags := (s.ctxs.get c).lastFlags }] }
      ctxs := s.ctxs.set c { s.ctxs.get c with state := .evaluating, evaluation := .final, wanted := [] } } := by
  unfold State.requestEvaluation
  dsimp only
  rw [track]
  dsimp only
  rw [State.modCtx, Four.modify]
  simp [State.queueVote, placed, track]

/-- A positioning begins on a drive whose heads are not in place (R24, R25). -/
theorem beginPositioning_begun {d : Fin 4} {cyl : Nat} {offset : Offset}
    (away : ¬ ((s.drives.get d).cylAt = some cyl ∧ (s.drives.get d).offsetAt = some offset)) :
    s.beginPositioning d cyl offset = onlyDrive s d (positioningBegun (s.drives.get d) cyl offset) := by
  cases place : (s.drives.get d).cylAt with
  | none =>
    rw [beginPositioning_unknown place]
    exact modDrive_onlyDrive _ (by simp [positioningBegun, place])
  | some at_ =>
    unfold State.beginPositioning
    rw [place]
    dsimp only
    by_cases same : at_ = cyl
    · rw [if_pos same]
      exact (if_neg fun offset => away ⟨by rw [place, same], offset⟩).trans
        (modDrive_onlyDrive _ (by simp [positioningBegun, place, same]))
    · rw [if_neg same]
      exact modDrive_onlyDrive _ (by simp [positioningBegun, place, same])

/-- A context prepares a revolution of a track with a sector left to read, with nobody else waiting for the free path:
it is granted the path, or its drive's positioning begins (R31, R86, R87). -/
theorem prepareRevolution_prepares {st : StepInForce} (track : (s.ctxs.get c).track = some n)
    (step : (s.ctxs.get c).step = some st) (addr : (s.track n).addr = some a) (left : unresolved (s.track n))
    (free : pathOpenFor s c) : prepares s (s.prepareRevolution c) c n a st.step := by
  obtain ⟨grant, drs, others⟩ := free
  have e : s.prepareRevolution c =
      if (s.drives.get a.drive).cylAt = some a.cyl ∧ (s.drives.get a.drive).offsetAt = some st.step.offset then
        s.enterWaitPath c
      else (s.modCtx c fun x => { x with state := .positioning }).beginPositioning a.drive a.cyl st.step.offset := by
    unfold State.prepareRevolution
    dsimp only
    rw [track, step]
    dsimp only
    rw [addr]
    exact if_congr (by simp) rfl rfl
  refine ⟨fun there => ?_, fun away => ?_⟩
  · obtain ⟨w, hw⟩ : ∃ w, w = s.modCtx c fun x => { x with state := .waitPath } := ⟨_, rfl⟩
    have self : w.ctxs.get c = { s.ctxs.get c with state := .waitPath } := by rw [hw]; exact Four.get_modify_self _ _ _
    have else_ : ∀ e, e ≠ c → (w.ctxs.get e).state ≠ .waitPath := fun e he => by
      rw [hw, modCtx_ctxs, Four.get_modify_ne _ _ he]
      exact others e he
    have same : w.track n = s.track n := by rw [hw]; rfl
    rw [e, if_pos there, show s.enterWaitPath c = w.grantPath by rw [hw]; rfl,
      grant_one (c := c) (n := n) (st := st) (a := a) (by rw [self]) else_ (by rw [hw]; exact drs)
        (by rw [hw]; exact grant) (by rw [self]; exact track) (by rw [self]; exact step) (by rw [same]; exact addr)
        (by rw [same]; exact (unresolved_iff _).1 left), self, same, ← openSectors_eq, hw]
    simp only [State.modCtx, Four.modify, four_set_set]
  · rw [e, if_neg away]
    exact beginPositioning_begun (s := s.modCtx c fun x => { x with state := .positioning }) away

/-! ## The binding and the start together -/

@[simp] theorem boundTo_ctx (s : State) (c : Fin 4) (n : Nat) (d : Fin 4) :
    (s.boundTo c n d).ctxs.get c = CtxRec.boundTo n (s.track n).sectors.length := Four.get_set_self _ _ _

@[simp] theorem boundTo_drive (s : State) (c : Fin 4) (n : Nat) (d : Fin 4) :
    (s.boundTo c n d).drives.get d = { s.drives.get d with claim := some (.ctx c) } := Four.get_set_self _ _ _

theorem boundTo_ctxs_set (s : State) (c : Fin 4) (n : Nat) (d : Fin 4) (x : CtxRec) :
    (s.boundTo c n d).ctxs.set c x = s.ctxs.set c x := four_set_set _ _ _ _

/-- A binding to a track without unresolved sectors: the track settles, and the context is unbound again (R85, R103). -/
theorem boundTo_settles (addr : (s.track n).addr = some a) (free : s.path.grant = none)
    (waiting : (s.drives.get a.drive).drsWaiting = false) (c : Fin 4) :
    let m := (s.boundTo c n a.drive).settleBound c n
    unboundAs s m c n a.drive { s.track n with state := .settled, context := none }
      ∧ m.queue = s.queue.leave n ∧ settledSeen s m (s.track n) ∧ m.store = s.store := by
  have active := onlyTrack_boundTo s c n a.drive
  have unbound := unbind_holding (s := s.boundTo c n a.drive) (c := c) (n := n) (a := a) (by rw [boundTo_ctx]; rfl)
    (by rw [active.1]; exact addr) (by rw [boundTo_drive]) (by rw [boundTo_drive]; exact waiting) free
  have context : onlyTrack (s.boundTo c n a.drive) ((s.boundTo c n a.drive).unbind c) n
      { (s.boundTo c n a.drive).track n with context := none } := by
    rw [unbound]
    exact onlyTrack_setTrack _ n (by rw [active.1]; nofun)
  rw [active.1] at context
  obtain ⟨settled, seen⟩ := settle_settled (onlyTrack_trans active context) (by rw [unbound]; rfl) rfl
  obtain ⟨_, positioning, state⟩ := abandonPositioning_spec ((s.boundTo c n a.drive).drives.get a.drive)
  refine ⟨⟨settled, ?_⟩, ?_, seen, ?_⟩ <;> unfold State.settleBound <;> rw [settle_eq, unbound]
  · refine ⟨four_set_set _ _ _ _, congrArg DriveRec.claim (Four.get_set_self _ _ _),
      congrArg DriveRec.seekRetried (Four.get_set_self _ _ _),
      (congrArg DriveRec.positioning (Four.get_set_self _ _ _)).trans positioning,
      (congrArg DriveRec.state (Four.get_set_self _ _ _)).trans (state.trans (by rw [boundTo_drive])),
      fun e he => (Four.get_set_ne _ _ he).trans (Four.get_set_ne _ _ he), rfl, rfl⟩
  · rfl
  · rfl

/-- A binding to a track that has run out of steps: the context asks for the FINAL evaluation (R85, R107). -/
theorem boundTo_exhausted (s : State) (c : Fin 4) (n : Nat) (d : Fin 4) :
    (s.boundTo c n d).requestEvaluation c .final = { s.boundTo c n d with
      ctxs := s.ctxs.set c { CtxRec.boundTo n (s.track n).sectors.length with
        state := .evaluating, evaluation := .final }
      vote := { s.vote with requests := s.vote.requests
        ++ [{ context := c, track := n, kind := .final, step := none
              flags := List.replicate (s.track n).sectors.length none }] } } := by
  rw [requestEvaluation_final (n := n) (by rw [boundTo_ctx]; rfl) (by rw [boundTo_ctx]; nofun), boundTo_ctx,
    boundTo_ctxs_set]
  rfl

/-- The binding made, the context having taken a step. -/
def State.stepTaken (s : State) (c : Fin 4) (n : Nat) (d : Fin 4) (st : LadderStep) : State :=
  { s.boundTo c n d with
    ctxs := s.ctxs.set c { CtxRec.boundTo n (s.track n).sectors.length with
      step := some { index := (s.track n).nextStep, step := st } } }

theorem stepTaken_eq (s : State) (c : Fin 4) (n : Nat) (d : Fin 4) (st : LadderStep) :
    ((s.boundTo c n d).modCtx c fun x =>
      { x with step := some { index := ((s.boundTo c n d).track n).nextStep, step := st } }) = s.stepTaken c n d st := by
  unfold State.modCtx Four.modify
  rw [boundTo_ctx, boundTo_ctxs_set, (onlyTrack_boundTo s c n d).1]
  rfl

/-- A binding to a track with a step left: the context prepares a revolution under it (R85, R86). -/
theorem stepTaken_prepares (addr : (s.track n).addr = some a) (left : unresolved (s.track n)) (free : pathOpenFor s c)
    (st : LadderStep) :
    prepares (s.stepTaken c n a.drive st) ((s.stepTaken c n a.drive st).prepareRevolution c) c n a st := by
  have own : (s.stepTaken c n a.drive st).ctxs.get c = { CtxRec.boundTo n (s.track n).sectors.length with
      step := some { index := (s.track n).nextStep, step := st } } := Four.get_set_self _ _ _
  have record : (s.stepTaken c n a.drive st).track n = { s.track n with state := .active, context := some c } :=
    (onlyTrack_boundTo s c n a.drive).1
  refine prepareRevolution_prepares (st := { index := (s.track n).nextStep, step := st }) (by rw [own]; rfl)
    (by rw [own]) (by rw [record]; exact addr) (by rw [record]; exact left) ⟨free.1, free.2.1, fun e he => ?_⟩
  exact (congrArg CtxRec.state (Four.get_set_ne _ _ he)).trans_ne (free.2.2 e he)

/-- Settles O58: when the Dispatcher decides, which entry it offers to which context, and what a binding does. -/
theorem dispatcherBindsInOrder : Obligations.DispatcherBindsInOrder := by
  intro s
  refine ⟨dispatchable_iff s, fun c n => ?_,
    fun c n settling notified served started fed next => reactOnce_binds settling notified served started fed next, rfl,
    fun bound n => offerable_iff, fun bound c => offer_nothing,
    fun bound c n a state first queued addr clean => offer_first state first queued addr clean,
    fun bound c n k first lost => offer_walksOn first lost, fun c n a queued addr free waiting _ clean => ?_⟩
  · rw [nextBinding_iff, freeContext_iff, List.find?_eq_some_iff_append, and_assoc]
    refine and_congr_right fun _ => and_congr_right fun _ => ?_
    simp only [RecoveryQueue.order, Bool.not_eq_true']
    exact ⟨fun ⟨first, before, after, order, none_⟩ => ⟨before, after, order, first, none_⟩,
      fun ⟨before, after, order, first, none_⟩ => ⟨first, before, after, order, none_⟩⟩
  · obtain ⟨x, asks, e⟩ := dispatch_clean clean queued addr c
    obtain ⟨r, hr⟩ : ∃ r : State, r = { s with store := x } := ⟨_, rfl⟩
    have active := onlyTrack_boundTo r c n a.drive
    have ladder : (r.boundTo c n a.drive).ladder = s.ladder := by rw [hr]; rfl
    have record : r.track n = s.track n := by rw [hr]; rfl
    rw [record] at active
    dsimp only
    rw [e, ← hr]
    refine ⟨fun resolved => ?_, fun left exhausted => ?_, fun st left step => ?_⟩
    · rw [startContext_resolved (by rw [active.1]; exact resolved)]
      obtain ⟨unbound, queue, seen, store⟩ := boundTo_settles (s := r) (by rw [record]; exact addr)
        (by rw [hr]; exact free.1) (by rw [hr]; exact waiting) c
      subst hr
      exact ⟨unbound, queue, seen, by rw [store]; exact asks⟩
    · rw [startContext_exhausted (by rw [active.1]; exact left) (by rw [active.1, ladder]; exact exhausted),
        boundTo_exhausted, exhausted]
      subst hr
      exact ⟨active, rfl, rfl, rfl, rfl, asks, rfl⟩
    · rw [startContext_steps (st := st) (by rw [active.1]; exact left) (by rw [active.1, ladder]; exact step),
        stepTaken_eq, step]
      subst hr
      exact ⟨({ s with store := x } : State).stepTaken c n a.drive st, active, rfl, rfl, rfl, asks, rfl,
        stepTaken_prepares (s := { s with store := x }) addr left free st⟩

end Sys2Proof.Machine
end

