-- ==== Sys2Proof/Proofs/SystemClear.lean ====
section
/-! SUPPORT. System clear (R146): the units and their waits, the direct read that ends and gives its drive back (R28,
R29, R33, R102), and the port. -/

namespace Sys2Proof.Machine

open Sys2Proof.Stated

variable {s t r : State} {c d : Fin 4}

/-! ## Decisions on the read path -/

/-- The Direct Read Slot is not granted the read path. -/
def State.pathNotDrs (s : State) : Prop := (s.path.grant.map (·.holder)) ≠ some .drs

/-- Decisions on the read path that leave it to contexts: contexts stay bound, and DISPLACED, as they were. -/
structure PathDecided (s t : State) : Prop where
  frame : t = { s with path := t.path, ctxs := t.ctxs }
  track : ∀ c, (t.ctxs.get c).track = (s.ctxs.get c).track
  displaced : ∀ c, (t.ctxs.get c).state = .displaced ↔ (s.ctxs.get c).state = .displaced
  notDrs : s.pathNotDrs → t.pathNotDrs

theorem PathDecided.refl (s : State) : PathDecided s s := ⟨rfl, fun _ => rfl, fun _ => Iff.rfl, id⟩

/-- The context that the path is granted to waits for it (R31). -/
theorem bestContext_waits (best : s.bestContext = some c) : (s.ctxs.get c).state = .waitPath := by
  have first : ∀ rank, s.firstOfRank rank = some c → (s.ctxs.get c).state = .waitPath := fun rank h => by
    have waits := List.find?_some h
    simp only [Bool.and_eq_true, State.ctxWaits, decide_eq_true_eq] at waits
    exact waits.1.1
  unfold State.bestContext at best
  split at best
  · next h => exact first 2 (h.trans best)
  · split at best
    · next h => exact first 3 (h.trans best)
    · exact first 4 best

theorem grantCtx_decided (waits : (s.ctxs.get c).state = .waitPath) : PathDecided s (s.grantCtx c) := by
  unfold State.grantCtx
  dsimp only
  split
  · split
    · refine ⟨rfl, fun e => ?_, fun e => ?_, fun _ => nofun⟩ <;> rw [modCtx_ctxs, Four.get_modify] <;> split
      · next same => rw [same]
      · rfl
      · next same => simp [same, waits]
      · rfl
    · exact PathDecided.refl s
  · exact PathDecided.refl s

/-- A decision on the path while the Direct Read Slot does not wait for it (R30, R31). -/
theorem grantPath_decided (drs : s.drs.state ≠ .waitPath) : PathDecided s s.grantPath := by
  unfold State.grantPath
  split
  · exact PathDecided.refl s
  · split
    · next waits _ => exact absurd waits drs
    · split
      · next best => exact grantCtx_decided (bestContext_waits best)
      · exact PathDecided.refl s

/-- The Direct Read Slot's grant ends, and a decision follows (R33). -/
theorem releaseGrant_decided (drs : s.drs.state ≠ .waitPath) :
    PathDecided s (s.releaseGrant .drs) ∧ (s.releaseGrant .drs).pathNotDrs := by
  unfold State.releaseGrant
  split
  · obtain ⟨frame, track, displaced, notDrs⟩ := grantPath_decided (s := s.dropGrant) drs
    have free := notDrs nofun
    exact ⟨⟨frame, track, displaced, fun _ => free⟩, free⟩
  · next other => exact ⟨PathDecided.refl s, other⟩

/-! ## A drive given back -/

/-- Work on one drive for its claim holder, a context: the claim stays, and all else that changes is the contexts'
records and the path, which is not granted to the Direct Read Slot. -/
structure WorksOn (d : Fin 4) (s t : State) : Prop where
  frame : t = { s with drives := t.drives, path := t.path, ctxs := t.ctxs }
  others : ∀ e, e ≠ d → t.drives.get e = s.drives.get e
  claim : (t.drives.get d).claim = (s.drives.get d).claim
  waiting : (t.drives.get d).drsWaiting = (s.drives.get d).drsWaiting
  notDrs : s.pathNotDrs → t.pathNotDrs

theorem WorksOn.refl (d : Fin 4) (s : State) : WorksOn d s s := ⟨rfl, fun _ _ => rfl, rfl, rfl, id⟩

theorem WorksOn.trans (h : WorksOn d s t) (g : WorksOn d t r) : WorksOn d s r :=
  ⟨g.frame.trans (congrArg (fun v : State => { v with drives := r.drives, path := r.path, ctxs := r.ctxs }) h.frame),
    fun e he => (g.others e he).trans (h.others e he), g.claim.trans h.claim, g.waiting.trans h.waiting,
    fun free => g.notDrs (h.notDrs free)⟩

theorem WorksOn.drs (h : WorksOn d s t) : t.drs = s.drs := by rw [h.frame]

theorem WorksOn.modCtx (h : WorksOn d s t) (c : Fin 4) (f : CtxRec → CtxRec) : WorksOn d s (t.modCtx c f) :=
  h.trans ⟨rfl, fun _ _ => rfl, rfl, rfl, id⟩

/-- The drive's record changed, its CLAIM and a wait for it kept. -/
theorem WorksOn.modDrive (h : WorksOn d s t) (f : DriveRec → DriveRec) (claim : ∀ x, (f x).claim = x.claim)
    (waiting : ∀ x, (f x).drsWaiting = x.drsWaiting) : WorksOn d s (t.modDrive d f) :=
  h.trans ⟨rfl, fun _ he => Four.get_modify_ne _ _ he, by rw [modDrive_drives, Four.get_modify_self, claim],
    by rw [modDrive_drives, Four.get_modify_self, waiting], id⟩

theorem PathDecided.worksOn (h : PathDecided s t) (d : Fin 4) : WorksOn d s t :=
  ⟨h.frame.trans (by rw [h.frame]), fun _ _ => by rw [h.frame], by rw [h.frame], by rw [h.frame], h.notDrs⟩

section
variable (h : WorksOn d s t) (drs : s.drs.state ≠ .waitPath)
include h drs

theorem WorksOn.grantPath : WorksOn d s t.grantPath :=
  h.trans ((grantPath_decided (by rw [h.drs]; exact drs)).worksOn d)

theorem WorksOn.enterWaitPath (c : Fin 4) : WorksOn d s (t.enterWaitPath c) := (h.modCtx c _).grantPath drs

variable (other : (s.drives.get d).claim ≠ some .drs)
include other

/-- The heads have come to their place for a context. -/
theorem WorksOn.tellPositioned : WorksOn d s (t.tellPositioned d) := by
  have ended := h.modDrive (fun r => { r with positioning := none }) (fun _ => rfl) fun _ => rfl
  unfold State.tellPositioned
  dsimp only
  split
  · exact ended.enterWaitPath drs _
  · next claim => exact absurd (ended.claim.symm.trans claim) other
  · exact ended

theorem WorksOn.beginPositioning (cyl : Nat) (offset : Offset) : WorksOn d s (t.beginPositioning d cyl offset) := by
  unfold State.beginPositioning
  split
  · exact h.modDrive _ (fun _ => rfl) fun _ => rfl
  · split
    · unfold State.offsetStage
      split
      · exact h.tellPositioned drs other
      · exact h.modDrive _ (fun _ => rfl) fun _ => rfl
    · exact h.modDrive _ (fun _ => rfl) fun _ => rfl

variable (bound : t.boundOn c d = true)
include bound

/-- A context bound to a track of the drive prepares a revolution (R86). -/
theorem WorksOn.prepareRevolution : WorksOn d s (t.prepareRevolution c) := by
  unfold State.prepareRevolution
  dsimp only
  split
  · next n st track _ =>
    split
    · next a addr =>
      obtain rfl : a.drive = d := by simpa [State.boundOn, track, addr] using bound
      split
      · exact h.enterWaitPath drs c
      · exact (h.modCtx c _).beginPositioning drs other _ _
    · exact h
  · exact h

/-- A displaced context goes on where it was (R29, R102). -/
theorem WorksOn.returnToContext : WorksOn d s (t.returnToContext c d) := by
  unfold State.returnToContext
  split
  · exact h.modCtx c _
  · split
    · exact h.prepareRevolution drs other bound
    · exact h.modCtx c _
    all_goals exact h

end

/-- The context that a drive's claim returns to: the one displaced, while it is still bound there (R29). -/
def State.givenBackTo (s : State) (d : Fin 4) : Option (Fin 4) :=
  (s.drives.get d).displacedContext.filter fun c => (s.ctxs.get c).state = .displaced && s.boundOn c d

theorem boundOn_iff (s : State) (c d : Fin 4) : s.boundOn c d = true ↔
    ∃ n a, (s.ctxs.get c).track = some n ∧ (s.track n).addr = some a ∧ a.drive = d := by
  unfold State.boundOn
  cases (s.ctxs.get c).track <;> simp

theorem givenBackTo_iff (s : State) (d c : Fin 4) : s.givenBackTo d = some c ↔
    (s.drives.get d).displacedContext = some c ∧ (s.ctxs.get c).state = .displaced
      ∧ ∃ n a, (s.ctxs.get c).track = some n ∧ (s.track n).addr = some a ∧ a.drive = d := by
  unfold State.givenBackTo
  rw [Option.filter_eq_some_iff, Bool.and_eq_true, decide_eq_true_eq, boundOn_iff]

/-- The Direct Read Slot gives up its drive (R28, R29). -/
theorem drsGiveUp_works (drs : s.drs.state ≠ .waitPath) : WorksOn d (s.modDrive d fun r =>
      { r.abandonPositioning with
        seekRetried := false, displacedContext := none, claim := (s.givenBackTo d).map Holder.ctx })
    (s.drsGiveUp d) := by
  have bound : ∀ c, s.givenBackTo d = some c → s.boundOn c d = true := fun c h =>
    (boundOn_iff s c d).2 ((givenBackTo_iff s d c).1 h).2.2
  unfold State.givenBackTo at bound ⊢
  unfold State.drsGiveUp
  revert bound
  generalize (s.drives.get d).displacedContext.filter _ = back
  intro bound
  cases back with
  | none => exact WorksOn.refl d _
  | some c => exact (WorksOn.refl d _).returnToContext drs (by simp) (bound c rfl)

/-! ## The end of the direct read -/

/-- What the end of a direct read leaves of its drive: nobody waits for it, the path is not the Direct Read Slot's, and
a claim of the slot on it has gone to the context displaced, or to nobody (R29, R33, R157). -/
structure ReadEnded (d : Fin 4) (s m : State) : Prop where
  frame : m = { s with drs := s.drs.freed, drives := m.drives, path := m.path, ctxs := m.ctxs }
  notDrs : m.pathNotDrs
  waiting : (m.drives.get d).drsWaiting = false
  kept : (s.drives.get d).claim ≠ some .drs → (m.drives.get d).claim = (s.drives.get d).claim
  given : (s.drives.get d).claim = some .drs → (m.drives.get d).claim = (s.givenBackTo d).map Holder.ctx
  others : ∀ e, e ≠ d → m.drives.get e = s.drives.get e

theorem endRead_ended {x : DrsTarget} (target : s.drs.target = some x) : ReadEnded x.addr.drive s s.endRead := by
  obtain ⟨d, hd⟩ : ∃ d, d = x.addr.drive := ⟨_, rfl⟩
  obtain ⟨w, hw⟩ : ∃ w, w = ({ s with drs := s.drs.freed } : State).modDrive d fun r => { r with drsWaiting := false } :=
    ⟨_, rfl⟩
  obtain ⟨v, hv⟩ : ∃ v, v = w.releaseGrant .drs := ⟨_, rfl⟩
  have e : s.endRead = if (v.drives.get d).claim = some .drs then v.drsGiveUp d else v := by
    unfold State.endRead
    rw [target]
    dsimp only
    rw [← hd, ← hw, ← hv]
  obtain ⟨decided, notDrs⟩ := releaseGrant_decided (s := w) (by rw [hw]; nofun)
  rw [← hv] at decided notDrs
  have drives : v.drives = w.drives := by rw [decided.frame]
  have own : v.drives.get d = { s.drives.get d with drsWaiting := false } := by
    rw [drives, hw]; exact Four.get_modify_self _ _ _
  have other : ∀ e, e ≠ d → v.drives.get e = s.drives.get e := fun e he => by
    rw [drives, hw]; exact Four.get_modify_ne _ _ he
  have frame : v = { s with drs := s.drs.freed, drives := v.drives, path := v.path, ctxs := v.ctxs } :=
    decided.frame.trans (by rw [drives, hw]; rfl)
  rw [e, ← hd]
  split
  · next claim =>
    have back : v.givenBackTo d = s.givenBackTo d := Option.ext fun c => by
      have same : ∀ n, v.track n = s.track n := track_congr (by rw [frame])
      simp only [givenBackTo_iff, own, decided.displaced, decided.track, same]
      rw [hw]
      rfl
    have works := drsGiveUp_works (s := v) (d := d) (by rw [frame]; nofun)
    refine ⟨?_, works.notDrs notDrs, ?_, fun kept => ?_, fun _ => ?_, fun e he => ?_⟩
    · exact works.frame.trans (congrArg (fun y : State => { y with
        drives := (v.drsGiveUp d).drives, path := (v.drsGiveUp d).path, ctxs := (v.drsGiveUp d).ctxs }) frame)
    · rw [works.waiting, modDrive_drives, Four.get_modify_self]
      exact (abandonPositioning_spec _).1.trans (by rw [own])
    · exact absurd (by rw [own] at claim; exact claim) kept
    · rw [works.claim, modDrive_drives, Four.get_modify_self, back]
    · rw [works.others e he, modDrive_drives, Four.get_modify_ne _ _ he, other e he]
  · next claim =>
    exact ⟨frame, notDrs, by rw [own], fun _ => by rw [own], fun held => absurd (by rw [own]; exact held) claim, other⟩

/-! ## The units -/

/-- A track record after system clear: no unit waits, and CLASS DEMAND is ARCHIVE (R68, R146). -/
def TrackRec.cleared (r : TrackRec) : TrackRec :=
  { r with waiters := 0, cls := if r.cls = some .demand then some .archive else r.cls }

/-- The state with the units and the Track Table cleared, and the store as given (R146 steps 1 and 2). -/
def State.unitsCleared (s : State) (x : StoreRec) : State :=
  { s with
    units := Four.all UnitRec.reset
    tracks := (s.mapTracks TrackRec.cleared).tracks
    queue := { demand := [], archive := s.queue.demand ++ s.queue.archive, sweep := s.queue.sweep }
    store := x }

theorem clearUnits_clean (clean : s.store.flips = []) :
    ∃ x, onlyAsks s.store x ∧ s.clearUnits = s.unitsCleared x := by
  obtain ⟨a, b, c, e⟩ := asking_store (s := { s with units := Four.all UnitRec.reset })
    (s.clearedTracks.map fun _ => .table)
  refine ⟨_, ⟨a, b, c, rfl⟩, ?_⟩
  unfold State.clearUnits
  rw [touchTracks_clean (s := { s with units := Four.all UnitRec.reset }) clean, e]
  unfold State.demoteDemand State.mapTracks
  dsimp only
  rw [List.map_map]
  rfl

/-! ## The whole -/

/-- The state that system clear leaves to the block's reactions. -/
def State.systemCleared (s : State) : State := s.clearUnits.clearDrs.clearPort

theorem exec_systemClear (s : State) :
    exec .systemClear s = .next (if s.port.clearLine then s else s.systemCleared.finish) := rfl

/-- The end of the direct read at system clear, from the state after the units' clearing: nobody is served or waits. -/
theorem clearDrs_ended {x : DrsTarget} (target : s.drs.target = some x) :
    ReadEnded x.addr.drive { s with drs := { s.drs with waitingUnits := [] } } s.clearDrs :=
  endRead_ended (s := { s with drs := { s.drs with waitingUnits := [] } }) target

theorem clearDrs_free (target : s.drs.target = none) : s.clearDrs = { s with drs := DrsRec.reset } := by
  unfold State.clearDrs State.endRead
  rw [show ({ s with drs := { s.drs with waitingUnits := [] } } : State).drs.target = none from target]
  rfl

theorem clearDrs_frame (s : State) : s.clearDrs = { s with
    drs := DrsRec.reset, drives := s.clearDrs.drives, path := s.clearDrs.path, ctxs := s.clearDrs.ctxs } := by
  cases target : s.drs.target with
  | none => rw [clearDrs_free target]
  | some x => exact (clearDrs_ended target).frame

theorem clearDrs_state (s : State) (d : Fin 4) : (s.clearDrs.drives.get d).state = (s.drives.get d).state :=
  (Kept.refl Keep.shown { s with drs := { s.drs with waitingUnits := [] } }).endRead.driveState rfl d

/-- Once the units are cleared, a drive's claim returns to the same context as before (R29). -/
theorem givenBackTo_unitsCleared (s : State) (x : StoreRec) (r : DrsRec) (d : Fin 4) :
    ({ s.unitsCleared x with drs := r } : State).givenBackTo d = s.givenBackTo d := by
  have addr : ∀ n, (({ s.unitsCleared x with drs := r } : State).track n).addr = (s.track n).addr := fun n =>
    (congrArg TrackRec.addr (track_map (s := s) TrackRec.cleared rfl n)).trans rfl
  refine Option.ext fun c => ?_
  simp only [givenBackTo_iff, addr]
  rfl

/-- System clear up to the port, in a store without bit errors: the units and their waits, and the direct read ended
(R146 steps 1 to 3). -/
theorem clearUnits_clearDrs (clean : s.store.flips = []) : ∃ x ds p cs, onlyAsks s.store x
    ∧ s.clearUnits.clearDrs = { s.unitsCleared x with drs := DrsRec.reset, drives := ds, path := p, ctxs := cs }
    ∧ (s.drs.target = none → ds = s.drives ∧ p = s.path ∧ cs = s.ctxs)
    ∧ (∀ y, s.drs.target = some y →
        ReadEnded y.addr.drive s { s with drs := s.drs.freed, drives := ds, path := p, ctxs := cs })
    ∧ ∀ d, (ds.get d).state = (s.drives.get d).state := by
  obtain ⟨x, asks, units⟩ := clearUnits_clean clean
  rw [units]
  refine ⟨x, _, _, _, asks, clearDrs_frame _, fun free => ?_, fun y target => ?_, clearDrs_state _⟩
  · rw [clearDrs_free (s := s.unitsCleared x) free]
    exact ⟨rfl, rfl, rfl⟩
  · obtain ⟨_, notDrs, waiting, kept, given, others⟩ := clearDrs_ended (s := s.unitsCleared x) target
    rw [givenBackTo_unitsCleared] at given
    exact ⟨rfl, notDrs, waiting, kept, given, others⟩

/-- Settles O26: system clear's parts one after another, the line asserted already, and its release. -/
theorem systemClearResetsSystemSide : Obligations.SystemClearResetsSystemSide := by
  intro s
  refine ⟨fun line clean => ?_, fun line => by rw [exec_systemClear, line]; rfl, rfl⟩
  obtain ⟨x, ds, p, cs, asks, cleared, untouched, ended, states⟩ := clearUnits_clearDrs clean
  obtain ⟨served, setup, waiting⟩ := s.req.cleared_waiting
  refine ⟨s.systemCleared, by rw [exec_systemClear, line]; rfl, ?_⟩
  unfold State.systemCleared
  rw [cleared]
  refine ⟨fun u => Four.get_all _ u, rfl, rfl, rfl, untouched, fun y target => ?_, served, setup, waiting,
    s.req.cleared_state, rfl, rfl, rfl, rfl, rfl, rfl, rfl, rfl, rfl, rfl, asks, rfl⟩
  obtain ⟨_, notDrs, waits, kept, given, others⟩ := ended y target
  refine ⟨notDrs, waits, kept, fun c held displaced => ?_, fun held nobody => ?_, states, others⟩
  · exact (given held).trans (by rw [(givenBackTo_iff s _ c).2 displaced]; rfl)
  · have nowhere : s.givenBackTo y.addr.drive = none :=
      Option.eq_none_iff_forall_ne_some.2 fun c h => nobody ⟨c, (givenBackTo_iff s _ c).1 h⟩
    exact (given held).trans (by rw [nowhere]; rfl)

end Sys2Proof.Machine
end

