-- ==== Sys2Proof/Proofs/Ladder.lean ====
section
/-! SUPPORT. SET_LADDER (R80, R81): the ladder table that a payload spells, and the request's answer. -/

namespace Sys2Proof.Machine

open Sys2Proof.Stated

variable {p : List Byte} {i n : Nat} {st : LadderStep} {steps : List LadderStep}

/-! ## One step -/

/-- The byte of a STROBE. -/
def Strobe.byte : Strobe → Byte
  | .early => 0
  | .nominal => 1
  | .late => 2

/-- The byte of an OFFSET. -/
def Offset.byte : Offset → Byte
  | .centre => 0
  | .inward => 1
  | .outward => 2

theorem stepBytes_eq (st : LadderStep) : stepBytes st =
    [st.strobe.byte, st.offset.byte, BitVec.ofNat 8 st.revs, if st.blind then 1 else 0] := rfl

theorem strobeOfCode_iff (b : Byte) (x : Strobe) : strobeOfCode b.toNat = some x ↔ b = x.byte := by
  rw [← BitVec.toNat_inj]
  rcases b.toNat with _ | _ | _ | k <;> cases x <;> simp [strobeOfCode, Strobe.byte]

theorem offsetOfCode_iff (b : Byte) (x : Offset) : offsetOfCode b.toNat = some x ↔ b = x.byte := by
  rw [← BitVec.toNat_inj]
  rcases b.toNat with _ | _ | _ | k <;> cases x <;> simp [offsetOfCode, Offset.byte]

theorem boolOfCode_iff (b : Byte) (x : Bool) : boolOfCode b.toNat = some x ↔ b = if x then 1 else 0 := by
  rw [← BitVec.toNat_inj]
  rcases b.toNat with _ | _ | k <;> cases x <;> simp [boolOfCode]

/-- A count of revolutions as its byte. -/
theorem revs_byte_iff (b : Byte) (k : Nat) : b = BitVec.ofNat 8 k ∧ 1 ≤ k ∧ k ≤ 15 ↔
    b.toNat = k ∧ 1 ≤ b.toNat ∧ b.toNat ≤ 15 := by
  rw [← BitVec.toNat_inj, BitVec.toNat_ofNat]
  omega

theorem at1_drop (p : List Byte) (i j : Nat) : at1 p (i + j) = at1 (p.drop i) j := by
  simp [at1, List.getD_eq_getElem?_getD]

/-- Four bytes are a step exactly when they spell it and its revolutions are in range (R80, R81). -/
theorem parseStep_iff {b0 b1 b2 b3 : Byte} {rest : List Byte} (here : p.drop i = b0 :: b1 :: b2 :: b3 :: rest) :
    parseStep p i = some st ↔ [b0, b1, b2, b3] = stepBytes st ∧ 1 ≤ st.revs ∧ st.revs ≤ 15 := by
  have bytes : at1 p i = b0.toNat ∧ at1 p (i + 1) = b1.toNat ∧ at1 p (i + 2) = b2.toNat ∧ at1 p (i + 3) = b3.toNat := by
    rw [show at1 p i = at1 p (i + 0) from rfl]
    simp only [at1_drop, here]
    exact ⟨rfl, rfl, rfl, rfl⟩
  obtain ⟨e0, e1, e2, e3⟩ := bytes
  have spelt : ([b0, b1, b2, b3] = stepBytes st ∧ 1 ≤ st.revs ∧ st.revs ≤ 15) ↔
      strobeOfCode b0.toNat = some st.strobe ∧ offsetOfCode b1.toNat = some st.offset
        ∧ boolOfCode b3.toNat = some st.blind ∧ b2.toNat = st.revs ∧ 1 ≤ b2.toNat ∧ b2.toNat ≤ 15 := by
    rw [← revs_byte_iff, strobeOfCode_iff, offsetOfCode_iff, boolOfCode_iff, stepBytes_eq]
    simp only [List.cons.injEq, and_true]
    tauto
  rw [spelt]
  unfold parseStep
  rw [e0, e1, e2, e3]
  constructor
  · intro h
    split at h
    · next strobe offset blind =>
      split at h
      · next range =>
        cases h
        simp only [Bool.and_eq_true, decide_eq_true_eq] at range
        exact ⟨strobe, offset, blind, rfl, range⟩
      · cases h
    · cases h
  · rintro ⟨strobe, offset, blind, revs, range⟩
    rw [strobe, offset, blind]
    dsimp only
    rw [if_pos (by simpa using range), revs]

/-! ## The table -/

/-- Bytes, four to a step, are parsed as the steps that they spell, and as no others (R81). -/
theorem parseSteps_iff (size : (p.drop i).length = 4 * n) : parseSteps p i n = some steps ↔
    p.drop i = (steps.map stepBytes).flatten ∧ steps.length = n ∧ ∀ st ∈ steps, 1 ≤ st.revs ∧ st.revs ≤ 15 := by
  induction n generalizing i steps with
  | zero =>
    rw [List.eq_nil_of_length_eq_zero size]
    cases steps <;> simp [parseSteps]
  | succ n ih =>
    obtain ⟨b0, b1, b2, b3, rest, here⟩ : ∃ b0 b1 b2 b3 rest, p.drop i = b0 :: b1 :: b2 :: b3 :: rest := by
      match h : p.drop i with
      | b0 :: b1 :: b2 :: b3 :: rest => exact ⟨b0, b1, b2, b3, rest, rfl⟩
      | [] | [_] | [_, _] | [_, _, _] => rw [h] at size; simp only [List.length_cons, List.length_nil] at size; omega
    have after : p.drop (i + 4) = rest := by rw [← List.drop_drop, here]; rfl
    have first := fun st => parseStep_iff (st := st) here
    have others := fun l => ih (i := i + 4) (steps := l) (by rw [here] at size; rw [after]; simp only [List.length_cons] at size; omega)
    rw [after] at others
    rw [here]
    unfold parseSteps
    cases steps with
    | nil =>
      refine ⟨fun h => ?_, fun h => absurd h.2.1 (by simp)⟩
      split at h <;> cases h
    | cons st l =>
      have split_ : b0 :: b1 :: b2 :: b3 :: rest = ((st :: l).map stepBytes).flatten ↔
          [b0, b1, b2, b3] = stepBytes st ∧ rest = (l.map stepBytes).flatten := by
        rw [List.map_cons, List.flatten_cons, stepBytes_eq]
        simp [and_assoc]
      rw [split_, List.length_cons, List.forall_mem_cons, Nat.add_right_cancel_iff]
      constructor
      · intro h
        split at h
        · next step more =>
          cases h
          obtain ⟨spelt, range⟩ := (first _).1 step
          obtain ⟨spells, length, ranges⟩ := (others _).1 more
          exact ⟨⟨spelt, spells⟩, length, range, ranges⟩
        · cases h
      · rintro ⟨⟨spelt, spells⟩, length, range, ranges⟩
        rw [(first st).2 ⟨spelt, range⟩, (others l).2 ⟨spells, length, ranges⟩]

theorem length_ladderBytes (steps : List LadderStep) : (ladderBytes steps).length = 1 + 4 * steps.length := by
  have four : List.length ∘ stepBytes = fun _ => 4 := rfl
  simp [ladderBytes, four]
  omega

/-- A payload is accepted exactly when it spells a ladder table that R80 allows, and as that table (R81). -/
theorem parseLadder_iff : parseLadder p = some steps ↔ ladderBytes steps = p ∧ ladderGood steps := by
  unfold parseLadder ladderGood
  dsimp only
  constructor
  · intro h
    split at h
    · next form =>
      simp only [Bool.and_eq_true, decide_eq_true_eq] at form
      obtain ⟨⟨low, high⟩, size⟩ := form
      obtain ⟨spelt, length, ranges⟩ := (parseSteps_iff (by simp [size])).1 h
      refine ⟨?_, by rw [length]; exact low, by rw [length]; exact high, ranges⟩
      cases p with
      | nil => simp only [List.length_nil] at size; omega
      | cons b rest =>
        rw [ladderBytes, length, ← spelt]
        simp [at1]
    · cases h
  · rintro ⟨rfl, low, high, ranges⟩
    have count : at1 (ladderBytes steps) 0 = steps.length := by
      simp [at1, ladderBytes]
      omega
    have size := length_ladderBytes steps
    rw [count, if_pos (by simp [low, high, size])]
    exact (parseSteps_iff (by simp [size])).2 ⟨rfl, rfl, ranges⟩

/-! ## The request -/

/-- SET_LADDER is performed with the reply that its rule gives on the window's state. -/
theorem exec_setLadder {s t : State} {tag : Byte} {r : Result} {q : List Byte} (link : linkReady s)
    (size : ∃ k, k < 12 ∧ p.length = 5 + 4 * k)
    (reply : (s.requestWindow p).setLadder p = { result := r, payload := q, after := t }) :
    exec (.setLadder tag p) s = .next (t.place 0x16 tag r q) := by
  obtain ⟨k, few, length⟩ := size
  refine request_performed (rest := id) rfl { result := r, payload := q, after := t } reply link.1 ?_ (by omega)
    (ready_performs _ link.2)
  exact List.mem_map.2 ⟨k, List.mem_range.2 few, length.symm⟩

/-- Settles O34: the payload's one table installed and answered, or refused where it spells none. -/
theorem ladderReplacedWhole : Obligations.LadderReplacedWhole := by
  intro tag p s link size
  have other : (0x16 : Byte) ≠ attentionKind := by decide
  refine ⟨fun steps spelt good => ?_, fun none_ => ?_⟩
  · have reply : (s.requestWindow p).setLadder p = { s.requestWindow p with ladder := steps }.replyWith .ok
        ([byteOf steps.length] ++ be2 (steps.map LadderStep.revs).sum) := by
      unfold State.setLadder
      rw [parseLadder_iff.2 ⟨spelt, good⟩]
    exact ⟨_, exec_setLadder link size reply, answered_place rfl _ _ _ _ other, ⟨rfl, rfl, onlyAsks_refl _⟩, rfl⟩
  · have reply : (s.requestWindow p).setLadder p = (s.requestWindow p).reply .range := by
      unfold State.setLadder
      cases h : parseLadder p with
      | none => rfl
      | some steps => exact absurd ⟨steps, parseLadder_iff.1 h⟩ none_
    exact ⟨_, exec_setLadder link size reply, answered_place rfl _ _ _ _ other, ⟨rfl, rfl, onlyAsks_refl _⟩, rfl⟩

end Sys2Proof.Machine
end

