-- ==== Sys2Proof/Proofs/HoldEnter.lean ====
section
/-! SUPPORT. HOLD_ENTER (R104, R175): refused while a unit or the Direct Read Slot works, and else the drain begun. -/

namespace Sys2Proof.Machine

open Sys2Proof.Stated

variable {s t : State}

/-- HOLD_ENTER is performed with the reply that its rule gives on the window's state. -/
theorem exec_holdEnter {tag : Byte} {r : Result} (link : linkReady s)
    (reply : (s.requestWindow []).holdEnter = { result := r, payload := [], after := t }) :
    exec (.holdEnter tag []) s = .next (t.place 0x17 tag r []).finish :=
  request_performed (rest := State.finish) rfl { result := r, payload := [], after := t } reply link.1 (by simp) (by simp)
    (ready_performs _ link.2)

theorem holdEnter_busy (busy : s.unitsBusy = true) : s.holdEnter = s.reply .unitsBusy := if_pos busy

theorem holdEnter_idle (idle : s.unitsBusy = false) : s.holdEnter = s.beginDraining.reply .accepted :=
  if_neg (by simp [idle])

/-- The unbindings at the beginning of the drain keep what every inner operation keeps, the drives' STATE among it. -/
theorem beginDraining_kept (s : State) :
    Kept Keep.shown { s with ctl := { s.ctl with state := .draining } } s.beginDraining :=
  (Kept.refl Keep.shown { s with ctl := { s.ctl with state := .draining } }).drain fourNumbers

theorem drainsAtOnce_false (x : CtxRec) (state : x.state ≠ .positioning ∧ x.state ≠ .waitPath ∧ x.state ≠ .faultHold) :
    x.drainsAtOnce = false := by
  obtain ⟨positioning, waitPath, faultHold⟩ := state
  simp [CtxRec.drainsAtOnce, positioning, waitPath, faultHold]

/-- With no context to be unbound at once, the beginning of the drain changes the controller STATE only (R104). -/
theorem beginDraining_none (later : ∀ c, (s.ctxs.get c).drainsAtOnce = false) :
    s.beginDraining = { s with ctl := { s.ctl with state := .draining } } := by
  unfold State.beginDraining
  generalize fourNumbers = l
  induction l with
  | nil => rfl
  | cons c rest ih => rw [List.foldl_cons, if_neg (by simp [later c]), ih]

/-- Settles O11: refused for a unit or the Direct Read Slot at work, and else what the drain's beginning keeps. -/
theorem holdEnterDrains : Obligations.HoldEnterDrains := by
  intro tag s link
  have other : (0x17 : Byte) ≠ attentionKind := by decide
  obtain ⟨w, hw⟩ : ∃ w, w = s.requestWindow [] := ⟨_, rfl⟩
  have busy_iff := unitsBusy_iff w
  refine ⟨fun busy => ?_, fun units drs => ?_⟩
  · have reply : (s.requestWindow []).holdEnter = (s.requestWindow []).reply .unitsBusy :=
      holdEnter_busy (by rw [← hw]; exact busy_iff.2 (by rw [hw]; exact busy))
    exact ⟨_, exec_holdEnter link reply, answered_place rfl _ _ _ _ other, ⟨rfl, rfl, onlyAsks_refl _⟩, rfl⟩
  · have idle : w.unitsBusy = false := by
      rw [← Bool.not_eq_true, busy_iff, hw]
      rintro (⟨u, active, waiting⟩ | taken)
      · exact (units u).elim active waiting
      · exact taken drs
    obtain ⟨v, hv⟩ : ∃ v, v = w.beginDraining := ⟨_, rfl⟩
    have reply : (s.requestWindow []).holdEnter = v.reply .accepted := by
      rw [← hw, hv]; exact holdEnter_idle idle
    have kept := beginDraining_kept w
    rw [← hv] at kept
    have slot : v.link.slot = s.link.slot := (congrArg (·.slot) kept.link).trans (by rw [hw]; rfl)
    refine ⟨_, exec_holdEnter link reply, answered_place slot _ _ _ _ other, ?_, fun d => ?_, ?_, ?_, ?_, fun later => ?_⟩
    · exact kept.ctl.trans (by rw [hw]; rfl)
    · exact (kept.driveState rfl d).trans (by rw [hw]; rfl)
    · exact kept.ladder.trans (by rw [hw]; rfl)
    · exact kept.limits.trans (by rw [hw]; rfl)
    · exact kept.settings.trans (by rw [hw]; rfl)
    · rw [hv, beginDraining_none fun c => drainsAtOnce_false _ (by rw [hw]; exact later c), hw]
      rfl

end Sys2Proof.Machine
end

