-- ==== Sys2Proof/Proofs/Accounting.lean ====
section
/-! SUPPORT. The end notice of an evaluation (R94 to R96): the track settles or returns to the queue with its context
unbound (R43, R69, R70, R98), or the step is accounted and the context goes on. -/

namespace Sys2Proof.Machine

open Sys2Proof.Stated

variable {s t w m : State} {c : Fin 4} {n : Nat} {a : TrackAddr} {r y : TrackRec} {x : StoreRec}

/-! ## A context unbound -/

/-- The unbound track moves on: its record, the queue and the link change, and nothing else does. -/
theorem unboundAs_moved {d : Fin 4} (unbound : unboundAs s w c n d r) (one : onlyTrack w m n y)
    (frame : m = { w with tracks := m.tracks, queue := m.queue, link := m.link }) : unboundAs s m c n d y := by
  obtain ⟨before, ctxs, claim, retried, positioning, state, others, requests, same⟩ := unbound
  have drives : m.drives = w.drives := by rw [frame]
  refine ⟨onlyTrack_trans before one, by rw [frame]; exact ctxs, by rw [drives]; exact claim,
    by rw [drives]; exact retried, by rw [drives]; exact positioning, by rw [drives]; exact state,
    by rw [drives]; exact others, by rw [frame]; exact requests, ?_⟩
  rw [frame, same]

/-- An unbinding said of a state that differs from another in the context's record, the track's and the claims on the
store. -/
theorem unboundAs_of_frame {d : Fin 4} {z : CtxRec} (unbound : unboundAs t m c n d r)
    (frame : t = { s with tracks := t.tracks, ctxs := s.ctxs.set c z, store := t.store })
    (others : ∀ k, k ≠ n → t.track k = s.track k) : unboundAs s m c n d r := by
  obtain ⟨⟨own, rest⟩, ctxs, claim, retried, positioning, state, drives, requests, same⟩ := unbound
  have same_drives : t.drives = s.drives := by rw [frame]
  rw [same_drives] at state drives
  refine ⟨⟨own, fun k hk => (rest k hk).trans (others k hk)⟩, ?_, claim, retried, positioning, state, drives, ?_, ?_⟩
  · rw [ctxs, frame]
    exact four_set_set _ _ _ _
  · rw [requests, frame]
  · rw [same, frame]

section
variable (track : (s.ctxs.get c).track = some n) (live : (s.track n).state ≠ .free) (addr : (s.track n).addr = some a)
  (claim : (s.drives.get a.drive).claim = some (.ctx c)) (waiting : (s.drives.get a.drive).drsWaiting = false)
  (free : s.path.grant = none)
include track live addr claim waiting free

/-- A context that holds its drive is unbound (R98). -/
theorem unbind_unbound : unboundAs s (s.unbind c) c n a.drive { s.track n with context := none }
    ∧ (s.unbind c).queue = s.queue ∧ (s.unbind c).link = s.link ∧ (s.unbind c).store = s.store := by
  obtain ⟨_, positioning, state⟩ := abandonPositioning_spec (s.drives.get a.drive)
  have drive : ∀ f : DriveRec, (s.drives.set a.drive f).get a.drive = f := Four.get_set_self _ _
  rw [unbind_holding track addr claim waiting free]
  refine ⟨⟨onlyTrack_setTrack s n (x := { s.track n with context := none }) live, rfl, ?_, ?_, ?_, ?_,
    fun e he => Four.get_set_ne _ _ he, rfl, rfl⟩, rfl, rfl, rfl⟩
  all_goals rw [drive]
  · exact positioning
  · exact state

/-- A track settles and its context is unbound (R43, R98). -/
theorem settleBound_unbound : let m := s.settleBound c n
    unboundAs s m c n a.drive { s.track n with state := .settled, context := none } ∧ m.queue = s.queue
      ∧ settledSeen s m (s.track n) ∧ m.store = s.store := by
  obtain ⟨unbound, queue, link, store⟩ := unbind_unbound track live addr claim waiting free
  obtain ⟨_, seen⟩ := settle_settled unbound.1 link rfl
  have own : onlyTrack (s.unbind c) ((s.unbind c).settle n) n { (s.unbind c).track n with state := .settled } := by
    rw [settle_eq]
    exact onlyTrack_setTrack _ n (x := { (s.unbind c).track n with state := .settled }) nofun
  rw [unbound.1.1] at own
  have frame : (s.unbind c).settle n = { s.unbind c with
      tracks := ((s.unbind c).settle n).tracks, queue := ((s.unbind c).settle n).queue
      link := ((s.unbind c).settle n).link } := by rw [settle_eq]
  refine ⟨unboundAs_moved unbound own frame, ?_, seen, ?_⟩
  · exact (congrArg State.queue (settle_eq (s.unbind c) n)).trans queue
  · exact (congrArg State.store (settle_eq (s.unbind c) n)).trans store

/-- A track is requeued ARCHIVE from step 0 and its context is unbound (R70, R96). -/
theorem requeueBound_unbound : let m := s.requeueBound c n
    unboundAs s m c n a.drive { s.track n with
        state := .queued, cls := some .archive, context := none, nextStep := 0, stepRevs := 0 }
      ∧ m.queue = { s.queue with archive := s.queue.archive ++ [n] } ∧ m.link = s.link ∧ m.store = s.store := by
  obtain ⟨unbound, queue, link, store⟩ := unbind_unbound track live addr claim waiting free
  have restarted := onlyTrack_modTrack (s.unbind c) n (f := fun r => { r with nextStep := 0, stepRevs := 0 })
    (by rw [unbound.1.1]; exact live)
  have queued := onlyTrack_trans restarted (onlyTrack_queueTail _ n .archive)
  rw [restarted.1, unbound.1.1] at queued
  refine ⟨unboundAs_moved unbound queued rfl, ?_, link, store⟩
  rw [← queue]
  rfl

/-- A track returns to the head of its class's group and its context is unbound (R69, R98). -/
theorem returnTrack_unbound {cls : TrackClass} (class_ : (s.track n).cls = some cls) : let m := s.returnTrack c
    unboundAs s m c n a.drive { s.track n with state := .queued, context := none }
      ∧ m.queue = s.queue.joinHead cls n ∧ m.link = s.link ∧ m.store = s.store := by
  obtain ⟨unbound, queue, link, store⟩ := unbind_unbound track live addr claim waiting free
  have e : s.returnTrack c = (s.unbind c).queueHead n := by unfold State.returnTrack; rw [track]
  have queued := onlyTrack_setTrack (s.unbind c) n
    (x := { s.track n with state := .queued, context := none }) nofun
  dsimp only
  rw [e, queueHead_classed (cls := cls) (by rw [unbound.1.1]; exact class_), unbound.1.1, ← queue]
  exact ⟨unboundAs_moved unbound queued rfl, rfl, link, store⟩

end

/-! ## The notice -/

/-- A context is told that its evaluation has ended, its track's record read (R108, R120). -/
def State.noticed (s : State) (c : Fin 4) (x : StoreRec) : State :=
  { s with ctxs := s.ctxs.set c { s.ctxs.get c with evaluation := .none }, store := x }

theorem endNotice_clean (track : (s.ctxs.get c).track = some n) (clean : s.store.flips = []) :
    ∃ x, onlyAsks s.store x ∧ s.endNotice c .inLadder = (s.noticed c x).accountStep c n
      ∧ s.endNotice c .final = (s.noticed c x).finalStep c n := by
  obtain ⟨v, hv⟩ : ∃ v, v = s.modCtx c fun x => { x with evaluation := .none } := ⟨_, rfl⟩
  have touched : v.touchTrack (.ctx c) n = s.noticed c (s.askStore (.ctx c) 1).store := by
    rw [touchTrack_clean (by rw [hv]; exact clean), hv]
    rfl
  have own : ((s.noticed c (s.askStore (.ctx c) 1).store).ctxs.get c).track = some n :=
    (congrArg CtxRec.track (Four.get_set_self _ _ _)).trans track
  refine ⟨(s.askStore (.ctx c) 1).store, askStore_onlyAsks _ _ _, ?_, ?_⟩
  all_goals
    unfold State.endNotice
    rw [track]
    dsimp only
    rw [← hv, touched]
    exact if_pos own

theorem accountStep_resolved (resolved : ¬ unresolved (s.track n)) : s.accountStep c n = s.settleBound c n :=
  if_pos (by rw [unresolved_iff] at resolved; simpa using resolved)

theorem finalStep_resolved (resolved : ¬ unresolved (s.track n)) : s.finalStep c n = s.settleBound c n :=
  if_pos (by rw [unresolved_iff] at resolved; simpa using resolved)

theorem finalStep_unresolved (open_ : unresolved (s.track n)) : s.finalStep c n = s.requeueBound c n :=
  if_neg (by rw [unresolved_iff] at open_; simp [open_])

/-! ## The accounting -/

/-- NEXT_STEP and STEP_REVS after the accounting, by whether the step goes on (R94). -/
theorem accounted_eq {ladder : List LadderStep} {k revs : Nat}
    (on : (∃ st, ladder[r.nextStep]? = some st ∧ r.stepRevs + 1 < st.revs) → k = r.nextStep ∧ revs = r.stepRevs + 1)
    (ends : (¬ ∃ st, ladder[r.nextStep]? = some st ∧ r.stepRevs + 1 < st.revs) →
      k = min 12 (r.nextStep + 1) ∧ revs = 0) :
    r.accounted ladder = { r with nextStep := k, stepRevs := revs } := by
  unfold TrackRec.accounted
  dsimp only
  split
  · next st step =>
    split
    · next more =>
      obtain ⟨rfl, rfl⟩ := on ⟨st, step, more⟩
      rfl
    · next last =>
      obtain ⟨rfl, rfl⟩ := ends (by rintro ⟨st', same, more⟩; rw [step] at same; cases same; exact last more)
      rfl
  · next none_ =>
    obtain ⟨rfl, rfl⟩ := ends (by rintro ⟨st', same, _⟩; rw [none_] at same; cases same)
    rfl

/-- The step accounted in the track's record, and the context's step taken from the ladder as it stands (R94, R95). -/
def State.stepAccounted (s : State) (c : Fin 4) (n : Nat) (r : TrackRec) (x : StoreRec) : State :=
  { s with
    tracks := (s.setTrack n r).tracks
    ctxs := s.ctxs.set c { s.ctxs.get c with
      evaluation := .none, step := s.ladder[r.nextStep]?.map fun st => { index := r.nextStep, step := st } }
    store := x }

theorem stepAccounted_ctx (s : State) (c : Fin 4) (n : Nat) (r : TrackRec) (x : StoreRec) :
    (s.stepAccounted c n r x).ctxs.get c = { s.ctxs.get c with
      evaluation := .none, step := s.ladder[r.nextStep]?.map fun st => { index := r.nextStep, step := st } } :=
  Four.get_set_self _ _ _

theorem onlyTrack_stepAccounted (live : r.state ≠ .free) (c : Fin 4) (x : StoreRec) :
    onlyTrack s (s.stepAccounted c n r x) n r := onlyTrack_setTrack s n live

theorem accountStep_unresolved (open_ : unresolved (s.track n)) (live : r.state ≠ .free)
    (accounted : (s.track n).accounted s.ladder = r) :
    (s.noticed c x).accountStep c n = (s.stepAccounted c n r x).afterAccounting c n := by
  have counted : ((s.noticed c x).modTrack n fun r => r.accounted (s.noticed c x).ladder)
      = (s.noticed c x).setTrack n r := congrArg ((s.noticed c x).setTrack n) accounted
  have own : ((s.noticed c x).setTrack n r).track n = r := track_setTrack_self _ _ _ live
  have taken : (((s.noticed c x).setTrack n r).modCtx c fun z => { z with step := stepAt s.ladder r.nextStep })
      = s.stepAccounted c n r x := by
    unfold State.modCtx Four.modify
    rw [show ((s.noticed c x).setTrack n r).ctxs = s.ctxs.set c { s.ctxs.get c with evaluation := .none } from rfl,
      Four.get_set_self, four_set_set]
    rfl
  have left : (!((s.noticed c x).track n).anyUnresolved) ≠ true := by
    rw [unresolved_iff] at open_
    exact fun h => by simp [show (s.noticed c x).track n = s.track n from rfl, open_] at h
  refine (if_neg left).trans ?_
  rw [counted]
  dsimp only
  rw [own]
  exact congrArg (fun v : State => v.afterAccounting c n) taken

/-! ## What follows the accounting -/

/-- A context asks for the FINAL evaluation of its track; a DISPLACED one stays so (R95, R107). -/
theorem requestEvaluation_asked (track : (s.ctxs.get c).track = some n) : s.requestEvaluation c .final = { s with
    vote := { s.vote with requests := s.vote.requests
      ++ [{ context := c, track := n, kind := .final, step := none, flags := (s.ctxs.get c).lastFlags }] }
    ctxs := s.ctxs.set c { s.ctxs.get c with
      state := if (s.ctxs.get c).state = .displaced then .displaced else .evaluating
      evaluation := .final, wanted := [] } } := by
  unfold State.requestEvaluation
  dsimp only
  split
  · next none_ => rw [track] at none_; cases none_
  · next k bound => cases bound.symm.trans track; rfl

section
variable {st : StepInForce} (step : (s.ctxs.get c).step = some st)
include step

theorem afterAccounting_draining (draining : s.ctl.state = .draining) : s.afterAccounting c n = s.returnTrack c :=
  (if_neg (by simp [step])).trans (if_pos draining)

variable (works : s.ctl.state ≠ .draining)
include works

theorem afterAccounting_displaced (displaced : (s.ctxs.get c).state = .displaced) : s.afterAccounting c n = s :=
  (if_neg (by simp [step])).trans ((if_neg works).trans (if_pos displaced))

variable (placed : (s.ctxs.get c).state ≠ .displaced) (addr : (s.track n).addr = some a)
include placed addr

theorem afterAccounting_faulted (faulted : (s.drives.get a.drive).state = DriveState.faulted) :
    s.afterAccounting c n = s.modCtx c fun x => { x with state := .faultHold } :=
  (if_neg (by simp [step])).trans ((if_neg works).trans ((if_neg placed).trans (if_pos (by simp [addr, faulted]))))

theorem afterAccounting_prepares (fine : (s.drives.get a.drive).state ≠ DriveState.faulted) :
    s.afterAccounting c n = s.prepareRevolution c :=
  (if_neg (by simp [step])).trans ((if_neg works).trans ((if_neg placed).trans (if_neg (by simp [addr, fine]))))

end

theorem afterAccounting_exhausted (step : (s.ctxs.get c).step = none) :
    s.afterAccounting c n = s.requestEvaluation c .final := if_pos (by simp [step])

/-! ## The statement -/

/-- Settles O57: the track settled, requeued from step 0, or its step accounted and what follows the accounting. -/
theorem evaluationEndsInAccounting : Obligations.EvaluationEndsInAccounting := by
  intro s c n a track active addr _ free _ clean holds x r step goesOn unbound
  obtain ⟨y, asks, inLadder, final⟩ := endNotice_clean track clean
  obtain ⟨grant, drs, others⟩ := free
  have live : (s.track n).state ≠ .free := by simp [active]
  have bound : ((s.noticed c y).ctxs.get c).track = some n :=
    (congrArg CtxRec.track (Four.get_set_self _ _ _)).trans track
  refine ⟨fun kind ⟨claim, waiting⟩ resolved => ?_, fun ⟨claim, waiting⟩ open_ => ?_,
    fun k revs open_ on ends => ?_⟩
  · have e : s.endNotice c kind = (s.noticed c y).settleBound c n := by
      cases kind with
      | inLadder => exact inLadder.trans (accountStep_resolved (s := s.noticed c y) resolved)
      | final => exact final.trans (finalStep_resolved (s := s.noticed c y) resolved)
    obtain ⟨gone, queue, seen, store⟩ := settleBound_unbound (s := s.noticed c y) bound live addr claim waiting grant
    dsimp only
    rw [e]
    exact ⟨unboundAs_of_frame gone rfl fun _ _ => rfl, queue, seen, by rw [store]; exact asks⟩
  · have e := final.trans (finalStep_unresolved (s := s.noticed c y) open_)
    obtain ⟨gone, queue, link, store⟩ := requeueBound_unbound (s := s.noticed c y) bound live addr claim waiting grant
    dsimp only
    rw [e]
    exact ⟨unboundAs_of_frame gone rfl fun _ _ => rfl, queue, link, by rw [store]; exact asks⟩
  · intro counted m
    have one := onlyTrack_stepAccounted (s := s) (n := n) (r := counted) live c y
    have own := stepAccounted_ctx s c n counted y
    have e : m = (s.stepAccounted c n counted y).afterAccounting c n :=
      inLadder.trans (accountStep_unresolved open_ live (accounted_eq on ends))
    have bound : ((s.stepAccounted c n counted y).ctxs.get c).track = some n := by rw [own]; exact track
    have place : ((s.stepAccounted c n counted y).track n).addr = some a := by rw [one.1]; exact addr
    refine ⟨fun exhausted => ?_, fun st step_ => ?_⟩
    · rw [show s.ladder[counted.nextStep]? = none from exhausted] at own
      rw [e, afterAccounting_exhausted (by rw [own]; rfl), requestEvaluation_asked bound, own]
      exact ⟨one, four_set_set _ _ _ _, rfl, asks, rfl⟩
    · rw [show s.ladder[counted.nextStep]? = some st from step_] at own
      have stepped : ((s.stepAccounted c n counted y).ctxs.get c).step = some { index := k, step := st } := by
        rw [own]; rfl
      intro now
      refine ⟨fun cls ⟨claim, waiting⟩ draining class_ => ?_, fun works =>
        ⟨s.stepAccounted c n counted y, one, ?_, asks, rfl, fun displaced => ?_, fun placed faulted => ?_,
          fun placed fine => ?_⟩⟩
      · obtain ⟨gone, queue, link, store⟩ := returnTrack_unbound (s := s.stepAccounted c n counted y) bound
          (by rw [one.1]; exact live) place claim waiting grant (cls := cls) (by rw [one.1]; exact class_)
        rw [one.1] at gone
        rw [e, afterAccounting_draining stepped draining]
        refine ⟨unboundAs_of_frame gone rfl one.2, ?_, link, by rw [store]; exact asks⟩
        cases cls <;> exact queue
      · show s.ctxs.set c _ = _
        rw [show s.ladder[counted.nextStep]? = some st from step_]
        rfl
      · exact e.trans (afterAccounting_displaced stepped works (by rw [own]; exact displaced))
      · rw [e, afterAccounting_faulted stepped works (by rw [own]; exact placed) place faulted]
        unfold State.modCtx Four.modify
        rw [own]
        exact congrArg (fun f => ({ s.stepAccounted c n counted y with ctxs := f } : State)) (four_set_set _ _ _ _)
      · rw [e, afterAccounting_prepares stepped works (by rw [own]; exact placed) place fine]
        refine prepareRevolution_prepares bound stepped place (by rw [one.1]; exact open_) ⟨grant, drs, fun e he => ?_⟩
        exact (congrArg CtxRec.state (Four.get_set_ne _ _ he)).trans_ne (others e he)

end Sys2Proof.Machine
end

