-- ==== Sys2Proof/Proofs/VoteUnit.lean ====
section
/-! SUPPORT. The Vote Unit (R108 to R115): the vote at each position, the candidates read one after another, the claim
on the sector worked on, and the next sector or the end of the request. -/

namespace Sys2Proof.Machine

open Sys2Proof.Stated

variable {s m : State} {q : VoteRequest} {sv : VoteService} {k j : Nat} {cs : List (List Byte)}

/-! ## The vote -/

/-- UNCERTAIN counts the positions whose winner has at most half of the candidates (R111). -/
theorem uncertainCount_eq (len : Nat) (cs : List (List Byte)) : uncertainCount len cs =
    ((List.range len).filter (fun i => 2 * (cs.map (fun c => c.getD i 0)).count
      ((votedImage len cs).getD i 0) ≤ cs.length)).length := by
  unfold uncertainCount
  refine congrArg List.length (List.filter_congr fun i hi => ?_)
  rw [voted_get len i cs (List.mem_range.1 hi)]
  simp [uncertainAt, column]

theorem length_votedImage (len : Nat) (cs : List (List Byte)) : (votedImage len cs).length = len := by
  simp [votedImage]

/-- A voted image verifies when its check is that of its data (R7, R112). -/
theorem verifies_votedImage (seed : Word16) (b : Nat) (cs : List (List Byte)) :
    verifies seed (votedImage (b + 2) cs) = true ↔
      votedImage (b + 2) cs = withCheck seed ((votedImage (b + 2) cs).take b) := by
  rw [verifies_iff _ _ (by simp [length_votedImage]), length_votedImage, Nat.add_sub_cancel]

/-! ## The candidates -/

/-- Reading candidates of the sector worked on, in a store without bit errors, gives the bytes of those still in the
list and changes nothing (R109). -/
theorem readCandidates_bytesAt (clean : s.store.flips = []) (q : VoteRequest) (sv : VoteService) (l : List Nat) :
    s.readCandidates q sv.sector l =
      (bytesAt s q.context (s.track q.track).sectorBytes sv.sector (stillListed s q sv l), s) :=
  readCandidates_clean clean q sv.sector l

theorem voteBursts_askStore (s : State) (n : Nat) :
    voteBurstsLeft (s.askStore .vote n).store = voteBurstsLeft s.store + n := by
  have asks : (s.askStore .vote n).store.asks.count .vote = s.store.asks.count .vote + n :=
    List.count_append.trans (congrArg _ List.count_replicate_self)
  unfold voteBurstsLeft
  rw [asks]
  exact Nat.add_right_comm _ _ _

/-- The Vote Unit turns to the positions of a service that are still in the list: the first is asked for (R109). -/
theorem askCandidate_turns (s : State) (q : VoteRequest) (sv : VoteService) : let m := s.askCandidate q sv
    m.vote = { s.vote with serving := some (turnsTo m sv sv.sector (stillListed s q sv sv.left) sv.got) }
      ∧ onlyAsks s.store m.store ∧ m = { s with vote := m.vote, store := m.store } := by
  have listed : stillListed s q sv sv.left = s.unread q sv := rfl
  rw [listed]
  unfold State.askCandidate
  dsimp only
  split
  · next left => exact ⟨by rw [left]; rfl, onlyAsks_refl _, rfl⟩
  · next p rest left =>
    refine ⟨?_, ⟨_, _, _, rfl⟩, rfl⟩
    unfold turnsTo
    rw [voteBursts_askStore, left]
    rfl

/-- A burst of the Vote Unit while more bursts of its candidate are to come (R109). -/
theorem voteBurst_more {rest : List VoteRequest} {n : Nat} (serving : s.vote.serving = some sv)
    (requests : s.vote.requests = q :: rest) (bursts : sv.bursts = n + 2) :
    s.voteBurst = { s with vote := { s.vote with serving := some { sv with bursts := n + 1 } } } := by
  unfold State.voteBurst
  rw [serving, requests]
  simp [bursts, State.setService]

theorem voteBurst_none {rest : List VoteRequest} (serving : s.vote.serving = some sv)
    (requests : s.vote.requests = q :: rest) (bursts : sv.bursts = 0) : s.voteBurst = s := by
  unfold State.voteBurst
  rw [serving, requests]
  exact if_pos bursts

/-- The last burst of a candidate: it has been read, and the Vote Unit turns to the next (R109). -/
theorem voteBurst_last {rest : List VoteRequest} (serving : s.vote.serving = some sv)
    (requests : s.vote.requests = q :: rest) (clean : s.store.flips = []) (bursts : sv.bursts = 1) :
    s.voteBurst = s.askCandidate q { sv with
      left := sv.left.tail
      got := sv.got ++ bytesAt s q.context (s.track q.track).sectorBytes sv.sector
        (stillListed s q sv (sv.left.take 1)) } := by
  unfold State.voteBurst
  rw [serving, requests]
  refine (if_neg (by simp [bursts])).trans ((if_pos bursts).trans ?_)
  dsimp only
  rw [readCandidates_bytesAt clean]

/-! ## The claim on the sector -/

/-- A sector has been worked on: the records of the other sectors of its track, and their candidates, are as they were,
and nothing else has changed but the store. -/
structure SectorWorked (s m : State) (q : VoteRequest) (k : Nat) : Prop where
  frame : m = { s with tracks := m.tracks, ctxs := m.ctxs, store := m.store }
  store : asksAndBytes s.store m.store
  size : (m.track q.track).sectors.length = (s.track q.track).sectors.length
  sectors : ∀ j, j ≠ k → (m.track q.track).sectors.getD j SectorRec.fresh
    = (s.track q.track).sectors.getD j SectorRec.fresh
  lists : ∀ j, j ≠ k → (m.ctxs.get q.context).candidates.getD j [] = (s.ctxs.get q.context).candidates.getD j []

theorem SectorWorked.refl (s : State) (q : VoteRequest) (k : Nat) : SectorWorked s s q k :=
  ⟨rfl, asksAndBytes_of_onlyAsks (onlyAsks_refl _), rfl, fun _ _ => rfl, fun _ _ => rfl⟩

theorem getD_set_ne {α : Type} (l : List α) (x d : α) (other : j ≠ k) : (l.set k x).getD j d = l.getD j d := by
  simp [List.getD_eq_getElem?_getD, List.getElem?_set_ne (Ne.symm other)]

/-- A sector record with the latest FLAG that the request carries (R113, R115). -/
def SectorRec.flagged (x : SectorRec) (flag : Option Byte) : SectorRec := { x with headerFlag := flag.or x.headerFlag }

/-- A claim of the Vote Unit on the sector worked on: the frame bytes written, and the sector resolved (R45, R97,
R113, R115). -/
theorem voteClaim_resolved (here : Recovering s q.context q.track k) (wf : Memory.wf s.store.mem = true)
    (clean : s.store.flips = []) (data : List Byte) (f : SectorRec → SectorRec) :
    let m := s.voteClaim q k data f
    sectorResolved s m q.context q.track k
        (f (((s.track q.track).sectors.getD k SectorRec.fresh).flagged (q.flags.getD k none))) data
      ∧ SectorWorked s m q k := by
  have written := writeFrame_written wf clean .vote q.track k data
  obtain ⟨v, hv⟩ : ∃ v, v = s.writeFrame .vote q.track k data := ⟨_, rfl⟩
  rw [← hv] at written
  obtain ⟨stored, others, store, same⟩ := written
  have record : v.track q.track = s.track q.track := by rw [same]; rfl
  have e : s.voteClaim q k data f = v.resolveSector q.track k fun x =>
      f { x with headerFlag := q.flags.getD k none <|> x.headerFlag } := by
    rw [hv]; exact if_pos here.taken
  have flag : ∀ x : SectorRec, ({ x with headerFlag := q.flags.getD k none <|> x.headerFlag } : SectorRec)
      = x.flagged (q.flags.getD k none) := fun x => by
    unfold SectorRec.flagged
    cases q.flags.getD k none <;> rfl
  simp only [flag] at e
  rw [resolveSector_bound q.track k q.context _ (by rw [record]; exact here.live) (by rw [record]; exact here.bound),
    record] at e
  have resolved := onlyTrack_setTrack v q.track
    (x := ((s.track q.track).setSector k
      (f (((s.track q.track).sector k).flagged (q.flags.getD k none)))).imageChanged) here.live
  have track := resolved.1
  have rest : ∀ i, i ≠ q.track → v.track i = s.track i := fun i _ => by rw [same]; rfl
  have ctxs : v.ctxs = s.ctxs := by rw [same]
  dsimp only
  rw [e, ctxs]
  refine ⟨⟨⟨track, fun i hi => (resolved.2 i hi).trans (rest i hi)⟩, rfl, stored, others⟩,
    by rw [same], store, ?_, fun j hj => ?_, fun j hj => ?_⟩
  · refine (congrArg (fun r : TrackRec => r.sectors.length) track).trans ?_
    simp [TrackRec.imageChanged, TrackRec.setSector]
  · refine (congrArg (fun r : TrackRec => r.sectors.getD j SectorRec.fresh) track).trans ?_
    exact getD_set_ne _ _ _ hj
  · refine (congrArg (fun x : CtxRec => x.candidates.getD j []) (Four.get_set_self _ _ _)).trans ?_
    exact getD_set_ne _ _ _ hj

/-! ## The vote of a sector -/

section
variable (here : Recovering s q.context q.track sv.sector) (wf : Memory.wf s.store.mem = true)
  (clean : s.store.flips = [])
include here wf clean

/-- The vote of a sector for an IN_LADDER request (R113). -/
theorem voteInLadder_voted (kind : q.kind = .inLadder) (cs : List (List Byte)) :
    let m := s.voteInLadder q sv.sector sv.limit cs
    sectorVoted s m q sv (s.trackSeed q.track) cs ∧ SectorWorked s m q sv.sector := by
  have accepted_iff := verifies_votedImage (s.trackSeed q.track) (s.track q.track).sectorBytes cs
  have final : ∀ {p : Prop}, q.kind = .final → p := fun h => by rw [kind] at h; cases h
  unfold State.voteInLadder
  dsimp only
  split
  · next accepted =>
    simp only [Bool.and_eq_true, decide_eq_true_eq, accepted_iff, and_assoc] at accepted
    obtain ⟨resolved, worked⟩ := voteClaim_resolved here wf clean
      ((votedImage ((s.track q.track).sectorBytes + 2) cs).take (s.track q.track).sectorBytes)
      fun x => x.voted (uncertainCount ((s.track q.track).sectorBytes + 2) cs) q.step
    exact ⟨⟨fun _ _ => resolved, fun _ not => absurd accepted not, final, final, final⟩, worked⟩
  · next refused =>
    simp only [Bool.and_eq_true, decide_eq_true_eq, accepted_iff, and_assoc] at refused
    exact ⟨⟨fun _ yes => absurd yes refused, fun _ _ => ⟨rfl, rfl, rfl⟩, final, final, final⟩, SectorWorked.refl _ _ _⟩

/-- The vote of a sector for a FINAL request (R115). -/
theorem voteFinal_voted (kind : q.kind = .final) (cs : List (List Byte)) :
    let m := s.voteFinal q sv.sector cs
    sectorVoted s m q sv (s.trackSeed q.track) cs ∧ SectorWorked s m q sv.sector := by
  have verified_iff := verifies_votedImage (s.trackSeed q.track) (s.track q.track).sectorBytes cs
  have inLadder : ∀ {p : Prop}, q.kind = .inLadder → p := fun h => by rw [kind] at h; cases h
  have claim := fun data f => voteClaim_resolved here wf clean data f
  unfold State.voteFinal
  dsimp only
  split
  · next empty =>
    rw [List.isEmpty_iff] at empty
    obtain ⟨resolved, worked⟩ := claim (List.replicate (s.track q.track).sectorBytes 0) fun x => x.failedEmpty
    exact ⟨⟨inLadder, inLadder, fun _ some_ => absurd empty some_, fun _ some_ => absurd empty some_,
      fun _ _ => resolved⟩, worked⟩
  · next some_ =>
    rw [List.isEmpty_iff] at some_
    split
    · next verified =>
      obtain ⟨resolved, worked⟩ := claim
        ((votedImage ((s.track q.track).sectorBytes + 2) cs).take (s.track q.track).sectorBytes)
        fun x => x.voted (uncertainCount ((s.track q.track).sectorBytes + 2) cs) none
      exact ⟨⟨inLadder, inLadder, fun _ _ _ => resolved, fun _ _ not => absurd (verified_iff.1 verified) not,
        fun _ none_ => absurd none_ some_⟩, worked⟩
    · next guessed =>
      obtain ⟨resolved, worked⟩ := claim
        ((votedImage ((s.track q.track).sectorBytes + 2) cs).take (s.track q.track).sectorBytes)
        fun x => x.failedGuess (uncertainCount ((s.track q.track).sectorBytes + 2) cs)
      exact ⟨⟨inLadder, inLadder, fun _ _ yes => absurd (verified_iff.2 yes) guessed, fun _ _ _ => resolved,
        fun _ none_ => absurd none_ some_⟩, worked⟩

/-- One sector voted for its request (R108, R113, R115). -/
theorem voteSector_voted (cs : List (List Byte)) : let m := s.voteSector q sv.sector sv.limit cs
    sectorVoted s m q sv (s.trackSeed q.track) cs ∧ SectorWorked s m q sv.sector := by
  unfold State.voteSector
  cases kind : q.kind with
  | inLadder => exact voteInLadder_voted here wf clean kind cs
  | final => exact voteFinal_voted here wf clean kind cs

end

/-- What a vote does, said of states with the same tracks, contexts and store bytes. -/
theorem sectorVoted_congr {s' m' : State} {seed : Word16} (h : sectorVoted s m q sv seed cs)
    (tracks : s'.tracks = s.tracks) (ctxs : s'.ctxs = s.ctxs) (mem : s'.store.mem = s.store.mem)
    (tracks' : m'.tracks = m.tracks) (ctxs' : m'.ctxs = m.ctxs) (mem' : m'.store.mem = m.store.mem) :
    sectorVoted s' m' q sv seed cs := by
  have before : s'.track = s.track := funext (track_congr tracks)
  have after : m'.track = m.track := funext (track_congr tracks')
  unfold sectorVoted sectorResolved onlyTrack at h ⊢
  rw [before, after, tracks, tracks', ctxs, ctxs', mem, mem']
  exact h

/-! ## The next sector -/

/-- The sectors of the request that are still to be worked on are those the statement names (R108, R114). -/
theorem SectorWorked.worksOn (h : SectorWorked s m q k) (other : j ≠ k) :
    j < (m.track q.track).sectors.length ∧ m.worksOn q sv j = true ↔ votable s q sv j := by
  unfold State.worksOn votable TrackRec.sector CtxRec.list
  rw [h.size, h.sectors j other, h.lists j other]
  refine and_congr_right fun _ => ?_
  cases q.kind <;> simp [SectorStatus.unresolved]

/-- The service goes on to the next sector that the request works on (R108, R109). -/
theorem continueService_next {next : Nat} (h : SectorWorked s m q sv.sector) (above : sv.sector < next)
    (works : votable s q sv next) (between : ∀ j, sv.sector < j → j < next → ¬ votable s q sv j) :
    m.continueService q sv (sv.sector + 1) = m.beginSector q sv next := by
  obtain ⟨inside, on⟩ := (h.worksOn (Nat.ne_of_gt above)).2 works
  have next_ : m.nextVoteSector q sv (sv.sector + 1) = some next :=
    find_next inside above on fun j low high => by
      rw [← Bool.not_eq_true]
      exact fun yes => between j low high ((h.worksOn (Nat.ne_of_gt low)).1 ⟨high.trans inside, yes⟩)
  unfold State.continueService
  rw [next_]

/-- The service ends with its notice when the request works on no further sector (R108). -/
theorem continueService_end (h : SectorWorked s m q sv.sector) (none_ : ∀ j, sv.sector < j → ¬ votable s q sv j) :
    m.continueService q sv (sv.sector + 1)
      = ({ m with vote := { requests := m.vote.requests.tail, serving := none } } : State).endNotice q.context q.kind := by
  have next_ : m.nextVoteSector q sv (sv.sector + 1) = none := by
    refine List.find?_eq_none.2 fun j hj => ?_
    simp only [Bool.and_eq_true, decide_eq_true_eq, not_and]
    intro low yes
    exact none_ j low ((h.worksOn (Nat.ne_of_gt low)).1 ⟨List.mem_range.1 hj, yes⟩)
  unfold State.continueService
  rw [next_]

/-- A sector begun: all its candidates are named, oldest first, and the first is asked for (R109). -/
theorem beginSector_turns (s : State) (q : VoteRequest) (sv : VoteService) (k : Nat) : let m := s.beginSector q sv k
    m.vote = { s.vote with serving := some (turnsTo m sv k ((s.ctxs.get q.context).candidates.getD k []) []) }
      ∧ onlyAsks s.store m.store ∧ m = { s with vote := m.vote, store := m.store } := by
  have turned := askCandidate_turns s q { sv with sector := k, left := (s.ctxs.get q.context).list k, got := [] }
  have all : stillListed s q { sv with sector := k, left := (s.ctxs.get q.context).list k, got := [] }
      ((s.ctxs.get q.context).list k) = (s.ctxs.get q.context).list k := by
    unfold stillListed CtxRec.list
    simp
  dsimp only at turned
  rw [all] at turned
  exact turned

/-! ## VOTE_SECTOR -/

/-- The candidates of the sector when its vote is formed: those read before, and those left (R109, log entry 55). -/
theorem readRest_clean (clean : s.store.flips = []) (q : VoteRequest) (sv : VoteService) :
    ∃ n, s.readRest q sv = (sv.got ++ bytesAt s q.context (s.track q.track).sectorBytes sv.sector
      (stillListed s q sv sv.left), s.askStore .vote n) := by
  refine ⟨(s.unread q { sv with left := sv.left.tail }).length
    * burstsFor (entryBytes (s.track q.track).sectorBytes), ?_⟩
  unfold State.readRest
  rw [readCandidates_bytesAt clean]

/-- The records are read, and then the candidates left: no more than the claims on the store change (R108, R109). -/
theorem readRest_asked {a : TrackAddr} (clean : s.store.flips = []) (addr : (s.track q.track).addr = some a)
    (sv : VoteService) : ∃ x, onlyAsks s.store x
      ∧ ((s.touchTrack .vote q.track).touchSeed q.track).readRest q sv =
        (sv.got ++ bytesAt s q.context (s.track q.track).sectorBytes sv.sector (stillListed s q sv sv.left),
          { s with store := x }) := by
  obtain ⟨n, read⟩ := readRest_clean (s := (s.askStore .vote 1).askStore .vote 1) clean q sv
  refine ⟨(((s.askStore .vote 1).askStore .vote 1).askStore .vote n).store, ⟨_, _, _, rfl⟩, ?_⟩
  rw [touchTrack_clean clean, touchSeed_clean (s := s.askStore .vote 1) clean addr]
  exact read

theorem voteSectorStep_idle (idle : s.vote.serving = none ∨ s.vote.requests = []) :
    s.voteSectorStep = s ∧ s.voteBurst = s := by
  unfold State.voteSectorStep State.voteBurst
  rcases idle with e | e <;> rw [e]
  · exact ⟨rfl, rfl⟩
  · cases s.vote.serving <;> exact ⟨rfl, rfl⟩

/-- A sector worked on from a state that differs in the claims on the store only. -/
theorem SectorWorked.asked {x : StoreRec} (h : SectorWorked { s with store := x } m q k) (asks : onlyAsks s.store x) :
    SectorWorked s m q k :=
  ⟨h.frame, (asksAndBytes_of_onlyAsks asks).trans h.store, h.size, h.sectors, h.lists⟩

/-- VOTE_SECTOR in a store without bit errors: the sector is voted from the candidates read before and those left, and
the service goes on (R108, R109). -/
theorem voteSectorStep_eq {rest : List VoteRequest} {a : TrackAddr} (serving : s.vote.serving = some sv)
    (requests : s.vote.requests = q :: rest) (clean : s.store.flips = []) (wf : Memory.wf s.store.mem = true)
    (addr : (s.track q.track).addr = some a) (here : Recovering s q.context q.track sv.sector) :
    ∃ m, sectorVoted s m q sv (s.trackSeed q.track) (sv.got
        ++ bytesAt s q.context (s.track q.track).sectorBytes sv.sector (stillListed s q sv sv.left))
      ∧ SectorWorked s m q sv.sector ∧ s.voteSectorStep = m.continueService q sv (sv.sector + 1) := by
  obtain ⟨x, asks, read⟩ := readRest_asked clean addr sv
  generalize sv.got ++ bytesAt s q.context _ sv.sector _ = cs at read ⊢
  have mem := onlyAsks_mem asks
  obtain ⟨w, hw⟩ : ∃ w : State, w = { s with store := x } := ⟨_, rfl⟩
  obtain ⟨voted, worked⟩ := voteSector_voted (s := w) (here.congr (by rw [hw])) (by rw [hw, mem]; exact wf)
    (by rw [hw, onlyAsks_flips asks]; exact clean) cs
  rw [← hw] at read
  have on : (w.voteSector q sv.sector sv.limit cs).vote.serving = some sv := by
    rw [worked.frame, hw]; exact serving
  rw [show w.trackSeed q.track = s.trackSeed q.track by rw [hw]; rfl] at voted
  refine ⟨w.voteSector q sv.sector sv.limit cs, ?_, ?_, ?_⟩
  · exact sectorVoted_congr voted (by rw [hw]) (by rw [hw]) (by rw [hw, mem]) rfl rfl rfl
  · exact SectorWorked.asked (by rw [← hw]; exact worked) asks
  · have touched : (s.touchTrack .vote q.track).vote.serving = some sv := by
      rw [touchTrack_clean clean]; exact serving
    have seeded : ((s.touchTrack .vote q.track).touchSeed q.track).vote.serving = some sv := by
      rw [touchTrack_clean clean, touchSeed_clean (s := s.askStore .vote 1) clean addr]; exact serving
    unfold State.voteSectorStep
    rw [serving, requests]
    refine (if_neg (by simp [touched])).trans ((if_neg (by simp [seeded])).trans ?_)
    dsimp only
    rw [read]
    exact if_neg (by simp [on])

/-- Settles O56: the vote by position, the Vote Unit's bursts, and VOTE_SECTOR with a next sector and at the end. -/
theorem votesByPlurality : Obligations.VotesByPlurality := by
  refine ⟨fun len i cs some_ inside => ?_, uncertainCount_eq, fun s idle => ?_,
    fun s sv q rest serving requests clean => ⟨voteBurst_none serving requests,
      fun n => voteBurst_more serving requests, fun last => ?_⟩,
    fun s sv q rest a geo serving requests sound clean active bound addr geometry works => ?_⟩
  · dsimp only
    rw [voted_get len i cs inside]
    exact winner_spec _ (by simpa using some_)
  · obtain ⟨step, burst⟩ := voteSectorStep_idle idle
    exact ⟨congrArg (fun t : State => (.next t.finish : Result3)) step, burst⟩
  · dsimp only
    rw [voteBurst_last serving requests clean last]
    exact askCandidate_turns s q _
  · have here : Recovering s q.context q.track sv.sector := ⟨active, bound, works.1, works.2.1⟩
    have seed : s.trackSeed q.track = geo.checkSeed := by simp [State.trackSeed, addr, geometry]
    obtain ⟨t, voted, worked, step⟩ := voteSectorStep_eq serving requests clean sound.memory addr here
    rw [seed] at voted
    have vote : t.vote = s.vote := by rw [worked.frame]
    have run : exec .voteSector s = .next (t.continueService q sv (sv.sector + 1)).finish :=
      congrArg (fun t : State => (.next t.finish : Result3)) step
    refine ⟨fun next above on between => ?_, fun none_ => ?_⟩
    · obtain ⟨turned, asks, frame⟩ := beginSector_turns t q sv next
      rw [worked.lists next (Nat.ne_of_gt above), vote] at turned
      rw [continueService_next worked above on between] at run
      refine ⟨_, run, turned, ?_, asksAndBytes.trans worked.store (asksAndBytes_of_onlyAsks asks), ?_⟩
      · exact sectorVoted_congr voted rfl rfl rfl (by rw [frame]) (by rw [frame]) (onlyAsks_mem asks)
      · rw [frame, worked.frame]
    · rw [continueService_end worked none_] at run
      refine ⟨_, run, ?_, sectorVoted_congr voted rfl rfl rfl rfl rfl rfl, worked.store, ?_⟩
      · rw [vote, requests]; rfl
      · exact congrArg (fun f : State => ({ f with vote := { requests := t.vote.requests.tail, serving := none } } : State))
          worked.frame

end Sys2Proof.Machine
end

