-- ==== Sys2Proof/Proofs/StoreState.lean ====
section
/-! SUPPORT. IDENTIFY and STORE_STATE (R131, R132, R170): the bytes of their answers, and the counts that the clear bit
of STORE_STATE zeroes. -/

namespace Sys2Proof.Machine

open Sys2Proof.Stated

variable {s t : State} {tag : Byte} {p : List Byte}

/-! ## The payloads -/

theorem storeSizeMib_eq (x : StoreSize) : storeSizeMib x = mibOf x := by cases x <;> rfl

/-- The payload of IDENTIFY, byte by byte (R170, spec/12). -/
theorem identifyPayload_eq (s : State) : s.identifyPayload =
    [0x3A, 0x17, 0x04, 0x10, 2,
      BitVec.ofNat 8 (mibOf s.ctl.straps.storeSize),
      BitVec.ofNat 8 s.ctl.straps.profile.val, BitVec.ofNat 8 s.ctl.straps.drives,
      BitVec.ofNat 8 s.ctl.straps.ioBase.val, BitVec.ofNat 8 s.ctl.sizeInUse,
      BitVec.ofNat 8 ((s.ctl.sizeInUse * 64 - 64) / 256),
      BitVec.ofNat 8 (s.ctl.sizeInUse * 64 - 64), BitVec.ofNat 8 s.ctl.storeCheck.code,
      BitVec.ofNat 8 s.ctl.state.code, BitVec.ofNat 8 ((s.ctl.phase.map Phase.code).getD 0xFF)] := by
  unfold State.identifyPayload
  rw [storeSizeMib_eq]
  rfl

/-- A context's or a drive's number leaves the high byte of its two-byte field zero. -/
theorem be2_fin4 (d : Fin 4) : be2 d.val = [0, BitVec.ofNat 8 d.val] := by fin_cases d <;> rfl

theorem ownerBytes_eq (o : WordOwner) : ownerBytes o = ownerCode o := by
  cases o with
  | nobody | trackSector | trackRecord => rfl
  | candidate c | capture c | geometry c | sweepRecord c => simp only [ownerBytes, be2_fin4]; rfl

theorem lastUncorrectedBytes_eq (x : Option LastUncorrected) : lastUncorrectedBytes x = lostBytes x := by
  cases x with
  | none => rfl
  | some x => simp only [lastUncorrectedBytes, lostBytes, ownerBytes_eq]; rfl

/-- The payload of STORE_STATE (R132, spec/12). -/
theorem storeStatePayload_eq (s : State) : s.storeStatePayload =
    [BitVec.ofNat 8 s.ctl.sizeInUse, BitVec.ofNat 8 (s.store.corrected / 256),
      BitVec.ofNat 8 s.store.corrected, BitVec.ofNat 8 (s.store.uncorrected / 256),
      BitVec.ofNat 8 s.store.uncorrected] ++ lostBytes s.store.lastUncorrected
      ++ be4 s.store.scrubCursor ++ be2 s.store.passes.toNat ++ [BitVec.ofNat 8 s.store.scrubPeriod] := by
  unfold State.storeStatePayload
  rw [lastUncorrectedBytes_eq]
  rfl

/-! ## The requests -/

/-- IDENTIFY is performed in every controller state (R167, R170). -/
theorem exec_identify (link : s.link.rstLine = false) (tag : Byte) : exec (.identify tag []) s
    = .next ((s.requestWindow []).place 0x01 tag .ok s.identifyPayload) :=
  request_performed (rest := id) (ls := [0]) (g := .always) rfl ((s.requestWindow []).replyWith .ok s.identifyPayload)
    rfl link (by simp) (by simp) rfl

/-- STORE_STATE is performed in READY with the reply that its rule gives on the window's state. -/
theorem exec_storeState (link : linkReady s) {flags : Byte}
    (reply : (s.requestWindow [flags]).reportStore [flags] = t.replyWith .ok p) :
    exec (.storeState tag [flags]) s = .next (t.place 0x04 tag .ok p) :=
  request_performed (rest := id) rfl (t.replyWith .ok p) reply link.1 (by simp) (by simp) (ready_performs _ link.2)

/-- The store after STORE_STATE: its clear bit zeroes the two counts (R132). -/
def StoreRec.reported (x : StoreRec) (flags : Byte) : StoreRec :=
  if flags.toNat % 2 = 1 then { x with corrected := 0, uncorrected := 0 } else x

theorem reportStore_eq (s : State) (flags : Byte) : s.reportStore [flags]
    = { s with store := s.store.reported flags }.replyWith .ok s.storeStatePayload := by
  have clears : (at1 [flags] 0).testBit 0 = decide (flags.toNat % 2 = 1) := Nat.testBit_zero _
  unfold State.reportStore StoreRec.reported
  rw [clears]
  by_cases clear : flags.toNat % 2 = 1 <;> simp [clear]

/-- Settles O31: the payloads byte by byte, and the store that the clear bit leaves. -/
theorem identifyAndStoreStateReported : Obligations.IdentifyAndStoreStateReported := by
  intro tag flags s link
  refine ⟨⟨_, exec_identify link tag, ⟨rfl, rfl, onlyAsks_refl _⟩, rfl, ?_⟩, fun ready =>
    ⟨_, exec_storeState ⟨link, ready⟩ (reportStore_eq (s.requestWindow [flags]) flags), rfl, rfl, rfl, ?_⟩⟩
  · rw [identifyPayload_eq]
    exact answered_place rfl _ _ _ _ (by decide)
  · rw [storeStatePayload_eq]
    exact answered_place rfl _ _ _ _ (by decide)

end Sys2Proof.Machine
end

