-- ==== Sys2Proof/Proofs/StoreGrant.lean ====
section
/-! SUPPORT. The grant of the store (R125): the waiting claimant that the ranks and turns put first. -/

namespace Sys2Proof.Machine

open Sys2Proof.Stated

variable {s : State} {x : StoreRec} {b cl : StoreClaimant}

/-! ## Turns -/

/-- What a search along a list finds first comes, in an order that the list follows, before all it has not passed. -/
theorem first_least {α : Type} {f : α → Nat} {l passed rest : List α} {a y : α}
    (order : l.Pairwise fun i j => f i ≤ f j) (found : l = passed ++ a :: rest) (mem : y ∈ l) (later : y ∉ passed) :
    f a ≤ f y := by
  subst found
  have after := (List.pairwise_cons.1 (List.pairwise_append.1 order).2.1).1
  rcases List.mem_cons.1 ((List.mem_append.1 mem).resolve_left later) with rfl | mem
  · exact Nat.le_refl _
  · exact after y mem

/-- How far a unit comes after the one last served, going round (R125, rank 3). -/
def unitPlace (last u : Fin 4) : Nat := (u.val + 3 - last.val) % 4

/-- How far a turn of rank 5 comes after the one last served, going round (R125). -/
def turnPlace (last turn : Fin 5) : Nat := (turn.val + 4 - last.val) % 5

/-- The units in the order of their places (R125). -/
theorem unitsInTurn (last : Fin 4) :
    [last + 1, last + 2, last + 3, last + 4].Pairwise (fun u v => unitPlace last u ≤ unitPlace last v)
      ∧ ∀ u, u ∈ [last + 1, last + 2, last + 3, last + 4] := by
  revert last; decide

/-- The turns of rank 5 in the order of their places (R125). -/
theorem turnsInTurn (last : Fin 5) :
    [last + 1, last + 2, last + 3, last + 4, last + 5].Pairwise (fun u v => turnPlace last u ≤ turnPlace last v)
      ∧ ∀ turn, turn ∈ [last + 1, last + 2, last + 3, last + 4, last + 5] := by
  revert last; decide

theorem storePlace_unit (x : StoreRec) (u : Fin 4) : storePlace x (.unit u) = 10 + unitPlace x.lastUnit u := rfl

theorem unitPlace_lt (last u : Fin 4) : unitPlace last u < 4 := Nat.mod_lt _ (by decide)

theorem storePlace_turn {turn : Fin 5} (takes : recoveryTurn cl = some turn) :
    storePlace x cl = 30 + turnPlace x.lastRecovery turn := by
  cases cl <;> cases takes <;> rfl

theorem turnPlace_lt (last turn : Fin 5) : turnPlace last turn < 5 := Nat.mod_lt _ (by decide)

/-- The unit found is waiting, and none that waits comes before it. -/
theorem nextUnit_some (next : x.nextUnit = some b) :
    b ∈ x.asks ∧ storePlace x b < 20 ∧ ∀ u, .unit u ∈ x.asks → storePlace x b ≤ storePlace x (.unit u) := by
  unfold StoreRec.nextUnit at next
  rw [List.find?_map, Option.map_eq_some_iff] at next
  obtain ⟨v, found, rfl⟩ := next
  obtain ⟨waits, passed, rest, split, skipped⟩ := List.find?_eq_some_iff_append.1 found
  have := unitPlace_lt x.lastUnit v
  refine ⟨by simpa using waits, by rw [storePlace_unit]; omega, fun u asks => ?_⟩
  have later : u ∉ passed := fun mem => by simpa [asks] using skipped u mem
  have := first_least (unitsInTurn x.lastUnit).1 split ((unitsInTurn x.lastUnit).2 u) later
  rw [storePlace_unit, storePlace_unit]
  omega

theorem nextUnit_none (next : x.nextUnit = none) (u : Fin 4) : .unit u ∉ x.asks := fun asks => by
  unfold StoreRec.nextUnit at next
  simpa [asks] using List.find?_eq_none.1 next _ (List.mem_map_of_mem ((unitsInTurn x.lastUnit).2 u))

/-- The claimant of rank 5 found is waiting, and none that waits comes before it. -/
theorem nextRecovery_some (next : x.nextRecovery = some b) :
    b ∈ x.asks ∧ storePlace x b < 40
      ∧ ∀ c ∈ x.asks, (recoveryTurn c).isSome → storePlace x b ≤ storePlace x c := by
  unfold StoreRec.nextRecovery at next
  rw [List.head?_filterMap] at next
  obtain ⟨passed, turn, rest, split, found, skipped⟩ := List.findSome?_eq_some_iff.1 next
  have takes : recoveryTurn b = some turn := by simpa using List.find?_some found
  have := turnPlace_lt x.lastRecovery turn
  rw [storePlace_turn takes]
  refine ⟨List.mem_of_find?_eq_some found, by omega, fun c asks some_ => ?_⟩
  obtain ⟨other, takes'⟩ := Option.isSome_iff_exists.1 some_
  have later : other ∉ passed := fun mem => List.find?_eq_none.1 (skipped other mem) c asks (by simpa using takes')
  have := first_least (turnsInTurn x.lastRecovery).1 split ((turnsInTurn x.lastRecovery).2 other) later
  rw [storePlace_turn takes']
  omega

theorem nextRecovery_none (next : x.nextRecovery = none) {c : StoreClaimant} (asks : c ∈ x.asks) :
    recoveryTurn c = none := by
  cases takes : recoveryTurn c with
  | none => rfl
  | some turn =>
    unfold StoreRec.nextRecovery at next
    rw [List.head?_filterMap] at next
    have unfound := List.findSome?_eq_none_iff.1 next turn ((turnsInTurn x.lastRecovery).2 turn)
    exact absurd (by simpa using takes) (List.find?_eq_none.1 unfound c asks)

/-! ## The claimant that comes first -/

theorem unit_or_later (x : StoreRec) (notCapture : cl ≠ .capture) : (∃ u, cl = .unit u) ∨ 20 ≤ storePlace x cl := by
  cases cl with
  | capture => exact absurd rfl notCapture
  | unit u => exact .inl ⟨u, rfl⟩
  | link | vote | ctx | table | scrub => exact .inr (by simp only [storePlace]; omega)

theorem turn_or_later (x : StoreRec) (after : 20 ≤ storePlace x cl) (notLink : cl ≠ .link) :
    (recoveryTurn cl).isSome ∨ 40 ≤ storePlace x cl := by
  cases cl with
  | capture => simp only [storePlace] at after; omega
  | unit u => have := unitPlace_lt x.lastUnit u; rw [storePlace_unit] at after; omega
  | link => exact absurd rfl notLink
  | vote | ctx | table => exact .inl rfl
  | scrub => exact .inr (Nat.le_refl _)

theorem scrub_of_last (last : 40 ≤ storePlace x cl) : cl = .scrub := by
  cases cl with
  | scrub => rfl
  | capture | unit | link | vote | ctx | table => simp only [storePlace] at last; omega

/-- The claimant that a search finds is one that waits and that no other comes before; none waits when it finds none. -/
def StoreRec.First (x : StoreRec) : Option StoreClaimant → Prop
  | some b => b ∈ x.asks ∧ ∀ c ∈ x.asks, storePlace x b ≤ storePlace x c
  | none => x.asks = []

/-- The next claimant is the one that the ranks and turns put first (R125). -/
theorem nextClaimant_first (x : StoreRec) : x.First x.nextClaimant := by
  unfold StoreRec.nextClaimant
  split
  · next capture => exact ⟨by simpa using capture, fun _ _ => Nat.zero_le _⟩
  next noCapture =>
  have later : ∀ c ∈ x.asks, (∃ u, c = .unit u) ∨ 20 ≤ storePlace x c := fun c asks =>
    unit_or_later x fun e => noCapture (by simpa [e] using asks)
  split
  · next found =>
    obtain ⟨waits, below, first⟩ := nextUnit_some found
    refine ⟨waits, fun c asks => ?_⟩
    rcases later c asks with ⟨u, rfl⟩ | after
    · exact first u asks
    · omega
  next noUnit =>
  have later : ∀ c ∈ x.asks, 20 ≤ storePlace x c := fun c asks =>
    (later c asks).resolve_left fun ⟨u, e⟩ => nextUnit_none noUnit u (e ▸ asks)
  split
  · next link => exact ⟨by simpa using link, later⟩
  next noLink =>
  have later : ∀ c ∈ x.asks, (recoveryTurn c).isSome ∨ 40 ≤ storePlace x c := fun c asks =>
    turn_or_later x (later c asks) fun e => noLink (by simpa [e] using asks)
  split
  · next found =>
    obtain ⟨waits, below, first⟩ := nextRecovery_some found
    refine ⟨waits, fun c asks => ?_⟩
    rcases later c asks with turn | after
    · exact first c asks turn
    · omega
  next noTurn =>
  have later : ∀ c ∈ x.asks, 40 ≤ storePlace x c := fun c asks =>
    (later c asks).resolve_left (by simp [nextRecovery_none noTurn asks])
  split
  · next scrub => exact ⟨by simpa using scrub, later⟩
  next noScrub =>
    refine List.eq_nil_iff_forall_not_mem.2 fun c asks => noScrub ?_
    have := scrub_of_last (later c asks)
    simpa [this] using asks

/-! ## The grant -/

theorem waitingAsks_eq (s : State) : s.waitingAsks =
    if s.ctl.state = .starting ∧ (s.ctl.phase = some .format ∨ s.ctl.phase = some .rescan) then
      s.store.asks ++ [.table]
    else s.store.asks := by
  simp [State.waitingAsks, State.walks]

theorem grantStore_busy (busy : s.store.burst ≠ none) : s.grantStore = s :=
  if_pos (Option.isSome_iff_ne_none.2 busy)

/-- A free store grants a burst to the claimant that comes first, whose turn is then the last one served (R125). -/
theorem grantStore_first (free : s.store.burst = none) (waits : cl ∈ s.waitingAsks)
    (first : ∀ c ∈ s.waitingAsks, storePlace s.store cl ≤ storePlace s.store c) :
    ∃ b ∈ s.waitingAsks, storePlace s.store b = storePlace s.store cl
      ∧ s.grantStore = { s with store := { s.store with
          burst := some b
          asks := s.store.asks.erase b
          lastUnit := (match b with
            | .unit u => u
            | _ => s.store.lastUnit)
          lastRecovery := (match b with
            | .ctx c => ⟨c.val, by omega⟩
            | .vote => 4
            | .table => 4
            | _ => s.store.lastRecovery) } } := by
  have place : ∀ c, storePlace { s.store with asks := s.waitingAsks } c = storePlace s.store c := fun _ => rfl
  have least := nextClaimant_first { s.store with asks := s.waitingAsks }
  unfold State.grantStore
  rw [free]
  cases next : { s.store with asks := s.waitingAsks : StoreRec }.nextClaimant with
  | none =>
    rw [next] at least
    have nobody : s.waitingAsks = [] := least
    simp [nobody] at waits
  | some b =>
    rw [next] at least
    obtain ⟨mem, before⟩ := least
    simp only [place] at before
    refine ⟨b, mem, Nat.le_antisymm (before cl waits) (first b mem), ?_⟩
    cases b <;> rfl

/-- A free store that nobody asks for grants nothing; in HOLD it enters self-refresh (R124). -/
theorem grantStore_nobody (free : s.store.burst = none) (asks : s.waitingAsks = []) :
    s.grantStore = if s.ctl.state = .hold then
        { s with store := { s.store with selfRefresh := true, timerRunning := false } }
      else s := by
  unfold State.grantStore
  rw [free, asks]
  rfl

end Sys2Proof.Machine
end

