-- ==== Sys2Proof/Proofs/HoldEntry.lean ====
section
/-! SUPPORT. HOLD_ENTRY (R124, R175): HOLD entered once every context is FREE, and the idle store in self-refresh. -/

namespace Sys2Proof.Machine

open Sys2Proof.Stated

variable {s : State}

theorem allContextsFree_iff (s : State) : s.allContextsFree = true ↔ ∀ c, (s.ctxs.get c).state = .free := by
  simp only [State.allContextsFree, List.all_eq_true, Four.mem_toList, decide_eq_true_eq]
  exact ⟨fun h c => h _ ⟨c, rfl⟩, fun h _ ⟨c, e⟩ => e ▸ h c⟩

/-- The state with which HOLD begins, before the blocks' reactions to it. -/
def State.held (s : State) : State :=
  { s with ctl := { s.ctl with state := .hold }, port := { s.port with stateChange := true } }

theorem exec_holdEntry_drained (draining : s.ctl.state = .draining) (free : ∀ c, (s.ctxs.get c).state = .free) :
    exec .holdEntry s = .next s.held.finish :=
  congrArg Host.Outcome.next (if_pos (by simp [draining, (allContextsFree_iff s).2 free]))

theorem exec_holdEntry_unmet (unmet : s.ctl.state ≠ .draining ∨ ∃ c, (s.ctxs.get c).state ≠ .free) :
    exec .holdEntry s = .next s := by
  refine congrArg Host.Outcome.next (if_neg fun met => ?_)
  simp only [Bool.and_eq_true, decide_eq_true_eq, allContextsFree_iff] at met
  exact unmet.elim (· met.1) fun ⟨c, bound⟩ => bound (met.2 c)

/-- With every context FREE and nothing asked of the blocks, none has anything to do as HOLD begins. -/
theorem held_still (free : ∀ c, (s.ctxs.get c).state = .free) (quiet : nothingAsked s) : s.held.Still := by
  obtain ⟨units, drs, vote⟩ := quiet
  have state : ∀ c, (s.held.ctxs.get c).state = .free := free
  exact { ctxs := fun c => by simp [State.settlesNow, CtxRec.settlesAtOnce, state c]
          reading := fun c => by simp [state c]
          units := units, drs := drs, vote := vote, drives := nofun }

/-- In HOLD the store that nobody asks for enters self-refresh, and its timer stops (R124). -/
theorem grantStore_selfRefresh (hold : s.ctl.state = .hold) (free : s.store.burst = none) (asks : s.store.asks = []) :
    s.grantStore = { s with store := { s.store with selfRefresh := true, timerRunning := false } } := by
  have nobody : s.waitingAsks = [] := by simp [waitingAsks_eq, hold, asks]
  exact (grantStore_nobody free nobody).trans (if_pos hold)

/-- Settles O10: what HOLD_ENTRY does where the drain has ended, and that the blocks and the store then rest. -/
theorem holdEntered : Obligations.HoldEntered := by
  refine fun s => ⟨fun draining free => ⟨exec_holdEntry_drained draining free, fun quiet burst asks => ?_⟩,
    exec_holdEntry_unmet⟩
  have rests : s.held.finish = s.held.chooseBurst.grantStore := (held_still free quiet).finish
  have refreshes := grantStore_selfRefresh (s := s.held.chooseBurst) rfl burst asks
  have run := (exec_holdEntry_drained draining free).trans (congrArg Host.Outcome.next (rests.trans refreshes))
  exact ⟨_, run, rfl, rfl, rfl⟩

end Sys2Proof.Machine
end

