-- ==== Sys2Proof/Proofs/WordOwners.lean ====
section
/-! SUPPORT. The owners of the store's words (R119, R126 to R129): which a word of each region has, and what clearing a
record's bit errors leaves. -/

namespace Sys2Proof.Machine

open Sys2Proof.Stated

variable {s t : State} {o : WordOwner} {v : Nat}

/-! ## Bit errors by word -/

/-- A list thinned out by key alone keeps a key's value or loses it. -/
theorem assocFind_filter {α : Type} (q : Nat → Bool) (l : List (Nat × α)) (v : Nat) :
    assocFind v (l.filter fun e => q e.1) = if q v then assocFind v l else none := by
  induction l with
  | nil => simp [assocFind]
  | cons e rest ih =>
    obtain ⟨j, a⟩ := e
    by_cases same : j = v
    · subst same
      by_cases keep : q j = true
      · simp [keep, assocFind]
      · simp [keep, ih]
    · by_cases keep : q j = true <;> simp [keep, assocFind, same, ih]

/-! ## The owner of a word -/

/-- The owner is a record of the table region (R119). -/
def WordOwner.isRecord : WordOwner → Bool
  | .trackRecord _ => true
  | .geometry _ => true
  | .sweepRecord _ => true
  | .nobody => false
  | .trackSector _ _ => false
  | .candidate _ _ _ => false
  | .capture _ _ => false

/-- The region in which an owner's words lie, and what holds of a track that owns one (R119, R126, R128). -/
def ownerPlace (s : State) (region : Region) : WordOwner → Prop
  | .nobody => True
  | .trackSector n _ => region = .frame ∧ (s.track n).state ≠ .free ∧ (s.track n).state ≠ .broken
  | .candidate _ _ _ => region = .candidate
  | .capture _ _ => region = .candidate
  | .trackRecord n => region = .table ∧ n < s.usable
  | .geometry _ => region = .table
  | .sweepRecord _ => region = .table

theorem tableWordOwner_place (s : State) (w : Nat) : ownerPlace s .table (tableWordOwner s.usable w) := by
  unfold tableWordOwner
  dsimp only
  split
  · next inside => exact ⟨rfl, Nat.div_lt_of_lt_mul (by rwa [Nat.mul_comm] at inside)⟩
  · split
    · exact rfl
    · exact rfl
    · trivial

theorem frameWordOwner_place (s : State) (frame offset : Nat) :
    ownerPlace s .frame (s.frameWordOwner frame offset) := by
  unfold State.frameWordOwner
  dsimp only
  split
  · trivial
  · next holds =>
    simp only [Bool.or_eq_true, decide_eq_true_eq, not_or] at holds
    split
    · exact ⟨rfl, holds.1.1, holds.1.2⟩
    · trivial

theorem candidateWordOwner_place (s : State) (n offset : Nat) :
    ownerPlace s .candidate (s.candidateWordOwner n offset) := by
  unfold State.candidateWordOwner
  dsimp only
  split
  · trivial
  · split
    · trivial
    · split
      · exact rfl
      · exact rfl

/-- A word's owner is one of the word's region (R119). -/
theorem wordOwner_place (s : State) (w : Nat) : ownerPlace s (regionAt s (w / frameWords)) (s.wordOwner w) := by
  unfold State.wordOwner
  dsimp only
  rw [show regionOf s.usable (w / frameWords) = regionAt s (w / frameWords) from rfl]
  cases regionAt s (w / frameWords) with
  | frame => exact frameWordOwner_place s _ _
  | table => exact tableWordOwner_place s _
  | candidate => exact candidateWordOwner_place s _ _

theorem ownerPlace_record {r : Region} (place : ownerPlace s r o) (record : o.isRecord = true) : r = .table := by
  cases o with
  | trackRecord => exact place.1
  | geometry | sweepRecord => exact place
  | nobody | trackSector | candidate | capture => cases record

/-- A word of the table region belongs to a record or to nobody (R119). -/
theorem ownerPlace_table (place : ownerPlace s .table o) (owned : o ≠ .nobody) : o.isRecord = true := by
  cases o with
  | trackRecord | geometry | sweepRecord => rfl
  | nobody => exact absurd rfl owned
  | trackSector => cases place.1
  | candidate | capture => cases place

theorem isRecord_iff (s : State) (w : Nat) : (s.wordOwner w).isRecord = true ↔
    regionAt s (w / frameWords) = .table ∧ s.wordOwner w ≠ .nobody := by
  have place := wordOwner_place s w
  refine ⟨fun record => ⟨ownerPlace_record place record, fun none_ => ?_⟩, fun ⟨table, owned⟩ => ?_⟩
  · rw [none_] at record
    cases record
  · rw [table] at place
    exact ownerPlace_table place owned

theorem wordOwner_table (table : regionAt s (v / frameWords) = .table) :
    s.wordOwner v = tableWordOwner s.usable (v - s.usable * frameWords) := by
  unfold State.wordOwner
  dsimp only
  rw [show regionOf s.usable (v / frameWords) = .table from table]

theorem usable_congr (ctl : t.ctl = s.ctl) : t.usable = s.usable := by
  unfold State.usable
  rw [ctl]

theorem regionAt_congr (usable : t.usable = s.usable) (frame : Nat) : regionAt t frame = regionAt s frame := by
  unfold regionAt
  rw [usable]

theorem wordOwner_record_of (usable : t.usable = s.usable) (record : o.isRecord = true) (owns : t.wordOwner v = o) :
    s.wordOwner v = o := by
  have table : regionAt t (v / frameWords) = .table := ownerPlace_record (owns ▸ wordOwner_place t v) record
  rw [wordOwner_table table, usable] at owns
  rw [wordOwner_table ((regionAt_congr usable _).symm.trans table), owns]

/-- Which words a record owns rests on the size in use alone (R119). -/
theorem wordOwner_record (usable : t.usable = s.usable) (record : o.isRecord = true) :
    t.wordOwner v = o ↔ s.wordOwner v = o :=
  ⟨wordOwner_record_of usable record, wordOwner_record_of usable.symm record⟩

/-- A record rewritten whole loses its bit errors, and no other word does (R122). -/
theorem clearFlips_find (usable : t.usable = s.usable) (record : o.isRecord = true) (v : Nat) :
    assocFind v (t.clearFlips o).store.flips = if s.wordOwner v = o then none else assocFind v t.store.flips := by
  refine (assocFind_filter (fun u => t.wordOwner u ≠ o) t.store.flips v).trans ?_
  by_cases owns : s.wordOwner v = o
  · simp [owns, (wordOwner_record (v := v) usable record).2 owns]
  · simp [owns, mt (wordOwner_record (v := v) usable record).1 owns]

end Sys2Proof.Machine
end

