-- ==== Sys2Proof/Proofs/LostWords.lean ====
section
/-! SUPPORT. An uncorrectable word (R122): what its owner becomes (R126 to R129) where nobody works on the record that
changes, and the word and its record rewritten. -/

namespace Sys2Proof.Machine

open Sys2Proof.Stated

variable {s t : State} {o : WordOwner} {cl : StoreClaimant} {n k w : Nat}

/-! ## The change of a sector whose word is lost -/

/-- The record of a track with a sector whose word was found uncorrectable (R126). -/
def State.hitTrack (s : State) (n k : Nat) : TrackRec :=
  ((s.track n).setSector k (sectorHit ((s.track n).sector k))).imageChanged

section
variable {x : SectorRec} (sector : x = (s.track n).sector k)
include sector

/-- A sector that holds no image, or none but a damaged guess, is left as it is (R48, R126). -/
theorem markSector_none (none_ : x.status = .pending ∨ x.status = .damaged ∨ x.status = .marked ∨ x.status = .lost
    ∨ (x.status = .failed ∧ x.guess = .damaged)) : s.markSector n k = s := by
  subst sector
  unfold State.markSector
  rcases none_ with status | status | status | status | ⟨status, guess⟩
  · simp [status]
  · simp [status]
  · simp [status]
  · simp [status]
  · simp [status, guess]

/-- A sector's image or guess is lost, and its track stays where it is (R126). -/
theorem markSector_hit (hit : x.status = .written ∨ x.status = .replaced ∨ (x.status = .failed ∧ x.guess ≠ .damaged)
    ∨ ((x.status = .clean ∨ x.status = .voted) ∧ (s.track n).state ≠ .settled)) :
    s.markSector n k = s.setTrack n (s.hitTrack n k) := by
  subst sector
  unfold State.markSector State.hitTrack sectorHit
  rcases hit with status | status | ⟨status, guess⟩ | ⟨status | status, open_⟩
  · simp [status, SectorRec.restart]
  · simp [status, SectorRec.restart]
  · simp [status, SectorRec.restart, guess]
  · simp [status, SectorRec.restart, open_]
  · simp [status, SectorRec.restart, open_]

/-- A sector that was read is DAMAGED, and its track, being SETTLED, is requeued (R70, R126). -/
theorem markSector_requeued (read : x.status = .clean ∨ x.status = .voted) (settled : (s.track n).state = .settled) :
    s.markSector n k = (s.setTrack n (s.hitTrack n k)).requeueSettled n := by
  subst sector
  unfold State.markSector State.hitTrack sectorHit
  rcases read with status | status
  · simp [status, SectorRec.restart, settled]
  · simp [status, SectorRec.restart, settled]

end

theorem requeueSettled_frame (s : State) (n : Nat) :
    ∃ ts q, s.requeueSettled n = { s with tracks := ts, queue := q } := ⟨_, _, rfl⟩

/-- The change of a sector is one of the track table and the queue. -/
theorem markSector_frame (s : State) (n k : Nat) : ∃ ts q, s.markSector n k = { s with tracks := ts, queue := q } := by
  unfold State.markSector
  dsimp only
  split
  iterate 2
    · split
      · obtain ⟨ts, q, queued⟩ := requeueSettled_frame (s.setTrack n _) n
        exact ⟨ts, q, queued⟩
      · exact ⟨_, _, rfl⟩
  iterate 2
    · exact ⟨_, _, rfl⟩
  · split
    · exact ⟨_, _, rfl⟩
    · exact ⟨_, _, rfl⟩
  all_goals exact ⟨_, _, rfl⟩

/-- A SETTLED track requeued: its record and its place in the queue (R70). -/
theorem requeueSettled_queued (live : (s.track n).state ≠ .free) : onlyTrack s (s.requeueSettled n) n
      { s.track n with state := .queued, cls := some .archive, nextStep := 0, stepRevs := 0 }
    ∧ (s.requeueSettled n).queue = { s.queue with archive := s.queue.archive ++ [n] } := by
  have restarted := onlyTrack_modTrack s n (f := fun r => { r with nextStep := 0, stepRevs := 0 }) live
  have queued := onlyTrack_trans restarted (onlyTrack_queueTail _ n .archive)
  rw [restarted.1] at queued
  exact ⟨queued, rfl⟩

/-- A record whose words have no bit error is read without a change but the claim (R120). -/
theorem touchTrack_quiet (rises : keysRiseFrom 0 s.store.flips = true)
    (quiet : ∀ w, s.wordOwner w = .trackRecord n → assocFind w s.store.flips = none) (cl : StoreClaimant) :
    s.touchTrack cl n = s.askStore cl 1 := by
  have none_ : s.flippedOf (.trackRecord n) = [] := by
    refine List.map_eq_nil_iff.2 (List.filter_eq_nil_iff.2 fun e listed owns => ?_)
    have := quiet e.1 (by simpa using owns)
    rw [assocFind_of_mem rises listed] at this
    cases this
  unfold State.touchTrack
  rw [none_]
  rfl

/-! ## What an owner becomes -/

section
variable (s : State) (x : StoreRec) (y : LinkRec) (z : SysPort)

theorem ownerHit_nobody : ownerHit s { s with store := x, link := y, port := z } .nobody :=
  ⟨nofun, nofun, nofun, nofun, nofun, fun _ _ => ⟨rfl, rfl⟩, fun _ => rfl, fun _ => rfl, fun _ => rfl, rfl⟩

theorem ownerHit_capture (c : Fin 4) (k : Nat) :
    ownerHit s { s with store := x, link := y, port := z } (.capture c k) :=
  ⟨nofun, nofun, nofun, nofun, nofun, fun _ _ => ⟨rfl, rfl⟩, fun _ => rfl, fun _ => rfl, fun _ => rfl, rfl⟩

theorem ownerHit_candidate (c : Fin 4) (p k : Nat) : ownerHit s { s with
    ctxs := s.ctxs.set c (candidateLost (s.ctxs.get c) p k), store := x, link := y, port := z } (.candidate c p k) :=
  ⟨nofun, nofun, fun _ _ _ same => by cases same; rfl, nofun, nofun, fun _ _ => ⟨rfl, rfl⟩,
    fun other => absurd rfl (other c p k), fun _ => rfl, fun _ => rfl, rfl⟩

theorem ownerHit_geometry (d : Fin 4) : ownerHit s { s with
    geometry := s.geometry.set d none, store := x, link := y, port := z } (.geometry d) :=
  ⟨nofun, nofun, nofun, fun _ same => by cases same; rfl, nofun, fun _ _ => ⟨rfl, rfl⟩, fun _ => rfl,
    fun other => absurd rfl (other d), fun _ => rfl, rfl⟩

theorem ownerHit_sweepRecord (d : Fin 4) : ownerHit s { s with
    sweeps := s.sweeps.set d SweepRec.powerOn, store := x, link := y, port := z } (.sweepRecord d) :=
  ⟨nofun, nofun, nofun, nofun, fun _ same => by cases same; rfl, fun _ _ => ⟨rfl, rfl⟩, fun _ => rfl, fun _ => rfl,
    fun other => absurd rfl (other d), rfl⟩

/-- The record that a lost track record becomes: DIVERGED is kept when its word can be read (R53, R128). -/
def State.lostRecord (s : State) (n : Nat) : TrackRec :=
  TrackRec.broken ((s.track n).diverged && assocFind (s.divergedAt n) s.store.flips ≠ some .uncorrectable)

theorem ownerHit_trackRecord (n : Nat) : ownerHit s { s with
    tracks := (s.setTrack n (s.lostRecord n)).tracks, store := x, link := y, port := z } (.trackRecord n) :=
  ⟨nofun, fun _ same => by
      cases same
      exact ⟨onlyTrack_congr (onlyTrack_setTrack s n (x := s.lostRecord n) nofun) rfl, rfl⟩,
    nofun, nofun, nofun, fun _ other => absurd rfl (other n), fun _ => rfl, fun _ => rfl, fun _ => rfl, rfl⟩

theorem ownerHit_trackSector (n k : Nat) (live : (s.track n).state ≠ .free) :
    ownerHit s (({ s with store := x, link := y, port := z } : State).markSector n k) (.trackSector n k) := by
  obtain ⟨u, hu⟩ : ∃ u : State, u = { s with store := x, link := y, port := z } := ⟨_, rfl⟩
  have tracks : u.tracks = s.tracks := by rw [hu]
  have track : ∀ i, u.track i = s.track i := track_congr tracks
  have queue : u.queue = s.queue := by rw [hu]
  have sector : (s.track n).sector k = (u.track n).sector k := by rw [track]
  have one : onlyTrack s (u.setTrack n (u.hitTrack n k)) n (s.hitTrack n k) := by
    unfold State.hitTrack
    rw [track]
    exact ⟨track_setTrack_self u n _ live, fun i other => (track_setTrack_ne u _ other).trans (track i)⟩
  obtain ⟨ts, q, frame⟩ := markSector_frame u n k
  rw [← hu]
  refine ⟨fun n' k' same _ => ?_, nofun, nofun, nofun, nofun, fun other => absurd rfl (other n k),
    fun _ => by rw [frame, hu], fun _ => by rw [frame, hu], fun _ => by rw [frame, hu], by rw [frame, hu]⟩
  cases same
  refine ⟨fun none_ => ?_, fun hit => ?_, fun read settled => ?_⟩
  · rw [markSector_none sector none_]
    exact ⟨tracks, queue⟩
  · rw [markSector_hit sector (by rw [track]; exact hit)]
    exact ⟨one, queue⟩
  · rw [markSector_requeued sector read (by rw [track]; exact settled)]
    obtain ⟨queued, order⟩ := requeueSettled_queued (s := u.setTrack n (u.hitTrack n k)) (n := n)
      (by rw [one.1]; exact live)
    rw [one.1] at queued
    rw [order, ← queue]
    exact ⟨onlyTrack_trans one queued, rfl⟩

end

/-! ## The owner's effect -/

/-- What the owner of an uncorrectable word leaves, the word itself not yet rewritten: the part with the word noted
(R122 steps 1 to 3), the owner's effect taken, and a record's own bit errors gone with it. -/
structure Lost (s : State) (cl : StoreClaimant) (w : Nat) (o : WordOwner) (t : State) : Prop where
  store : onlyAsks { (s.noteUncorrectable cl w).store with flips := t.store.flips } t.store
  flips : ∀ v, assocFind v t.store.flips
    = if o.isRecord = true ∧ s.wordOwner v = o then none else assocFind v s.store.flips
  link : t.link = (s.noteUncorrectable cl w).link
  port : t.port = (s.noteUncorrectable cl w).port
  hit : ownerHit s t o

/-- An owner other than a record keeps every bit error. -/
theorem lost_data (data : o.isRecord = false) (asks : onlyAsks (s.noteUncorrectable cl w).store t.store)
    (link : t.link = (s.noteUncorrectable cl w).link) (port : t.port = (s.noteUncorrectable cl w).port)
    (hit : ownerHit s t o) : Lost s cl w o t where
  store := by
    obtain ⟨a, b, c, same⟩ := asks
    rw [same]
    exact ⟨a, b, c, rfl⟩
  flips v := by
    rw [onlyAsks_flips asks, data]
    exact (if_neg nofun).symm
  link := link
  port := port
  hit := hit

/-- A record rewritten whole loses its bit errors. -/
theorem lost_record (record : o.isRecord = true) (ctl : t.ctl = s.ctl)
    (store : t.store = (s.noteUncorrectable cl w).store) (link : t.link = (s.noteUncorrectable cl w).link)
    (port : t.port = (s.noteUncorrectable cl w).port) (hit : ownerHit s (t.clearFlips o) o) :
    Lost s cl w o (t.clearFlips o) where
  store := by
    rw [← store]
    exact onlyAsks_refl _
  flips v := by
    rw [clearFlips_find (usable_congr ctl) record v, store]
    simp only [record, true_and]
    rfl
  link := link
  port := port
  hit := hit

/-- A track at rest without a lock, for which no unit waits, has its record rewritten as BROKEN, and no more (R53). -/
theorem breakTrack_quiet (resting : (s.track n).state = .pending ∨ (s.track n).state = .settled)
    (unlocked : (s.track n).lock = none) (units : ∀ u, (s.units.get u).waitOn = none) (d : Bool) :
    s.breakTrack n d = (s.setTrack n (TrackRec.broken d)).clearFlips (.trackRecord n) := by
  have removed : s.removeTrack n = s := by
    unfold State.removeTrack
    rcases resting with state | state
    · simp [state]
    · simp [state]
  have released : s.releaseLock n = s := by
    unfold State.releaseLock
    rw [unlocked]
  have ended : s.endWaitersBroken n = s := by
    simp [State.endWaitersBroken, fourNumbers, UnitRec.waitsOnSlot, UnitRec.waitSlot, units]
  unfold State.breakTrack
  rw [removed, released, ended]
  rfl

/-- A track record that is not BROKEN yet and has lost a word, its track at rest (R128). -/
theorem trackLost_quiet (below : n < s.usable) (quiet : ownerQuiet s (.trackRecord n)) :
    s.trackLost n = (s.setTrack n (s.lostRecord n)).clearFlips (.trackRecord n) := by
  obtain ⟨resting, unlocked, units⟩ := quiet
  have whole : decide ((s.track n).state = .broken) = false := by rcases resting with state | state <;> simp [state]
  unfold State.trackLost
  rw [if_pos below, breakTrack_quiet resting unlocked units, State.readableDiverged, whole]
  rfl

/-- A geometry record lost with no context and no unit at work on the drive (R129). -/
theorem loseGeometry_quiet {d : Fin 4} (quiet : ownerQuiet s (.geometry d)) :
    s.loseGeometry d = (s.setGeometry d none).clearFlips (.geometry d) := by
  obtain ⟨unbound, unit⟩ := quiet
  have nobody : ((s.setGeometry d none).clearFlips (.geometry d)).ctxOn d = none :=
    (find_fourNumbers_none _).2 fun c => by
      show s.boundOn c d = false
      unfold State.boundOn
      split
      · rfl
      · next n track => simpa using unbound c n track
  unfold State.loseGeometry
  dsimp only
  rw [nobody]
  simp [State.releaseUnit, UnitRec.waitsOnTrack, UnitRec.waitSlot, unit]

/-- A sector's word lost where its track's record, read first, has no bit error (R120, R126). -/
theorem damageSector_quiet (rises : keysRiseFrom 0 s.store.flips = true) (whole : (s.track n).state ≠ .broken)
    (quiet : ownerQuiet s (.trackSector n k)) (cl : StoreClaimant) :
    s.damageSector cl n k = (s.askStore cl 1).markSector n k := by
  unfold State.damageSector
  rw [touchTrack_quiet rises quiet]
  exact if_neg whole

/-- The owner's effect where nobody works on the record that it changes. -/
theorem lost_quiet (rises : keysRiseFrom 0 s.store.flips = true) (cl : StoreClaimant) (w : Nat)
    (quiet : ownerQuiet s (s.wordOwner w)) :
    Lost s cl w (s.wordOwner w) (ownerEffect (s.noteUncorrectable cl w) cl (s.wordOwner w)) := by
  have place := wordOwner_place s w
  generalize s.wordOwner w = o at place quiet
  cases o with
  | nobody => exact lost_data rfl (onlyAsks_refl _) rfl rfl (ownerHit_nobody s _ _ _)
  | capture c k => exact lost_data rfl (onlyAsks_refl _) rfl rfl (ownerHit_capture s _ _ _ c k)
  | candidate c p k => exact lost_data rfl (onlyAsks_refl _) rfl rfl (ownerHit_candidate s _ _ _ c p k)
  | sweepRecord d => exact lost_record rfl (by simp) (by simp) (by simp) (by simp) (ownerHit_sweepRecord s _ _ _ d)
  | geometry d =>
    change Lost s cl w _ ((s.noteUncorrectable cl w).loseGeometry d)
    rw [loseGeometry_quiet (s := s.noteUncorrectable cl w) quiet]
    exact lost_record rfl (by simp) (by simp) (by simp) (by simp) (ownerHit_geometry s _ _ _ d)
  | trackRecord n =>
    change Lost s cl w _ ((s.noteUncorrectable cl w).trackLost n)
    rw [trackLost_quiet (s := s.noteUncorrectable cl w) place.2 quiet]
    exact lost_record rfl (by simp) (by simp) (by simp) (by simp) (ownerHit_trackRecord s _ _ _ n)
  | trackSector n k =>
    obtain ⟨_, live, whole⟩ := place
    change Lost s cl w _ ((s.noteUncorrectable cl w).damageSector cl n k)
    rw [damageSector_quiet (s := s.noteUncorrectable cl w) rises whole quiet cl]
    have hit := ownerHit_trackSector s ((s.noteUncorrectable cl w).askStore cl 1).store (s.noteUncorrectable cl w).link
      (s.noteUncorrectable cl w).port n k live
    obtain ⟨ts, q, frame⟩ := markSector_frame ((s.noteUncorrectable cl w).askStore cl 1) n k
    refine lost_data rfl ?_ ?_ ?_ hit
    all_goals rw [frame]
    · exact askStore_onlyAsks _ _ _
    · rfl
    · rfl

/-! ## The word rewritten -/

/-- The store after an uncorrectable word has been rewritten: its bit error is gone, and its bytes are these. -/
def StoreRec.rewritten (x : StoreRec) (w : Nat) (mem : List Host.Cell) : StoreRec :=
  { x with flips := assocDel w x.flips, mem := mem }

/-- Bytes after a word has been rewritten: zeros in it where its region holds data, and no other byte changed
(R122 step 5). -/
def zeroedAt (region : Region) (w : Nat) (mem mem' : List Host.Cell) : Prop :=
  (region = .table → mem' = mem) ∧ (region ≠ .table → readBytes mem' (w * 8) 8 = List.replicate 8 0)
    ∧ ∀ a, a < w * 8 ∨ w * 8 + 8 ≤ a → readByte mem' a = readByte mem a

theorem zeroWord_zeroed (wf : Memory.wf s.store.mem = true) (w : Nat) : ∃ mem,
    (s.unflip w).zeroWord w = { s with store := s.store.rewritten w mem }
      ∧ zeroedAt (regionAt s (w / frameWords)) w s.store.mem mem := by
  unfold State.zeroWord
  split
  · next table => exact ⟨s.store.mem, rfl, fun _ => rfl, fun data => absurd table data, fun _ _ => rfl⟩
  · next data =>
    exact ⟨_, rfl, fun table => absurd table data,
      fun _ => readBytes_writeBytes (List.replicate 8 0) s.store.mem (w * 8) wf,
      fun a out => readByte_writeBytes_outside (List.replicate 8 0) s.store.mem (w * 8) a out⟩

/-- An owner's effect is unchanged when the store alone goes on. -/
theorem ownerHit_setStore (hit : ownerHit s t o) (x : StoreRec) : ownerHit s { t with store := x } o := by
  obtain ⟨sector, record, candidate, geometry, sweep, tracks, ctxs, geometries, sweeps, frame⟩ := hit
  exact ⟨sector, record, candidate, geometry, sweep, tracks, ctxs, geometries, sweeps,
    congrArg (fun m : State => ({ m with store := x } : State)) frame⟩

theorem foundBy_eq (cl : StoreClaimant) : cl.foundBy = finderOf cl := by cases cl <;> rfl

/-- The store with an uncorrectable word counted and recorded (R122 steps 1 and 2, R131). -/
theorem noteUncorrectable_store (s : State) (cl : StoreClaimant) (w : Nat) : (s.noteUncorrectable cl w).store
    = { s.store with
        uncorrected := min 65535 (s.store.uncorrected + 1)
        lastUncorrected := some
          { region := regionAt s (w / 2048), frame := w / 2048, offset := w % 2048 * 8, owner := s.wordOwner w
            foundBy := finderOf cl } } := by
  rw [← foundBy_eq]
  rfl

/-- The bit errors after the owner's effect and the word's rewriting (R122). -/
theorem Lost.flips_left (lost : Lost s cl w (s.wordOwner w) t) (rises : keysRiseFrom 0 t.store.flips = true) (v : Nat) :
    assocFind v (assocDel w t.store.flips)
      = if v = w ∨ (regionAt s (w / frameWords) = .table ∧ s.wordOwner w ≠ .nobody ∧ s.wordOwner v = s.wordOwner w) then
          none
        else assocFind v s.store.flips := by
  by_cases same : v = w
  · subst same
    rw [assocFind_del_self rises, if_pos (.inl rfl)]
  · rw [assocFind_del_ne _ same, lost.flips v]
    refine if_congr ?_ rfl rfl
    rw [isRecord_iff, and_assoc]
    exact (or_iff_right same).symm

/-- Claims that wait, said of a store whose burst has ended and whose bit errors and bytes are these. -/
theorem onlyAsks_ended {x y : StoreRec} (asks : onlyAsks { x with flips := y.flips } y) (f : List (Nat × FlipKind))
    (mem : List Host.Cell) :
    onlyAsks { x with flips := f, mem := mem, burst := none, refreshDue := false }
      { y with flips := f, mem := mem, burst := none, refreshDue := false } := by
  obtain ⟨a, b, c, same⟩ := asks
  rw [same]
  exact ⟨a, b, c, rfl⟩

/-- The end of the burst that read an uncorrectable word: the word lost, and its owner hit. -/
theorem Lost.ended (sound : s.Sound) (lost : Lost s cl w (s.wordOwner w) t) (kept : Kept Keep.least s t) :
    wordLost s ((t.unflip w).zeroWord w).endBurst cl w
      ∧ ownerHit s ((t.unflip w).zeroWord w).endBurst (s.wordOwner w) := by
  obtain ⟨_, rises, _⟩ := (StoreRec.sound_iff _).1 (kept.sound sound).store
  obtain ⟨wf, _⟩ := (StoreRec.sound_iff _).1 sound.store
  have mem : t.store.mem = s.store.mem := (onlyAsks_mem lost.store).trans rfl
  obtain ⟨zeros, zeroed, bytes⟩ := zeroWord_zeroed (by rw [mem]; exact wf) w
  rw [regionAt_congr (usable_congr kept.ctl), mem] at bytes
  obtain ⟨table, data, others⟩ := bytes
  have store := onlyAsks_ended lost.store (assocDel w t.store.flips) zeros
  rw [noteUncorrectable_store] at store
  rw [zeroed]
  exact ⟨⟨store, lost.flips_left rises, lost.link, lost.port, table, data, others⟩, ownerHit_setStore lost.hit _⟩

end Sys2Proof.Machine
end

