-- ==== Sys2Proof/Proofs/StoreEvents.lean ====
section
/-! SUPPORT. REFRESH_TIMER, STORE_BURST_END and SCRUB_GROUP (R121 to R123, R125, R130): what each does to the store, and
to the words that it reads. -/

namespace Sys2Proof.Machine

open Sys2Proof.Stated

variable {s : State} {cl : StoreClaimant} {w : Nat} {ws : List Nat}

/-! ## REFRESH_TIMER -/

/-- Bit errors arise in words, and a refresh becomes due if a burst runs (R121, R123). -/
theorem exec_refreshTimer (s : State) (flips : List (Nat × FlipKind)) : exec (.refreshTimer flips) s
    = .next { s with store := { s.store with
        refreshDue := s.store.timerRunning && s.store.burst.isSome, flips := (s.addFlips flips).store.flips } } := rfl

/-- A word in which a bit error arises: a second one makes it uncorrectable (R121, log entry 6). -/
theorem addFlip_find_self (flips : List (Nat × FlipKind)) (w : Nat) (kind : FlipKind) :
    assocFind w (addFlip flips w kind) = some (if assocFind w flips = none then kind else .uncorrectable) := by
  unfold addFlip
  cases assocFind w flips with
  | none => simp
  | some _ => simp

theorem addFlip_find_ne (flips : List (Nat × FlipKind)) {u : Nat} (kind : FlipKind) (other : u ≠ w) :
    assocFind u (addFlip flips w kind) = assocFind u flips := by
  unfold addFlip
  split
  · exact assocFind_put_ne _ _ other
  · exact assocFind_put_ne _ _ other

theorem addFlips_one (s : State) (w : Nat) (kind : FlipKind) : (s.addFlips [(w, kind)]).store.flips
    = if w < s.storeWords then addFlip s.store.flips w kind else s.store.flips := by
  unfold State.addFlips
  generalize s.storeWords = n
  by_cases below : w < n
  · simp [below]
  · simp [below]

/-! ## The words that a burst reads -/

/-- Words without a bit error are read without a change. -/
theorem readWords_good (cl : StoreClaimant) (good : ∀ w ∈ ws, assocFind w s.store.flips = none) :
    s.readWords cl ws = s := by
  unfold State.readWords State.testWords
  induction ws with
  | nil => rfl
  | cons w rest ih =>
    have here : s.testWord ownerEffect cl w = s := by
      unfold State.testWord
      rw [good w List.mem_cons_self]
    rw [List.foldl_cons, here]
    exact ih fun u mem => good u (List.mem_cons_of_mem w mem)

/-- A word with one bit error is corrected and rewritten, and counted (R121). -/
theorem readWord_single (cl : StoreClaimant) (single : assocFind w s.store.flips = some .single) :
    s.readWords cl [w] = { s with store := { s.store with
      flips := assocDel w s.store.flips, corrected := min 65535 (s.store.corrected + 1) } } := by
  show s.testWord ownerEffect cl w = _
  unfold State.testWord
  rw [single]
  simp only [State.unflip, satAdd]

theorem readWord_uncorrectable (cl : StoreClaimant) (bad : assocFind w s.store.flips = some .uncorrectable) :
    s.readWords cl [w]
      = ((ownerEffect (s.noteUncorrectable cl w) cl (s.wordOwner w)).unflip w).zeroWord w := by
  show s.testWord ownerEffect cl w = _
  unfold State.testWord
  rw [bad]
  rfl

/-! ## STORE_BURST_END -/

theorem exec_storeBurstEnd_idle (idle : s.store.burst = none) : exec (.storeBurstEnd ws) s = .next s := by
  show execStoreBurstEnd ws s = _
  unfold execStoreBurstEnd State.storeBurstEnds
  rw [idle]

/-- A burst of a claimant ends with the words read that the store has, and the Vote Unit's reading goes on with its
own (R109, R125). -/
theorem exec_storeBurstEnd {t : State} (runs : s.store.burst = some cl)
    (read : (s.readWords cl (ws.filter (· < s.storeWords))).endBurst = t) :
    exec (.storeBurstEnd ws) s = .next (if cl = .vote then t.voteBurst else t).finish := by
  show execStoreBurstEnd ws s = _
  unfold execStoreBurstEnd State.storeBurstEnds
  rw [runs, ← read]

/-- The same, for one word of the store. -/
theorem exec_storeBurstEnd_one {t : State} (runs : s.store.burst = some cl) (below : w < s.storeWords)
    (read : (s.readWords cl [w]).endBurst = t) :
    exec (.storeBurstEnd [w]) s = .next (if cl = .vote then t.voteBurst else t).finish :=
  exec_storeBurstEnd runs (by simpa [below] using read)

/-- The end of a burst that read an uncorrectable word: STORE and STORE_ERROR are raised, and where nobody works on the
word's owner it takes its effect, and no more (R122). -/
theorem uncorrectable_ended (sound : s.Sound) (cl : StoreClaimant)
    (bad : assocFind w s.store.flips = some .uncorrectable) :
    let m := (s.readWords cl [w]).endBurst
    m.link.attention.store = true ∧ m.port.storeError = true
      ∧ (ownerQuiet s (s.wordOwner w) → wordLost s m cl w ∧ ownerHit s m (s.wordOwner w)) := by
  have effect {u : State} (h : Kept Keep.least u (s.noteUncorrectable cl w)) :
      Kept Keep.least u (ownerEffect (s.noteUncorrectable cl w) cl (s.wordOwner w)) :=
    ownerEffect_keeps _ u _ cl _ h nofun
  have noted : Kept Keep.least s (s.noteUncorrectable cl w) := (Kept.refl _ s).noteUncorrectable cl w nofun
  have raised := ((effect (Kept.refl _ (s.noteUncorrectable cl w))).unflip w).zeroWord w
  obtain ⟨_, rises, _⟩ := (StoreRec.sound_iff _).1 sound.store
  dsimp only
  rw [readWord_uncorrectable cl bad]
  refine ⟨?_, ?_, fun quiet => (lost_quiet rises cl w quiet).ended sound (effect noted)⟩
  · rw [endBurst_link]
    exact raised.attention.store rfl
  · rw [endBurst_port]
    exact raised.storeError rfl

/-! ## SCRUB_GROUP -/

theorem scrubs_iff (s : State) : s.scrubs = true ↔
    (s.ctl.state = .ready ∨ s.ctl.state = .draining) ∧ s.store.scrubPeriod ≠ 0 := by
  simp [State.scrubs]

theorem exec_scrubGroup_idle (idle : ¬ (s.ctl.state = .ready ∨ s.ctl.state = .draining) ∨ s.store.scrubPeriod = 0) :
    exec .scrubGroup s = .next s := by
  refine congrArg Host.Outcome.next (if_neg fun scrubs => ?_)
  obtain ⟨running, period⟩ := (scrubs_iff s).1 scrubs
  exact idle.elim (· running) period

/-- A group of a store without bit errors: the cursor advances, and the scrubber's burst is asked for (R130). -/
theorem exec_scrubGroup_clean (running : s.ctl.state = .ready ∨ s.ctl.state = .draining)
    (period : s.store.scrubPeriod ≠ 0) (clean : s.store.flips = []) :
    exec .scrubGroup s = .next (s.advanceScrub.askStore .scrub 1).finish := by
  refine congrArg Host.Outcome.next ((if_pos ((scrubs_iff s).2 ⟨running, period⟩)).trans ?_)
  rw [readWords_good .scrub fun w _ => by rw [clean]; rfl]

theorem advanceScrub_within (within_ : s.store.scrubCursor + 64 < s.storeWords * 8) :
    s.advanceScrub = { s with store := { s.store with scrubCursor := s.store.scrubCursor + 64 } } := if_pos within_

theorem advanceScrub_end (end_ : s.storeWords * 8 ≤ s.store.scrubCursor + 64) :
    s.advanceScrub = { s with store := { s.store with scrubCursor := 0, passes := s.store.passes + 1 } } :=
  if_neg (Nat.not_lt.2 end_)

theorem advanceScrub_frame (s : State) : ∃ cursor passes,
    s.advanceScrub = { s with store := { s.store with scrubCursor := cursor, passes := passes } } := by
  unfold State.advanceScrub
  split
  · exact ⟨_, _, rfl⟩
  · exact ⟨_, _, rfl⟩

/-! ## The statement -/

/-- Settles O55: the timer, the end of a burst by the words it read, the grant, and the scrubber's group. -/
theorem storeTimersAndBursts : Obligations.StoreTimersAndBursts := by
  intro s words ended running
  refine ⟨rfl, fun w kind => ⟨_, exec_refreshTimer s [(w, kind)], fun below => ?_, fun u other => ?_, rfl⟩,
    fun ws idle => exec_storeBurstEnd_idle idle, fun cl runs => ?_, grantStore_busy, fun free => ?_,
    exec_scrubGroup_idle, fun runs period clean => ?_⟩
  · show assocFind w (s.addFlips [(w, kind)]).store.flips = _
    rw [addFlips_one, if_pos (show w < s.storeWords from below)]
    exact addFlip_find_self s.store.flips w kind
  · show assocFind u (s.addFlips [(w, kind)]).store.flips = _
    rw [addFlips_one]
    split
    · next below => exact addFlip_find_ne _ _ (other.resolve_right (Nat.not_le.2 below))
    · rfl
  · refine ⟨fun ws good => ?_, fun w below single => ?_, fun w below bad sound => ?_⟩
    · refine exec_storeBurstEnd runs (congrArg State.endBurst (readWords_good cl fun w mem => ?_))
      obtain ⟨listed, below⟩ := List.mem_filter.1 mem
      exact good w listed (of_decide_eq_true below)
    · exact exec_storeBurstEnd_one runs below (congrArg State.endBurst (readWord_single cl single))
    · exact ⟨_, exec_storeBurstEnd_one runs below rfl, uncorrectable_ended sound cl bad⟩
  · dsimp only
    rw [← waitingAsks_eq]
    exact ⟨fun cl waits first => grantStore_first free waits first, grantStore_nobody free⟩
  · refine ⟨_, exec_scrubGroup_clean runs period clean, fun within_ => ?_, fun end_ => ?_, ?_, ?_⟩
    · rw [advanceScrub_within within_]
      exact ⟨rfl, rfl⟩
    · rw [advanceScrub_end end_]
      exact ⟨rfl, rfl⟩
    all_goals
      obtain ⟨cursor, passes, advanced⟩ := advanceScrub_frame s
      rw [advanced]
    · exact ⟨_, _, _, rfl⟩
    · rfl

end Sys2Proof.Machine
end

