-- ==== Sys2Proof/Proofs/ControllerMoves.lean ====
section
/-! SUPPORT. The controller record across one command (R173 to R176): the commands that change its STATE, each with
its move, and all others, which leave the record as it was. -/

namespace Sys2Proof.Machine

open Sys2Proof.Stated

variable {s t r : State} {c : Instr} {move : CtlState → CtlState → Prop}

/-! ## Moves of the controller STATE -/

/-- The controller STATE stands, or has made one of some moves, a change to READY, HOLD or STORE_FAILED with
STATE_CHANGE; the straps and the outcome of the store check stand (R145, R173). -/
structure MovesBy (move : CtlState → CtlState → Prop) (s t : State) : Prop where
  state : t.ctl.state = s.ctl.state ∨ move s.ctl.state t.ctl.state
  straps : t.ctl.straps = s.ctl.straps
  check : t.ctl.storeCheck = s.ctl.storeCheck ∧ t.ctl.sizeInUse = s.ctl.sizeInUse
  told : t.ctl.state ≠ s.ctl.state →
    (t.ctl.state = .ready ∨ t.ctl.state = .hold ∨ t.ctl.state = .storeFailed) → t.port.stateChange = true

theorem MovesBy.of_ctl (same : t.ctl = s.ctl) : MovesBy move s t :=
  ⟨.inl (by rw [same]), by rw [same], by rw [same]; exact ⟨rfl, rfl⟩, fun other => absurd (by rw [same]) other⟩

theorem MovesBy.mono {wider : CtlState → CtlState → Prop} (h : MovesBy move s t) (le : ∀ x y, move x y → wider x y) :
    MovesBy wider s t :=
  ⟨h.state.imp_right (le _ _), h.straps, h.check, h.told⟩

/-- The controller STATE moves to one that sets no STATE_CHANGE. -/
theorem MovesBy.quiet {x : CtlState} {p : Option Phase} (moved : move s.ctl.state x)
    (quiet : x ≠ .ready ∧ x ≠ .hold ∧ x ≠ .storeFailed) (ctl : t.ctl = { s.ctl with state := x, phase := p }) :
    MovesBy move s t := by
  rcases t with ⟨ctl', _⟩
  subst ctl
  exact ⟨.inr moved, rfl, ⟨rfl, rfl⟩, fun _ loud =>
    absurd loud (by rintro (e | e | e); exacts [quiet.1 e, quiet.2.1 e, quiet.2.2 e])⟩

/-- The controller STATE moves with STATE_CHANGE set. -/
theorem MovesBy.loud {x : CtlState} {p : Option Phase} (moved : move s.ctl.state x)
    (ctl : t.ctl = { s.ctl with state := x, phase := p }) (change : t.port.stateChange = true) : MovesBy move s t := by
  rcases t with ⟨ctl', _⟩
  subst ctl
  exact ⟨.inr moved, rfl, ⟨rfl, rfl⟩, fun _ _ => change⟩

/-- Inner operations keep the controller record, and leave STATE_CHANGE set. -/
theorem MovesBy.kept (h : MovesBy move s t) (kept : Kept Keep.least t r) : MovesBy move s r := by
  obtain ⟨state, straps, check, told⟩ := h
  rw [← kept.ctl] at state straps check told
  exact ⟨state, straps, check, fun other loud => kept.stateChange (told other loud)⟩

theorem MovesBy.finish (h : MovesBy move s t) : MovesBy move s t.finish :=
  h.kept ((Kept.refl Keep.least t).finish rfl)

theorem MovesBy.ite {p : Prop} [Decidable p] (h : p → MovesBy move s t) (g : MovesBy move s r) :
    MovesBy move s (if p then t else r) := by
  split
  · next holds => exact h holds
  · exact g

/-- A request moves the controller STATE as its owning rule does, in a state that performs it (R166, R167). -/
theorem MovesBy.request (s : State) (kind tag : Byte) (ls : List Nat) (g : RequestGroup) (p : List Byte)
    (owner : State → Reply) (h : ∀ t : State, g.refusal t.ctl.state = none → MovesBy move t (owner t).after) :
    MovesBy move s (s.request kind tag ls g p owner State.finish) := by
  unfold State.request
  split
  · exact .of_ctl rfl
  dsimp only
  split
  · exact .of_ctl rfl
  · next turned =>
    have performs : g.refusal (s.requestWindow p).ctl.state = none := by
      unfold State.turnedAway at turned
      split at turned
      · cases turned
      · split at turned
        · cases turned
        · exact turned
    obtain ⟨state, straps, check, told⟩ := h _ performs
    exact MovesBy.finish ⟨state, straps, check, told⟩

/-! ## READY -/

/-- The controller becomes READY, with STATE_CHANGE (R76, R173). -/
theorem becomeReady_moves (moved : move s.ctl.state .ready) : MovesBy move s s.becomeReady :=
  have told : MovesBy move s { s with ctl := { s.ctl with state := .ready, phase := none } }.stateChange :=
    .loud moved rfl rfl
  told.kept (Kept.refl Keep.least _).resumeSweeps

/-! ## Requests on the controller state -/

theorem holdEnter_moves (performs : RequestGroup.readyOnly.refusal s.ctl.state = none) (tag : Byte) (p : List Byte) :
    MovesBy (controllerMove (.holdEnter tag p)) s s.holdEnter.after := by
  unfold State.holdEnter
  split
  · exact .of_ctl rfl
  · have ready : s.ctl.state = .ready := by
      cases state : s.ctl.state <;> rw [state] at performs <;> first | rfl | cases performs
    exact .quiet (x := .draining) (p := s.ctl.phase) (by rw [ready]; trivial) ⟨nofun, nofun, nofun⟩
      (beginDraining_kept s).ctl

theorem holdExit_moves (s : State) (tag : Byte) (p : List Byte) :
    MovesBy (controllerMove (.holdExit tag p)) s s.holdExit.after := by
  unfold State.holdExit
  split
  · next draining => exact becomeReady_moves (by rw [draining]; trivial)
  · next hold =>
    have kept : Kept Keep.least { s with ctl := { s.ctl with state := .resuming }, store := s.store.leaveSelfRefresh }
        s.beginResuming := (Kept.refl Keep.least _).discoverAll rfl rfl _
    exact .quiet (x := .resuming) (p := s.ctl.phase) (by rw [hold]; trivial) ⟨nofun, nofun, nofun⟩ kept.ctl
  all_goals exact .of_ctl rfl

theorem resetController_moves (performs : RequestGroup.notStoreFailed.refusal s.ctl.state = none) (tag : Byte)
    (p : List Byte) : MovesBy (controllerMove (.resetController tag p)) s s.resetController.after := by
  unfold State.resetController
  split
  · exact .of_ctl rfl
  · have works : s.ctl.state ≠ .storeFailed := fun failed => by rw [failed] at performs; cases performs
    have read : (s.requeueContexts.touchSweeps fun _ => true).ctl = s.ctl :=
      ((Kept.refl Keep.least s).requeueContexts.touchSweeps _).ctl
    exact .quiet (x := .starting) (p := some .rescan) works ⟨nofun, nofun, nofun⟩
      (congrArg (fun x : CtlRec => { x with state := CtlState.starting, phase := some Phase.rescan }) read)

/-! ## Start-up -/

theorem beginDiscoveryPhase_moves {pick : DriveRec → Bool} (same : t.ctl = s.ctl) :
    MovesBy move s (t.beginDiscoveryPhase pick) := by
  have begun : MovesBy move s { t with ctl := { t.ctl with phase := some .discovery } } :=
    ⟨.inl (by rw [← same]), by rw [← same], by rw [← same]; exact ⟨rfl, rfl⟩,
      fun other => absurd (by rw [← same]) other⟩
  exact begun.kept ((Kept.refl Keep.least _).discoverAll rfl rfl pick)

theorem rescan_ctl (s : State) (failed : List Nat) : (s.rescan failed).ctl = s.ctl :=
  (((Kept.refl Keep.least s).foldTracks rfl failed (List.range s.usable)).rescanUpper.rebuildLists).ctl

/-! ## Commands that leave the controller record as it is -/

/-- Whatever state a command answers with has the controller record of the state before. -/
def SameCtl (s : State) (o : Result3) : Prop := ∀ t, o = .next t → t.ctl = s.ctl

theorem Stays.sameCtl (h : Stays s t) : SameCtl s (.next t) := by
  rintro _ ⟨⟩
  exact h.ctl

theorem Kept.sameCtl (h : Kept Keep.least s t) : SameCtl s (.next t) := h.stays.sameCtl

theorem Kept.sameCtl_finish (h : Kept Keep.least s t) : SameCtl s (.next t.finish) := h.stays.finish.sameCtl

/-- The commands by which the controller record may change. -/
def movesCtl : Instr → Bool
  | .powerOn _ => true
  | .storeCheckEnd _ _ => true
  | .formatEnd => true
  | .discoveryPhaseEnd => true
  | .rescanEnd _ => true
  | .holdEntry => true
  | .resumingEnd => true
  | .unknownRequest _ => true
  | .holdEnter _ _ => true
  | .holdExit _ _ => true
  | .resetController _ _ => true
  | _ => false

theorem request_sameCtl (request : requestRow c ≠ none) (other : movesCtl c = false) (s : State) :
    SameCtl s (exec c s) := by
  have ends {kind tag ls g p} {owner : State → Reply} (h : ∀ t, Stays t (owner t).after) :
      SameCtl s (.next (s.request kind tag ls g p owner State.finish)) :=
    (Stays.request s _ _ _ _ _ _ _ h (.inr rfl)).sameCtl
  have stops {kind tag ls g p} {owner : State → Reply} (h : ∀ t, Stays t (owner t).after) :
      SameCtl s (.next (s.request kind tag ls g p owner id)) :=
    (Stays.request s _ _ _ _ _ _ _ h (.inl rfl)).sameCtl
  cases c
  case identify => exact stops fun t => Stays.refl t
  case storeState p => exact stops (Stays.reportStore · p)
  case setLadder p => exact stops (Stays.setLadder · p)
  case attention => exact ends Stays.attention
  case setLimits p => exact ends (Stays.setLimits · p)
  case defineDrive p => exact ends (Stays.defineDrive · p)
  case withdrawDrive p => exact ends (Stays.withdrawDrive · p)
  case restoreDrive p => exact ends (Stays.restoreDrive · p)
  case clearDriveFault p => exact ends (Stays.clearDriveFault · p)
  case driveState p => exact ends (Stays.reportDriveState · p)
  case trackRecord p => exact ends (Stays.reportTrack · p)
  case listTracks p => exact ends (Stays.listTracks · p)
  case pull p => exact ends (Stays.pull · p)
  case pushSector p => exact ends (Stays.pushSector · p)
  case lockTrack p => exact ends (Stays.lockTrack · p)
  case unlockTrack p => exact ends (Stays.unlockTrack · p)
  case markExported p => exact ends (Stays.markExported · p)
  case releaseTrack p => exact ends (Stays.releaseTrack · p)
  case queueTrack p => exact ends (Stays.queueTrack · p)
  case retryTrack p => exact ends (Stays.retryTrack · p)
  case sweepStart p => exact ends (Stays.startSweep · p)
  case sweepStop p => exact ends (Stays.stopSweep · p)
  case holdEnter | holdExit | resetController => cases other
  all_goals exact absurd rfl request

theorem busAdvance_sameCtl (s : State) (o : MemoryOutcome) (ws : List Word16) :
    SameCtl s (execBusAdvance o ws s) := by
  unfold execBusAdvance
  split
  · exact (Stays.burstEnds s _ _).sameCtl
  · exact (Stays.freeReq s).finish.sameCtl
  all_goals exact (Stays.refl s).sameCtl

theorem advanceTimeout_sameCtl (s : State) : SameCtl s (execAdvanceTimeout s) := by
  unfold execAdvanceTimeout
  split
  · exact (Stays.burstEnds s _ _).sameCtl
  · exact (Stays.freeReq s).finish.sameCtl
  all_goals exact (Stays.refl s).sameCtl

theorem exec_sameCtl (other : movesCtl c = false) (s : State) : SameCtl s (exec c s) := by
  by_cases request : requestRow c ≠ none
  · exact request_sameCtl request other s
  have kept := Kept.refl Keep.least s
  have same := Stays.refl s
  have quiet : ∀ u, Keep.least.units = true → ¬ s.Apart u := fun _ => Keep.least_units
  cases c
  case systemClear => exact (Stays.systemClear s).sameCtl
  case systemClearRelease => exact (same.setPort { s.port with clearLine := false } id).sameCtl
  case addressHi | addressLo => exact (Stays.setAddress s _).sameCtl
  case registerWriteIgnored => exact kept.sameCtl
  case start u => exact (Stays.command s _ (Stays.startCommand s u)).sameCtl
  case probe u => exact (Stays.command s _ (Stays.probeCommand s u)).sameCtl
  case halt u => exact (Stays.command s _ (Stays.haltCommand s u)).sameCtl
  case acknowledge u => exact (Stays.command s _ (Stays.acknowledgeCommand s u)).sameCtl
  case ackController => exact (Stays.command s _ (Stays.ackController s)).sameCtl
  case setup => exact (Stays.command s _ (Stays.setupCommand s)).sameCtl
  case illegalCommand w => exact (Stays.command s _ (Stays.commandWord s w)).sameCtl
  case busGrant | busAccept => exact (Stays.ite (Stays.busReq s _) same).sameCtl
  case busAdvance => exact busAdvance_sameCtl s _ _
  case grantTimeout => exact (Stays.ite (Stays.burstEnds s _ _) same).sameCtl
  case advanceTimeout => exact advanceTimeout_sameCtl s
  case patienceTimerExpiry u => exact (Stays.ite (kept.patienceExpires (quiet u)).stays.finish same).sameCtl
  case readWindow => exact (Stays.readWindow s _).sameCtl
  case linkRst => exact (Stays.linkReset s).sameCtl
  case linkRstRelease => exact (same.setLink _).sameCtl
  case readyLineFall d =>
    rintro _ ⟨⟩
    exact (readyLineFalls_kept s d).stays.finish.ctl
  case readyLineRise d =>
    rintro _ ⟨⟩
    exact (readyLineRises_kept s d).stays.finish.ctl
  case faultLineRise d =>
    obtain ⟨held, line⟩ := faultLineRises_kept (k := Keep.least) (d := d) rfl s
    rintro _ ⟨⟩
    exact (line Keep.least_units).stays.finish.ctl
  case driveAnswer d =>
    obtain ⟨w, noted, answer⟩ := answers_kept (k := Keep.least) (d := d) rfl s
    rintro _ ⟨⟩
    refine (answer Keep.least_units).stays.finish.ctl.trans ?_
    rcases noted with e | e
    · rw [e]
    · rw [e]; rfl
  case index d => exact (kept.indexArrives rfl (quiet d)).sameCtl_finish
  case indexLost d => exact (kept.loseIndex rfl (quiet d)).sameCtl_finish
  case answerTimeout d => exact (kept.noAnswer rfl (quiet d)).sameCtl_finish
  case markPulse => exact (kept.countPulse rfl).sameCtl
  case seekDone => exact (kept.seekDone rfl).sameCtl_finish
  case seekTimeout d => exact (kept.seekTimesOut rfl (quiet d)).sameCtl_finish
  case recalibrationTimeout d => exact (kept.recalibrationTimesOut rfl (quiet d)).sameCtl_finish
  case settleEnd => exact kept.settles.sameCtl_finish
  case headerField h => exact (kept.takeHeader h).sameCtl
  case dataField b bytes => exact (kept.takeData b bytes).sameCtl_finish
  case pitchWindowClose b => exact (kept.closePitchWindow b).sameCtl_finish
  case blindWindowClose => exact kept.closeBlindWindow.sameCtl
  case refreshTimer l => exact ((Stays.addFlips s l).setStore (s.addFlips l).store.timerExpires id).sameCtl
  case storeBurstEnd => exact (Stays.storeBurstEnds s _).sameCtl
  case scrubGroup => exact (Stays.scrub s).sameCtl
  case voteSector => exact kept.voteSectorStep.sameCtl_finish
  case powerOn | storeCheckEnd | formatEnd | discoveryPhaseEnd | rescanEnd | holdEntry | resumingEnd
    | unknownRequest => cases other
  all_goals exact absurd nofun request

/-! ## Every command but POWER_ON and the end of the store check -/

theorem request_moves (request : requestRow c ≠ none) (s : State) (answers : exec c s = .next t) :
    MovesBy (controllerMove c) s t := by
  by_cases other : movesCtl c = false
  · exact .of_ctl (request_sameCtl request other s t answers)
  cases c
  case holdEnter tag p =>
    obtain rfl := Host.Outcome.next.inj answers
    exact .request s _ _ _ _ _ _ fun _ performs => holdEnter_moves performs tag p
  case holdExit tag p =>
    obtain rfl := Host.Outcome.next.inj answers
    exact .request s _ _ _ _ _ _ fun w _ => holdExit_moves w tag p
  case resetController tag p =>
    obtain rfl := Host.Outcome.next.inj answers
    exact .request s _ _ _ _ _ _ fun _ performs => resetController_moves performs tag p
  case powerOn | storeCheckEnd | formatEnd | discoveryPhaseEnd | rescanEnd | holdEntry | resumingEnd
    | unknownRequest => exact absurd rfl request
  all_goals exact absurd rfl other

/-- The moves of a request are moves of the window that holds its bytes (log entry 31). -/
theorem controllerMove_unknown (request : requestRow c ≠ none) (w : List Byte) (x y : CtlState)
    (moved : controllerMove c x y) : controllerMove (.unknownRequest w) x y := by
  cases c
  case holdEnter | holdExit | resetController => cases x <;> cases y <;> trivial
  case powerOn | storeCheckEnd | discoveryPhaseEnd | holdEntry | resumingEnd | unknownRequest =>
    exact absurd rfl request
  all_goals exact moved.elim

theorem unknownRequest_moves (s : State) (w : List Byte) (answers : execUnknownRequest w s = .next t) :
    MovesBy (controllerMove (.unknownRequest w)) s t := by
  have refused (x : Result) : SameCtl s (.next (s.refuseFrame w x)) := (Stays.refuseFrame s w x).sameCtl
  unfold execUnknownRequest at answers
  split at answers
  · exact .of_ctl ((Stays.refl s).sameCtl t answers)
  · split at answers
    · exact .of_ctl ((Stays.readWindow s _).sameCtl t answers)
    · split at answers
      · obtain ⟨c, request, e⟩ | e := byKind_cases s w
        · exact (request_moves request s (e.symm.trans answers)).mono (controllerMove_unknown request w)
        · exact .of_ctl (refused _ t (e.symm.trans answers))
      · exact .of_ctl (refused _ t answers)

theorem exec_moves (power : ∀ x, c ≠ .powerOn x) (check : ∀ x y, c ≠ .storeCheckEnd x y)
    (answers : exec c s = .next t) : MovesBy (controllerMove c) s t := by
  by_cases other : movesCtl c = false
  · exact .of_ctl (exec_sameCtl other s t answers)
  by_cases request : requestRow c ≠ none
  · exact request_moves request s answers
  have same {c : Instr} : MovesBy (controllerMove c) s s := .of_ctl rfl
  cases c
  case powerOn x => exact absurd rfl (power x)
  case storeCheckEnd x y => exact absurd rfl (check x y)
  case unknownRequest w => exact unknownRequest_moves s w answers
  case formatEnd =>
    obtain rfl := Host.Outcome.next.inj answers
    have begun : MovesBy (controllerMove .formatEnd) s (s.format.beginDiscoveryPhase (·.fitted)) :=
      beginDiscoveryPhase_moves rfl
    exact .ite (fun _ => begun.finish) same
  case rescanEnd failed =>
    obtain rfl := Host.Outcome.next.inj answers
    have begun : MovesBy (controllerMove (.rescanEnd failed)) s
        ((s.rescan failed).beginDiscoveryPhase DriveRec.inService) := beginDiscoveryPhase_moves (rescan_ctl s failed)
    exact .ite (fun _ => begun.finish) same
  case discoveryPhaseEnd =>
    obtain rfl := (Host.Outcome.next.inj ((exec_discoveryPhaseEnd s).symm.trans answers))
    refine .ite (fun due => ?_) same
    have ready : MovesBy (controllerMove .discoveryPhaseEnd) s s.becomeReady :=
      becomeReady_moves (by rw [due.1.1]; trivial)
    exact (ready.kept (Kept.refl Keep.least _).attnStarted).finish
  case resumingEnd =>
    obtain rfl := (Host.Outcome.next.inj ((exec_resumingEnd s).symm.trans answers))
    exact .ite (fun due => (becomeReady_moves (by rw [due.1]; trivial)).finish) same
  case holdEntry =>
    obtain rfl := Host.Outcome.next.inj answers
    refine .ite (fun due => ?_) same
    have draining : s.ctl.state = .draining := of_decide_eq_true ((Bool.and_eq_true _ _).mp due).1
    exact MovesBy.finish (t := s.held) (.loud (by rw [draining]; trivial) rfl rfl)
  all_goals first | exact absurd rfl other | exact absurd nofun request

/-! ## The end of the store check -/

/-- The end of the store check leaves the straps, and moves the controller STATE to STORE_FAILED at most, with
STATE_CHANGE (R173). -/
theorem endStoreCheck_moves (s : State) (outcome : StoreCheck × Nat) :
    let t := s.endStoreCheck outcome
    t.ctl.straps = s.ctl.straps
      ∧ (t.ctl.state = .starting ∨ t.ctl.state = .storeFailed ∧ t.port.stateChange = true) := by
  dsimp only
  unfold State.endStoreCheck
  by_cases failed : outcome.1 = .lowerFailed
  · simp [failed, State.stateChange]
  · simp [failed]

/-- Settles O6: POWER_ON and the end of the store check by what they set, every other command by its moves. -/
theorem controllerMovesAsRuled : Obligations.ControllerMovesAsRuled := by
  intro c s t answers
  by_cases power : ∃ x, c = .powerOn x
  · obtain ⟨x, rfl⟩ := power
    obtain rfl := Host.Outcome.next.inj answers
    refine ⟨.inr trivial, fun other => absurd rfl (other x), fun other => absurd rfl (other x), fun _ loud => ?_⟩
    rcases loud with e | e | e <;> cases e
  by_cases check : ∃ x y, c = .storeCheckEnd x y
  · obtain ⟨x, y, rfl⟩ := check
    obtain rfl := Host.Outcome.next.inj answers
    by_cases due : s.inPhase .storeCheck = true
    · obtain ⟨w, hw⟩ : ∃ w, w = s.endStoreCheck (checkOutcome s.ctl.straps.storeSize x y) := ⟨_, rfl⟩
      have starting := ((inPhase_iff s _).1 due).1
      obtain ⟨straps, state⟩ := endStoreCheck_moves s (checkOutcome s.ctl.straps.storeSize x y)
      rw [← hw] at straps state
      have kept := w.finish_kept
      rw [if_pos due, ← hw, kept.ctl, starting]
      refine ⟨?_, fun _ => straps, fun _ other => absurd rfl (other x y), fun moved _ => ?_⟩
      · rcases state with e | ⟨e, _⟩ <;> rw [e]
        · exact .inl rfl
        · exact .inr trivial
      · exact kept.stateChange (state.resolve_left moved).2
    · rw [if_neg due]
      exact ⟨.inl rfl, fun _ => rfl, fun _ _ => ⟨rfl, rfl⟩, fun moved => absurd rfl moved⟩
  · have moves := exec_moves (fun x e => power ⟨x, e⟩) (fun x y e => check ⟨x, y, e⟩) answers
    exact ⟨moves.state, fun _ => moves.straps, fun _ _ => moves.check, moves.told⟩

end Sys2Proof.Machine
end

