-- ==== Sys2Proof/Proofs/WindowCommands.lean ====
section
/-! SUPPORT. Writes of the I/O window (R133 to R135): ADDRESS, a COMMAND while the system clear line is asserted, and
the tests of START and PROBE. -/

namespace Sys2Proof.Machine

open Sys2Proof.Stated

variable {s : State} {u : Fin 4}

/-! ## ADDRESS -/

/-- ADDRESS_HI replaces bits 23-16 by the low byte of the word (R133). -/
theorem addressHi_toNat (value : Word16) (a : BitVec 24) :
    (lowByte value ++ a.setWidth 16 : BitVec 24).toNat = value.toNat % 256 * 65536 + a.toNat % 65536 := by
  have low : (a.setWidth 16).toNat < 2 ^ 16 := (a.setWidth 16).isLt
  rw [BitVec.toNat_append, ← Nat.shiftLeft_add_eq_or_of_lt low, Nat.shiftLeft_eq, BitVec.toNat_setWidth]
  simp [lowByte]

/-- ADDRESS_LO replaces bits 15-0 by the word (R133). -/
theorem addressLo_toNat (value : Word16) (a : BitVec 24) :
    ((a >>> 16).setWidth 8 ++ value : BitVec 24).toNat = a.toNat / 65536 * 65536 + value.toNat := by
  rw [BitVec.toNat_append, ← Nat.shiftLeft_add_eq_or_of_lt value.isLt, Nat.shiftLeft_eq, BitVec.toNat_setWidth,
    BitVec.toNat_ushiftRight, Nat.shiftRight_eq_div_pow, Nat.mod_eq_of_lt (by omega)]

/-- ADDRESS is odd (R135, R139). -/
theorem addressOdd_iff (s : State) : s.addressOdd = true ↔ s.port.address.toNat % 2 = 1 := by
  simp [State.addressOdd, BitVec.getLsbD, Nat.testBit_zero]

/-! ## COMMAND -/

/-- A COMMAND write is ignored while the system clear line is asserted (R134, R146). -/
theorem command_ignored (line : s.port.clearLine = true) (f : State → State) : s.command f = s := if_pos line

theorem command_taken (line : s.port.clearLine = false) (f : State → State) : s.command f = f s :=
  if_neg (by simp [line])

/-! ## The tests of START and PROBE -/

/-- The answer of PROBE is that of the first test of R135 that applies. -/
theorem probeAnswer_eq (s : State) (u : Fin 4) : s.probeAnswer u = workAnswer s u := by
  unfold State.probeAnswer workAnswer
  congr 1
  · simp [State.driveUnavailable, State.driveThere, or_assoc]
  · congr 1
    congr 1
    simp [Option.isSome_iff_ne_none]

/-- START answers as PROBE does, and ILLEGAL where that is ACCEPTED and ADDRESS is odd (R135). -/
theorem startAnswer_turnedAway (turned : workAnswer s u ≠ .accepted) : s.startAnswer u = workAnswer s u := by
  unfold State.startAnswer
  rw [probeAnswer_eq, if_neg (by simp [turned])]

theorem startAnswer_odd (accepted : workAnswer s u = .accepted) (odd : s.port.address.toNat % 2 = 1) :
    s.startAnswer u = .illegal := by
  unfold State.startAnswer
  rw [probeAnswer_eq, if_pos (by simp [accepted, addressOdd_iff, odd])]

theorem startAnswer_even (accepted : workAnswer s u = .accepted) (even : s.port.address.toNat % 2 = 0) :
    s.startAnswer u = .accepted := by
  unfold State.startAnswer
  rw [probeAnswer_eq, if_neg (by simp [accepted, addressOdd_iff, even]), accepted]

/-- The first test reads the drive's geometry record, where the controller is READY (R135, log entry 24): in a store
without bit errors that is a claim on the store and no more. -/
theorem readForTest_asks (clean : s.store.flips = []) (u : Fin 4) : ∃ x, onlyAsks s.store x
    ∧ s.readForTest u = { s with store := x } ∧ (s.ctl.state ≠ .ready → x = s.store) := by
  refine ⟨(s.readForTest u).store, ?_, ?_, fun busy => ?_⟩ <;> rw [readForTest_clean clean]
  · exact askStore_onlyAsks s _ _
  · rfl
  · rw [if_neg fun read => busy read.1]
    simp [State.askStore]

/-- START turned away only sets ANSWER (R135). -/
theorem startCommand_answers {x : StoreRec} {a : Answer} (read : s.readForTest u = { s with store := x })
    (answer : ({ s with store := x } : State).startAnswer u = a) (turned : a ≠ .accepted) :
    s.startCommand u = ({ s with store := x, port := { s.port with answer := a } } : State).finish := by
  unfold State.startCommand
  rw [read]
  dsimp only
  rw [answer, if_neg turned]
  rfl

/-- An accepted START begins its list (R135, R148). -/
theorem startCommand_starts {x : StoreRec} (read : s.readForTest u = { s with store := x })
    (answer : ({ s with store := x } : State).startAnswer u = .accepted) :
    s.startCommand u
      = (({ s with store := x, port := { s.port with answer := .accepted } } : State).startList u).finish := by
  unfold State.startCommand
  rw [read]
  dsimp only
  rw [answer, if_pos rfl]
  rfl

/-- An undefined command code is answered ILLEGAL (R134). -/
theorem commandWord_undefined {value : Word16} (code : value.toNat % 16 = 0 ∨ 6 < value.toNat % 16) (s : State) :
    s.commandWord value = s.answer .illegal := by
  unfold State.commandWord
  dsimp only
  split
  case h_7 => rfl
  all_goals next e => omega

/-- Settles O16: each word by what its write sets, START and PROBE by the answer of their tests. -/
theorem windowWritesByWord : Obligations.WindowWritesByWord := by
  refine ⟨fun value s => ⟨⟨_, rfl, rfl, addressHi_toNat value _⟩, ⟨_, rfl, rfl, addressLo_toNat value _⟩,
    fun _ => rfl, fun line => ?_⟩, fun u s line => ⟨fun clean => ?_, fun value code => ?_⟩⟩
  · have ignored (f : State → State) : Host.Outcome.next (s.command f) = (.next s : Result3) :=
      congrArg _ (command_ignored line f)
    exact ⟨fun u => ⟨ignored _, ignored _, ignored _, ignored _⟩, ignored _, ignored _, ignored _⟩
  · have taken (f : State → State) : Host.Outcome.next (s.command f) = (.next (f s) : Result3) :=
      congrArg _ (command_taken line f)
    obtain ⟨x, asks, read, idle⟩ := readForTest_asks clean u
    refine ⟨x, asks, (taken _).trans ?_, fun turned => (taken _).trans ?_, fun accepted odd => (taken _).trans ?_, idle⟩
    · unfold State.probeCommand
      rw [read]
      dsimp only
      rw [probeAnswer_eq]
      rfl
    · exact congrArg _ (startCommand_answers read (startAnswer_turnedAway turned) turned)
    · exact congrArg _ (startCommand_answers read (startAnswer_odd accepted odd) nofun)
  · show Host.Outcome.next (s.command fun s => s.commandWord value) = _
    rw [command_taken line, commandWord_undefined code]
    rfl

end Sys2Proof.Machine
end

