-- ==== Sys2Proof/Proofs/UnitCommands.lean ====
section
/-! SUPPORT. The commands that a unit takes (R135, R136, R162, R163): the list that an accepted START begins, HALT by
the unit's STATE, and the acknowledgements. -/

namespace Sys2Proof.Machine

open Sys2Proof.Stated

variable {s t m : State} {u : Fin 4} {k : Completion} {cs : List Condition}

/-! ## The end of a list, said of another state -/

/-- What the end of a unit's list is told by has not changed: its drive's STATE, the settings, the requester and the
other units. -/
structure SameAround (u : Fin 4) (s t : State) : Prop where
  drive : (t.drives.get u).state = (s.drives.get u).state
  settings : t.port.settings = s.port.settings
  req : t.req = s.req
  others : ∀ v, v ≠ u → t.units.get v = s.units.get v

theorem statusStoring_around {a b c : Nat} (h : statusStoring t m u k cs a b c) (same : SameAround u s t) :
    statusStoring s m u k cs a b c := by
  obtain ⟨state, conditions, transfer, req, others⟩ := h
  rw [same.drive, same.settings] at transfer req
  rw [same.req] at req
  exact ⟨state, conditions, transfer, req, fun v other => (others v other).trans (same.others v other)⟩

/-- The end of a list, said of a state that shows the unit's list the same. -/
theorem listEnds_around (h : listEnds t m u k cs) (same : SameAround u s t)
    (residual : (t.units.get u).residual = (s.units.get u).residual)
    (address : (t.units.get u).orderAddress = (s.units.get u).orderAddress)
    (guessed : (t.units.get u).guessed = (s.units.get u).guessed) : listEnds s m u k cs := by
  obtain ⟨storing, rest⟩ := h
  rw [residual, address, guessed] at storing
  exact ⟨statusStoring_around storing same, rest⟩

/-- A unit's own record changed is no part of what is around it. -/
theorem SameAround.of_modUnit (s : State) (u : Fin 4) (f : UnitRec → UnitRec) : SameAround u s (s.modUnit u f) :=
  ⟨rfl, rfl, rfl, fun _ other => Four.get_modify_ne _ _ other⟩

/-! ## A port condition -/

/-- A sense record has the reason and the port condition that it is made for (R161). -/
theorem senseOf_port (s : State) (u : Fin 4) (x : SenseReason) (p : Option PortOutcome) :
    (s.senseOf u x p none).reason = x ∧ (s.senseOf u x p none).portOutcome = p := by
  unfold State.senseOf
  dsimp only
  split
  · exact ⟨rfl, rfl⟩
  · split <;> exact ⟨rfl, rfl⟩

/-- A list that ends CHECK with a burst's outcome, in the sense record too (R148, R161). -/
theorem endPort_listEnds (clean : s.store.flips = []) (base : s.port.settings.statusBase ≤ 0xFFFFC0) (p : PortOutcome) :
    listEnds s (s.endPort u p) u .check [.port p] ∧ ((s.endPort u p).units.get u).sense.reason = .port
      ∧ ((s.endPort u p).units.get u).sense.portOutcome = some p := by
  obtain ⟨ends, sense⟩ := endList_listEnds (u := u) (s := s.setSense u (s.senseOf u .port (some p) none)) clean base
    .check [.port p]
  have shown : ((s.endPort u p).units.get u).sense = s.senseOf u .port (some p) none := by
    unfold State.endPort
    rw [sense]
    simp [State.setSense]
  rw [shown]
  exact ⟨listEnds_of_setSense ends, senseOf_port s u .port (some p)⟩

/-! ## START -/

/-- The record of a unit whose list begins at an address (R135, R148). -/
def UnitRec.begun (r : UnitRec) (a : Nat) : UnitRec :=
  { r with
    state := .fetch, orderAddress := a, order := none, ordersDone := 0, residual := 0, guessed := 0, conditions := []
    haltTold := false, position := ⟨0, 0, 0⟩, prefetched := .absent }

/-- The fetch of the first order block (R148). -/
def State.firstFetch (s : State) (u : Fin 4) : Transfer :=
  { kind := .orderFetch, key := s.port.settings.key.get u, addr := s.port.address.toNat, left := 12
    out := [], got := [] }

/-- An order block is six words (R148). -/
theorem firstFetch_words (s : State) (u : Fin 4) : ((s.firstFetch u).left + 1) / 2 = 6 := by simp [State.firstFetch]

theorem startList_eq (s : State) (u : Fin 4) :
    s.startList u = match (s.modUnit u (·.begun s.port.address.toNat)).askTransfer u (s.firstFetch u) with
      | some t => t
      | none => (s.modUnit u (·.begun s.port.address.toNat)).endPort u .addressInvalid := by
  unfold State.startList State.fetchFromBus
  simp only [State.modUnit, Four.modify, Four.get_set_self, four_set_set]
  rfl

/-- The first burst of the first order block is asked for (R143, R148). -/
theorem startList_fetches
    (fits : s.port.address.toNat + 2 * min s.port.settings.burst 6 ≤ 0x1000000) :
    s.startList u = { s with
      units := s.units.set u { (s.units.get u).begun s.port.address.toNat with transfer := some (s.firstFetch u) }
      req := unitAsks s.req u
        { claimant := .unit u, direction := .load, addr := s.port.address.toNat, count := min s.port.settings.burst 6
          key := s.port.settings.key.get u, words := [] } } := by
  rw [startList_eq, askTransfer_some (by rw [firstFetch_words]; exact fits), firstFetch_words]
  simp only [State.modUnit, State.putBurst, Four.modify, Four.get_set_self, four_set_set]
  rfl

/-- A first order block that would pass 0xFFFFFF ends the list (R143, R148). -/
theorem startList_passes (past : 0x1000000 < s.port.address.toNat + 2 * min s.port.settings.burst 6) :
    s.startList u = (s.modUnit u (·.begun s.port.address.toNat)).endPort u .addressInvalid := by
  rw [startList_eq, askTransfer_none (by rw [firstFetch_words]; exact past)]

/-- Settles O17: the list that begins, by whether the first burst stays within the address space. -/
theorem startFetchesFirstOrder : Obligations.StartFetchesFirstOrder := by
  intro u s line accepted even clean
  obtain ⟨x, asks, read, _⟩ := readForTest_asks clean u
  obtain ⟨w, hw⟩ : ∃ w : State, w = { s with store := x, port := { s.port with answer := .accepted } } := ⟨_, rfl⟩
  have runs : exec (.start u) s = .next (w.startList u).finish := by
    rw [hw]
    exact congrArg Host.Outcome.next
      ((command_taken line _).trans (startCommand_starts read (startAnswer_even accepted even)))
  refine ⟨fun fits => ⟨x, asks, ?_⟩, fun past base => ?_⟩
  · rw [runs, startList_fetches (by rw [hw]; exact fits), hw]
    rfl
  · obtain ⟨v, hv⟩ : ∃ v, v = w.modUnit u (·.begun w.port.address.toNat) := ⟨_, rfl⟩
    have passes : w.startList u = v.endPort u .addressInvalid := by
      rw [hv]
      exact startList_passes (by rw [hw]; exact past)
    have own : v.units.get u = (s.units.get u).begun s.port.address.toNat := by
      rw [hv, hw]
      exact Four.get_modify_self _ _ _
    obtain ⟨ends, reason, port⟩ := endPort_listEnds (s := v) (u := u)
      (by rw [hv, hw]; exact (onlyAsks_flips asks).trans clean) (by rw [hv, hw]; exact base) .addressInvalid
    have kept : Kept Keep.least v (v.endPort u .addressInvalid) := (Kept.refl _ v).endPort Keep.least_units _
    refine ⟨_, by rw [runs, passes], kept.answer.trans (by rw [hv, hw]; rfl), listEnds_around ends ?_ ?_ ?_ ?_,
      reason, port⟩
    · have around := SameAround.of_modUnit w u (·.begun w.port.address.toNat)
      rw [← hv, hw] at around
      exact ⟨around.drive, around.settings, around.req, fun j other =>
        (around.others j other).trans (Four.get_set_ne _ _ other).symm⟩
    all_goals
      rw [own, Four.get_set_self]
      rfl

/-! ## HALT -/

/-- A unit waits on a track exactly when its wait names the slot (R47). -/
theorem waitsOn_iff (r : UnitRec) (n : Nat) : waitsOn r n ↔ r.waitSlot = some n := by
  unfold waitsOn UnitRec.waitSlot
  rcases r.waitOn with _ | ⟨j, k⟩ | j | _ <;> simp

/-- A unit's wait has been withdrawn: one on a track with WAITERS lowered, any other with its place among
WAITING_UNITS (R155, R156). -/
structure WaitWithdrawn (u : Fin 4) (s t : State) : Prop where
  around : SameAround u s t
  port : t.port = s.port
  flips : t.store.flips = s.store.flips
  own : ∃ on told, t.units.get u = { s.units.get u with waitOn := on, notified := told }
  track : ∀ n, (s.units.get u).waitSlot = some n → (s.track n).state ≠ .free →
    onlyTrack s t n { s.track n with waiters := (s.track n).waiters - 1 } ∧ t.drs = s.drs
  drs : (s.units.get u).waitSlot = none →
    t.drs = { s.drs with waitingUnits := s.drs.waitingUnits.filter (· ≠ u) }

/-- The wait on a track withdrawn, its record read and the unit's wait gone (R120, R155). -/
theorem waitWithdrawn_track {n : Nat} (slot : (s.units.get u).waitSlot = some n) :
    WaitWithdrawn u s (((s.askStore (.unit u) 1).withdrawWait u).modUnit u
      fun r => { r with waitOn := none, notified := false }) := by
  obtain ⟨ts, shape, _⟩ := withdrawWait_shape (s.askStore (.unit u) 1) u
  have tracks := withdrawWait_track (s := s.askStore (.unit u) 1) slot
  rw [shape] at tracks ⊢
  refine ⟨⟨rfl, rfl, rfl, fun v other => Four.get_modify_ne _ _ other⟩, rfl, rfl,
    ⟨none, false, Four.get_modify_self _ _ _⟩, fun j at_ live => ?_, fun none_ => ?_⟩
  · obtain rfl : n = j := Option.some.inj (slot.symm.trans at_)
    exact ⟨tracks live, rfl⟩
  · rw [slot] at none_
    cases none_

/-- The wait for a direct read withdrawn (R156). -/
theorem waitWithdrawn_drs (slot : (s.units.get u).waitSlot = none) : WaitWithdrawn u s (s.leaveWaiting u) :=
  ⟨⟨rfl, rfl, rfl, fun _ _ => rfl⟩, rfl, rfl, ⟨(s.units.get u).waitOn, (s.units.get u).notified, rfl⟩,
    fun n at_ => (by rw [slot] at at_; cases at_), fun _ => rfl⟩

/-- HALT withdraws the wait of a unit that the Direct Read Slot does not serve, and ends its list (R157, R162). -/
theorem haltUnit_waiting (waits : (s.units.get u).state = .wait) (unserved : s.drs.serving ≠ some u)
    (clean : s.store.flips = []) : ∃ t, WaitWithdrawn u s t ∧ s.haltUnit u = t.endHalted u := by
  unfold State.haltUnit
  dsimp only
  rw [if_pos waits]
  cases slot : (s.units.get u).waitSlot with
  | some n =>
    rw [if_pos (by simp [UnitRec.waitsOnTrack, slot]), withdrawingWait_some clean slot]
    exact ⟨_, waitWithdrawn_track slot, rfl⟩
  | none =>
    rw [if_neg (by simp [UnitRec.waitsOnTrack, slot]), if_neg unserved]
    exact ⟨_, waitWithdrawn_drs slot, rfl⟩

/-- The list of a unit whose wait was withdrawn ends with what it had of its order. -/
theorem WaitWithdrawn.ends (h : WaitWithdrawn u s t) (clean : s.store.flips = [])
    (base : s.port.settings.statusBase ≤ 0xFFFFC0) (k : Completion) (cs : List Condition) :
    listEnds s (t.endList u k cs) u k cs ∧ ((t.endList u k cs).units.get u).sense = (s.units.get u).sense := by
  obtain ⟨on, told, own⟩ := h.own
  obtain ⟨ends, sense⟩ := endList_listEnds (u := u) (h.flips.trans clean) (by rw [h.port]; exact base) k cs
  exact ⟨listEnds_around ends h.around (by rw [own]) (by rw [own]) (by rw [own]), sense.trans (by rw [own])⟩

/-- The end of a list leaves the window and the Direct Read Slot, and the Track Table too where no WRITE's track is left
behind (R158, R160). -/
theorem endList_leaves (clean : s.store.flips = []) (base : s.port.settings.statusBase ≤ 0xFFFFC0) (u : Fin 4)
    (k : Completion) (cs : List Condition) : (s.endList u k cs).port = s.port ∧ (s.endList u k cs).drs = s.drs
      ∧ ((s.units.get u).writeTrack = none → (s.endList u k cs).tracks = s.tracks) := by
  obtain ⟨_, _, _, _, _, _, _, shape, _, _, _, unwritten⟩ := endList_kept clean (u := u) (k := k) (cs := cs) base
  rw [shape]
  exact ⟨rfl, rfl, fun none_ => (unwritten none_).1⟩

/-- Settles O18: by the unit's STATE, and in WAIT by what it waits for. -/
theorem haltByUnitState : Obligations.HaltByUnitState := by
  intro u s line
  have halts : exec (.halt u) s = .next (s.haltCommand u) := congrArg Host.Outcome.next (command_taken line _)
  rw [halts]
  have taken (haltable : (s.units.get u).haltable = true) :
      s.haltCommand u = ((s.answer .accepted).haltUnit u).finish := if_pos haltable
  refine ⟨fun ended => congrArg _ (if_neg ?_), fun working => ?_, fun waits base unserved clean => ?_⟩
  · rcases ended with e | e | e <;> simp [UnitRec.haltable, e]
  · rw [taken (by rcases working with e | e <;> simp [UnitRec.haltable, e])]
    exact congrArg (fun t : State => Host.Outcome.next t.finish)
      (if_neg (show (s.units.get u).state ≠ .wait by rcases working with e | e <;> simp [e]))
  · obtain ⟨w, hw⟩ : ∃ w, w = s.answer .accepted := ⟨_, rfl⟩
    have units : w.units = s.units := by rw [hw]; rfl
    obtain ⟨t, withdrawn, halted⟩ := haltUnit_waiting (s := w) (u := u) (by rw [units]; exact waits)
      (by rw [hw]; exact unserved) (by rw [hw]; exact clean)
    obtain ⟨ends, sense⟩ := withdrawn.ends (by rw [hw]; exact clean) (by rw [hw]; exact base) .halted []
    obtain ⟨port, drs, tracks⟩ := endList_leaves (withdrawn.flips.trans (by rw [hw]; exact clean))
      (by rw [withdrawn.port, hw]; exact base) u .halted []
    obtain ⟨on, told, own⟩ := withdrawn.own
    refine ⟨t.endHalted u, by rw [taken (by simp [UnitRec.haltable, waits]), ← hw, halted], ?_, ?_, ?_,
      fun n at_ unwritten live => ?_, fun at_ => ?_⟩
    · exact congrArg SysPort.answer (port.trans (withdrawn.port.trans (congrArg State.port hw)))
    · exact listEnds_congr ends units.symm (by rw [hw]; rfl) (by rw [hw]; rfl) (by rw [hw]; rfl) rfl rfl
    · exact sense.trans (by rw [units])
    · rw [waitsOn_iff, ← units] at at_
      have same : ∀ j, w.track j = s.track j := track_congr (by rw [hw]; rfl)
      obtain ⟨one, kept⟩ := withdrawn.track n at_ (by rw [same]; exact live)
      have ended := onlyTrack_congr one (tracks (by rw [own, units]; exact unwritten))
      rw [same] at ended
      exact ⟨ended.1, fun j other => (ended.2 j other).trans (same j), drs.trans (kept.trans (by rw [hw]; rfl))⟩
    · refine drs.trans ((withdrawn.drs ?_).trans (by rw [hw]; rfl))
      rw [units]
      simp [UnitRec.waitSlot, at_]

/-! ## ACKNOWLEDGE and ACK_CONTROLLER -/

/-- A status store begins, with the rest of the unit's record and the port as they were (R160). -/
theorem storeStatus_storing (base : s.port.settings.statusBase ≤ 0xFFFFC0) (u : Fin 4) (k : Completion)
    (cs : List Condition) (a b c : Nat) : let m := s.storeStatus u k cs a b c
    statusStoring s m u k cs a b c ∧ (m.units.get u).stacked = (s.units.get u).stacked ∧ m.port = s.port := by
  dsimp only
  rw [storeStatus_eq base]
  refine ⟨⟨?_, ?_, ?_, rfl, fun v other => Four.get_set_ne _ _ other⟩, ?_, rfl⟩ <;> simp only [Four.get_set_self]

/-- The record of a unit whose status is acknowledged while another is stacked (R136, R163). -/
def UnitRec.unstacked (r : UnitRec) : UnitRec := { r with state := .idle, stacked := false }

/-- Settles O19: the unit by its STATE and its stacked record, the controller by its reasons. -/
theorem acknowledgedStatusIsCleared : Obligations.AcknowledgedStatusIsCleared := by
  intro u s line
  have acknowledges : exec (.acknowledge u) s = .next (s.acknowledgeCommand u) :=
    congrArg Host.Outcome.next (command_taken line _)
  have acks : exec .ackController s = .next s.ackController := congrArg Host.Outcome.next (command_taken line _)
  rw [acknowledges, acks]
  have taken (pending : (s.units.get u).state = .pending) :
      s.acknowledgeCommand u = ((s.answer .accepted).acknowledgeUnit u).finish := if_pos pending
  refine ⟨fun pending plain => ?_, fun pending stacked base => ?_, fun other => congrArg _ (if_neg other),
    fun reason => congrArg _ (if_pos (by simpa [SysPort.anyReason, or_assoc] using reason)),
    fun store setup change lost => congrArg _ (if_neg (by simp [SysPort.anyReason, store, setup, change, lost]))⟩
  · rw [taken pending]
    exact congrArg (fun t : State => Host.Outcome.next t.finish) (if_neg (by simp [plain]))
  · have stores : (s.answer .accepted).acknowledgeUnit u
        = ((s.answer .accepted).modUnit u UnitRec.unstacked).storeStatus u .unsolicited [] 0 0 0 := if_pos stacked
    obtain ⟨storing, same, port⟩ :=
      storeStatus_storing (s := (s.answer .accepted).modUnit u UnitRec.unstacked) base u .unsolicited [] 0 0 0
    refine ⟨_, by rw [taken pending, stores], congrArg SysPort.answer port, same.trans ?_, statusStoring_around storing
      ⟨rfl, rfl, rfl, fun v other => Four.get_modify_ne _ _ other⟩⟩
    rw [modUnit_units, Four.get_modify_self]
    rfl

end Sys2Proof.Machine
end

