-- ==== Sys2Proof/Proofs/BusRequester.lean ====
section
/-! SUPPORT. The memory-bus requester (R140 to R142): the claimant that it serves next, its signals, and what the end of
a status record's store does (R160). -/

namespace Sys2Proof.Machine

open Sys2Proof.Stated

variable {s : State} {q : Requester} {cl : BusClaimant} {b : Burst}

/-! ## The choice of a burst -/

/-- The cycle goes through the claimants in the order of their places, each once (R140). -/
theorem cycle_inOrder (last : BusClaimant) :
    last.cycle.Pairwise (fun i j => cyclePlace last i < cyclePlace last j) ∧ ∀ i, i ∈ last.cycle := by
  have claimants (i : BusClaimant) : i ∈ [.unit 0, .unit 1, .unit 2, .unit 3, BusClaimant.setup] := by
    rcases i with u | _
    · fin_cases u <;> simp
    · simp
  have every : ∀ i ∈ [.unit 0, .unit 1, .unit 2, .unit 3, BusClaimant.setup],
      i.cycle.Pairwise (fun j k => cyclePlace i j < cyclePlace i k)
        ∧ ∀ j ∈ [.unit 0, .unit 1, .unit 2, .unit 3, BusClaimant.setup], j ∈ i.cycle := by decide
  exact ⟨(every last (claimants last)).1, fun i => (every last (claimants last)).2 i (claimants i)⟩

/-- The search along the cycle finds the waiting claimant that comes first (R140). -/
theorem cycle_find (waits : q.waiting cl ≠ none)
    (first : ∀ i, q.waiting i ≠ none → cyclePlace q.lastServed cl ≤ cyclePlace q.lastServed i) :
    q.lastServed.cycle.find? (fun i => (q.waiting i).isSome) = some cl := by
  obtain ⟨order, all_⟩ := cycle_inOrder q.lastServed
  obtain ⟨before, after, split_⟩ := List.append_of_mem (all_ cl)
  refine List.find?_eq_some_iff_append.2 ⟨Option.isSome_iff_ne_none.2 waits, before, after, split_, fun i mem => ?_⟩
  have earlier : cyclePlace q.lastServed i < cyclePlace q.lastServed cl := by
    rw [split_] at order
    exact (List.pairwise_append.1 order).2.2 i mem cl List.mem_cons_self
  by_contra waiting
  exact Nat.not_le.2 earlier (first i (by simpa using waiting))

/-- A claimant's burst taken leaves it without one, and the others as they were (R140). -/
theorem take_waiting (q : Requester) (cl i : BusClaimant) :
    (q.take cl).waiting i = if i = cl then none else q.waiting i := by
  rcases cl with u | _ <;> rcases i with v | _ <;> simp [Requester.take, Requester.waiting, Four.get_set]

theorem chooseBurst_rests (rests : s.req.state ≠ .free ∨ ∀ i, s.req.waiting i = none) : s.chooseBurst = s := by
  have same : s.req.choose = s.req := by
    unfold Requester.choose
    by_cases free : s.req.state = .free
    · have none_ := rests.resolve_left (fun busy => busy free)
      rw [if_pos free, List.find?_eq_none.2 fun i _ => by simp [none_ i]]
    · rw [if_neg free]
  exact congrArg (fun r => { s with req := r }) same

/-- A free requester takes the burst of the claimant that comes first, and raises its request (R140, R141). -/
theorem choose_first (free : q.state = .free) (waits : q.waiting cl = some b)
    (first : ∀ i, q.waiting i ≠ none → cyclePlace q.lastServed cl ≤ cyclePlace q.lastServed i) :
    q.choose = { q.take cl with state := .requesting, current := some b, lastServed := cl } := by
  unfold Requester.choose
  rw [if_pos free, cycle_find (by simp [waits]) first]
  dsimp only
  rw [waits]

/-- Settles O21: the choice by the cycle, each signal by the requester's STATE. -/
theorem busHandshake : Obligations.BusHandshake := by
  refine ⟨fun s => ⟨chooseBurst_rests, fun free cl b waits first => ?_⟩,
    fun o words s => ⟨fun at_ => ?_, fun other => ⟨?_, ?_⟩,
    fun at_ => ?_, fun other => ?_, fun at_ => ⟨?_, ?_⟩, fun cycle finishing => ⟨?_, ?_⟩⟩⟩
  · have chosen := choose_first free waits first
    rw [chooseBurst_req, chosen]
    refine ⟨rfl, rfl, rfl, (take_waiting s.req cl cl).trans (if_pos rfl),
      fun i other => (take_waiting s.req cl i).trans (if_neg other), ?_⟩
    rw [← chosen]
    rfl
  all_goals refine congrArg Host.Outcome.next ?_
  · exact if_pos at_
  · exact if_neg other
  · exact if_neg other
  · exact if_pos at_
  · exact if_neg other
  · rw [at_]
    rfl
  · rw [at_]
    rfl
  · cases state : s.req.state <;> first | rfl | exact absurd state cycle | exact absurd state finishing
  · cases state : s.req.state <;> first | rfl | exact absurd state cycle | exact absurd state finishing

/-! ## The end of a unit's burst -/

/-- A halt that was told is not taken at a burst of a status store (R162). -/
theorem statusStore_goesOn {x : Transfer} (told : Bool) (status : x.kind = .statusStore) :
    (told && x.kind.haltsAtBurst) = false := by
  simp [status, TransferKind.haltsAtBurst]

section
variable {u : Fin 4} {x : Transfer} (claims : b.claimant = .unit u) (transfer : (s.units.get u).transfer = some x)
include claims transfer

section
variable (goesOn : ((s.units.get u).haltTold && x.kind.haltsAtBurst) = false)
include goesOn

/-- A failed burst of a unit's transfer, with no halt to be taken at its end (R141, R149). -/
theorem handBurst_failed (o : PortOutcome) (words : List Word16) :
    s.freeReq.handBurst b (.failed o) words = s.freeReq.transferFailed u x.kind o := by
  unfold State.handBurst State.unitBurstEnd
  rw [claims]
  dsimp only
  rw [show (s.freeReq.units.get u).transfer = some x from transfer]
  exact if_neg (Bool.eq_false_iff.1 goesOn)

/-- The last burst of a unit's transfer, with no halt to be taken at its end (R141, R149). -/
theorem handBurst_last (words : List Word16) (last : x.left ≤ 2 * b.count) :
    s.freeReq.handBurst b .done words = s.freeReq.transferDone u (x.advance b.count words) := by
  have left : (x.advance b.count words).left = 0 := Nat.sub_eq_zero_of_le last
  unfold State.handBurst State.unitBurstEnd
  rw [claims]
  dsimp only
  rw [show (s.freeReq.units.get u).transfer = some x from transfer]
  exact (if_neg (Bool.eq_false_iff.1 goesOn)).trans (if_pos left)

end

/-! ## The end of a status store -/

variable (status : x.kind = .statusStore)
include status

/-- The last burst of a status record makes its unit PENDING (R160). -/
theorem handBurst_stored (words : List Word16) (last : x.left ≤ 2 * b.count) :
    s.freeReq.handBurst b .done words = { s with
      req := { s.req with state := .free, current := none }
      units := s.units.set u { s.units.get u with state := .pending, transfer := none } } := by
  rw [handBurst_last claims transfer (statusStore_goesOn _ status) words last]
  unfold State.transferDone
  rw [show (x.advance b.count words).kind = .statusStore from status]
  rfl

/-- A failed burst of a status record makes its unit PENDING too, with STATUS_LOST and STATE_CHANGE (R160). -/
theorem handBurst_lost (o : PortOutcome) (words : List Word16) :
    s.freeReq.handBurst b (.failed o) words = { s with
      req := { s.req with state := .free, current := none }
      port := { s.port with statusLost := true, stateChange := true }
      units := s.units.set u { s.units.get u with state := .pending, transfer := none } } := by
  rw [handBurst_failed claims transfer (statusStore_goesOn _ status) o words, status]
  rfl

end

/-- A burst that the memory does not end DONE has failed (R141). -/
theorem burstOutcome_failed {o : MemoryOutcome} (failed : o ≠ .done) : ∃ p, burstOutcome o = .failed p := by
  cases o
  case done => exact absurd rfl failed
  all_goals exact ⟨_, rfl⟩

/-- Settles O22: the burst that ends the record, DONE or failed by the memory or by a time limit. -/
theorem statusStoredMakesPending : Obligations.StatusStoredMakesPending := by
  intro u s b x current claims transfer status
  refine ⟨fun words cycle last => ?_, fun cycle => ⟨fun o words failed => ?_, ?_⟩, fun requesting => ?_⟩
  · rw [busAdvance_inCycle current cycle]
    exact congrArg (fun t : State => Host.Outcome.next t.finish) (handBurst_stored claims transfer status words last)
  · obtain ⟨p, e⟩ := burstOutcome_failed failed
    rw [busAdvance_inCycle current cycle, e, handBurst_lost claims transfer status]
  · rw [advanceTimeout_inCycle current cycle, handBurst_lost claims transfer status]
  · rw [grantTimeout_requesting current requesting, handBurst_lost claims transfer status]

end Sys2Proof.Machine
end

