-- ==== Sys2Proof/Proofs/OrderFetch.lean ====
section
/-! SUPPORT. The end of an order block's fetch (R148, R159, R161): a burst that fails, and a block that is no order or
has an odd data address. -/

namespace Sys2Proof.Machine

open Sys2Proof.Stated

variable {s : State} {u : Fin 4} {b : Burst} {x : Transfer}

/-! ## Words moved -/

/-- The words that a burst of a load has moved are the first of those it delivers. -/
theorem movedWords_eq {n : Nat} {words : List Word16} (enough : n ≤ words.length) :
    (List.range n).map (fun i => words.getD i 0) = words.take n := by
  refine List.ext_getElem (by simp [enough]) fun i lt _ => ?_
  have inside : i < words.length := by
    rw [List.length_map, List.length_range] at lt
    omega
  simp [List.getD_eq_getElem?_getD, List.getElem?_eq_getElem inside]

/-! ## The block -/

/-- A code names one of the five orders exactly when it is 1 to 5 (R148, spec/12). -/
theorem opOfCode_none (n : Nat) : opOfCode n = none ↔ n = 0 ∨ 5 < n := by
  rcases n with _ | _ | _ | _ | _ | _ | n <;> simp [opOfCode]

theorem parseOrder_none {block : List Word16} (op : (block.getD 0 0).toNat % 16 = 0 ∨ 5 < (block.getD 0 0).toNat % 16) :
    parseOrder block = none := by
  unfold parseOrder
  rw [(opOfCode_none (wordAt block 0 % 16)).2 op]

/-- A block of one of the four orders but POSITION whose last address word is odd has an odd data address. -/
theorem parseOrder_odd {block : List Word16} (least : 2 ≤ (block.getD 0 0).toNat % 16)
    (most : (block.getD 0 0).toNat % 16 ≤ 5) (odd : (block.getD 3 0).toNat % 2 = 1) :
    ∃ o, parseOrder block = some o ∧ o.op ≠ .position ∧ o.dataAddress % 2 = 1 := by
  obtain ⟨op, named, other⟩ : ∃ op, opOfCode (wordAt block 0 % 16) = some op ∧ op ≠ .position := by
    have code :
        wordAt block 0 % 16 = 2 ∨ wordAt block 0 % 16 = 3 ∨ wordAt block 0 % 16 = 4 ∨ wordAt block 0 % 16 = 5 := by
      unfold wordAt
      omega
    rcases code with e | e | e | e <;> rw [e] <;> exact ⟨_, rfl, nofun⟩
  refine ⟨_, by unfold parseOrder; rw [named], other, ?_⟩
  show (wordAt block 2 % 256 * 65536 + wordAt block 3) % 2 = 1
  unfold wordAt
  omega

/-- The record of a unit whose block has been fetched, before it is judged (R148). -/
def UnitRec.blockFetched (r : UnitRec) : UnitRec := { r with prefetched := .absent, transfer := none }

theorem judgeBlock_undefined {block : List Word16} (undefined_ : parseOrder block = none) :
    s.judgeBlock u block = (s.modUnit u UnitRec.blockFetched).endCheck u .orderFault .unknownOp := by
  unfold State.judgeBlock
  rw [undefined_]
  rfl

theorem judgeBlock_odd {block : List Word16} {o : Order} (order : parseOrder block = some o) (op : o.op ≠ .position)
    (odd : o.dataAddress % 2 = 1) :
    s.judgeBlock u block = (s.modUnit u UnitRec.blockFetched).endCheck u .orderFault .oddAddress := by
  unfold State.judgeBlock
  rw [order]
  exact if_pos (by simp [op, odd])

/-- A block that is no order ends the list with ORDER_FAULT (R148, R159). -/
theorem blockFault_listEnds (clean : s.store.flips = []) (base : s.port.settings.statusBase ≤ 0xFFFFC0)
    (reason : SenseReason) : let m := (s.modUnit u UnitRec.blockFetched).endCheck u .orderFault reason
    listEnds s m u .check [.orderFault] ∧ (m.units.get u).sense.reason = reason := by
  obtain ⟨ends, shown⟩ := endCheck_listEnds (s := s.modUnit u UnitRec.blockFetched) (u := u) clean base
    .orderFault reason
  refine ⟨listEnds_around ends (.of_modUnit s u _) ?_ ?_ ?_, shown⟩
  all_goals
    rw [modUnit_units, Four.get_modify_self]
    rfl

/-! ## The end of the fetch -/

section
variable (claims : b.claimant = .unit u) (transfer : (s.units.get u).transfer = some x) (fetch : x.kind = .orderFetch)
  (told : (s.units.get u).haltTold = false)
include claims transfer fetch told

theorem handBurst_fetchFailed (p : PortOutcome) (words : List Word16) :
    s.freeReq.handBurst b (.failed p) words = s.freeReq.endPort u p := by
  rw [handBurst_failed claims transfer (by simp [told]) p words, fetch]
  rfl

/-- The last burst of an order block hands the whole block over (R148). -/
theorem handBurst_fetchDone {words : List Word16} (last : x.left = 2 * b.count) (enough : b.count ≤ words.length) :
    s.freeReq.handBurst b .done words = s.freeReq.judgeBlock u (x.got ++ words.take b.count) := by
  have got : (x.advance b.count words).got = x.got ++ words.take b.count := by
    unfold Transfer.advance
    rw [fetch]
    exact congrArg _ (movedWords_eq enough)
  rw [handBurst_last claims transfer (by simp [told]) words last.le]
  unfold State.transferDone
  rw [show (x.advance b.count words).kind = .orderFetch from fetch]
  exact congrArg (s.freeReq.judgeBlock u) got

end

/-- A failure that the memory signals is the one that the unit is handed (R141). -/
theorem burstOutcome_memory {o : MemoryOutcome} {p : PortOutcome} (failure : memoryFailure o = some p) :
    burstOutcome o = .failed p := by
  cases o
  case done => cases failure
  all_goals
    cases failure
    rfl

/-- Settles O23: a burst that fails by the memory or by a time limit, and a block by its OP and data address. -/
theorem orderBlockJudged : Obligations.OrderBlockJudged := by
  intro u s b x current claims transfer fetch told base clean
  have fails (p : PortOutcome) (words : List Word16) : ∃ m,
      (s.freeReq.handBurst b (.failed p) words).finish = m.finish
        ∧ listEnds s.freeReq m u .check [.port p] ∧ (m.units.get u).sense.reason = .port
        ∧ (m.units.get u).sense.portOutcome = some p :=
    ⟨_, congrArg _ (handBurst_fetchFailed claims transfer fetch told p words),
      endPort_listEnds (s := s.freeReq) clean base p⟩
  refine ⟨fun o words p cycle failure => ?_, fun cycle => ?_, fun requesting => ?_,
    fun words cycle last enough _ => ⟨fun op => ?_, fun least most odd => ?_⟩⟩
  · obtain ⟨m, run, ended⟩ := fails p words
    exact ⟨m, by rw [busAdvance_inCycle current cycle, burstOutcome_memory failure, run], ended⟩
  · obtain ⟨m, run, ended⟩ := fails .noResponse []
    exact ⟨m, by rw [advanceTimeout_inCycle current cycle, run], ended⟩
  · obtain ⟨m, run, ended⟩ := fails .noResponse []
    exact ⟨m, by rw [grantTimeout_requesting current requesting, run], ended⟩
  · refine ⟨_, ?_, blockFault_listEnds (s := s.freeReq) clean base .unknownOp⟩
    rw [busAdvance_inCycle current cycle, burstOutcome, handBurst_fetchDone claims transfer fetch told last enough,
      judgeBlock_undefined (parseOrder_none op)]
  · obtain ⟨o, order, named, address⟩ := parseOrder_odd least most odd
    refine ⟨_, ?_, blockFault_listEnds (s := s.freeReq) clean base .oddAddress⟩
    rw [busAdvance_inCycle current cycle, burstOutcome, handBurst_fetchDone claims transfer fetch told last enough,
      judgeBlock_odd order named address]

end Sys2Proof.Machine
end

