-- ==== Sys2Proof/Proofs/SetupFetch.lean ====
section
/-! SUPPORT. SETUP (R138, R139): its answer, the setup fetch that it begins, and the settings that the fetched block
spells. -/

namespace Sys2Proof.Machine

open Sys2Proof.Stated

variable {s : State} {b : Burst} {f : SetupFetch}

/-! ## SETUP -/

/-- SETUP is BUSY while a unit works or a setup fetch runs (R139). -/
theorem setupAnswer_busy (busy : (∃ u, (s.units.get u).state ≠ .idle) ∨ s.port.setupFetch ≠ none) :
    s.setupAnswer = .busy := by
  refine if_pos ?_
  simpa [Four.mem_toList, Option.isSome_iff_ne_none] using busy

/-- With every unit IDLE and no setup fetch, SETUP is answered by ADDRESS (R139). -/
theorem setupAnswer_idle (idle : ∀ u, (s.units.get u).state = .idle) (free : s.port.setupFetch = none) :
    s.setupAnswer = if s.port.address.toNat % 2 = 1 then .illegal else .accepted := by
  refine (if_neg ?_).trans (if_congr (addressOdd_iff s) rfl rfl)
  simp [Four.mem_toList, idle, free]

theorem setupCommand_turnedAway {a : Answer} (answer : s.setupAnswer = a) (turned : a ≠ .accepted) :
    s.setupCommand = s.answer a := by
  unfold State.setupCommand
  rw [answer]
  exact if_neg turned

theorem setupCommand_accepted (answer : s.setupAnswer = .accepted) :
    s.setupCommand = ((s.answer .accepted).fetchSetup { addr := s.port.address.toNat, got := [] }).chooseBurst := by
  unfold State.setupCommand
  rw [answer]
  rfl

/-- The first burst of a setup fetch, of the eight words that it asks for (R139, R143). -/
theorem setupNextBurst_first (a n : Nat) : SetupFetch.nextBurst { addr := a, got := [] } n
    = if 0x1000000 < a + 2 * min n 8 then none
      else some { claimant := .setup, direction := .load, addr := a, count := min n 8, key := 0, words := [] } := rfl

theorem fetchSetup_asks {a : Nat} (fits : a + 2 * min s.port.settings.burst 8 ≤ 0x1000000) :
    s.fetchSetup { addr := a, got := [] } = { s with
      port := { s.port with setupFetch := some { addr := a, got := [] } }
      req := { s.req with
        setupWaiting := some { claimant := .setup, direction := .load, addr := a
                               count := min s.port.settings.burst 8, key := 0, words := [] } } } := by
  unfold State.fetchSetup
  rw [setupNextBurst_first, if_neg (Nat.not_lt.2 fits)]

/-- A setup block that would pass 0xFFFFFF is not fetched (R139, R143). -/
theorem fetchSetup_passes {a : Nat} (past : 0x1000000 < a + 2 * min s.port.settings.burst 8) :
    s.fetchSetup { addr := a, got := [] } = s.endSetup true := by
  unfold State.fetchSetup
  rw [setupNextBurst_first, if_pos past]

/-! ## The settings of a block -/

/-- A ROUTE code names a level, or NONE, exactly when it is at most 4 (R138, spec/12). -/
theorem routeOfCode_eq (n : Nat) :
    routeOfCode n = if n ≤ 4 then some (if n = 4 then none else some (Fin.ofNat 4 n)) else none := by
  rcases n with _ | _ | _ | _ | _ | n <;> rfl

theorem routeOfCode_named {n : Nat} (named : n ≤ 4) :
    routeOfCode n = some (if n = 4 then none else some (Fin.ofNat 4 n)) := by rw [routeOfCode_eq, if_pos named]

theorem routeOfCode_le {n : Nat} {r : Option (Fin 4)} (names : routeOfCode n = some r) : n ≤ 4 := by
  rw [routeOfCode_eq] at names
  by_contra above
  rw [if_neg above] at names
  cases names

/-- The five ROUTE fields of a setup block's fourth word, each in its range. -/
theorem routes_iff (w : Nat) : (∀ i : Fin 5, w / 8 ^ i.val % 8 ≤ 4) ↔
    w % 8 ≤ 4 ∧ w / 8 % 8 ≤ 4 ∧ w / 64 % 8 ≤ 4 ∧ w / 512 % 8 ≤ 4 ∧ w / 4096 % 8 ≤ 4 := by
  simp [Fin.forall_fin_succ]

/-- A setup block is read as R138 lays it out. -/
theorem parseSetup_eq (ws : List Word16) : parseSetup ws = settingsOf ws := by
  unfold parseSetup settingsOf
  dsimp only
  by_cases named : ∀ i : Fin 5, wordAt ws 3 / 8 ^ i.val % 8 ≤ 4
  · obtain ⟨unit0, unit1, unit2, unit3, controller⟩ := (routes_iff _).1 named
    rw [routeOfCode_named unit0, routeOfCode_named unit1, routeOfCode_named unit2, routeOfCode_named unit3,
      routeOfCode_named controller]
    refine if_congr ?_ ?_ rfl
    · simp only [Bool.and_eq_true, decide_eq_true_eq, and_assoc]
      exact ⟨fun ⟨even, top, least, most, one, eight⟩ => ⟨even, top, least, most, one, eight, named⟩,
        fun ⟨even, top, least, most, one, eight, _⟩ => ⟨even, top, least, most, one, eight⟩⟩
    · simp only [wordAt, Nat.pow_zero, Nat.div_one]
      rfl
  · refine Eq.trans ?_ (if_neg fun ⟨_, _, _, _, _, _, routes⟩ => named routes).symm
    split
    · split
      · next e0 e1 e2 e3 e4 =>
        exact absurd ((routes_iff _).2 ⟨routeOfCode_le e0, routeOfCode_le e1, routeOfCode_le e2, routeOfCode_le e3,
          routeOfCode_le e4⟩) named
      · rfl
    · rfl

/-! ## The end of the setup fetch -/

section
variable (claims : b.claimant = .setup) (fetching : s.port.setupFetch = some f)
include claims fetching

/-- A failed burst ends the setup fetch with SETUP_FAILED (R139). -/
theorem handBurst_setupFailed (p : PortOutcome) (words : List Word16) :
    s.freeReq.handBurst b (.failed p) words = { s with
      req := { s.req with state := .free, current := none }
      port := { s.port with setupFetch := none, setupFailed := true } } := by
  unfold State.handBurst State.setupBurstEnd
  rw [claims]
  dsimp only
  rw [show s.freeReq.port.setupFetch = some f from fetching]
  dsimp only
  unfold State.endSetup
  rw [Bool.or_true]
  rfl

/-- The last burst hands over the eight words, which are judged (R139). -/
theorem handBurst_setupDone {words : List Word16} (last : f.got.length + b.count = 8)
    (enough : b.count ≤ words.length) :
    s.freeReq.handBurst b .done words = s.freeReq.judgeSetup (f.got ++ words.take b.count) := by
  unfold State.handBurst State.setupBurstEnd
  rw [claims]
  dsimp only
  rw [show s.freeReq.port.setupFetch = some f from fetching]
  dsimp only
  rw [movedWords_eq enough, if_pos (by simp [enough, last])]

end

/-- A whole setup block is judged by the settings that it spells (R139). -/
theorem judgeSetup_eq {ws : List Word16} {read : Option Settings} (spells : settingsOf ws = read) :
    s.judgeSetup ws = read.elim (s.endSetup true) fun x =>
      ({ s with port := { s.port with settings := x } } : State).endSetup false := by
  have parsed := (parseSetup_eq ws).trans spells
  unfold State.judgeSetup
  rw [parsed]
  cases read <;> rfl

theorem judgeSetup_installs {ws : List Word16} {x : Settings} (good : settingsOf ws = some x) :
    s.judgeSetup ws = { s with port := { s.port with setupFetch := none, settings := x } } := by
  rw [judgeSetup_eq good, Option.elim_some, State.endSetup, Bool.or_false]

theorem judgeSetup_fails {ws : List Word16} (bad : settingsOf ws = none) :
    s.judgeSetup ws = { s with port := { s.port with setupFetch := none, setupFailed := true } } := by
  rw [judgeSetup_eq bad, Option.elim_none, State.endSetup, Bool.or_true]

/-- Settles O20: SETUP by its tests and by whether its block lies within the address space, the fetch by its end. -/
theorem setupFetchInstallsOrFails : Obligations.SetupFetchInstallsOrFails := by
  refine ⟨fun s line => ?_, fun s b f current claims fetching => ?_⟩
  · have runs : exec .setup s = .next s.setupCommand := congrArg Host.Outcome.next (command_taken line _)
    rw [runs]
    refine ⟨fun busy => congrArg _ (setupCommand_turnedAway (setupAnswer_busy busy) nofun), fun idle free => ?_⟩
    have answer := setupAnswer_idle idle free
    refine ⟨fun odd => ?_, fun even fits => ?_, fun even past => ?_⟩
    · rw [if_pos odd] at answer
      exact congrArg _ (setupCommand_turnedAway answer nofun)
    · rw [if_neg (by omega)] at answer
      rw [setupCommand_accepted answer, fetchSetup_asks (s := s.answer .accepted) fits]
      rfl
    · rw [if_neg (by omega)] at answer
      rw [setupCommand_accepted answer, fetchSetup_passes (s := s.answer .accepted) past]
      unfold State.endSetup
      rw [Bool.or_true, ← free]
      rfl
  · have failed (p : PortOutcome) (words : List Word16) :=
      congrArg (fun t : State => (.next t.finish : Result3)) (handBurst_setupFailed claims fetching p words)
    refine ⟨fun words cycle last enough => ?_, fun words cycle => ⟨fun o other => ?_, ?_⟩, fun requesting => ?_⟩
    · have judged := handBurst_setupDone claims fetching last enough
      dsimp only
      rw [busAdvance_inCycle current cycle, burstOutcome, judged]
      refine ⟨fun x good => ?_, fun bad => ?_⟩
      · rw [judgeSetup_installs good]
        rfl
      · rw [judgeSetup_fails bad]
        rfl
    · obtain ⟨p, e⟩ := burstOutcome_failed other
      rw [busAdvance_inCycle current cycle, e]
      exact failed p words
    · rw [advanceTimeout_inCycle current cycle]
      exact failed .noResponse []
    · rw [grantTimeout_requesting current requesting]
      exact failed .noResponse []

end Sys2Proof.Machine
end

