-- ==== Sys2Proof/Proofs/WindowReads.lean ====
section
/-! SUPPORT. What the part shows at its pins and in its window (R133, R137, R144, R168): the interrupt lines, ATTN and
the words read. -/

namespace Sys2Proof.Machine

open Sys2Proof.Stated

variable (s : State)

/-! ## Lines -/

/-- An interrupt line is asserted exactly while a pending source is routed to it (R144). -/
theorem intLine_iff (level : Fin 4) : s.intLine level = true ↔
    (∃ u, (s.units.get u).state = .pending ∧ s.port.settings.unitRoute.get u = some level)
      ∨ ((s.port.storeError = true ∨ s.port.setupFailed = true ∨ s.port.stateChange = true)
        ∧ s.port.settings.controllerRoute = some level) := by
  have units : fourNumbers.any (fun u => s.unitSource u && s.port.settings.unitRoute.get u = some level) = true ↔
      ∃ u, (s.units.get u).state = .pending ∧ s.port.settings.unitRoute.get u = some level := by
    rw [List.any_eq_true]
    simp only [mem_fourNumbers, true_and, State.unitSource, Bool.and_eq_true, decide_eq_true_eq]
  unfold State.intLine
  rw [Bool.or_eq_true, units]
  simp only [State.controllerSource, Bool.and_eq_true, Bool.or_eq_true, decide_eq_true_eq, or_assoc]

/-- ATTN is asserted while something is there to be fetched, and LINK_RST is released (R168, R172). -/
theorem attnLine_iff : s.attnLine = true ↔
    s.link.rstLine = false ∧ (s.link.slot ≠ none ∨ s.link.attention ≠ Attention.empty) := by
  simp only [State.attnLine, Bool.and_eq_true, Bool.or_eq_true, Bool.not_eq_true', Option.isSome_iff_ne_none,
    ← Bool.not_eq_true, attention_isEmpty_iff]

/-! ## The status words -/

theorem UnitState.code_lt (x : UnitState) : x.code < 8 := by cases x <;> decide

theorem CtlState.code_lt (x : CtlState) : x.code < 8 := by cases x <;> decide

theorem bitOf_le (b : Bool) : bitOf b ≤ 1 := by cases b <;> decide

theorem bitOf_mul (b : Bool) (n : Nat) : n * bitOf b = if b then n else 0 := by cases b <;> simp [bitOf]

/-- UNIT_SUMMARY holds each unit's STATE in three bits (R137). -/
theorem unitSummary_field (u : Fin 4) : s.unitSummary / 8 ^ u.val % 8 = (s.units.get u).state.code := by
  have h0 := UnitState.code_lt (s.units.get 0).state
  have h1 := UnitState.code_lt (s.units.get 1).state
  have h2 := UnitState.code_lt (s.units.get 2).state
  have h3 := UnitState.code_lt (s.units.get 3).state
  unfold State.unitSummary
  fin_cases u <;> simp <;> omega

theorem unitSummary_lt : s.unitSummary < 4096 := by
  have h0 := UnitState.code_lt (s.units.get 0).state
  have h1 := UnitState.code_lt (s.units.get 1).state
  have h2 := UnitState.code_lt (s.units.get 2).state
  have h3 := UnitState.code_lt (s.units.get 3).state
  unfold State.unitSummary
  omega

/-- UNIT_SUMMARY as it is read, every unit IDLE while the system clear line is asserted (R137, R146). -/
theorem windowRead_summary : (s.windowRead 4).toNat = if s.port.clearLine then 0 else s.unitSummary := by
  have lt := unitSummary_lt s
  show (BitVec.ofNat 16 (if s.port.clearLine then 0 else s.unitSummary)).toNat = _
  rw [BitVec.toNat_ofNat, Nat.mod_eq_of_lt]
  split <;> omega

theorem controllerState_lt : s.controllerState < 256 := by
  have state := CtlState.code_lt s.ctl.state
  have setup := bitOf_le s.port.setupFetch.isSome
  have store := bitOf_le s.port.storeError
  have failed := bitOf_le s.port.setupFailed
  have change := bitOf_le s.port.stateChange
  have lost := bitOf_le s.port.statusLost
  unfold State.controllerState
  omega

/-- CONTROLLER_STATE as it is read, what the clear found while the system clear line is asserted (R137, R146). -/
theorem windowRead_controller :
    (s.windowRead 5).toNat = if s.port.clearLine then s.port.heldCtl.code else s.controllerState := by
  have lt := controllerState_lt s
  have held := CtlState.code_lt s.port.heldCtl
  show (BitVec.ofNat 16 (if s.port.clearLine then s.port.heldCtl.code else s.controllerState)).toNat = _
  rw [BitVec.toNat_ofNat, Nat.mod_eq_of_lt]
  split <;> omega

/-- Settles O27: the lines by their sources, each window word by the state that it shows. -/
theorem linesFollowTheirSources : Obligations.LinesFollowTheirSources := by
  intro s
  have answer : s.windowRead 3 = if s.port.clearLine then 4 else BitVec.ofNat 16 s.port.answer.code := by
    show BitVec.ofNat 16 (if s.port.clearLine then Answer.nothing.code else s.port.answer.code) = _
    split <;> rfl
  refine ⟨intLine_iff s, attnLine_iff s, rfl, ?_, answer, fun u => ?_, ?_, ?_, rfl, rfl, rfl⟩
  · exact BitVec.eq_of_toNat_eq (by simp [State.windowRead])
  · rw [windowRead_summary]
    split
    · simp
    · exact unitSummary_field s u
  · have lt := unitSummary_lt s
    rw [windowRead_summary]
    split <;> omega
  · dsimp only
    rw [windowRead_controller]
    simp only [State.controllerState, bitOf_mul]

end Sys2Proof.Machine
end

