-- ==== Sys2Proof/Proofs/TransferEnds.lean ====
section
/-! SUPPORT. The two ends of a READ's list that the unit meets on its own: the last sector of an unchained order
delivered (R152, R153, R159), and the wait that the patience timer ends (R155, R161). -/

namespace Sys2Proof.Machine

open Sys2Proof.Stated

variable {s t : State} {u : Fin 4}

/-! ## The last sector of an order -/

/-- What the closing of a list leaves: the unit's POSITION and count of orders, and every record of the other blocks. -/
theorem closeList_leaves (base : s.port.settings.statusBase ≤ 0xFFFFC0) (u : Fin 4) (k : Completion)
    (cs : List Condition) : let m := s.closeList u k cs
    (m.units.get u).ordersDone = (s.units.get u).ordersDone ∧ (m.units.get u).position = (s.units.get u).position
      ∧ m.tracks = s.tracks ∧ m.store = s.store ∧ m.drives = s.drives ∧ m.port = s.port := by
  dsimp only
  rw [closeList_units base]
  refine ⟨?_, ?_, rfl, rfl, rfl, rfl⟩ <;> simp only [Four.get_set_self]

/-- A unit's record once a sector has been moved, its POSITION then as given (R152, R153). -/
def UnitRec.sectorMoved (r : UnitRec) (p : Position) : UnitRec :=
  { r with
    state := .run, transfer := none, waitOn := none, patience := none, residual := r.residual - r.share
    dataAt := r.dataAt + r.share, position := p
    guessed := if r.guess then satAdd 65535 r.guessed 1 else r.guessed, guess := false }

/-- The share of the last sector is all that is left of the count (R152). -/
theorem sectorMoved_residual {r : UnitRec} (fits : r.residual ≤ r.buffer.length) (p : Position) :
    (r.sectorMoved p).residual = 0 := by
  show r.residual - min r.residual r.buffer.length = 0
  omega

/-- An order without CONTINUE prefetches nothing (R149). -/
theorem prefetches_unchained {r : UnitRec} {o : Order} (order : r.order = some o) (unchained : o.chained = false) :
    r.prefetches = false := by
  simp [UnitRec.prefetches, order, unchained]

/-- After a sector of a READ that is told no halt and prefetches nothing, the order goes on (R152). -/
theorem sectorDone_goesOn (unwritten : (s.units.get u).writeTrack = none) (told : (s.units.get u).haltTold = false)
    (alone : (s.units.get u).prefetches = false) :
    s.sectorDone u = (s.modUnit u (·.sectorMoved (s.positionAfter u))).goOn u := by
  have stays : (s.modUnit u (·.sectorMoved (s.positionAfter u))).leaveWrittenTrack u
      = s.modUnit u (·.sectorMoved (s.positionAfter u)) :=
    leaveWritten_none (by rw [modUnit_units, Four.get_modify_self]; exact unwritten)
  unfold State.sectorDone
  dsimp only
  rw [if_neg (by simp [told]), if_neg (by simp [alone])]
  exact congrArg (State.goOn · u) ((ite_congr rfl (fun _ => rfl) fun _ => stays).trans (ite_self _))

/-- A READ or WRITE with no byte left completes (R152). -/
theorem goOn_completes (moved : (s.units.get u).residual = 0) : s.goOn u = s.completeTransferOrder u := if_pos moved

/-- An unchained order's completion closes its list NORMAL, with the order counted (R148, R159). -/
theorem completeTransferOrder_closes {o : Order} (unwritten : (s.units.get u).writeTrack = none)
    (told : (s.units.get u).haltTold = false) (order : (s.units.get u).order = some o) (unchained : o.chained = false) :
    s.completeTransferOrder u
      = (s.modUnit u fun r => { r with ordersDone := r.ordersDone + 1 }).closeList u .normal [] := by
  unfold State.completeTransferOrder State.advanceList
  rw [leaveWritten_none unwritten]
  dsimp only
  simp only [modUnit_units, Four.get_modify_self]
  rw [if_neg (by simp [told]), if_pos (by simp [order, unchained])]
  exact congrArg (State.closeList · u .normal [])
    (leaveWritten_none (by rw [modUnit_units, Four.get_modify_self]; exact unwritten))

/-- A unit's record once the last sector of its last order has been moved (R148, R152). -/
def UnitRec.lastMoved (r : UnitRec) (p : Position) : UnitRec :=
  { r.sectorMoved p with ordersDone := r.ordersDone + 1 }

/-- The last sector of an unchained READ closes its list NORMAL (R152, R159). -/
theorem sectorDone_closes {o : Order} (unwritten : (s.units.get u).writeTrack = none)
    (told : (s.units.get u).haltTold = false) (order : (s.units.get u).order = some o) (unchained : o.chained = false)
    (fits : (s.units.get u).residual ≤ (s.units.get u).buffer.length) :
    s.sectorDone u = (s.modUnit u (·.lastMoved (s.positionAfter u))).closeList u .normal [] := by
  obtain ⟨w, hw⟩ : ∃ w, w = s.modUnit u (·.sectorMoved (s.positionAfter u)) := ⟨_, rfl⟩
  have own : w.units.get u = (s.units.get u).sectorMoved (s.positionAfter u) := by
    rw [hw, modUnit_units, Four.get_modify_self]
  rw [sectorDone_goesOn unwritten told (prefetches_unchained order unchained), ← hw,
    goOn_completes (by rw [own]; exact sectorMoved_residual fits _),
    completeTransferOrder_closes (by rw [own]; exact unwritten) (by rw [own]; exact told) (by rw [own]; exact order)
      unchained, hw]
  simp only [State.modUnit, Four.modify, Four.get_set_self, four_set_set]
  rfl

/-- The last burst of a sector's delivery completes the sector (R141, R153). -/
theorem handBurst_delivered {b : Burst} {x : Transfer} (claims : b.claimant = .unit u)
    (transfer : (s.units.get u).transfer = some x) (deliver : x.kind = .deliver) (words : List Word16)
    (last : x.left ≤ 2 * b.count) : s.freeReq.handBurst b .done words = s.freeReq.sectorDone u := by
  rw [handBurst_last claims transfer (by simp [deliver, TransferKind.haltsAtBurst]) words last]
  unfold State.transferDone
  rw [show (x.advance b.count words).kind = .deliver from deliver]

/-- POSITION after a sector of a defined geometry (R152). -/
theorem positionAfter_defined {g : Geometry} (defined : s.geometry.get u = some g) :
    s.positionAfter u = (s.units.get u).position.next g := by
  unfold State.positionAfter
  rw [defined]

/-- Settles O24: the sector completes, its order with it, and an order without CONTINUE closes the list. -/
theorem lastSectorEndsTheList : Obligations.LastSectorEndsTheList := by
  intro u s b x o g words current claims cycle transfer deliver last order unchained told unwritten fits defined base
  obtain ⟨v, hv⟩ : ∃ v, v = s.freeReq.modUnit u (·.lastMoved (s.freeReq.positionAfter u)) := ⟨_, rfl⟩
  have closes : s.freeReq.sectorDone u = v.closeList u .normal [] := by
    rw [hv]
    exact sectorDone_closes (s := s.freeReq) unwritten told order unchained fits
  have own : v.units.get u = (s.units.get u).lastMoved ((s.units.get u).position.next g) := by
    rw [hv, positionAfter_defined (s := s.freeReq) defined, modUnit_units, Four.get_modify_self]
    rfl
  have base_ : v.port.settings.statusBase ≤ 0xFFFFC0 := by rw [hv]; exact base
  obtain ⟨ends, sense, _⟩ := closeList_listEnds (s := v) (u := u) base_ .normal []
  obtain ⟨counted, position, tracks, store, drives, port⟩ := closeList_leaves base_ u .normal []
  rw [own] at sense counted position
  refine ⟨v.closeList u .normal [], ?run, listEnds_around ends ⟨?_, ?_, ?_, ?others⟩ ?residual ?address ?guessed,
    counted, position, sense, tracks.trans ?_, store.trans ?_, drives.trans ?_, port.trans ?_⟩
  case run =>
    rw [busAdvance_inCycle current cycle, burstOutcome, handBurst_delivered claims transfer deliver words last, closes]
  case others =>
    intro i other
    rw [hv]
    exact (Four.get_modify_ne _ _ other).trans (Four.get_set_ne _ _ other).symm
  case residual =>
    rw [own, Four.get_set_self]
    exact sectorMoved_residual fits ((s.units.get u).position.next g)
  case address | guessed =>
    rw [own, Four.get_set_self]
    rfl
  all_goals
    rw [hv]
    rfl

/-! ## The patience timer -/

/-- A sense record shows the unit's POSITION, and its drive's STATE and FAULT_KIND (R161). -/
theorem senseOf_shows (s : State) (u : Fin 4) (x : SenseReason) (p : Option PortOutcome) :
    (s.senseOf u x p none).position = (s.units.get u).position
      ∧ (s.senseOf u x p none).driveStatus = (s.drives.get u).state
      ∧ (s.senseOf u x p none).faultKind = (s.drives.get u).faultKind := by
  unfold State.senseOf
  dsimp only
  split
  · exact ⟨rfl, rfl, rfl⟩
  · split <;> exact ⟨rfl, rfl, rfl⟩

/-- What the CHECK that ends a list shows and leaves: its sense record, the Direct Read Slot, and the Track Table where
no WRITE's track is left behind (R158, R161). -/
theorem endCheck_leaves (clean : s.store.flips = []) (base : s.port.settings.statusBase ≤ 0xFFFFC0) (c : Condition)
    (x : SenseReason) : let m := s.endCheck u c x
    (m.units.get u).sense = s.senseOf u x none none ∧ m.drs = s.drs
      ∧ ((s.units.get u).writeTrack = none → m.tracks = s.tracks) := by
  obtain ⟨w, hw⟩ : ∃ w, w = s.setSense u (s.senseOf u x none none) := ⟨_, rfl⟩
  have own : w.units.get u = { s.units.get u with sense := s.senseOf u x none none } := by
    rw [hw]
    exact Four.get_modify_self _ _ _
  have clean_ : w.store.flips = [] := by rw [hw]; exact clean
  have base_ : w.port.settings.statusBase ≤ 0xFFFFC0 := by rw [hw]; exact base
  obtain ⟨_, sense⟩ := endList_listEnds (u := u) clean_ base_ .check [c]
  obtain ⟨_, drs, tracks⟩ := endList_leaves clean_ base_ u .check [c]
  dsimp only [State.endCheck]
  rw [← hw]
  refine ⟨sense.trans (by rw [own]), drs.trans (by rw [hw]; rfl), fun unwritten => ?_⟩
  exact (tracks (by rw [own]; exact unwritten)).trans (by rw [hw]; rfl)

/-- A unit's wait has been withdrawn as its patience ran out: WAITERS of the track it waited on lowered, and the unit
no longer among WAITING_UNITS (R155, R156). -/
structure WaitExpired (u : Fin 4) (s t : State) : Prop where
  frame : t = { s with
    tracks := t.tracks, units := t.units, store := t.store
    drs := { s.drs with waitingUnits := s.drs.waitingUnits.filter (· ≠ u) } }
  flips : t.store.flips = s.store.flips
  own : ∃ on told, t.units = s.units.set u { s.units.get u with waitOn := on, notified := told }
  track : ∀ n, (s.units.get u).waitSlot = some n → (s.track n).state ≠ .free →
    onlyTrack s t n { s.track n with waiters := (s.track n).waiters - 1 }

/-- The expiry of a unit's patience withdraws its wait, and ends its list with the reason it had (R155). -/
theorem patienceExpires_withdraws (clean : s.store.flips = []) (u : Fin 4) : ∃ t, WaitExpired u s t
    ∧ s.patienceExpires u = t.endCheck u (s.expiryReason u).1 (s.expiryReason u).2 := by
  unfold State.patienceExpires
  dsimp only
  cases slot : (s.units.get u).waitSlot with
  | some n =>
    rw [withdrawingWait_some clean slot]
    refine ⟨_, ?_, rfl⟩
    obtain ⟨ts, shape, _⟩ := withdrawWait_shape (s.askStore (.unit u) 1) u
    have tracks := withdrawWait_track (s := s.askStore (.unit u) 1) slot
    rw [shape] at tracks ⊢
    refine ⟨rfl, rfl, ⟨none, false, rfl⟩, fun j at_ live => ?_⟩
    obtain rfl : n = j := Option.some.inj (slot.symm.trans at_)
    exact tracks live
  | none =>
    rw [withdrawingWait_none slot]
    have unchanged : ∃ on told, s.units = s.units.set u { s.units.get u with waitOn := on, notified := told } :=
      ⟨(s.units.get u).waitOn, (s.units.get u).notified, (four_set_self _ _).symm⟩
    refine ⟨s.leaveWaiting u, ⟨rfl, rfl, unchanged, fun n at_ => ?_⟩, rfl⟩
    rw [slot] at at_
    cases at_

theorem WaitExpired.unit (h : WaitExpired u s t) :
    ∃ on told, t.units.get u = { s.units.get u with waitOn := on, notified := told } := by
  obtain ⟨on, told, units⟩ := h.own
  exact ⟨on, told, by rw [units, Four.get_set_self]⟩

theorem WaitExpired.around (h : WaitExpired u s t) : SameAround u s t := by
  obtain ⟨_, _, units⟩ := h.own
  refine ⟨?_, ?_, ?_, fun v other => by rw [units, Four.get_set_ne _ _ other]⟩
  all_goals rw [h.frame]

/-- A drive that is not READY gives the reason with which an expired wait ends (R155). -/
theorem expiryReason_notReady (other : (s.drives.get u).state ≠ DriveState.ready) :
    s.expiryReason u = (.notReady, .notReady) := if_pos other

/-- With its drive READY an expired wait ends with RECOVERING, and the sense record tells a wait for a lock (R155). -/
theorem expiryReason_ready (ready : (s.drives.get u).state = DriveState.ready) :
    (s.expiryReason u).1 = .recovering
      ∧ (∀ n, (s.units.get u).waitOn = some (.lock n) → (s.expiryReason u).2 = .locked)
      ∧ ((∀ n, (s.units.get u).waitOn ≠ some (.lock n)) → (s.expiryReason u).2 = .recovering) := by
  unfold State.expiryReason
  rw [if_neg (by simp [ready])]
  cases (s.units.get u).waitOn with
  | none => exact ⟨rfl, nofun, fun _ => rfl⟩
  | some on =>
    cases on with
    | lock n => exact ⟨rfl, fun _ _ => rfl, fun other => absurd rfl (other n)⟩
    | sector n j => exact ⟨rfl, nofun, fun _ => rfl⟩
    | drs => exact ⟨rfl, nofun, fun _ => rfl⟩

/-- Settles O25: the wait withdrawn and its list ended by the drive's STATE and what the unit waited for. -/
theorem patienceEndsTheWait : Obligations.PatienceEndsTheWait := by
  intro u s base
  refine ⟨fun waits timed clean => ?_, fun idle => congrArg Host.Outcome.next (if_neg ?_)⟩
  · have runs : exec (.patienceTimerExpiry u) s = .next (s.patienceExpires u).finish :=
      congrArg Host.Outcome.next (if_pos (by simp [waits, Option.isSome_iff_ne_none, timed]))
    obtain ⟨t, expired, ended⟩ := patienceExpires_withdraws clean u
    have clean_ : t.store.flips = [] := expired.flips.trans clean
    have base_ : t.port.settings.statusBase ≤ 0xFFFFC0 := by rw [expired.around.settings]; exact base
    have drives : t.drives = s.drives := by rw [expired.frame]
    obtain ⟨on, told, own⟩ := expired.unit
    obtain ⟨ends, reason⟩ := endCheck_listEnds (u := u) clean_ base_ (s.expiryReason u).1 (s.expiryReason u).2
    obtain ⟨sense, drs, tracks⟩ := endCheck_leaves (u := u) clean_ base_ (s.expiryReason u).1 (s.expiryReason u).2
    obtain ⟨position, status, fault⟩ := senseOf_shows t u (s.expiryReason u).2 none
    have listEnded := listEnds_around ends expired.around (by rw [own]) (by rw [own]) (by rw [own])
    refine ⟨_, by rw [runs, ended], ?_, reason.trans ?_, ?_, ?_, ?_, ?_, fun n at_ unwritten live => ?_⟩
    · by_cases ready : (s.drives.get u).state = DriveState.ready
      · rw [if_pos ready, ← (expiryReason_ready ready).1]
        exact listEnded
      · rw [if_neg ready]
        rw [expiryReason_notReady ready] at listEnded ⊢
        exact listEnded
    · by_cases ready : (s.drives.get u).state = DriveState.ready
      · obtain ⟨_, locked, recovering⟩ := expiryReason_ready ready
        rw [if_neg (not_not_intro ready)]
        split
        · exact locked _ ‹_›
        · exact recovering ‹_›
      · rw [if_pos ready, expiryReason_notReady ready]
    · rw [sense, position, own]
    · rw [sense, status, drives]
    · rw [sense, fault, drives]
    · rw [drs, expired.frame]
    · exact onlyTrack_congr (expired.track n ((waitsOn_iff _ n).1 at_) live) (tracks (by rw [own]; exact unwritten))
  · rcases idle with other | untimed
    · simp [other]
    · simp [untimed]

end Sys2Proof.Machine
end

