-- ==== Sys2Proof/Proofs/RequestFrames.lean ====
section
/-! SUPPORT. Windows of the archive link (R164 to R167, R172): requests that are turned away, a window of bytes judged as
the frame that it spells (log entry 31), and the frame that a read window sends. -/

namespace Sys2Proof.Machine

open Sys2Proof.Stated

variable {s : State} {c : Instr} {kind tag : Byte} {ls : List Nat} {g : RequestGroup} {p w : List Byte} {r : Result}

/-! ## A request turned away -/

/-- Every row of the request table is a request of its KIND, TAG, lengths, group and payload (R166, R167). -/
theorem exec_of_requestRow (row : requestRow c = some (kind, tag, ls, g, p)) :
    ∃ owner rest, ∀ s, exec c s = .next (s.request kind tag ls g p owner rest) := by
  cases c <;> cases row <;> exact ⟨_, _, fun _ => rfl⟩

theorem refusal_eq_notPerformed (g : RequestGroup) (st : CtlState) : g.refusal st = notPerformed g st := by
  cases g <;> cases st <;> rfl

theorem refusal_ne_ok (g : RequestGroup) (st : CtlState) : g.refusal st ≠ some .ok := by
  cases g <;> cases st <;> decide

/-- R166's tests in their order: the payload's length, the lengths of the request table, and the controller state. -/
theorem turnedAway_eq (s : State) (ls : List Nat) (g : RequestGroup) (p : List Byte) : s.turnedAway ls g p =
    if 544 < p.length then some Result.frameCheck
    else if p.length ∉ ls then some .badLength
    else notPerformed g s.ctl.state := by
  simp [State.turnedAway, refusal_eq_notPerformed]

theorem turnedAway_ne_ok (s : State) (ls : List Nat) (g : RequestGroup) (p : List Byte) :
    s.turnedAway ls g p ≠ some .ok := by
  unfold State.turnedAway
  split
  · decide
  · split
    · decide
    · exact refusal_ne_ok g _

theorem request_deaf (line : s.link.rstLine = true) (owner : State → Reply) (rest : State → State) :
    s.request kind tag ls g p owner rest = s := if_pos line

/-- A request turned away is answered, and its owner is not asked (R166). -/
theorem request_turnedAway (line : s.link.rstLine = false) (turned : s.turnedAway ls g p = some r)
    (owner : State → Reply) (rest : State → State) :
    s.request kind tag ls g p owner rest = (s.requestWindow p).place kind tag r [] := by
  unfold State.request
  rw [if_neg (by simp [line])]
  dsimp only
  rw [show (s.requestWindow p).turnedAway ls g p = some r from turned]

/-- An answer other than OK, placed without a payload, changes the response slot and the bytes driven out alone. -/
theorem turnedAwayWith_place (refused : r ≠ .ok) (out : List Byte) (kind tag : Byte) :
    turnedAwayWith s ((s.driveOut out).place kind tag r []) kind tag r := by
  refine ⟨rfl, _, rfl, rfl, rfl, rfl, rfl, rfl, ?_⟩
  simp [State.driveOut, refused, ← attention_isEmpty_iff]

/-! ## The frame that a window spells -/

/-- A frame spelt out: KIND, TAG, LENGTH, the payload and two CHECK bytes (R164). -/
theorem isFrame_bytes (frame : isFrame w kind tag p) : ∃ hi lo, w = kind :: tag :: BitVec.ofNat 8 (p.length / 256)
    :: BitVec.ofNat 8 p.length :: (p ++ [hi, lo]) :=
  ⟨_, _, frame.2⟩

theorem isFrame_kind (frame : isFrame w kind tag p) : w.getD 0 0 = kind := by
  obtain ⟨_, _, rfl⟩ := isFrame_bytes frame
  rfl

theorem isFrame_tag (frame : isFrame w kind tag p) : w.getD 1 0 = tag := by
  obtain ⟨_, _, rfl⟩ := isFrame_bytes frame
  rfl

/-- LENGTH, high byte first, is the number of payload bytes. -/
theorem isFrame_lengthField (frame : isFrame w kind tag p) : at2 w 2 = p.length := by
  have short := frame.1
  obtain ⟨_, _, rfl⟩ := isFrame_bytes frame
  show (BitVec.ofNat 8 (p.length / 256)).toNat * 256 + (BitVec.ofNat 8 p.length).toNat = p.length
  simp only [BitVec.toNat_ofNat]
  omega

theorem isFrame_payload (frame : isFrame w kind tag p) : framePayload w = p := by
  unfold framePayload
  rw [isFrame_lengthField frame]
  obtain ⟨_, _, rfl⟩ := isFrame_bytes frame
  simp

/-- A window as long as its LENGTH says begins with its KIND, TAG and LENGTH and then has its payload, two bytes
before its end. -/
theorem window_header (size : w.length = at2 w 2 + 6) : (framePayload w).length = at2 w 2
    ∧ w.take (w.length - 2) = [w.getD 0 0, w.getD 1 0, BitVec.ofNat 8 (at2 w 2 / 256), BitVec.ofNat 8 (at2 w 2)]
        ++ framePayload w := by
  obtain ⟨k, t, hi, lo, rest, rfl⟩ : ∃ k t hi lo rest, w = k :: t :: hi :: lo :: rest := by
    match w with
    | k :: t :: hi :: lo :: rest => exact ⟨k, t, hi, lo, rest, rfl⟩
    | [] | [_] | [_, _] | [_, _, _] => simp at size
  have field : at2 (k :: t :: hi :: lo :: rest) 2 = hi.toNat * 256 + lo.toNat := rfl
  have high : BitVec.ofNat 8 ((hi.toNat * 256 + lo.toNat) / 256) = hi := by bv_omega
  have low : BitVec.ofNat 8 (hi.toNat * 256 + lo.toNat) = lo := by bv_omega
  unfold framePayload
  rw [field] at size ⊢
  rw [high, low, size]
  simp only [List.length_cons] at size
  exact ⟨by simp; omega, rfl⟩

/-- A window passes the frame check exactly when it is a frame, and then of its own first bytes and payload. -/
theorem frameOk_iff (w : List Byte) :
    frameOk w = true ↔ isFrame w (w.getD 0 0) (w.getD 1 0) (framePayload w) := by
  simp only [frameOk, Bool.and_eq_true, decide_eq_true_eq]
  constructor
  · rintro ⟨⟨⟨six, short⟩, size⟩, check⟩
    obtain ⟨length, header⟩ := window_header size
    refine ⟨length ▸ short, ?_⟩
    rw [length, ← header]
    exact (verifies_iff _ w (by omega)).1 check
  · intro frame
    have length : w.length = (framePayload w).length + 6 := by
      obtain ⟨_, _, spelt⟩ := isFrame_bytes frame
      rw [congrArg List.length spelt]
      simp
    have field := isFrame_lengthField frame
    refine ⟨⟨⟨by omega, field ▸ frame.1⟩, by omega⟩, ?_⟩
    rw [frame.2]
    exact verifies_withCheck _ _

theorem frameOk_of_isFrame (frame : isFrame w kind tag p) : frameOk w = true := by
  rw [frameOk_iff, isFrame_kind frame, isFrame_tag frame, isFrame_payload frame]
  exact frame

/-! ## A window of bytes judged -/

/-- A window that is neither empty nor a read window is judged by the frame check and then by its KIND. -/
theorem exec_unknownRequest (bytes : w ≠ []) (request : w.getD 0 0 ≠ 0) : exec (.unknownRequest w) s =
    if frameOk w then s.byKind w else .next (s.refuseFrame w .frameCheck) := by
  have kind : at1 w 0 ≠ 0 := fun zero => request (BitVec.eq_of_toNat_eq zero)
  show (if w.isEmpty then _ else if at1 w 0 = 0 then _ else _) = _
  rw [if_neg (by simpa using bytes), if_neg kind]

/-- A frame of a KIND in the request table is that request (log entry 31). -/
theorem byKind_of_requestRow (row : requestRow c = some (kind, tag, ls, g, p)) (frame : isFrame w kind tag p) :
    s.byKind w = exec c s := by
  have first : at1 w 0 = kind.toNat := congrArg BitVec.toNat (isFrame_kind frame)
  unfold State.byKind
  rw [first, isFrame_tag frame, isFrame_payload frame]
  cases c <;> cases row <;> rfl

/-- A KIND above the last of the table is no request's (R166 case 2). -/
theorem byKind_unknown (above : 0x19 < at1 w 0) : s.byKind w = .next (s.refuseFrame w .unknownRequest) := by
  obtain ⟨k, first⟩ : ∃ k, at1 w 0 = k + 0x1A := ⟨at1 w 0 - 0x1A, by omega⟩
  unfold State.byKind
  rw [first]
  rfl

theorem refuseFrame_deaf (line : s.link.rstLine = true) (w : List Byte) (r : Result) : s.refuseFrame w r = s :=
  if_pos line

/-- Whatever the KIND, a frame is ignored while LINK_RST is asserted (R172). -/
theorem byKind_deaf (line : s.link.rstLine = true) (w : List Byte) : s.byKind w = .next s := by
  obtain ⟨c, request, judged⟩ | judged := byKind_cases s w
  · obtain ⟨⟨kind, tag, ls, g, p⟩, row⟩ := Option.ne_none_iff_exists'.1 request
    obtain ⟨owner, rest, performed⟩ := exec_of_requestRow row
    rw [judged, performed, request_deaf line]
  · rw [judged, refuseFrame_deaf line]

theorem refuseFrame_turnedAwayWith (line : s.link.rstLine = false) (w : List Byte) (refused : r ≠ .ok) :
    turnedAwayWith s (s.refuseFrame w r) (w.getD 0 0) (w.getD 1 0) r := by
  unfold State.refuseFrame
  rw [if_neg (by simp [line])]
  exact turnedAwayWith_place refused _ _ _

/-- Settles O28: a request by the link and by R166's tests, a window by whether it is a frame and by its KIND. -/
theorem requestFrameJudged : Obligations.RequestFrameJudged := by
  refine ⟨fun c kind tag lengths group payload s row => ?_, fun w s bytes request => ⟨fun line => ?_, fun line =>
    ⟨fun noFrame => ?_, fun kind tag payload frame above => ?_⟩, fun c kind tag lengths group payload frame row => ?_⟩⟩
  · obtain ⟨owner, rest, performed⟩ := exec_of_requestRow row
    refine ⟨fun line => ?_, fun line r turned => ?_⟩
    · rw [performed, request_deaf line]
    · rw [← turnedAway_eq] at turned
      have refused : r ≠ .ok := fun ok => turnedAway_ne_ok s lengths group payload (turned.trans (congrArg some ok))
      exact ⟨_, (performed s).trans (congrArg _ (request_turnedAway line turned owner rest)),
        turnedAwayWith_place refused _ _ _⟩
  · rw [exec_unknownRequest bytes request]
    split
    · exact byKind_deaf line w
    · rw [refuseFrame_deaf line]
  · have fails : ¬ frameOk w = true := fun ok => noFrame ⟨_, _, _, (frameOk_iff w).1 ok⟩
    refine ⟨_, by rw [exec_unknownRequest bytes request, if_neg fails], ?_⟩
    exact refuseFrame_turnedAwayWith line w (by decide)
  · have judged : s.byKind w = .next (s.refuseFrame w .unknownRequest) :=
      byKind_unknown (by rw [at1, isFrame_kind frame]; exact above)
    refine ⟨_, by rw [exec_unknownRequest bytes request, if_pos (frameOk_of_isFrame frame), judged], ?_⟩
    have answer := refuseFrame_turnedAwayWith line w (r := .unknownRequest) (by decide)
    rwa [isFrame_kind frame, isFrame_tag frame] at answer
  · rw [exec_unknownRequest bytes request, if_pos (frameOk_of_isFrame frame), byKind_of_requestRow row frame]

/-! ## Read windows -/

/-- The flag byte of a response: PREVIOUS_LOST and ATTENTION_SET (R165, spec/12). -/
theorem responseFlags_eq (a b : Bool) :
    byteOf (bitOf a + 2 * bitOf b) = BitVec.ofNat 8 ((if a then 1 else 0) + (if b then 2 else 0)) := by
  rw [mul_bitOf]
  rfl

theorem Response.frame_eq (x : Response) : x.frame = withCheck 0xFFFF ([x.kind, x.tag, BitVec.ofNat 8 x.result.code,
    BitVec.ofNat 8 ((if x.previousLost then 1 else 0) + (if x.attentionSet then 2 else 0)),
    BitVec.ofNat 8 (x.payload.length / 256), BitVec.ofNat 8 x.payload.length] ++ x.payload) := by
  unfold Response.frame
  rw [responseFlags_eq]
  rfl

/-- The NO_RESPONSE frame shows ATTENTION_SET and is else all zero (R165). -/
theorem noResponseFrame_eq (a : Attention) : (noResponseFrame (!a.isEmpty)).frame =
    withCheck 0xFFFF [0, 0, 0, if a = Attention.empty then 0 else 2, 0, 0] := by
  by_cases empty : a = Attention.empty
  · rw [if_pos empty, (attention_isEmpty_iff a).2 empty]
    rfl
  · rw [if_neg empty, Bool.eq_false_iff.2 (mt (attention_isEmpty_iff a).1 empty)]
    rfl

/-- A read window drives out its bytes, and the slot empties with the frame's last byte (R164, R165). -/
theorem readWindow_eq (line : s.link.rstLine = false) {n : Nat} (some_ : 1 ≤ n) :
    s.readWindow n = { s with link := { s.link with
      out := ((0xFF#8 :: s.frameToSend) ++ List.replicate n 0xFF#8).take n
      slot := if s.frameToSend.length + 1 ≤ n then none else s.link.slot } } := by
  have listens : ¬ (s.link.rstLine || decide (n = 0)) = true := by simp [line]; omega
  unfold State.readWindow
  rw [if_neg listens]
  dsimp only
  by_cases whole : s.frameToSend.length + 1 ≤ n
  · rw [if_pos whole, if_pos (Nat.lt_of_succ_le whole)]
    rfl
  · rw [if_neg whole, if_neg (by omega)]
    rfl

theorem readWindow_deaf (line : s.link.rstLine = true) (n : Nat) : s.readWindow n = s := if_pos (by simp [line])

/-- Settles O29: the held response's frame or NO_RESPONSE's, and the slot by whether the frame was sent whole. -/
theorem readWindowSendsTheSlot : Obligations.ReadWindowSendsTheSlot := by
  intro n s some_ frame
  have sends : s.frameToSend = frame := by
    cases held : s.link.slot with
    | none => simp only [frame, State.frameToSend, held, noResponseFrame_eq]
    | some x => simp only [frame, State.frameToSend, held, Response.frame_eq]
  refine ⟨fun line => congrArg Host.Outcome.next ?_, fun line => congrArg Host.Outcome.next (readWindow_deaf line n)⟩
  rw [readWindow_eq line some_, sends]

end Sys2Proof.Machine
end

