-- ==== Sys2Proof/Proofs/GeneralRequests.lean ====
section
/-! SUPPORT. ATTENTION and SET_LIMITS (R169, R171): the set reported and emptied, and the seven values installed. -/

namespace Sys2Proof.Machine

open Sys2Proof.Stated

variable {s t : State} {tag : Byte} {p : List Byte} {r : Result}

/-! ## ATTENTION -/

/-- The two member bytes of the ATTENTION payload, bit by bit (R169). -/
theorem attentionBytes_eq (a : Attention) : attentionBytes a =
    [BitVec.ofNat 8 ((if a.driveChange.get 0 then 1 else 0) + (if a.driveChange.get 1 then 2 else 0)
        + (if a.driveChange.get 2 then 4 else 0) + (if a.driveChange.get 3 then 8 else 0)
        + (if a.settled then 16 else 0) + (if a.sweep then 32 else 0) + (if a.store then 64 else 0)
        + (if a.sysclear then 128 else 0)),
      BitVec.ofNat 8 (if a.started then 1 else 0)] := by
  unfold attentionBytes
  simp only [mul_bitOf]
  rfl

/-- The sweep records are read once they are written; nothing else of the part changes. -/
theorem reportAttention_eq (clean : s.store.flips = []) : ∃ x, onlyAsks s.store x ∧
    s.reportAttention = ({ s with link := { s.link with attention := Attention.empty }, store := x }).replyWith .ok
      (attentionBytes s.link.attention ++ s.ctlBytes ++ (s.sweeps.map (fun w => byteOf w.state.code)).toList) := by
  obtain ⟨a, b, c, asked⟩ := asking_store (s := s.modAttention fun _ => Attention.empty)
    (sweepOwners.map fun _ => .link)
  unfold State.reportAttention
  dsimp only
  split
  · rw [touchAll_clean (s := s.modAttention fun _ => Attention.empty) clean, asked]
    exact ⟨_, ⟨a, b, c, rfl⟩, rfl⟩
  · exact ⟨_, onlyAsks_refl _, rfl⟩

/-- ATTENTION's own answer shows the set empty (R169). -/
theorem answered_place_attention (slot : t.link.slot = s.link.slot) (empty : t.link.attention = Attention.empty) :
    answered s (t.place 0x02 tag .ok p) 0x02 tag .ok p := by
  refine ⟨_, rfl, rfl, rfl, rfl, rfl, congrArg Option.isSome slot, ?_⟩
  simp [State.place, attentionKind, empty]

/-- Settles O32: the payload byte by byte, and the set that is empty when the answer is placed. -/
theorem attentionReportsAndEmpties : Obligations.AttentionReportsAndEmpties := by
  intro tag s line works clean a bit
  obtain ⟨x, asks, reply⟩ := reportAttention_eq (s := s.requestWindow []) clean
  have performed := request_performed (c := .attention tag []) (kind := 0x02) (ls := [0]) (rest := State.finish) rfl _
    reply line (by simp) (by simp) (notStoreFailed_performs works)
  rw [attentionBytes_eq] at performed
  exact ⟨_, performed, answered_place_attention rfl rfl, rfl, line, asks, rfl⟩

/-! ## SET_LIMITS -/

/-- The ranges of the seven values (R171). -/
theorem limitsInRange_bytes (v0 v1 v2 v3 v4 v5 v6 : Byte) : limitsInRange [v0, v1, v2, v3, v4, v5, v6] = true ↔
    v0.toNat ≤ 64 ∧ 1 ≤ v1.toNat ∧ v1.toNat ≤ 16 ∧ (∀ v ∈ [v2, v3, v4, v5], 1 ≤ v.toNat ∧ v.toNat ≤ 8)
      ∧ v6.toNat ≤ 60 := by
  rw [limitsInRange_iff]
  simp [at1, and_assoc]

/-- The values in force after an installation are the ones that the payload gave (R171). -/
theorem limitsPayload_installLimits (s : State) (v0 v1 v2 v3 v4 v5 v6 : Byte) :
    (s.installLimits [v0, v1, v2, v3, v4, v5, v6]).limitsPayload = [v0, v1, v2, v3, v4, v5, v6] := by
  have byte : ∀ v : Byte, byteOf v.toNat = v := fun v => by simp [byteOf]
  show [byteOf v0.toNat, byteOf v1.toNat, byteOf v2.toNat, byteOf v3.toNat, byteOf v4.toNat, byteOf v5.toNat,
    byteOf v6.toNat] = _
  simp only [byte]

theorem exec_setLimits (link : linkReady s) (size : p.length = 7) {q : List Byte}
    (reply : (s.requestWindow p).setLimits p = { result := r, payload := q, after := t }) :
    exec (.setLimits tag p) s = .next (t.place 0x03 tag r q).finish :=
  request_performed (rest := State.finish) rfl { result := r, payload := q, after := t } reply link.1 (by simp [size])
    (by omega) (ready_performs _ link.2)

/-- Settles O33: the values refused for their ranges, or installed together once the sweep records are read. -/
theorem limitsInstalledTogether : Obligations.LimitsInstalledTogether := by
  intro tag v0 v1 v2 v3 v4 v5 v6 s link p good
  have range : limitsInRange p = true ↔ good := limitsInRange_bytes v0 v1 v2 v3 v4 v5 v6
  have other : (0x03 : Byte) ≠ attentionKind := by decide
  refine ⟨fun bad => ?_, fun fits clean => ?_⟩
  · have reply : (s.requestWindow p).setLimits p = (s.requestWindow p).reply .range :=
      if_pos (by simp [mt range.1 bad])
    exact ⟨_, exec_setLimits link rfl reply, answered_place rfl _ _ _ _ other, ⟨rfl, rfl, onlyAsks_refl _⟩, rfl⟩
  · obtain ⟨a, b, c, read⟩ := records_clean (s := s.requestWindow p) clean sweepOwners
      fun s => (s.installLimits p).replyWith .ok (s.installLimits p).limitsPayload
    have reply : (s.requestWindow p).setLimits p = _ := (if_neg (by simp [range.2 fits])).trans read
    rw [limitsPayload_installLimits] at reply
    exact ⟨_, exec_setLimits link rfl reply, answered_place rfl _ _ _ _ other, rfl, rfl, ⟨a, b, c, rfl⟩, rfl, rfl, rfl⟩

end Sys2Proof.Machine
end

