-- ==== Sys2Proof/Proofs/StoreCheck.lean ====
section
/-! SUPPORT. STORE_CHECK_END (R173): the outcome by what failed and by the strapped size, and the state that either kind
of outcome leaves. -/

namespace Sys2Proof.Machine

open Sys2Proof.Stated

variable {size : StoreSize} {lower upper : Bool} {check : StoreCheck} {mib : Nat}

/-! ## The outcome -/

/-- A store with no failing word is in use whole (R173). -/
theorem checkOutcome_passed (size : StoreSize) : checkOutcome size false false = (.passed, mibOf size) := by
  rw [← storeSizeMib_eq]
  rfl

/-- A failing upper half leaves the lower half in use, where the store has one below it (R173). -/
theorem checkOutcome_upperFailed (halves : size ≠ .mib8) :
    checkOutcome size false true = (.upperFailed, if size = .mib16 then 8 else 16) := by
  cases size
  case mib8 => exact absurd rfl halves
  case mib16 => rfl
  case mib32 => rfl

/-- A failing word in the lower half, or anywhere in a store of 8 MiB, leaves nothing in use (R173). -/
theorem checkOutcome_lowerFailed (fails : lower = true ∨ upper = true ∧ size = .mib8) :
    checkOutcome size lower upper = (.lowerFailed, 0) := by
  obtain rfl | ⟨rfl, rfl⟩ := fails
  · rfl
  · cases lower
    · rfl
    · rfl

/-! ## The end of the store check -/

/-- FORMAT follows every outcome but LOWER_FAILED (R173). -/
theorem endStoreCheck_formats (s : State) (usable : check ≠ .lowerFailed) : s.endStoreCheck (check, mib) = { s with
    store := { s.store with flips := [] }
    ctl := { s.ctl with
      state := .starting, phase := some .format, storeCheck := check, sizeInUse := mib } } := by
  simp [State.endStoreCheck, usable]

/-- LOWER_FAILED ends the start-up in STORE_FAILED, and the host is told by STATE_CHANGE (R173). -/
theorem endStoreCheck_fails (s : State) : s.endStoreCheck (.lowerFailed, 0) = { s with
    store := { s.store with flips := [] }
    port := { s.port with stateChange := true }
    ctl := { s.ctl with state := .storeFailed, phase := none, storeCheck := .lowerFailed, sizeInUse := 0 } } := rfl

/-- STORE_CHECK_END acts in the STORE_CHECK phase of a start-up only (log entries 1 and 10). -/
theorem exec_storeCheckEnd (lower upper : Bool) (s : State) : exec (.storeCheckEnd lower upper) s = .next
    (if s.ctl.state = .starting ∧ s.ctl.phase = some .storeCheck then
      (s.endStoreCheck (checkOutcome s.ctl.straps.storeSize lower upper)).finish else s) :=
  congrArg Host.Outcome.next (if_congr (inPhase_iff s .storeCheck) rfl rfl)

/-- Settles O7: the outcome by what failed, and the state that the outcome leaves. -/
theorem storeCheckOutcome : Obligations.StoreCheckOutcome := by
  intro lower upper s
  rw [exec_storeCheckEnd]
  refine ⟨fun starting phase => ?_, fun otherwise => by rw [if_neg otherwise]⟩
  rw [if_pos ⟨starting, phase⟩]
  refine ⟨?passed, ?upperFailed, fun fails => ?lowerFailed⟩
  case passed =>
    rintro rfl rfl
    rw [checkOutcome_passed, endStoreCheck_formats (check := .passed) s nofun]
    rfl
  case upperFailed =>
    rintro rfl rfl halves
    rw [checkOutcome_upperFailed halves, endStoreCheck_formats (check := .upperFailed) s nofun]
  case lowerFailed => rw [checkOutcome_lowerFailed fails, endStoreCheck_fails]

end Sys2Proof.Machine
end

