-- ==== Sys2Proof/Proofs/StepCases.lean ====
section
/-! SUPPORT. What one step does, by the queue of waiting commands (log entry 2): its two cases, and no third. -/

namespace Sys2Proof.Machine

variable {s : State}

/-- The front command is taken off the queue before it runs, so it sees the commands behind it alone. -/
theorem step_of_pending_cons {c : Instr} {rest : List Instr} (waiting : s.pending = c :: rest) :
    step s = exec c { s with pending := rest } := by
  simp only [step, waiting]

/-- A block with no command waiting stays as it is: there is no clock whose passing would change it. -/
theorem step_of_pending_nil (idle : s.pending = []) : step s = .next s := by
  simp only [step, idle]

/-- Settles O1: by the two forms of the queue; a command put at the front is the one that the step takes. -/
theorem stepRunsFrontCommand : Obligations.StepRunsFrontCommand := by
  refine ⟨fun c rest s => ?front, fun s idle => ?empty⟩
  case front => exact step_of_pending_cons (s := { s with pending := c :: rest }) rfl
  case empty => exact step_of_pending_nil idle

end Sys2Proof.Machine
end
